-- ==== Sys2Proof/Word.lean ====
section
/-! DEFINITION. The word types of the engine and their plainest arithmetic (spec/00_scope.md R8, R9). -/

namespace Sys2Proof

/-- A register, CSR or command word: an unsigned 32-bit value (R8). -/
abbrev Word := BitVec 32

/-- One byte of MEM (R100). -/
abbrev Byte := BitVec 8

/-- A register index, 0 to 15 (R131, R134). -/
abbrev Reg := BitVec 4

/-- An IEEE 754 binary64 value, held as its 64 bits (R51). -/
abbrev Binary64 := BitVec 64

/-- `u32(i)` of R8 for a natural number. -/
abbrev u32 (n : Nat) : Word := BitVec.ofNat 32 n

/-- `u32(i)` of R8 for an integer. -/
abbrev u32i (i : Int) : Word := BitVec.ofInt 32 i

/-- `s32(w)` of R8: a word read as two's complement. -/
abbrev s32 (w : Word) : Int := w.toInt

end Sys2Proof
end

