-- ==== Sys2Proof/Syntax.lean ====
section
/-! DEFINITION. The commands of the engine (spec/30_encoding.md R140), one constructor for each row of the opcode table. -/

namespace Sys2Proof

/-- The bit order of the reader or writer (R42, R43): MSB-first (0) or LSB-first (1). -/
inductive BitOrder where
  | msb
  | lsb
  deriving DecidableEq, Repr

/-- The file a zigzag command works on (R349, R350): K (0) or S (1). -/
inductive BlockFile where
  | k
  | s
  deriving DecidableEq, Repr

/-- The order of a block or of a stored table (R334, R340, R347): scan (0) or natural (1). -/
inductive TableOrder where
  | scan
  | natural
  deriving DecidableEq, Repr

/-- The commands, in the order of R140. -/
inductive Instr where
  | nop
  | halt
  | lui (ra : Reg) (imm20 : BitVec 20)
  | ori (ra rb : Reg) (imm12 : BitVec 12)
  | addi (ra rb : Reg) (imm12 : BitVec 12)
  | add (ra rb rc : Reg)
  | sub (ra rb rc : Reg)
  | beq (rb rc : Reg) (imm12 : BitVec 12)
  | bne (rb rc : Reg) (imm12 : BitVec 12)
  | csrr (ra : Reg) (csr : BitVec 12)
  | csrw (rb : Reg) (csr : BitVec 12)
  | lbu (ra rb : Reg) (imm12 : BitVec 12)
  | sb (rb rc : Reg) (imm12 : BitVec 12)
  | bltu (rb rc : Reg) (imm12 : BitVec 12)
  | brinit (rb rc : Reg) (order : BitOrder)
  | rdbits (ra : Reg) (n : BitVec 5)
  | align
  | unstuff (ra rb rc : Reg)
  | bwinit (rb rc : Reg) (order : BitOrder) (stuff : Bool)
  | wrbits (rb : Reg) (n : BitVec 5)
  | bwflush (ra : Reg) (pad : Bool)
  | sbgather (ra rb rc : Reg)
  | sbsplit (ra rb rc : Reg)
  | hbuild (ra rb : Reg) (slot : BitVec 5) (pfx : Bool)
  | hdec (ra : Reg) (slot : BitVec 5)
  | hctab (rb : Reg) (slot : BitVec 5)
  | henc (rb : Reg) (slot : BitVec 5)
  | hfroment (ra rb rc : Reg)
  | lzwdec (ra rc : Reg) (m : BitVec 4)
  | lzwenc (rb rc : Reg) (m : BitVec 4)
  | qload (ra rb : Reg) (q : BitVec 4) (pfx : Bool) (tord : TableOrder)
  | sldb (rb rc : Reg) (shift : Bool)
  | sstb (rb rc : Reg) (shift : Bool)
  | kld (rb : Reg)
  | kst (rb : Reg)
  | fdct
  | idct
  | quant (q : BitVec 4) (order : TableOrder)
  | dequant (q : BitVec 4) (order : TableOrder)
  | zzfwd (file : BlockFile)
  | zzinv (file : BlockFile)
  | cvtks
  | cvtsk
  | decblk (dc ac : BitVec 4) (p : BitVec 2)
  | encblk (dc ac : BitVec 4) (p : BitVec 2)
  | prst
  | gifopen (rb rc : Reg)
  | gifnext (ra : Reg)
  | gifrewind
  | gifwopen (ra rb rc : Reg)
  | gifwframe (rb rc : Reg)
  | gifwend
  deriving DecidableEq, Repr

end Sys2Proof
end

