-- ==== Sys2Proof/WellFormed.lean ====
section
/-! DEFINITION. The value-restricted fields of spec/30_encoding.md R141: what a command must meet, beside its fixed bits,
for its word to be legal. -/

namespace Sys2Proof

/-- RDBITS reads n in 1..24 bits (R140, R213). -/
def wellFormedReadCount (n : BitVec 5) : Bool := decide (1 ≤ n.toNat ∧ n.toNat ≤ 24)

/-- WRBITS writes n in 1..16 bits (R140, R222). -/
def wellFormedWriteCount (n : BitVec 5) : Bool := decide (1 ≤ n.toNat ∧ n.toNat ≤ 16)

/-- LZWDEC and LZWENC take a minimum code size m in 2..8 (R140, R306, R310). -/
def wellFormedCodeSize (m : BitVec 4) : Bool := decide (2 ≤ m.toNat ∧ m.toNat ≤ 8)

/-- HBUILD with the table's own prefix byte names slot 0 (R140, R265). -/
def wellFormedSlot (slot : BitVec 5) (pfx : Bool) : Bool := !pfx || decide (slot = 0)

/-- QLOAD with the table's own prefix byte names table 0 (R140, R340). -/
def wellFormedTable (q : BitVec 4) (pfx : Bool) : Bool := !pfx || decide (q = 0)

/-- The checks of R141 on the operands of a command; every other operand is legal at every value of its field. -/
def Instr.wellFormed : Instr → Bool
  | .rdbits _ n => wellFormedReadCount n
  | .wrbits _ n => wellFormedWriteCount n
  | .hbuild _ _ slot pfx => wellFormedSlot slot pfx
  | .lzwdec _ _ m => wellFormedCodeSize m
  | .lzwenc _ _ m => wellFormedCodeSize m
  | .qload _ _ q pfx _ => wellFormedTable q pfx
  | .nop | .halt | .lui .. | .ori .. | .addi .. | .add .. | .sub .. | .beq .. | .bne .. | .csrr .. | .csrw ..
  | .lbu .. | .sb .. | .bltu .. | .brinit .. | .align | .unstuff .. | .bwinit .. | .bwflush .. | .sbgather ..
  | .sbsplit .. | .hdec .. | .hctab .. | .henc .. | .hfroment .. | .sldb .. | .sstb .. | .kld .. | .kst ..
  | .fdct | .idct | .quant .. | .dequant .. | .zzfwd .. | .zzinv .. | .cvtks | .cvtsk | .decblk .. | .encblk ..
  | .prst | .gifopen .. | .gifnext .. | .gifrewind | .gifwopen .. | .gifwframe .. | .gifwend => true

end Sys2Proof
end

