-- ==== Sys2Proof/Decode.lean ====
section
/-! DEFINITION. The command decoder, total on every word (spec/30_encoding.md R142), and after it the encoder written from the
same tables R131, R132 and R140. -/

namespace Sys2Proof

/-- `bitlen(n)` of R9: the number of bits of n. -/
def bitlen (n : Nat) : Nat := if n = 0 then 0 else n.log2 + 1

/-- The little-endian bytes of an n-byte value (R102): the lowest address holds bits 7..0. -/
def leBytes : Nat → Nat → List Byte
  | 0, _ => []
  | n + 1, v => BitVec.ofNat 8 v :: leBytes n (v / 256)

/-- The value of little-endian bytes (R102, R104). -/
def leValue : List Byte → Nat
  | [] => 0
  | b :: bs => b.toNat + 256 * leValue bs

/-- Why a word is illegal (R141). Executing any of them faults with `IllegalCommand`. -/
inductive Reject where
  /-- Fewer than the four bytes of R130 were given. -/
  | tooShort
  /-- The op byte is not in the table of R140. -/
  | unassignedOpcode (op : BitVec 8)
  /-- A field the row marks 0, or a reserved bit of imm12, is not zero. -/
  | reservedField
  /-- A value-restricted subfield is out of range. -/
  | operandRange
  deriving DecidableEq, Repr

/-- The fields of a format R word (R131). Format U (R132) reads rb, rc and imm together as imm20. -/
structure Fields where
  op : BitVec 8
  ra : Reg
  rb : Reg
  rc : Reg
  imm : BitVec 12
  deriving DecidableEq, Repr

/-- The fields of a word (R131). -/
def Fields.ofWord (w : Word) : Fields where
  op := w.extractLsb' 0 8
  ra := w.extractLsb' 8 4
  rb := w.extractLsb' 12 4
  rc := w.extractLsb' 16 4
  imm := w.extractLsb' 20 12

/-- The word of the fields (R131). -/
def Fields.toWord (f : Fields) : Word := f.imm ++ f.rc ++ f.rb ++ f.ra ++ f.op

/-- Bit 0 or 1 of an order field (R140, R150): msb is 0, lsb is 1. -/
def bitOrderOf (b : BitVec 1) : BitOrder := if b = 0 then .msb else .lsb

/-- The bit of a bit order (R140). -/
def BitOrder.bit : BitOrder → BitVec 1
  | .msb => 0
  | .lsb => 1

/-- The file field of ZZFWD and ZZINV (R140): K is 0, S is 1. -/
def blockFileOf (b : BitVec 1) : BlockFile := if b = 0 then .k else .s

/-- The bit of a block file (R140). -/
def BlockFile.bit : BlockFile → BitVec 1
  | .k => 0
  | .s => 1

/-- The table order field (R140, R150): scan is 0, natural is 1. -/
def tableOrderOf (b : BitVec 1) : TableOrder := if b = 0 then .scan else .natural

/-- The bit of a table order (R140). -/
def TableOrder.bit : TableOrder → BitVec 1
  | .scan => 0
  | .natural => 1

/-- A one-bit flag of imm12. -/
def flagOf (b : BitVec 1) : Bool := decide (b = 1)

/-- Bit i of imm12, as a field of one bit. -/
def immBit (imm : BitVec 12) (i : Nat) : BitVec 1 := imm.extractLsb' i 1

/-- A row's word is legal when its zero fields are zero (R141) and its restricted subfields in range (R142). -/
def legalRow (zeroFields : Bool) (i : Instr) : Except Reject Instr :=
  if zeroFields then (if i.wellFormed then .ok i else .error .operandRange) else .error .reservedField

/-- Decoding on the fields, one arm for each row of R140. -/
def decodeFields (f : Fields) : Except Reject Instr :=
  match f.op with
  | 0x01#8 => legalRow (f.ra == 0 && f.rb == 0 && f.rc == 0 && f.imm == 0) .nop
  | 0x02#8 => legalRow (f.ra == 0 && f.rb == 0 && f.rc == 0 && f.imm == 0) .halt
  | 0x03#8 => legalRow true (.lui f.ra (f.imm ++ f.rc ++ f.rb))
  | 0x04#8 => legalRow (f.rc == 0) (.ori f.ra f.rb f.imm)
  | 0x05#8 => legalRow (f.rc == 0) (.addi f.ra f.rb f.imm)
  | 0x06#8 => legalRow (f.imm == 0) (.add f.ra f.rb f.rc)
  | 0x07#8 => legalRow (f.imm == 0) (.sub f.ra f.rb f.rc)
  | 0x08#8 => legalRow (f.ra == 0) (.beq f.rb f.rc f.imm)
  | 0x09#8 => legalRow (f.ra == 0) (.bne f.rb f.rc f.imm)
  | 0x0A#8 => legalRow (f.rb == 0 && f.rc == 0) (.csrr f.ra f.imm)
  | 0x0B#8 => legalRow (f.ra == 0 && f.rc == 0) (.csrw f.rb f.imm)
  | 0x0C#8 => legalRow (f.rc == 0) (.lbu f.ra f.rb f.imm)
  | 0x0D#8 => legalRow (f.ra == 0) (.sb f.rb f.rc f.imm)
  | 0x0E#8 => legalRow (f.ra == 0) (.bltu f.rb f.rc f.imm)
  | 0x10#8 => legalRow (f.ra == 0 && f.imm.extractLsb' 1 11 == 0) (.brinit f.rb f.rc (bitOrderOf (immBit f.imm 0)))
  | 0x11#8 => legalRow (f.rb == 0 && f.rc == 0 && f.imm.extractLsb' 5 7 == 0) (.rdbits f.ra (f.imm.extractLsb' 0 5))
  | 0x12#8 => legalRow (f.ra == 0 && f.rb == 0 && f.rc == 0 && f.imm == 0) .align
  | 0x13#8 => legalRow (f.imm == 0) (.unstuff f.ra f.rb f.rc)
  | 0x14#8 => legalRow (f.ra == 0 && f.imm.extractLsb' 2 10 == 0) (.bwinit f.rb f.rc (bitOrderOf (immBit f.imm 0)) (flagOf (immBit f.imm 1)))
  | 0x15#8 => legalRow (f.ra == 0 && f.rc == 0 && f.imm.extractLsb' 5 7 == 0) (.wrbits f.rb (f.imm.extractLsb' 0 5))
  | 0x16#8 => legalRow (f.rb == 0 && f.rc == 0 && f.imm.extractLsb' 1 11 == 0) (.bwflush f.ra (flagOf (immBit f.imm 0)))
  | 0x17#8 => legalRow (f.imm == 0) (.sbgather f.ra f.rb f.rc)
  | 0x18#8 => legalRow (f.imm == 0) (.sbsplit f.ra f.rb f.rc)
  | 0x20#8 => legalRow (f.rc == 0 && f.imm.extractLsb' 6 6 == 0) (.hbuild f.ra f.rb (f.imm.extractLsb' 0 5) (flagOf (immBit f.imm 5)))
  | 0x21#8 => legalRow (f.rb == 0 && f.rc == 0 && f.imm.extractLsb' 5 7 == 0) (.hdec f.ra (f.imm.extractLsb' 0 5))
  | 0x22#8 => legalRow (f.ra == 0 && f.rc == 0 && f.imm.extractLsb' 5 7 == 0) (.hctab f.rb (f.imm.extractLsb' 0 5))
  | 0x23#8 => legalRow (f.ra == 0 && f.rc == 0 && f.imm.extractLsb' 5 7 == 0) (.henc f.rb (f.imm.extractLsb' 0 5))
  | 0x24#8 => legalRow (f.imm == 0) (.hfroment f.ra f.rb f.rc)
  | 0x30#8 => legalRow (f.rb == 0 && f.imm.extractLsb' 4 8 == 0) (.lzwdec f.ra f.rc (f.imm.extractLsb' 0 4))
  | 0x31#8 => legalRow (f.ra == 0 && f.imm.extractLsb' 4 8 == 0) (.lzwenc f.rb f.rc (f.imm.extractLsb' 0 4))
  | 0x40#8 => legalRow (f.rc == 0 && f.imm.extractLsb' 6 6 == 0)
      (.qload f.ra f.rb (f.imm.extractLsb' 0 4) (flagOf (immBit f.imm 4)) (tableOrderOf (immBit f.imm 5)))
  | 0x41#8 => legalRow (f.ra == 0 && f.imm.extractLsb' 1 11 == 0) (.sldb f.rb f.rc (flagOf (immBit f.imm 0)))
  | 0x42#8 => legalRow (f.ra == 0 && f.imm.extractLsb' 1 11 == 0) (.sstb f.rb f.rc (flagOf (immBit f.imm 0)))
  | 0x43#8 => legalRow (f.ra == 0 && f.rc == 0 && f.imm == 0) (.kld f.rb)
  | 0x44#8 => legalRow (f.ra == 0 && f.rc == 0 && f.imm == 0) (.kst f.rb)
  | 0x45#8 => legalRow (f.ra == 0 && f.rb == 0 && f.rc == 0 && f.imm == 0) .fdct
  | 0x46#8 => legalRow (f.ra == 0 && f.rb == 0 && f.rc == 0 && f.imm == 0) .idct
  | 0x47#8 => legalRow (f.ra == 0 && f.rb == 0 && f.rc == 0 && f.imm.extractLsb' 5 7 == 0)
      (.quant (f.imm.extractLsb' 0 4) (tableOrderOf (immBit f.imm 4)))
  | 0x48#8 => legalRow (f.ra == 0 && f.rb == 0 && f.rc == 0 && f.imm.extractLsb' 5 7 == 0)
      (.dequant (f.imm.extractLsb' 0 4) (tableOrderOf (immBit f.imm 4)))
  | 0x49#8 => legalRow (f.ra == 0 && f.rb == 0 && f.rc == 0 && f.imm.extractLsb' 1 11 == 0) (.zzfwd (blockFileOf (immBit f.imm 0)))
  | 0x4A#8 => legalRow (f.ra == 0 && f.rb == 0 && f.rc == 0 && f.imm.extractLsb' 1 11 == 0) (.zzinv (blockFileOf (immBit f.imm 0)))
  | 0x4B#8 => legalRow (f.ra == 0 && f.rb == 0 && f.rc == 0 && f.imm == 0) .cvtks
  | 0x4C#8 => legalRow (f.ra == 0 && f.rb == 0 && f.rc == 0 && f.imm == 0) .cvtsk
  | 0x50#8 => legalRow (f.ra == 0 && f.rb == 0 && f.rc == 0 && f.imm.extractLsb' 10 2 == 0)
      (.decblk (f.imm.extractLsb' 0 4) (f.imm.extractLsb' 4 4) (f.imm.extractLsb' 8 2))
  | 0x51#8 => legalRow (f.ra == 0 && f.rb == 0 && f.rc == 0 && f.imm.extractLsb' 10 2 == 0)
      (.encblk (f.imm.extractLsb' 0 4) (f.imm.extractLsb' 4 4) (f.imm.extractLsb' 8 2))
  | 0x52#8 => legalRow (f.ra == 0 && f.rb == 0 && f.rc == 0 && f.imm == 0) .prst
  | 0x60#8 => legalRow (f.ra == 0 && f.imm == 0) (.gifopen f.rb f.rc)
  | 0x61#8 => legalRow (f.rb == 0 && f.rc == 0 && f.imm == 0) (.gifnext f.ra)
  | 0x62#8 => legalRow (f.ra == 0 && f.rb == 0 && f.rc == 0 && f.imm == 0) .gifrewind
  | 0x63#8 => legalRow (f.imm == 0) (.gifwopen f.ra f.rb f.rc)
  | 0x64#8 => legalRow (f.ra == 0 && f.imm == 0) (.gifwframe f.rb f.rc)
  | 0x65#8 => legalRow (f.ra == 0 && f.rb == 0 && f.rc == 0 && f.imm == 0) .gifwend
  | op => .error (.unassignedOpcode op)

/-- Decoding of one word (R142). -/
def decodeWord (w : Word) : Except Reject Instr := decodeFields (Fields.ofWord w)

/-- Decoding of the bytes of MEM from a command's address on: four bytes, little-endian (R102, R130), and the rest. -/
def decodeBytes : List Byte → Except Reject (Instr × List Byte)
  | b0 :: b1 :: b2 :: b3 :: rest =>
    match decodeWord (b3 ++ b2 ++ b1 ++ b0) with
    | .ok i => .ok (i, rest)
    | .error r => .error r
  | _ => .error .tooShort

/-- The fields of a command, one arm for each row of R140: the op byte, the named fields, 0 elsewhere. -/
def Instr.fields : Instr → Fields
  | .nop => ⟨0x01, 0, 0, 0, 0⟩
  | .halt => ⟨0x02, 0, 0, 0, 0⟩
  | .lui ra imm20 => ⟨0x03, ra, imm20.extractLsb' 0 4, imm20.extractLsb' 4 4, imm20.extractLsb' 8 12⟩
  | .ori ra rb imm12 => ⟨0x04, ra, rb, 0, imm12⟩
  | .addi ra rb imm12 => ⟨0x05, ra, rb, 0, imm12⟩
  | .add ra rb rc => ⟨0x06, ra, rb, rc, 0⟩
  | .sub ra rb rc => ⟨0x07, ra, rb, rc, 0⟩
  | .beq rb rc imm12 => ⟨0x08, 0, rb, rc, imm12⟩
  | .bne rb rc imm12 => ⟨0x09, 0, rb, rc, imm12⟩
  | .csrr ra csr => ⟨0x0A, ra, 0, 0, csr⟩
  | .csrw rb csr => ⟨0x0B, 0, rb, 0, csr⟩
  | .lbu ra rb imm12 => ⟨0x0C, ra, rb, 0, imm12⟩
  | .sb rb rc imm12 => ⟨0x0D, 0, rb, rc, imm12⟩
  | .bltu rb rc imm12 => ⟨0x0E, 0, rb, rc, imm12⟩
  | .brinit rb rc order => ⟨0x10, 0, rb, rc, 0#11 ++ order.bit⟩
  | .rdbits ra n => ⟨0x11, ra, 0, 0, 0#7 ++ n⟩
  | .align => ⟨0x12, 0, 0, 0, 0⟩
  | .unstuff ra rb rc => ⟨0x13, ra, rb, rc, 0⟩
  | .bwinit rb rc order stuff => ⟨0x14, 0, rb, rc, 0#10 ++ BitVec.ofBool stuff ++ order.bit⟩
  | .wrbits rb n => ⟨0x15, 0, rb, 0, 0#7 ++ n⟩
  | .bwflush ra pad => ⟨0x16, ra, 0, 0, 0#11 ++ BitVec.ofBool pad⟩
  | .sbgather ra rb rc => ⟨0x17, ra, rb, rc, 0⟩
  | .sbsplit ra rb rc => ⟨0x18, ra, rb, rc, 0⟩
  | .hbuild ra rb slot pfx => ⟨0x20, ra, rb, 0, 0#6 ++ BitVec.ofBool pfx ++ slot⟩
  | .hdec ra slot => ⟨0x21, ra, 0, 0, 0#7 ++ slot⟩
  | .hctab rb slot => ⟨0x22, 0, rb, 0, 0#7 ++ slot⟩
  | .henc rb slot => ⟨0x23, 0, rb, 0, 0#7 ++ slot⟩
  | .hfroment ra rb rc => ⟨0x24, ra, rb, rc, 0⟩
  | .lzwdec ra rc m => ⟨0x30, ra, 0, rc, 0#8 ++ m⟩
  | .lzwenc rb rc m => ⟨0x31, 0, rb, rc, 0#8 ++ m⟩
  | .qload ra rb q pfx tord => ⟨0x40, ra, rb, 0, 0#6 ++ tord.bit ++ BitVec.ofBool pfx ++ q⟩
  | .sldb rb rc shift => ⟨0x41, 0, rb, rc, 0#11 ++ BitVec.ofBool shift⟩
  | .sstb rb rc shift => ⟨0x42, 0, rb, rc, 0#11 ++ BitVec.ofBool shift⟩
  | .kld rb => ⟨0x43, 0, rb, 0, 0⟩
  | .kst rb => ⟨0x44, 0, rb, 0, 0⟩
  | .fdct => ⟨0x45, 0, 0, 0, 0⟩
  | .idct => ⟨0x46, 0, 0, 0, 0⟩
  | .quant q order => ⟨0x47, 0, 0, 0, 0#7 ++ order.bit ++ q⟩
  | .dequant q order => ⟨0x48, 0, 0, 0, 0#7 ++ order.bit ++ q⟩
  | .zzfwd file => ⟨0x49, 0, 0, 0, 0#11 ++ file.bit⟩
  | .zzinv file => ⟨0x4A, 0, 0, 0, 0#11 ++ file.bit⟩
  | .cvtks => ⟨0x4B, 0, 0, 0, 0⟩
  | .cvtsk => ⟨0x4C, 0, 0, 0, 0⟩
  | .decblk dc ac p => ⟨0x50, 0, 0, 0, 0#2 ++ p ++ ac ++ dc⟩
  | .encblk dc ac p => ⟨0x51, 0, 0, 0, 0#2 ++ p ++ ac ++ dc⟩
  | .prst => ⟨0x52, 0, 0, 0, 0⟩
  | .gifopen rb rc => ⟨0x60, 0, rb, rc, 0⟩
  | .gifnext ra => ⟨0x61, ra, 0, 0, 0⟩
  | .gifrewind => ⟨0x62, 0, 0, 0, 0⟩
  | .gifwopen ra rb rc => ⟨0x63, ra, rb, rc, 0⟩
  | .gifwframe rb rc => ⟨0x64, 0, rb, rc, 0⟩
  | .gifwend => ⟨0x65, 0, 0, 0, 0⟩

/-- The word of a command (R140). -/
def encode (i : Instr) : Word := i.fields.toWord

/-- The instruction the decoder reads from an instruction whose bits are w, numbered as spec/opcode_table.json numbers
them; bits above nbits are 0. The word is laid out as MEM stores it and given to `decodeBytes`. -/
def decodeTableWord (nbits w : Nat) : Option Instr :=
  match decodeBytes (leBytes 4 (w % 2 ^ nbits)) with
  | .ok (i, _) => some i
  | .error _ => none

end Sys2Proof
end

