-- ==== Sys2Proof/Config.lean ====
section
/-! DEFINITION. What the spec fixes for every engine, the parameters it leaves open or gives an alternative for
(spec/00_scope.md R6, R7), and the free values (spec/93_implementation_defined.md sections 1 and 2). -/

namespace Sys2Proof

/-- `LZW_MAX_ENTRIES` (R6): the LZW table holds at most 4096 entries. -/
def Config.lzwMaxEntries : Nat := 4096

/-- `LZW_MAX_WIDTH` (R6): an LZW code has at most 12 bits. -/
def Config.lzwMaxWidth : Nat := 12

/-- `HSYM_MAX` (R7): at most 256 symbols in one Huffman slot. -/
def Config.hsymMax : Nat := 256

/-- `PAL_LEVELS` (R7): the levels of red, green and blue of the fixed palette. -/
def Config.palLevels : Nat × Nat × Nat := (6, 6, 7)

/-- A byte the spec leaves unspecified: the n-th byte drawn (R494, R58). No body: nothing is known of it. Log entry 8. -/
opaque Config.freeByte : Nat → Byte

/-- A 32-bit value the spec leaves unspecified: the n-th one drawn (R494). No body. Log entry 8. -/
opaque Config.freeWord : Nat → Word

/-- The bits of a sample the spec leaves unspecified: the n-th one drawn (R331, R494). No body. Log entry 8. -/
opaque Config.freeSample : Nat → Binary64

/-- `DISPOSE_FILL` (R7, R395): which colour a disposal of 2 fills the framebuffer with. -/
inductive DisposeFill where
  | white
  | background
  deriving DecidableEq, Repr

/-- The two numerics R331 offers for FDCT and IDCT: the reference evaluation, or an element drawn within DCT_EPS of
the exact value. `drawn eps` has DCT_EPS = eps * 2^-64. Log entry 5. -/
inductive DctNumerics where
  | reference
  | drawn (eps : Nat)
  deriving DecidableEq, Repr

/-- The parameters that a model takes as an argument or for which the spec names an alternative (R7). They are fixed for
one engine: no step changes them. Log entries 3, 4 and 5. -/
structure Params where
  /-- `MEM_SIZE`, OPEN: a positive number of bytes not above 2^32. -/
  memSize : Nat
  /-- `LZW_REQUIRE_INITIAL_CLEAR`. -/
  lzwRequireInitialClear : Bool
  /-- `ACCEPT_GIF87A`. -/
  acceptGif87a : Bool
  /-- `DISPOSE_FILL`. -/
  disposeFill : DisposeFill
  /-- The numerics of FDCT and IDCT, with `DCT_EPS`. -/
  dct : DctNumerics
  deriving DecidableEq, Repr

/-- What R7 asks of MEM_SIZE: positive and not above 2^32. -/
abbrev Params.legal (p : Params) : Prop := 0 < p.memSize ∧ p.memSize ≤ 2 ^ 32

/-- The parameters at the values R7 takes, MEM_SIZE at the size it suggests. -/
def Params.taken : Params where
  memSize := 2 ^ 24
  lzwRequireInitialClear := true
  acceptGif87a := false
  disposeFill := .white
  dct := .reference

end Sys2Proof
end

