-- ==== Sys2Proof/Machine/Csr.lean ====
section
/-! DEFINITION. The control and status registers: names, numbers,
 access classes and named bits (spec/10_state.md R35 to R48). -/

namespace Sys2Proof.Machine

/-- The control and status registers of R36, in the order of their numbers; the name is the spec's, in camel case. -/
inductive Csr where
  /-- CSR 0x000, R40. -/
  | status
  /-- CSR 0x001, R41. -/
  | errpc
  /-- CSR 0x002, R41. -/
  | erraux
  /-- CSR 0x003, R41. -/
  | aux
  /-- CSR 0x004, R41. -/
  | ie
  /-- CSR 0x010, R42. -/
  | brBase
  /-- CSR 0x011, R42. -/
  | brLen
  /-- CSR 0x012, R42. -/
  | brPos
  /-- CSR 0x013, R42. -/
  | brMode
  /-- CSR 0x018, R43. -/
  | bwBase
  /-- CSR 0x019, R43. -/
  | bwCap
  /-- CSR 0x01A, R43. -/
  | bwLen
  /-- CSR 0x01B, R43. -/
  | bwAcc
  /-- CSR 0x01C, R43. -/
  | bwNacc
  /-- CSR 0x01D, R43. -/
  | bwMode
  /-- CSR 0x020, R44. -/
  | huffValid
  /-- CSR 0x021, R44. -/
  | qValid
  /-- CSR 0x030, R45. -/
  | pred0
  /-- CSR 0x031, R45. -/
  | pred1
  /-- CSR 0x032, R45. -/
  | pred2
  /-- CSR 0x033, R45. -/
  | pred3
  /-- CSR 0x040, R46. -/
  | gFileBase
  /-- CSR 0x041, R46. -/
  | gFileLen
  /-- CSR 0x042, R46. -/
  | gCur
  /-- CSR 0x043, R46. -/
  | gLoopOff
  /-- CSR 0x044, R46. -/
  | gSw
  /-- CSR 0x045, R46. -/
  | gSh
  /-- CSR 0x046, R46. -/
  | gLsdPk
  /-- CSR 0x047, R46. -/
  | gBg
  /-- CSR 0x048, R46. -/
  | gAspect
  /-- CSR 0x049, R46. -/
  | gGctN
  /-- CSR 0x04A, R46. -/
  | gGce
  /-- CSR 0x04B, R46. -/
  | gDelay
  /-- CSR 0x04C, R46. -/
  | gTrans
  /-- CSR 0x04D, R46. -/
  | gLoop
  /-- CSR 0x04E, R47. -/
  | gImgPos
  /-- CSR 0x04F, R47. -/
  | gImgSize
  /-- CSR 0x050, R47. -/
  | gImgPk
  /-- CSR 0x051, R47. -/
  | gLctN
  /-- CSR 0x052, R47. -/
  | gFrames
  /-- CSR 0x053, R47. -/
  | gFbBase
  /-- CSR 0x054, R47. -/
  | gPixFmt
  /-- CSR 0x055, R47. -/
  | gScrBase
  /-- CSR 0x056, R47. -/
  | gScrLen
  /-- CSR 0x057, R47. -/
  | gCmtBase
  /-- CSR 0x058, R47. -/
  | gCmtCap
  /-- CSR 0x059, R46. -/
  | gCmtLen
  /-- CSR 0x05A, R46. -/
  | gOpen
  /-- CSR 0x05B, R47. -/
  | gLctOff
  /-- CSR 0x060, R48. -/
  | gwW
  /-- CSR 0x061, R48. -/
  | gwH
  /-- CSR 0x062, R48. -/
  | gwIdxBase
  /-- CSR 0x063, R48. -/
  | gwFrames
  /-- CSR 0x064, R48. -/
  | gwOpen
  deriving DecidableEq, Repr

/-- How many CSRs the map of R36 has. -/
abbrev numCsrs : Nat := 54

/-- The place of a CSR's cell in `State.csrs`. -/
def Csr.idx : Csr → Fin numCsrs
  | .status => 0
  | .errpc => 1
  | .erraux => 2
  | .aux => 3
  | .ie => 4
  | .brBase => 5
  | .brLen => 6
  | .brPos => 7
  | .brMode => 8
  | .bwBase => 9
  | .bwCap => 10
  | .bwLen => 11
  | .bwAcc => 12
  | .bwNacc => 13
  | .bwMode => 14
  | .huffValid => 15
  | .qValid => 16
  | .pred0 => 17
  | .pred1 => 18
  | .pred2 => 19
  | .pred3 => 20
  | .gFileBase => 21
  | .gFileLen => 22
  | .gCur => 23
  | .gLoopOff => 24
  | .gSw => 25
  | .gSh => 26
  | .gLsdPk => 27
  | .gBg => 28
  | .gAspect => 29
  | .gGctN => 30
  | .gGce => 31
  | .gDelay => 32
  | .gTrans => 33
  | .gLoop => 34
  | .gImgPos => 35
  | .gImgSize => 36
  | .gImgPk => 37
  | .gLctN => 38
  | .gFrames => 39
  | .gFbBase => 40
  | .gPixFmt => 41
  | .gScrBase => 42
  | .gScrLen => 43
  | .gCmtBase => 44
  | .gCmtCap => 45
  | .gCmtLen => 46
  | .gOpen => 47
  | .gLctOff => 48
  | .gwW => 49
  | .gwH => 50
  | .gwIdxBase => 51
  | .gwFrames => 52
  | .gwOpen => 53

/-- The 12-bit number of a CSR (R36, R46 to R48). -/
def Csr.number : Csr → BitVec 12
  | .status => 0x000
  | .errpc => 0x001
  | .erraux => 0x002
  | .aux => 0x003
  | .ie => 0x004
  | .brBase => 0x010
  | .brLen => 0x011
  | .brPos => 0x012
  | .brMode => 0x013
  | .bwBase => 0x018
  | .bwCap => 0x019
  | .bwLen => 0x01A
  | .bwAcc => 0x01B
  | .bwNacc => 0x01C
  | .bwMode => 0x01D
  | .huffValid => 0x020
  | .qValid => 0x021
  | .pred0 => 0x030
  | .pred1 => 0x031
  | .pred2 => 0x032
  | .pred3 => 0x033
  | .gFileBase => 0x040
  | .gFileLen => 0x041
  | .gCur => 0x042
  | .gLoopOff => 0x043
  | .gSw => 0x044
  | .gSh => 0x045
  | .gLsdPk => 0x046
  | .gBg => 0x047
  | .gAspect => 0x048
  | .gGctN => 0x049
  | .gGce => 0x04A
  | .gDelay => 0x04B
  | .gTrans => 0x04C
  | .gLoop => 0x04D
  | .gImgPos => 0x04E
  | .gImgSize => 0x04F
  | .gImgPk => 0x050
  | .gLctN => 0x051
  | .gFrames => 0x052
  | .gFbBase => 0x053
  | .gPixFmt => 0x054
  | .gScrBase => 0x055
  | .gScrLen => 0x056
  | .gCmtBase => 0x057
  | .gCmtCap => 0x058
  | .gCmtLen => 0x059
  | .gOpen => 0x05A
  | .gLctOff => 0x05B
  | .gwW => 0x060
  | .gwH => 0x061
  | .gwIdxBase => 0x062
  | .gwFrames => 0x063
  | .gwOpen => 0x064

/-- The CSR of a number; none for a number that is not in the map (R35). -/
def Csr.ofNumber (n : BitVec 12) : Option Csr :=
  match n.toNat with
  | 0x000 => some .status
  | 0x001 => some .errpc
  | 0x002 => some .erraux
  | 0x003 => some .aux
  | 0x004 => some .ie
  | 0x010 => some .brBase
  | 0x011 => some .brLen
  | 0x012 => some .brPos
  | 0x013 => some .brMode
  | 0x018 => some .bwBase
  | 0x019 => some .bwCap
  | 0x01A => some .bwLen
  | 0x01B => some .bwAcc
  | 0x01C => some .bwNacc
  | 0x01D => some .bwMode
  | 0x020 => some .huffValid
  | 0x021 => some .qValid
  | 0x030 => some .pred0
  | 0x031 => some .pred1
  | 0x032 => some .pred2
  | 0x033 => some .pred3
  | 0x040 => some .gFileBase
  | 0x041 => some .gFileLen
  | 0x042 => some .gCur
  | 0x043 => some .gLoopOff
  | 0x044 => some .gSw
  | 0x045 => some .gSh
  | 0x046 => some .gLsdPk
  | 0x047 => some .gBg
  | 0x048 => some .gAspect
  | 0x049 => some .gGctN
  | 0x04A => some .gGce
  | 0x04B => some .gDelay
  | 0x04C => some .gTrans
  | 0x04D => some .gLoop
  | 0x04E => some .gImgPos
  | 0x04F => some .gImgSize
  | 0x050 => some .gImgPk
  | 0x051 => some .gLctN
  | 0x052 => some .gFrames
  | 0x053 => some .gFbBase
  | 0x054 => some .gPixFmt
  | 0x055 => some .gScrBase
  | 0x056 => some .gScrLen
  | 0x057 => some .gCmtBase
  | 0x058 => some .gCmtCap
  | 0x059 => some .gCmtLen
  | 0x05A => some .gOpen
  | 0x05B => some .gLctOff
  | 0x060 => some .gwW
  | 0x061 => some .gwH
  | 0x062 => some .gwIdxBase
  | 0x063 => some .gwFrames
  | 0x064 => some .gwOpen
  | _ => none

/-- The access classes of R35. STATUS is `ro` for commands; the host's own write to it is R40's. -/
inductive CsrAccess where
  | rw
  | ro
  deriving DecidableEq, Repr

/-- The access class of a CSR (R36, R46 to R48). -/
def Csr.access : Csr → CsrAccess
  | .aux | .ie | .brBase | .brLen | .brPos | .brMode | .bwBase | .bwCap | .bwLen | .bwMode | .pred0 | .pred1
  | .pred2 | .pred3 | .gCur | .gFbBase | .gPixFmt | .gScrBase | .gScrLen | .gCmtBase | .gCmtCap | .gwIdxBase => .rw
  | .status | .errpc | .erraux | .bwAcc | .bwNacc | .huffValid | .qValid | .gFileBase | .gFileLen | .gLoopOff
  | .gSw | .gSh | .gLsdPk | .gBg | .gAspect | .gGctN | .gGce | .gDelay | .gTrans | .gLoop | .gImgPos | .gImgSize
  | .gImgPk | .gLctN | .gFrames | .gCmtLen | .gOpen | .gLctOff | .gwW | .gwH | .gwFrames | .gwOpen => .ro

/-- The named bits of a CSR: the others read 0 and ignore writes (R35). -/
def Csr.mask : Csr → Word
  | .status => 0xF07
  | .ie | .brMode | .gOpen | .gwOpen => 0x1
  | .bwAcc | .gLsdPk | .gBg | .gAspect | .gTrans | .gImgPk => 0xFF
  | .bwNacc => 0x7
  | .bwMode | .gPixFmt => 0x3
  | .qValid | .gSw | .gSh | .gDelay | .gwW | .gwH => 0xFFFF
  | .gGctN | .gLctN => 0x3FF
  | .gGce => 0x3F
  | .gLoop => 0x1FFFF
  | .errpc | .erraux | .aux | .brBase | .brLen | .brPos | .bwBase | .bwCap | .bwLen | .huffValid | .pred0
  | .pred1 | .pred2 | .pred3 | .gFileBase | .gFileLen | .gCur | .gLoopOff | .gImgPos | .gImgSize | .gFrames
  | .gFbBase | .gScrBase | .gScrLen | .gCmtBase | .gCmtCap | .gCmtLen | .gLctOff | .gwIdxBase
  | .gwFrames => 0xFFFFFFFF

/-- The DC predictor of a component (R45). -/
def Csr.pred (p : BitVec 2) : Csr :=
  match p.toNat with
  | 0 => .pred0
  | 1 => .pred1
  | 2 => .pred2
  | _ => .pred3

/-- The GIF parser CSRs of R46 and R47, less G_OPEN: what S7 leaves unspecified after a GIFOPEN fault. -/
def Csr.gifParser : List Csr :=
  [.gFileBase, .gFileLen, .gCur, .gLoopOff, .gSw, .gSh, .gLsdPk, .gBg, .gAspect, .gGctN, .gGce, .gDelay, .gTrans,
   .gLoop, .gImgPos, .gImgSize, .gImgPk, .gLctN, .gFrames, .gFbBase, .gPixFmt, .gScrBase, .gScrLen, .gCmtBase,
   .gCmtCap, .gCmtLen, .gLctOff]

end Sys2Proof.Machine
end

