-- ==== Sys2Proof/Machine/State.lean ====
section
/-! DEFINITION. The state of the engine and its host as plain data (spec/10_state.md), the reasons a step can stop, and the state
after reset (spec/70_reset_and_hazards.md R530). -/

namespace Sys2Proof.Machine

/-- One Huffman slot (R50): the histogram H[1..16] (entry i counts the codes of length i + 1, R264) and the symbol list.
VALID is the slot's bit of CSR HUFF_VALID, its one home; NSYM is the length of `syms`. -/
structure HuffSlot where
  hist : Vector Byte 16
  syms : List Byte
  deriving DecidableEq, Repr

/-- A move of the host that changes the machine (R510). -/
inductive HostMove where
  /-- Write a MEM byte. -/
  | writeMem (a : Nat) (v : Byte)
  /-- Write X[i]; a write to X0 is ignored. -/
  | writeX (r : Reg) (v : Word)
  /-- Write PC, bits 1..0 cleared. -/
  | writePc (v : Word)
  /-- Write a CSR of access RW, as CSRW does. -/
  | writeCsr (c : Csr) (v : Word)
  /-- Write STATUS: clears fields (R40). -/
  | writeStatus (v : Word)
  /-- START: the engine runs from PC. -/
  | start
  /-- Reset (R530), at any time. -/
  | reset
  /-- Read STATUS or observe irq, at any time: changes nothing. -/
  | observe
  deriving DecidableEq, Repr

/-- MEM: the bytes written since power-up, as pairs of an address and its byte, addresses strictly rising. -/
abbrev Memory := List Host.Cell

/-- The whole state. -/
structure State where
  /-- X0..X15 (R32). The cell of X0 stays 0; reads and writes go through `State.getX` and `State.setX`. -/
  x : Vector Word 16
  /-- PC (R33). -/
  pc : Word
  /-- The control and status registers (R35, R36), one cell each, at `Csr.idx`. -/
  csrs : Vector Word numCsrs
  /-- The Huffman slots, s = 16 * class + dest (R50). -/
  slots : Vector HuffSlot 32
  /-- The sample file S (R51). -/
  sfile : Vector Binary64 64
  /-- The coefficient file K, two's complement (R52). -/
  kfile : Vector Word 64
  /-- The quantization tables Q (R53). -/
  qtabs : Vector (Vector Byte 64) 16
  /-- MEM (R56). -/
  mem : Memory
  /-- The model's own: the parameters of R7, the same for the whole life of one engine. -/
  params : Params
  /-- The model's own: how many free values have been drawn. Log entry 8. -/
  draws : Nat
  /-- The model's own: the host's moves to come, each with the number of steps the engine takes before it is due
  (R30, R510). Log entry 15. -/
  host : List (Nat × HostMove)
  deriving DecidableEq, Repr

/-- The reasons the MODEL stops. The faults the spec describes (R490) are not here: they are next states. -/
inductive Fault where
  /-- A read of a byte of MEM that nothing has written since power-up, which has no value (R56, S2). Raised by every
  command that reads MEM and by the fetch. SAFE: the machine would go on with some value. Log entry 2. -/
  | unwrittenByte (a : Nat)
  /-- The host's script holds a move that R510 does not give the host: a MEM byte outside MEM, or a CSR that is not RW.
  Raised by the host's turn of a step. SAFE: the spec gives the host no such move. Log entry 19. -/
  | hostMoveNotAllowed
  deriving DecidableEq, Repr

/-- The reasons the model has no meaning for an instruction. -/
inductive Refusal where
  /-- The instruction has no meaning in the model yet. Raised by no arm of exec: all have theirs. SAFE. -/
  | notModelled (mnemonic : String)
  deriving DecidableEq, Repr

/-- The empty slot an invalid slot holds after reset: contents the spec leaves UNSPECIFIED (R50). Log entry 20. -/
def HuffSlot.empty : HuffSlot := ⟨Vector.replicate 16 0, []⟩

/-- The machine right after reset (R530). X1..X15, for which the spec gives no value, are 0 (log entry 1); MEM lists
nothing (R56, log entry 2); the parameters are those of R7 (log entries 3, 4, 5). -/
def State.reset : State where
  x := Vector.replicate 16 0
  pc := 0
  csrs := Vector.replicate numCsrs 0
  slots := Vector.replicate 32 HuffSlot.empty
  sfile := Vector.replicate 64 0
  kfile := Vector.replicate 64 0
  qtabs := Vector.replicate 16 (Vector.replicate 64 0)
  mem := []
  params := Params.taken
  draws := 0
  host := []

end Sys2Proof.Machine
end

