-- ==== Sys2Proof/Machine/Flags.lean ====
section
/-! DEFINITION. The flag-like state. The engine has no condition flags (spec/10_state.md R34): what there is are the fields of
CSR STATUS (R40), the valid bits of HUFF_VALID and Q_VALID (R44) and the irq level (spec/60_exceptions.md R500). -/

namespace Sys2Proof.Machine

/-- STATUS bit 0, BUSY: the engine executes (R40). -/
def statusBusy (st : Word) : Bool := st.getLsbD 0

/-- STATUS bit 1, DONE: HALT completed (R40). -/
def statusDone (st : Word) : Bool := st.getLsbD 1

/-- STATUS bit 2, FAULT: a command faulted (R40). -/
def statusFault (st : Word) : Bool := st.getLsbD 2

/-- STATUS bits 11..8, ERRCODE (R40). -/
def statusErrcode (st : Word) : BitVec 4 := st.extractLsb' 8 4

/-- STATUS while a run goes on: BUSY only (R182, R510). -/
def statusRunning : Word := 1

/-- STATUS after HALT: BUSY <- 0, DONE <- 1 (R176). -/
def statusHalted (st : Word) : Word := (st &&& ~~~1#32) ||| 2

/-- STATUS after a fault: (code << 8) | (1 << 2), so FAULT = 1, BUSY = DONE = 0 (R494). -/
def statusFaulted (code : Nat) : Word := (u32 code <<< 8) ||| (1 <<< 2)

/-- STATUS after the host writes v to it (R40): of DONE, FAULT and ERRCODE, the fields written 0 are cleared, and ERRCODE
is 0 when FAULT is 0. BUSY is kept. Log entry 17. -/
def statusHostWrite (st v : Word) : Word :=
  let fault := statusFault st && statusFault v
  let code := if fault && statusErrcode v != 0 then statusErrcode st else 0
  BitVec.setWidth 32
    (code ++ 0#5 ++ BitVec.ofBool fault ++ BitVec.ofBool (statusDone st && statusDone v) ++ BitVec.ofBool (statusBusy st))

/-- The values STATUS takes (R40): BUSY excludes DONE and FAULT, DONE and FAULT are never both 1, ERRCODE is 0 when
FAULT = 0, and no other bit is set. -/
def statusLegal (st : Word) : Bool :=
  !(statusBusy st && (statusDone st || statusFault st)) && !(statusDone st && statusFault st) &&
    (statusFault st || statusErrcode st == 0) && (st &&& ~~~(Csr.mask .status) == 0)

/-- The irq level: IE[0] & (DONE | FAULT) (R500). -/
def irqLevel (ie st : Word) : Bool := ie.getLsbD 0 && (statusDone st || statusFault st)

/-- A valid bit of HUFF_VALID or Q_VALID (R44). -/
def validBit (v : Word) (i : Nat) : Bool := v.getLsbD i

/-- The word with valid bit i set (R265, R340). -/
def setValidBit (v : Word) (i : Nat) : Word := v ||| (1#32 <<< i)

end Sys2Proof.Machine
end

