-- ==== Sys2Proof/Machine/Ops.lean ====
section
/-! DEFINITION. The named operations over the state: registers, CSRs, memory, free values, and taking a fault. -/

namespace Sys2Proof.Machine

/-- The outcome of a step or a meaning. -/
abbrev Outcome := Host.Outcome State Fault Refusal

/-! ### Registers (spec/40_engine.md R171) and CSRs (spec/10_state.md R35) -/

/-- `X[r]`: X0 reads 0 (R32, R171). -/
def State.getX (s : State) (r : Reg) : Word := if r = 0 then 0 else s.x.get r.toFin

/-- `X[r] <- v`: a write to X0 is discarded (R32, R171). -/
def State.setX (s : State) (r : Reg) (v : Word) : State :=
  if r = 0 then s else { s with x := s.x.set r.toNat v r.isLt }

/-- `X[r]` as a natural number, the form addresses and counts are used in (R100). -/
abbrev State.getXNat (s : State) (r : Reg) : Nat := (s.getX r).toNat

/-- `CSR.c`. -/
def State.getCsr (s : State) (c : Csr) : Word := s.csrs.get c.idx

/-- `CSR.c <- v`: only the CSR's named bits are stored (R35). -/
def State.setCsr (s : State) (c : Csr) (v : Word) : State :=
  { s with csrs := s.csrs.set c.idx.val (v &&& c.mask) c.idx.isLt }

/-- `CSR.c` as a natural number. -/
abbrev State.getCsrNat (s : State) (c : Csr) : Nat := (s.getCsr c).toNat

/-- `CSR.c <- u32(n)`. -/
abbrev State.setCsrNat (s : State) (c : Csr) (n : Nat) : State := s.setCsr c (u32 n)

/-- BUSY (R40). -/
def State.busy (s : State) : Bool := statusBusy (s.getCsr .status)

/-- The irq line (R500). Log entry 25. -/
def State.irq (s : State) : Bool := irqLevel (s.getCsr .ie) (s.getCsr .status)

/-- `pc <- u32(pc + 4)`, the end of a command that is not a taken branch (R33, R170). -/
def State.advance (s : State) : State := { s with pc := s.pc + 4 }

/-! ### Memory as data (spec/20_memory.md) -/

/-- What an address that MEM does not list reads as: no value (R56, R530, S2). Log entry 2. -/
def Memory.unlisted : Option Byte := none

/-- One byte of MEM. -/
def Memory.read? : Memory → Nat → Option Byte
  | [], _ => Memory.unlisted
  | (b, v) :: m, a => if a = b then some v else Memory.read? m a

/-- Bytes at consecutive addresses from a on, as cells. -/
def Memory.cellsFrom : Nat → List Byte → Memory
  | _, [] => []
  | a, b :: bs => (a, b) :: Memory.cellsFrom (a + 1) bs

/-- MEM with the bytes bs stored at a, a + 1, … -/
def Memory.write (m : Memory) (a : Nat) (bs : List Byte) : Memory :=
  m.filter (fun c => c.1 < a) ++ Memory.cellsFrom a bs ++ m.filter (fun c => a + bs.length ≤ c.1)

/-- The canonical form: addresses strictly rising. No byte value is excluded, since an unlisted address has no value. -/
def Memory.wf : Memory → Bool
  | [] => true
  | c :: m => m.all (fun d => c.1 < d.1) && Memory.wf m

/-- Every listed address lies in a MEM of n bytes (R100). -/
def Memory.below (n : Nat) (m : Memory) : Bool := m.all (fun c => c.1 < n)

/-! ### Results of a command: a value, a fault of the engine, or a stop of the model -/

/-- The fault codes of spec/60_exceptions.md R490. -/
inductive FaultCode where
  | malformedHeader
  | unsupportedFeature
  | corruptStream
  | ioError
  | contractViolation
  | illegalCommand
  deriving DecidableEq, Repr

/-- The ERRCODE number (R490). -/
def FaultCode.number : FaultCode → Nat
  | .malformedHeader => 1
  | .unsupportedFeature => 2
  | .corruptStream => 3
  | .ioError => 4
  | .contractViolation => 5
  | .illegalCommand => 6

/-- `E(aux)` of a `raise` (R10, R491). -/
structure EngineFault where
  code : FaultCode
  aux : Word
  deriving DecidableEq, Repr

/-- A piece of state as a faulting command leaves it (R494): unspecified, or, for `stored`, bytes its rule says are written. -/
inductive Leftover where
  /-- This CSR may hold any value. -/
  | csr (c : Csr)
  /-- The bytes base .. base + len - 1 of MEM may hold any value. -/
  | mem (base len : Nat)
  /-- K may hold any values. -/
  | kFile
  /-- S may hold any finite values. -/
  | sFile
  /-- These bytes are stored, in this order (SSTB, R342). -/
  | stored (cells : List Host.Cell)
  deriving DecidableEq, Repr

/-- How a command ends early: a fault of the engine with what it leaves, or a stop of the model. -/
inductive Stop where
  | raise (f : EngineFault) (left : List Leftover)
  | halt (f : Fault)
  deriving DecidableEq, Repr

/-- The result of a part of a command. -/
abbrev Res (α : Type) := Except Stop α

/-- `raise code(aux)` (R10). -/
def fail {α : Type} (code : FaultCode) (aux : Nat) : Res α := .error (.raise ⟨code, u32 aux⟩ [])

/-- `if not c: raise code(aux)`. -/
def require (c : Bool) (code : FaultCode) (aux : Nat) : Res Unit := if c then .ok () else fail code aux

/-- A part of a command on whose fault the pieces ps are left as they say (R494). -/
def leaving {α : Type} (ps : List Leftover) (r : Res α) : Res α :=
  match r with
  | .ok a => .ok a
  | .error (.raise f qs) => .error (.raise f (qs ++ ps))
  | .error (.halt f) => .error (.halt f)

/-- As `leaving`, but ContractViolation(1) keeps the pieces: R109 raises it before the command writes anything. Log
entry 10. -/
def leavingPastOverlap {α : Type} (ps : List Leftover) (r : Res α) : Res α :=
  match r with
  | .error (.raise f qs) =>
    if f = ⟨.contractViolation, 1⟩ then .error (.raise f qs) else .error (.raise f (qs ++ ps))
  | r => r

/-! ### Reading and writing MEM (R101, R104, R105) -/

/-- MEM_SIZE. -/
abbrev State.memSize (s : State) : Nat := s.params.memSize

/-- The check of R101 on the bytes a .. a + n - 1: IoError with the first of them that is outside MEM. -/
def State.checkRange (s : State) (a n : Nat) : Res Unit :=
  if n = 0 ∨ a + n ≤ s.memSize then .ok () else fail .ioError (max a s.memSize)

/-- The value of a byte inside MEM; a byte nothing has written has none (log entry 2). -/
def State.byteAt (s : State) (a : Nat) : Res Byte :=
  match s.mem.read? a with
  | some b => .ok b
  | none => .error (.halt (.unwrittenByte a))

/-- `MemRead(a, 1)` (R104). -/
def State.readByte (s : State) (a : Nat) : Res Byte := do
  s.checkRange a 1
  s.byteAt a

/-- n one-byte reads at a, a + 1, …, each checked when it is made (R174). -/
def State.readBytes (s : State) : Nat → Nat → Res (List Byte)
  | _, 0 => .ok []
  | a, n + 1 => do
    let b ← s.readByte a
    let bs ← s.readBytes (a + 1) n
    return b :: bs

/-- `MemRead(a, n)`: all n bytes are checked, then read, little-endian (R104). -/
def State.memRead (s : State) (a n : Nat) : Res Nat := do
  s.checkRange a n
  let bs ← s.readBytes a n
  return leValue bs

/-- MEM with bytes stored, no check. -/
def State.putMem (s : State) (a : Nat) (bs : List Byte) : State := { s with mem := s.mem.write a bs }

/-- Bytes stored at a, a + 1, …, checked (R101, R105): nothing is written on a fault. -/
def State.storeBytes (s : State) (a : Nat) (bs : List Byte) : Res State := do
  s.checkRange a bs.length
  return s.putMem a bs

/-! ### Free values (R494, R58; log entry 8) -/

/-- The CSR holds a free value (of its named bits). -/
def State.drawCsr (s : State) (c : Csr) : State :=
  { s.setCsr c (Config.freeWord s.draws) with draws := s.draws + 1 }

/-- n free bytes, from the k-th on. -/
def freeBytes (k n : Nat) : List Byte := (List.range n).map fun i => Config.freeByte (k + i)

/-- The bytes of MEM among base .. base + len - 1 hold free values. Log entry 23. -/
def State.drawMem (s : State) (base len : Nat) : State :=
  let n := min len (s.memSize - base)
  { s.putMem base (freeBytes s.draws n) with draws := s.draws + n }

/-- Bit pattern of an infinity or a NaN: exponent field all ones. -/
def Binary64.isFinite (d : Binary64) : Bool := d.extractLsb' 52 11 != 0x7FF

/-- A free finite sample, the k-th drawn: every finite binary64 can be it (R51). -/
def freeFiniteSample (k : Nat) : Binary64 :=
  let d := Config.freeSample k
  if Binary64.isFinite d then d else 0

/-- K holds free values. -/
def State.drawK (s : State) : State :=
  { s with kfile := Vector.ofFn fun i => Config.freeWord (s.draws + i.val), draws := s.draws + 64 }

/-- S holds free finite values. -/
def State.drawS (s : State) : State :=
  { s with sfile := Vector.ofFn fun i => freeFiniteSample (s.draws + i.val), draws := s.draws + 64 }

/-- Cells stored one after the other, later ones winning. -/
def State.putCells (s : State) (cells : List Host.Cell) : State :=
  cells.foldl (fun t c => t.putMem c.1 [c.2]) s

/-- One piece as a fault leaves it. -/
def State.leave (s : State) : Leftover → State
  | .csr c => s.drawCsr c
  | .mem base len => s.drawMem base len
  | .kFile => s.drawK
  | .sFile => s.drawS
  | .stored cells => s.putCells cells

/-- All pieces as a fault leaves them. -/
def State.leaveAll (s : State) (ps : List Leftover) : State := ps.foldl State.leave s

/-! ### Taking a fault (R494) and ending a command (R170) -/

/-- `raise E(aux)`: ERRPC, ERRAUX and STATUS are written, pc is not advanced; irq follows from STATUS (R494, R500). There is
no handler and no return from a fault: the host clears STATUS and starts again (R495; Machine/Host.lean). -/
def State.takeFault (s : State) (f : EngineFault) : State :=
  ((s.setCsr .errpc s.pc).setCsr .erraux f.aux).setCsr .status (statusFaulted f.code.number)

/-- The end of a command begun in state s: its next state with pc advanced; or the fault taken from s with what the command
leaves (R494); or a stop of the model. -/
def finish (s : State) (r : Res State) : Outcome :=
  match r with
  | .ok t => .next t.advance
  | .error (.raise f ps) => .next ((s.leaveAll ps).takeFault f)
  | .error (.halt f) => .fault f

end Sys2Proof.Machine
end

