-- ==== Sys2Proof/Machine/Operands.lean ====
section
/-! DEFINITION. Operand forms: immediates (spec/30_encoding.md R133), effective addresses and branch targets
(spec/40_engine.md R180, R186), and the ranges a command names (spec/20_memory.md R109). -/

namespace Sys2Proof.Machine

/-- `sext_12(imm12)` as a word (R133). -/
def sext12 (imm : BitVec 12) : Word := imm.signExtend 32

/-- `zext_12(imm12)` as a word (R133). -/
def zext12 (imm : BitVec 12) : Word := imm.setWidth 32

/-- LUI's operand: imm20 in bits 31..12 (R133, R177). -/
def upperImm (imm20 : BitVec 20) : Word := imm20 ++ 0#12

/-- `u32(X[rb] + s32(sext_12(imm12)))`, the effective address of LBU and SB, which wraps before any check (R186, R187). -/
def State.effAddr (s : State) (rb : Reg) (imm : BitVec 12) : Nat := (s.getX rb + sext12 imm).toNat

/-- `u32(pc + 4 * s32(sext_12(imm12)))`, a branch's target (R180). -/
def State.branchTarget (s : State) (imm : BitVec 12) : Word := s.pc + 4 * sext12 imm

/-- The end of a branch: taken to its target, else to the next command (R180). -/
def State.branch (s : State) (taken : Bool) (imm : BitVec 12) : State :=
  if taken then { s with pc := s.branchTarget imm } else s.advance

/-- A range of bytes [base, base + len). -/
structure Region where
  base : Nat
  len : Nat
  deriving DecidableEq, Repr

/-- Two ranges share a byte (R109). -/
def Region.overlaps (p q : Region) : Bool :=
  decide (0 < p.len ∧ 0 < q.len ∧ p.base < q.base + q.len ∧ q.base < p.base + p.len)

/-- The check of R109, before anything is written: ContractViolation(1) if the ranges share a byte. Log entry 10. -/
def requireDisjoint (p q : Region) : Res Unit := require (!p.overlaps q) .contractViolation 1

/-- `any two of a, b, c overlap` is ContractViolation(1) (spec/45_gif_decode.md R392, spec/46_gif_encode.md R437). -/
def requireDisjoint3 (a b c : Region) : Res Unit :=
  require (!(a.overlaps b || a.overlaps c || b.overlaps c)) .contractViolation 1

/-- The bit order a one-bit ORDER field holds (R42, R43). -/
def orderOfMode (mode : Word) : BitOrder := if mode.getLsbD 0 then .lsb else .msb

/-- The word of BR_MODE for an order (R210). -/
def readMode (o : BitOrder) : Word := o.bit.setWidth 32

/-- The word of BW_MODE for an order and the stuffing enable (R219). -/
def writeMode (o : BitOrder) (stuff : Bool) : Word := (BitVec.ofBool stuff ++ o.bit).setWidth 32

/-- The bit reader's buffer (R42). -/
def State.readRegion (s : State) : Region := ⟨s.getCsrNat .brBase, s.getCsrNat .brLen⟩

/-- The bit writer's buffer (R43). -/
def State.writeRegion (s : State) : Region := ⟨s.getCsrNat .bwBase, s.getCsrNat .bwCap⟩

end Sys2Proof.Machine
end

