-- ==== Sys2Proof/Machine/Bits.lean ====
section
/-! DEFINITION. The bit reader and bit writer primitives (spec/41_bitstream.md R211, R212, R217, R218, R220) and byte copies. -/

namespace Sys2Proof.Machine

/-! ### The bit reader -/

/-- A buffer the bit reader reads and its bit order (R42); the cursor is passed along as a number. -/
structure Reader where
  base : Nat
  len : Nat
  order : BitOrder
  deriving DecidableEq, Repr

/-- The reader of the BR_* CSRs (R42). -/
def State.reader (s : State) : Reader := ⟨s.getCsrNat .brBase, s.getCsrNat .brLen, orderOfMode (s.getCsr .brMode)⟩

/-- Bit p of the stream within its byte: bit 7 - p mod 8 MSB-first, bit p mod 8 LSB-first (R211). -/
def streamBit (order : BitOrder) (byte : Byte) (p : Nat) : Nat :=
  match order with
  | .msb => (byte.toNat >>> (7 - p % 8)) % 2
  | .lsb => (byte.toNat >>> (p % 8)) % 2

/-- `ReadBit()` at cursor p: the bit and the cursor after it (R211). The limit of the cursor is that of the 32-bit BR_POS; that
a private reader has it too is the model's choice (log entry 32). -/
def Reader.readBit (rd : Reader) (s : State) (p : Nat) : Res (Nat × Nat) := do
  require (!(decide (8 * rd.len ≤ p) || p == 0xFFFFFFFF)) .corruptStream 1
  let byte ← s.readByte (rd.base + p / 8)
  return (streamBit rd.order byte p, p + 1)

/-- A value with bit b, the i-th read, added: MSB-first it becomes the least significant so far, LSB-first bit i (R212). -/
def appendBit (order : BitOrder) (v b i : Nat) : Nat :=
  match order with
  | .msb => 2 * v + b
  | .lsb => v + b * 2 ^ i

/-- The loop of `ReadBits`: k more bits, i read so far into v (R212). -/
def Reader.readBitsLoop (rd : Reader) (s : State) : Nat → Nat → Nat → Nat → Res (Nat × Nat)
  | 0, _, v, p => .ok (v, p)
  | k + 1, i, v, p => do
    let (b, p) ← rd.readBit s p
    rd.readBitsLoop s k (i + 1) (appendBit rd.order v b i) p

/-- The check of `ReadBits(n)` before any bit is consumed (R212). That a private reader has the limit of BR_POS too is the
model's choice (log entry 32). -/
def Reader.requireBits (rd : Reader) (p n : Nat) : Res Unit :=
  require (decide (p + n ≤ 8 * rd.len ∧ p + n ≤ 0xFFFFFFFF)) .corruptStream 1

/-- `ReadBits(n)` at cursor p: the value and the cursor after it (R212). -/
def Reader.readBits (rd : Reader) (s : State) (p n : Nat) : Res (Nat × Nat) := do
  rd.requireBits p n
  rd.readBitsLoop s n 0 0 p

/-! ### The bit writer

Bits are packed first and the finished bytes committed afterwards. Between the bits of one command nothing but a commit can
fault, and commits are checked byte by byte in order, so the fault is the one R217 and R218 reach first. -/

/-- The writer's mode, its partial byte, and the bytes it has finished, last first (R43, R217). -/
structure Packer where
  order : BitOrder
  stuff : Bool
  acc : Byte
  nacc : Nat
  out : List Byte
  deriving DecidableEq, Repr

/-- The writer as the BW_* CSRs hold it (R43), nothing finished yet. -/
def State.packer (s : State) : Packer where
  order := orderOfMode (s.getCsr .bwMode)
  stuff := (s.getCsr .bwMode).getLsbD 1
  acc := (s.getCsr .bwAcc).setWidth 8
  nacc := s.getCsrNat .bwNacc
  out := []

/-- An empty LSB-first writer without stuffing: the GIF writer's staging (spec/46_gif_encode.md R432). -/
def Packer.staging : Packer := ⟨.lsb, false, 0, 0, []⟩

/-- `CommitByte(b)` on the list of finished bytes: after 0xFF a 0x00 when stuffing is on (R217). -/
def stuffByte (stuff : Bool) (b : Byte) (out : List Byte) : List Byte :=
  if stuff && b == 0xFF then 0x00 :: b :: out else b :: out

/-- The bit at the writer's next free position: bit 7 downward MSB-first, bit 0 upward LSB-first (R218). -/
def placedBit (order : BitOrder) (nacc : Nat) (b : Bool) : Byte :=
  match order with
  | .msb => (BitVec.ofBool b).setWidth 8 <<< (7 - nacc)
  | .lsb => (BitVec.ofBool b).setWidth 8 <<< nacc

/-- `PutBit(bit)` (R218). -/
def Packer.putBit (k : Packer) (b : Bool) : Packer :=
  let acc := k.acc ||| placedBit k.order k.nacc b
  if k.nacc + 1 = 8 then { k with acc := 0, nacc := 0, out := stuffByte k.stuff acc k.out }
  else { k with acc := acc, nacc := k.nacc + 1 }

/-- The n bits of v in the order they are put: most significant first MSB-first, least first LSB-first (R220). -/
def bitsOf (order : BitOrder) (v n : Nat) : List Bool :=
  match order with
  | .msb => (List.range n).map fun i => v.testBit (n - 1 - i)
  | .lsb => (List.range n).map fun i => v.testBit i

/-- `PutBits(v, n)` (R220). -/
def Packer.putBits (k : Packer) (v n : Nat) : Packer := (bitsOf k.order v n).foldl Packer.putBit k

/-- Several `PutBits`, as pairs of a value and its width. -/
def Packer.putAll (k : Packer) (codes : List (Nat × Nat)) : Packer := codes.foldl (fun k c => k.putBits c.1 c.2) k

/-- `PutByte` of each byte: `PutBits(b, 8)` (R220). -/
def Packer.putBytes (k : Packer) (bs : List Byte) : Packer := bs.foldl (fun k b => k.putBits b.toNat 8) k

/-- `while BW_NACC != 0: PutBit(pad)`, at most `fuel` bits (R223). -/
def Packer.padLoop (k : Packer) (pad : Bool) : Nat → Packer
  | 0 => k
  | fuel + 1 => if k.nacc = 0 then k else (k.putBit pad).padLoop pad fuel

/-- The flush of R223: at most 7 pad bits complete a byte. -/
def Packer.flush (k : Packer) (pad : Bool) : Packer := k.padLoop pad 8

/-- The checks of k commits from BW_LEN = len on: the capacity, then MEM, for each byte in turn (R217). -/
def State.commitCheck (s : State) (base cap : Nat) : Nat → Nat → Res Unit
  | 0, _ => .ok ()
  | k + 1, len => do
    require (decide (len < cap)) .contractViolation 2
    s.checkRange (base + len) 1
    s.commitCheck base cap k (len + 1)

/-- The writer's CSRs as the packer leaves them: the partial byte and BW_LEN (R43). -/
def State.setWriter (s : State) (k : Packer) (len : Nat) : State :=
  ((s.setCsrNat .bwLen len).setCsr .bwAcc (k.acc.setWidth 32)).setCsrNat .bwNacc k.nacc

/-- The finished bytes committed at BW_BASE + BW_LEN (R217). -/
def State.commit (s : State) (k : Packer) : Res State := do
  let base := s.getCsrNat .bwBase
  let len := s.getCsrNat .bwLen
  let bytes := k.out.reverse
  s.commitCheck base (s.getCsrNat .bwCap) bytes.length len
  return (s.putMem (base + len) bytes).setWriter k (len + bytes.length)

/-- The CSRs that a command may have changed by writing bits when it faults (R494). -/
def writerCsrsLeft : List Leftover := [.csr .bwAcc, .csr .bwNacc, .csr .bwLen]

/-- The bytes past the old BW_LEN that a faulting command could have committed when it commits at most n (R494). Log
entry 27. -/
def State.writerRoomLeft (s : State) (n : Nat) : Leftover :=
  let len := s.getCsrNat .bwLen
  .mem (s.getCsrNat .bwBase + len) (min (s.getCsrNat .bwCap - len) n)

/-- What a fault leaves of the writer when a command commits at most n bytes (R494): its CSRs and those bytes. -/
def State.writerLeftBytes (s : State) (n : Nat) : List Leftover := writerCsrsLeft ++ [s.writerRoomLeft n]

/-- The same when a command puts at most n bits: with stuffing on, each byte they finish may be followed by a 0x00 (R217). -/
def State.writerLeft (s : State) (n : Nat) : List Leftover :=
  let bytes := (s.getCsrNat .bwNacc + n) / 8
  s.writerLeftBytes (if s.packer.stuff then 2 * bytes else bytes)

/-! ### Byte copies -/

/-- n bytes read from src on, each then checked as a write at dst, dst + 1, … -/
def State.copyFrom (s : State) : Nat → Nat → Nat → Res (List Byte)
  | _, _, 0 => .ok []
  | src, dst, n + 1 => do
    let b ← s.readByte src
    s.checkRange dst 1
    let bs ← s.copyFrom (src + 1) (dst + 1) n
    return b :: bs

end Sys2Proof.Machine
end

