-- ==== Sys2Proof/Machine/Bitstream.lean ====
section
/-! DEFINITION. The bit stream commands (spec/41_bitstream.md): BRINIT, RDBITS, ALIGN, UNSTUFF, BWINIT, WRBITS, BWFLUSH,
SBGATHER, SBSPLIT. -/

namespace Sys2Proof.Machine

/-- BRINIT (R210): the reader's buffer, at bit 0. -/
def execBrinit (rb rc : Reg) (order : BitOrder) (s : State) : Outcome :=
  finish s (.ok ((((s.setCsr .brBase (s.getX rb)).setCsr .brLen (s.getX rc)).setCsr .brPos 0).setCsr .brMode
    (readMode order)))

/-- RDBITS (R213): X[ra] <- ReadBits(n). Too few bits leave BR_POS; a read outside MEM leaves it unspecified (R494). -/
def execRdbits (ra : Reg) (n : BitVec 5) (s : State) : Outcome :=
  finish s do
    let p := s.getCsrNat .brPos
    s.reader.requireBits p n.toNat
    let (v, p) ← leaving [.csr .brPos] (s.reader.readBits s p n.toNat)
    return (s.setX ra (u32 v)).setCsrNat .brPos p

/-- `(BR_POS + 7) & ~7` on 33 bits (R214, R215). -/
def alignedPos (p : Nat) : Nat := (p + 7) / 8 * 8

/-- ALIGN (R215). -/
def execAlign (s : State) : Outcome :=
  finish s do
    let q := alignedPos (s.getCsrNat .brPos)
    leaving [.csr .brPos] (require (decide (q ≤ 0xFFFFFFFF)) .corruptStream 1)
    return s.setCsrNat .brPos q

/-- The loop of UNSTUFF (R216) from source index i with o bytes put out: the output and the source bytes consumed. Every
pass moves i on, so n + 1 passes reach the end of the source. -/
def unstuffLoop (s : State) (src n dst : Nat) : Nat → Nat → Nat → List Byte → Res (List Byte × Nat)
  | 0, _, _, _ => fail .corruptStream 5
  | fuel + 1, i, o, out => do
    require (decide (i < n)) .corruptStream 5
    let b ← s.readByte (src + i)
    if b != 0xFF then
      s.checkRange (dst + o) 1
      unstuffLoop s src n dst fuel (i + 1) (o + 1) (b :: out)
    else
      require (decide (i + 1 < n)) .corruptStream 5
      let c ← s.readByte (src + i + 1)
      if c == 0x00 then
        s.checkRange (dst + o) 1
        unstuffLoop s src n dst fuel (i + 2) (o + 1) (0xFF :: out)
      else if decide (0xD0 ≤ c.toNat ∧ c.toNat ≤ 0xD7) then
        unstuffLoop s src n dst fuel (i + 2) o out
      else if c == 0xD9 then
        return (out.reverse, i + 2)
      else
        s.checkRange (dst + o) 1
        unstuffLoop s src n dst fuel (i + 1) (o + 1) (0xFF :: out)

/-- UNSTUFF (R216): ra in/out, the destination and the output length; AUX the source bytes consumed. -/
def execUnstuff (ra rb rc : Reg) (s : State) : Outcome :=
  finish s do
    let src := s.getXNat rb
    let n := s.getXNat rc
    let dst := s.getXNat ra
    requireDisjoint ⟨src, n⟩ ⟨dst, n⟩
    let (out, i) ← leaving [.csr .aux, .mem dst n] (unstuffLoop s src n dst (n + 1) 0 0 [])
    return ((s.putMem dst out).setX ra (u32 out.length)).setCsrNat .aux i

/-- BWINIT (R219): the six writer CSRs; a pending partial byte is discarded. -/
def execBwinit (rb rc : Reg) (order : BitOrder) (stuff : Bool) (s : State) : Outcome :=
  finish s (.ok ((((((s.setCsr .bwBase (s.getX rb)).setCsr .bwCap (s.getX rc)).setCsr .bwLen 0).setCsr .bwAcc 0).setCsr
    .bwNacc 0).setCsr .bwMode (writeMode order stuff)))

/-- WRBITS (R222): the low n bits of X[rb], which must fit them. -/
def execWrbits (rb : Reg) (n : BitVec 5) (s : State) : Outcome :=
  finish s (leaving (s.writerLeft n.toNat) do
    let v := s.getXNat rb
    require (decide (v < 2 ^ n.toNat)) .contractViolation 3
    s.commit (s.packer.putBits v n.toNat))

/-- BWFLUSH (R223): the partial byte is padded; X[ra] <- BW_LEN. -/
def execBwflush (ra : Reg) (pad : Bool) (s : State) : Outcome :=
  finish s do
    let t ← leaving (s.writerLeft 7) (s.commit (s.packer.flush pad))
    return t.setX ra (t.getCsr .bwLen)

/-- The scan of SBGATHER (R225) from offset i: the data ranges in order, last first, their total, and the bytes consumed
with the terminator. Every pass moves i on by at least 1, so it leaves MEM within memSize + 1 passes. -/
def sbScan (s : State) (src : Nat) : Nat → Nat → Nat → List Region → Res (List Region × Nat × Nat)
  | 0, i, _, _ => fail .ioError (src + i)
  | fuel + 1, i, total, segs => do
    let l ← s.readByte (src + i)
    if l == 0 then return (segs.reverse, total, i + 1)
    else sbScan s src fuel (i + 1 + l.toNat) (total + l.toNat) (⟨src + i + 1, l.toNat⟩ :: segs)

/-- The copy of SBGATHER (R225): the data ranges, one after the other, to dst. -/
def gatherCopy (s : State) : List Region → Nat → Res (List Byte)
  | [], _ => .ok []
  | seg :: segs, dst => do
    let bs ← s.copyFrom seg.base dst seg.len
    let rest ← gatherCopy s segs (dst + seg.len)
    return bs ++ rest

/-- SBGATHER (R225): scan, then check, then copy; so a fault before the copy leaves MEM (log entry 14). -/
def execSbgather (ra rb rc : Reg) (s : State) : Outcome :=
  finish s do
    let src := s.getXNat rb
    let dst := s.getXNat ra
    let cap := s.getXNat rc
    let (segs, total, consumed) ← leaving [.csr .aux] (sbScan s src (s.memSize + 1) 0 0 [])
    requireDisjoint ⟨src, consumed⟩ ⟨dst, cap⟩
    leaving [.csr .aux] (require (decide (total ≤ cap)) .contractViolation 2)
    let out ← leaving [.csr .aux, .mem dst total] (gatherCopy s segs dst)
    return ((s.putMem dst out).setX ra (u32 total)).setCsrNat .aux consumed

/-- The writes of SBSPLIT (R226): n bytes left at src go out from dst on as sub-blocks of at most 255, then the terminator.
Every pass takes at least one byte, so n + 1 passes suffice. -/
def splitLoop (s : State) : Nat → Nat → Nat → Nat → Res (List Byte)
  | 0, _, _, _ => .ok []
  | fuel + 1, src, n, dst => do
    s.checkRange dst 1
    if n = 0 then return [0]
    else
      let l := min 255 n
      let bs ← s.copyFrom src (dst + 1) l
      let rest ← splitLoop s fuel (src + l) (n - l) (dst + 1 + l)
      return BitVec.ofNat 8 l :: bs ++ rest

/-- The bytes SBSPLIT writes for n bytes: n + ceil(n / 255) + 1 (R226). -/
def splitLength (n : Nat) : Nat := n + (n + 254) / 255 + 1

/-- SBSPLIT (R226): ra in/out, the destination and the bytes written. -/
def execSbsplit (ra rb rc : Reg) (s : State) : Outcome :=
  finish s do
    let src := s.getXNat rb
    let n := s.getXNat rc
    let dst := s.getXNat ra
    requireDisjoint ⟨src, n⟩ ⟨dst, splitLength n⟩
    let out ← leaving [.mem dst (splitLength n)] (splitLoop s (n + 1) src n dst)
    return (s.putMem dst out).setX ra (u32 out.length)

end Sys2Proof.Machine
end

