-- ==== Sys2Proof/Machine/Arith64.lean ====
section
/-! DEFINITION. The binary64 arithmetic of spec/44_block_transform.md R331 and R335: round-to-nearest-even addition, multiplication,
division and conversion, and rounding with halves away from zero.

Every finite binary64 is an integer number of units 2^-1074, so each operation is exact integer arithmetic and one rounding.
S holds finite values only (R51). An operation on a pattern of an infinity or a NaN answers one, as the IEEE operation does;
f64Units and f64Mag read such a pattern, which no run puts into S, as if the exponent range went on (log entry 28). -/

namespace Sys2Proof.Machine

/-- The sign bit. -/
def f64Neg (d : Binary64) : Bool := d.getLsbD 63

/-- The biased exponent field. -/
def f64Exp (d : Binary64) : Nat := (d.extractLsb' 52 11).toNat

/-- The fraction field. -/
def f64Frac (d : Binary64) : Nat := (d.extractLsb' 0 52).toNat

/-- The magnitude in units of 2^-1074. -/
def f64Mag (d : Binary64) : Nat :=
  if f64Exp d = 0 then f64Frac d else (2 ^ 52 + f64Frac d) * 2 ^ (f64Exp d - 1)

/-- The value in units of 2^-1074. -/
def f64Units (d : Binary64) : Int := if f64Neg d then -(f64Mag d : Int) else (f64Mag d : Int)

/-- num / den to the nearest integer, a tie to the even one. -/
def divNearestEven (num den : Nat) : Nat :=
  let q := num / den
  let r := num % den
  if 2 * r < den then q
  else if den < 2 * r then q + 1
  else if q % 2 = 0 then q else q + 1

/-- The bits of an infinity. -/
def f64InfBits : Nat := 0x7FF * 2 ^ 52

/-- The magnitude bits of num / den units, rounded to nearest even: with `shift` the exponent step in which the value has at
most 53 bits and m its rounded multiple, the bits are shift * 2^52 + m, a carry out of m going into the exponent. -/
def f64RoundMag (num den : Nat) : Nat :=
  let shift := bitlen (num / den) - 53
  let m := divNearestEven num (den * 2 ^ shift)
  if num = 0 then 0 else min (shift * 2 ^ 52 + m) f64InfBits

/-- The binary64 nearest to ± num / den units (ties to even). -/
def f64Round (neg : Bool) (num den : Nat) : Binary64 :=
  BitVec.ofBool neg ++ BitVec.ofNat 63 (f64RoundMag num den)

/-- What an operation answers that has an infinity or a NaN among its operands: neither is finite, and no meaning tells them
apart. -/
def f64NotFinite : Binary64 := 0x7FF8000000000000

/-- The finite binary64 of the greatest magnitude, with a sign. -/
def f64MaxFinite (neg : Bool) : Binary64 := BitVec.ofBool neg ++ 0x7FEFFFFFFFFFFFFF#63

/-- `binary64(i)`, exact for every 32-bit integer (R351). -/
def f64OfInt (i : Int) : Binary64 := f64Round (decide (i < 0)) (i.natAbs * 2 ^ 1074) 1

/-- Addition (R331). An exact zero sum is +0 unless both operands are negative zeros. -/
def f64Add (a b : Binary64) : Binary64 :=
  let u := f64Units a + f64Units b
  if !(Binary64.isFinite a && Binary64.isFinite b) then f64NotFinite
  else if u = 0 then f64Round (f64Neg a && f64Neg b) 0 1 else f64Round (decide (u < 0)) u.natAbs 1

/-- Multiplication (R331). -/
def f64Mul (a b : Binary64) : Binary64 :=
  if !(Binary64.isFinite a && Binary64.isFinite b) then f64NotFinite
  else f64Round (f64Neg a ^^ f64Neg b) (f64Mag a * f64Mag b) (2 ^ 1074)

/-- Division by a positive integer, which is exact as a binary64 (R331, R347). -/
def f64DivNat (a : Binary64) (d : Nat) : Binary64 :=
  if !Binary64.isFinite a then f64NotFinite else f64Round (f64Neg a) (f64Mag a) d

/-- `sign(x) * floor(|x| + 1/2)`, exactly: halves away from zero, no range fault (R335, `round_nc` of R342). -/
def f64RoundInt (d : Binary64) : Int :=
  let n : Nat := (f64Mag d + 2 ^ 1073) / 2 ^ 1074
  if f64Neg d then -(n : Int) else (n : Int)

/-- The range of a coefficient: -2^31 .. 2^31 - 1 (R335, R348). -/
def inInt32 (i : Int) : Bool := decide (-2 ^ 31 ≤ i ∧ i ≤ 2 ^ 31 - 1)

/-- An integer as an element of K; outside int32 it is ContractViolation(16) (R335, R348). -/
def toInt32 (i : Int) : Res Word := do
  require (inInt32 i) .contractViolation 16
  return u32i i

/-- `round(x)` of R335. -/
def f64ToInt32 (d : Binary64) : Res Word := toInt32 (f64RoundInt d)

/-- `clamp(x, 0, 255)` as a byte (R342). -/
def clampByte (i : Int) : Byte := BitVec.ofNat 8 (min 255 (max 0 i)).toNat

/-! ### The cosines of the 8-point basis (R331, R332) -/

/-- The binary64 nearest to cos(k pi / 16), k = 0..7. -/
def cosBits : List Binary64 :=
  [0x3FF0000000000000, 0x3FEF6297CFF75CB0, 0x3FED906BCF328D46, 0x3FEA9B66290EA1A3,
   0x3FE6A09E667F3BCD, 0x3FE1C73B39AE68C8, 0x3FD87DE2A6AEA963, 0x3FC8F8B83C69A60B]

/-- cos(k pi / 16) * 2^128 to the nearest integer, k = 0..7. -/
def cosScaled : List Nat :=
  [340282366920938463463374607431768211456, 333743936656827580393945988193699131951,
   314379914072750776175968446001973125505, 282934447697145148265594844364568804969,
   240615969168004511545033772477625056927, 189050753882727566157415671260389918823,
   130220424146621615521356287377630227996, 66385796539016198537004233668372411924]

/-- cos(j pi / 16) brought to the first quadrant: the sign, and k with |cos(j pi / 16)| = cos(k pi / 16). -/
def cosFold (j : Nat) : Bool × Nat :=
  let j := j % 32
  if j ≤ 8 then (false, j) else if j ≤ 16 then (true, 16 - j) else if j ≤ 24 then (true, j - 16) else (false, 32 - j)

/-- The binary64 nearest to cos((2x + 1) u pi / 16). -/
def cosTerm (x u : Nat) : Binary64 :=
  let (neg, k) := cosFold ((2 * x + 1) * u)
  let c := cosBits.getD k 0
  if neg then c ||| (1#64 <<< 63) else c

/-- C(u) * cos((2x + 1) u pi / 16) * 2^128 within 1; for u = 0 it is 1/sqrt(2) = cos(4 pi / 16). -/
def basisScaled (x u : Nat) : Int :=
  let (neg, k) := if u = 0 then (false, 4) else cosFold ((2 * x + 1) * u)
  let c : Int := cosScaled.getD k 0
  if neg then -c else c

end Sys2Proof.Machine
end

