-- ==== Sys2Proof/Machine/Block.lean ====
section
/-! DEFINITION. The block transform commands (spec/44_block_transform.md): QLOAD, SLDB, SSTB, KLD, KST, FDCT, IDCT, QUANT,
DEQUANT, ZZFWD, ZZINV, CVTKS, CVTSK. -/

namespace Sys2Proof.Machine

/-- The zigzag sequence: ZZ[k] is the natural index of scan position k (R330). -/
def zigzagTable : List Nat :=
  [0, 1, 8, 16, 9, 2, 3, 10, 17, 24, 32, 25, 18, 11, 4, 5] ++
  [12, 19, 26, 33, 40, 48, 41, 34, 27, 20, 13, 6, 7, 14, 21, 28] ++
  [35, 42, 49, 56, 57, 50, 43, 36, 29, 22, 15, 23, 30, 37, 44, 51] ++
  [58, 59, 52, 45, 38, 31, 39, 46, 53, 60, 61, 54, 47, 55, 62, 63]

/-- The inverse sequence: ZI[ZZ[k]] = k (R330; printed in spec/95_test_vectors.md S5). -/
def unzigzagTable : List Nat :=
  [0, 1, 5, 6, 14, 15, 27, 28, 2, 4, 7, 13, 16, 26, 29, 42] ++
  [3, 8, 12, 17, 25, 30, 41, 43, 9, 11, 18, 24, 31, 40, 44, 53] ++
  [10, 19, 23, 32, 39, 45, 52, 54, 20, 22, 33, 38, 46, 51, 55, 60] ++
  [21, 34, 37, 47, 50, 56, 59, 61, 35, 36, 48, 49, 57, 58, 62, 63]

/-- ZZ[k]. -/
def zz (k : Nat) : Nat := zigzagTable.getD k 0

/-- ZI[n]. -/
def zi (n : Nat) : Nat := unzigzagTable.getD n 0

/-- A block whose element i is a function of i. -/
def blockOf {α : Type} (f : Nat → α) : Vector α 64 := Vector.ofFn fun i => f i.val

/-- Element i of a block; outside the block, which no command asks for, the value given. -/
def blockAt {α : Type} (v : Vector α 64) (i : Nat) (d : α) : α := v.toList.getD i d

/-- f at i, i + 1, …, k values in this order, the first fault ending it (R493). -/
def collect {α : Type} (f : Nat → Res α) : Nat → Nat → Res (List α)
  | _, 0 => .ok []
  | i, k + 1 => do
    let a ← f i
    let as ← collect f (i + 1) k
    return a :: as

/-- A block from 64 results, in the order i = 0..63. -/
def collectBlock {α : Type} (d : α) (f : Nat → Res α) : Res (Vector α 64) := do
  let as ← collect f 0 64
  return blockOf fun i => as.getD i d

/-! ### Quantization tables -/

/-- Q[q][k]: the divisor of scan position k (R334). -/
def State.divisor (s : State) (q : BitVec 4) (k : Nat) : Nat := (blockAt (s.qtabs.get q.toFin) k 0).toNat

/-- The divisor of element i of a block in the given order (R334). -/
def State.divisorOf (s : State) (q : BitVec 4) (order : TableOrder) (i : Nat) : Nat :=
  match order with
  | .scan => s.divisor q i
  | .natural => s.divisor q (zi i)

/-- Table q has been loaded since reset: its Q_VALID bit (R44). -/
def State.tableValid (s : State) (q : BitVec 4) : Bool := validBit (s.getCsr .qValid) q.toNat

/-- `if CSR.Q_VALID[q] = 0: raise ContractViolation(14)`. -/
def State.requireTable (s : State) (q : BitVec 4) : Res Unit := require (s.tableValid q) .contractViolation 14

/-- Table q is written and becomes valid (R340). -/
def State.setTable (s : State) (q : BitVec 4) (t : Vector Byte 64) : State :=
  { s with qtabs := s.qtabs.set q.toNat t q.isLt }.setCsr .qValid (setValidBit (s.getCsr .qValid) q.toNat)

/-- The table number and the offset of the body: from the prefix byte (precision in bits 7..4, which must be 0, destination
in bits 3..0), or from the command (R340). -/
def quantPrefix (s : State) (a : Nat) (q : BitVec 4) (pfx : Bool) : Res (BitVec 4 × Nat) :=
  if pfx then do
    let p ← s.readByte a
    require (decide (p.toNat / 16 = 0)) .unsupportedFeature 3
    return (BitVec.ofNat 4 (p.toNat % 16), a + 1)
  else .ok (q, a)

/-- The byte of a stored table that is divisor k: byte k in scan order, byte ZZ[k] in natural order (R334, R340). -/
def storedIndex (tord : TableOrder) (k : Nat) : Nat :=
  match tord with
  | .scan => k
  | .natural => zz k

/-- QLOAD (R340): a fault leaves the table. X[ra] <- the bytes consumed. -/
def execQload (ra rb : Reg) (q : BitVec 4) (pfx : Bool) (tord : TableOrder) (s : State) : Outcome :=
  finish s do
    let (t, a) ← quantPrefix s (s.getXNat rb) q pfx
    let table ← collectBlock 0 fun k => s.readByte (a + storedIndex tord k)
    return (s.setTable t table).setX ra (u32 (a + 64 - s.getXNat rb))

/-! ### Block load and store -/

/-- The address of element i = 8r + c of a block at X[rb] with row stride X[rc], not wrapped (R341). -/
def State.blockAddr (s : State) (rb rc : Reg) (i : Nat) : Nat := s.getXNat rb + i / 8 * s.getXNat rc + i % 8

/-- The level shift of R336. -/
def levelShift (shift : Bool) : Int := if shift then 128 else 0

/-- SLDB (R341): a fault leaves S unspecified. -/
def execSldb (rb rc : Reg) (shift : Bool) (s : State) : Outcome :=
  finish s (leaving [.sFile] do
    let block ← collectBlock 0 fun i => do
      let b ← s.readByte (s.blockAddr rb rc i)
      return f64OfInt ((b.toNat : Int) - levelShift shift)
    return { s with sfile := block })

/-- The byte SSTB stores for element i: the shifted sample rounded and clamped (R342). -/
def State.sampleByte (s : State) (shift : Bool) (i : Nat) : Byte :=
  clampByte (f64RoundInt (f64Add (blockAt s.sfile i 0) (f64OfInt (levelShift shift))))

/-- The stores of SSTB from element i on, k of them; `done` holds those made, last first. A fault keeps them (R342). -/
def sstbLoop (s : State) (rb rc : Reg) (shift : Bool) : Nat → Nat → List Host.Cell → Res (List Host.Cell)
  | _, 0, done => .ok done.reverse
  | i, k + 1, done => do
    leaving [.stored done.reverse] (s.checkRange (s.blockAddr rb rc i) 1)
    sstbLoop s rb rc shift (i + 1) k ((s.blockAddr rb rc i, s.sampleByte shift i) :: done)

/-- SSTB (R342): later writes win; on a fault the bytes before the faulting one are written. -/
def execSstb (rb rc : Reg) (shift : Bool) (s : State) : Outcome :=
  finish s do
    let cells ← sstbLoop s rb rc shift 0 64 []
    return s.putCells cells

/-- KLD (R343): a fault leaves K unspecified. -/
def execKld (rb : Reg) (s : State) : Outcome :=
  finish s (leaving [.kFile] do
    let block ← collectBlock 0 fun i => do
      let v ← s.memRead (s.getXNat rb + 4 * i) 4
      return u32 v
    return { s with kfile := block })

/-- The 256 bytes KST stores: the elements of K, 4 bytes each, little-endian (R344). -/
def State.kBytes (s : State) : List Byte := s.kfile.toList.flatMap fun w => leBytes 4 w.toNat

/-- What an IoError of KST leaves: the elements wholly inside MEM, written before the one that faults, whose 4-byte write
writes none of its bytes (R105, R494). -/
def State.kstLeft (s : State) (dst : Nat) : Leftover := .mem dst (min 256 ((s.memSize - dst) / 4 * 4))

/-- KST (R344). -/
def execKst (rb : Reg) (s : State) : Outcome :=
  finish s (leaving [s.kstLeft (s.getXNat rb)] (s.storeBytes (s.getXNat rb) s.kBytes))

/-! ### Transforms (R331 to R333) -/

/-- C(u): the binary64 nearest to 1/sqrt(2) for u = 0, 1 otherwise (R332). -/
def normC (u : Nat) : Binary64 := if u = 0 then 0x3FE6A09E667F3BCD else 0x3FF0000000000000

/-- 0.25 as a binary64. -/
def quarter : Binary64 := 0x3FD0000000000000

/-- The binary64 sum of f j for j = 0..63 from +0 on, the inner index running fastest (R331; log entry 6). -/
def sumBlock (f : Nat → Binary64) : Binary64 := (List.range 64).foldl (fun acc j => f64Add acc (f j)) 0

/-- The reference evaluation of element n = 8v + u of FDCT (R331, R332). -/
def fdctReference (b : Vector Binary64 64) (n : Nat) : Binary64 :=
  let sum := sumBlock fun j =>
    f64Mul (f64Mul (blockAt b j 0) (cosTerm (j % 8) (n % 8))) (cosTerm (j / 8) (n / 8))
  f64Mul sum (f64Mul (f64Mul quarter (normC (n % 8))) (normC (n / 8)))

/-- The reference evaluation of element n = 8y + x of IDCT (R331, R333). -/
def idctReference (b : Vector Binary64 64) (n : Nat) : Binary64 :=
  let sum := sumBlock fun j =>
    f64Mul (f64Mul (f64Mul (f64Mul (normC (j % 8)) (normC (j / 8))) (blockAt b j 0)) (cosTerm (n % 8) (j % 8)))
      (cosTerm (n / 8) (j / 8))
  f64Mul sum quarter

/-- The coefficient of element j in element n of a transform, times 4 * 2^256: the product of two basis values (R332, R333). -/
def transformWeight (inverse : Bool) (n j : Nat) : Int :=
  if inverse then basisScaled (n % 8) (j % 8) * basisScaled (n / 8) (j / 8)
  else basisScaled (j % 8) (n % 8) * basisScaled (j / 8) (n / 8)

/-- Element n of the exact transform, in units of 2^-1074 * 2^-258, and a bound of the error that the 128-bit cosines make in
it (R332, R333). -/
def transformExact (inverse : Bool) (b : Vector Binary64 64) (n : Nat) : Int × Nat :=
  (List.range 64).foldl
    (fun acc j =>
      (acc.1 + f64Units (blockAt b j 0) * transformWeight inverse n j, acc.2 + f64Mag (blockAt b j 0) * 2 ^ 130)) (0, 0)

/-- The value d is within DCT_EPS = eps * 2^-64 of the exact element, up to the bound on the cosines (R331). -/
def inBand (eps : Nat) (exact : Int × Nat) (d : Binary64) : Bool :=
  Binary64.isFinite d && decide ((f64Units d * 2 ^ 258 - exact.1).natAbs ≤ eps * 2 ^ (1010 + 258) + exact.2)

/-- The finite binary64 nearest to the exact element. -/
def nearestExact (exact : Int × Nat) : Binary64 :=
  let neg := decide (exact.1 < 0)
  let d := f64Round neg exact.1.natAbs (2 ^ 258)
  if Binary64.isFinite d then d else f64MaxFinite neg

/-- A sample as written to S, which holds finite values only (R51): where the formula leaves the range of binary64, a free
finite value, the k-th drawn. Log entry 7. -/
def finiteOr (k : Nat) (d : Binary64) : Binary64 := if Binary64.isFinite d then d else freeFiniteSample k

/-- Element n of FDCT or IDCT (R331): the reference evaluation, or a drawn value within DCT_EPS of the exact one. Where no
binary64 is within DCT_EPS of it the rule gives no value, and the element is a free finite one. Log entries 5 and 7. -/
def transformElement (inverse : Bool) (s : State) (n : Nat) : Binary64 :=
  match s.params.dct with
  | .reference => finiteOr (s.draws + n) (if inverse then idctReference s.sfile n else fdctReference s.sfile n)
  | .drawn eps =>
    let exact := transformExact inverse s.sfile n
    let d := freeFiniteSample (s.draws + n)
    if inBand eps exact d then d
    else if inBand eps exact (nearestExact exact) then nearestExact exact
    else d

/-- S <- FDCT(S) or IDCT(S) (R345, R346); 64 draws are used up. -/
def State.transformed (s : State) (inverse : Bool) : State :=
  { s with sfile := blockOf (transformElement inverse s), draws := s.draws + 64 }

/-- FDCT (R345). -/
def execFdct (s : State) : Outcome := finish s (.ok (s.transformed false))

/-- IDCT (R346). -/
def execIdct (s : State) : Outcome := finish s (.ok (s.transformed true))

/-! ### Quantization, zigzag and conversion -/

/-- Element i of QUANT: round(S[i] / d), with the faults of a zero divisor and of the range (R347). -/
def quantElement (s : State) (q : BitVec 4) (order : TableOrder) (i : Nat) : Res Word := do
  let d := s.divisorOf q order i
  require (d != 0) .contractViolation 15
  f64ToInt32 (f64DivNat (blockAt s.sfile i 0) d)

/-- QUANT (R347): K is unspecified after a fault. -/
def execQuant (q : BitVec 4) (order : TableOrder) (s : State) : Outcome :=
  finish s (leaving [.kFile] do
    s.requireTable q
    let block ← collectBlock 0 (quantElement s q order)
    return { s with kfile := block })

/-- Element i of DEQUANT: the exact product, which must be an int32 (R348). -/
def dequantElement (s : State) (q : BitVec 4) (order : TableOrder) (i : Nat) : Res Word :=
  toInt32 (s32 (blockAt s.kfile i 0) * (s.divisorOf q order i : Int))

/-- DEQUANT (R348). -/
def execDequant (q : BitVec 4) (order : TableOrder) (s : State) : Outcome :=
  finish s (leaving [.kFile] do
    s.requireTable q
    let block ← collectBlock 0 (dequantElement s q order)
    return { s with kfile := block })

/-- `A'[k] <- A[ZZ[k]]` (R349). -/
def zigzagForward {α : Type} (d : α) (v : Vector α 64) : Vector α 64 := blockOf fun k => blockAt v (zz k) d

/-- `A'[ZZ[k]] <- A[k]`, so A'[n] = A[ZI[n]] (R350). -/
def zigzagInverse {α : Type} (d : α) (v : Vector α 64) : Vector α 64 := blockOf fun n => blockAt v (zi n) d

/-- ZZFWD (R349). -/
def execZzfwd (file : BlockFile) (s : State) : Outcome :=
  finish s (.ok
    (match file with
    | .k => { s with kfile := zigzagForward 0 s.kfile }
    | .s => { s with sfile := zigzagForward 0 s.sfile }))

/-- ZZINV (R350). -/
def execZzinv (file : BlockFile) (s : State) : Outcome :=
  finish s (.ok
    (match file with
    | .k => { s with kfile := zigzagInverse 0 s.kfile }
    | .s => { s with sfile := zigzagInverse 0 s.sfile }))

/-- CVTKS (R351): exact. -/
def execCvtks (s : State) : Outcome :=
  finish s (.ok { s with sfile := blockOf fun i => f64OfInt (s32 (blockAt s.kfile i 0)) })

/-- CVTSK (R352): K is unspecified after a fault. -/
def execCvtsk (s : State) : Outcome :=
  finish s (leaving [.kFile] do
    let block ← collectBlock 0 fun i => f64ToInt32 (blockAt s.sfile i 0)
    return { s with kfile := block })

end Sys2Proof.Machine
end

