-- ==== Sys2Proof/Machine/Huffman.lean ====
section
/-! DEFINITION. The Huffman commands (spec/42_huffman.md): HBUILD, HDEC, HCTAB, HENC, HFROMENT, and the tree, decode and code
table functions of a slot. -/

namespace Sys2Proof.Machine

/-- H[1..16] as numbers. -/
def HuffSlot.counts (t : HuffSlot) : List Nat := t.hist.toList.map BitVec.toNat

/-- The slot's contents. -/
def State.slot (s : State) (i : BitVec 5) : HuffSlot := s.slots.get i.toFin

/-- The slot has been built since reset: its HUFF_VALID bit (R44). -/
def State.slotValid (s : State) (i : BitVec 5) : Bool := validBit (s.getCsr .huffValid) i.toNat

/-- The slot is written and becomes valid (R265). -/
def State.setSlot (s : State) (i : BitVec 5) (t : HuffSlot) : State :=
  { s with slots := s.slots.set i.toNat t i.isLt }.setCsr .huffValid (setValidBit (s.getCsr .huffValid) i.toNat)

/-- `BuildTree` succeeds on the counts from a depth with `frontier` nodes on (R260, R261): no depth is over-subscribed. -/
def treeFits : List Nat → Nat → Bool
  | [], _ => true
  | h :: hs, frontier => decide (h ≤ frontier) && treeFits hs (2 * (frontier - h))

/-- `BuildTree(H, SYM)` succeeds: the frontier starts with the two children of the root (R260). -/
def buildTreeOk (counts : List Nat) : Bool := treeFits counts 2

/-- The canonical codes from length len on, FIRST[len] = first, in symbol order, each with its length (R261). -/
def canonicalFrom : List Nat → Nat → Nat → List (Nat × Nat)
  | [], _, _ => []
  | h :: hs, len, first => (List.range h).map (fun j => (first + j, len)) ++ canonicalFrom hs (len + 1) (2 * (first + h))

/-- The canonical codes of a histogram (R261). -/
def canonicalCodes (counts : List Nat) : List (Nat × Nat) := canonicalFrom counts 1 0

/-- The descent of `HuffDecode` from the length of the list's head on: FIRST, OFF and the code read so far (R262). With no
length left the 17th bit is read and the dead end faults. -/
def huffWalk (rd : Reader) (s : State) (syms : List Byte) : List Nat → Nat → Nat → Nat → Nat → Res (Byte × Nat)
  | [], _, _, _, p => do
    let _ ← rd.readBit s p
    fail .corruptStream 2
  | h :: hs, first, off, code, p => do
    let (b, p) ← rd.readBit s p
    let code := 2 * code + b
    if code < first + h then return (syms.getD (off + code - first) 0, p)
    else huffWalk rd s syms hs (2 * (first + h)) (off + h) code p

/-- `HuffDecode(slot)` at cursor p: the symbol and the cursor after it (R262). -/
def huffDecode (rd : Reader) (s : State) (t : HuffSlot) (p : Nat) : Res (Byte × Nat) :=
  huffWalk rd s t.syms t.counts 0 0 0 p

/-- Some byte stands twice in the list. -/
def hasRepeat : List Byte → Bool
  | [] => false
  | b :: bs => bs.contains b || hasRepeat bs

/-- `CodeTable(slot)`: each symbol that has a code with its code and length; a symbol twice is ContractViolation(7) (R263). -/
def codeTable (t : HuffSlot) : Res (List (Byte × Nat × Nat)) := do
  let table := t.syms.zip (canonicalCodes t.counts)
  require (!hasRepeat (table.map Prod.fst)) .contractViolation 7
  return table

/-- (CODE[v], LEN[v]) of a code table; none when LEN[v] = 0 (R263). -/
def codeOf (table : List (Byte × Nat × Nat)) (v : Nat) : Option (Nat × Nat) :=
  (table.find? fun e => e.1.toNat == v).map Prod.snd

/-- The code and length that `HuffEncode(slot, v)` puts: ContractViolation(7), then (8) (R269, R465). -/
def huffCode (t : HuffSlot) (v : Nat) : Res (Nat × Nat) := do
  let table ← codeTable t
  match codeOf table v with
  | some c => return c
  | none => fail .contractViolation 8

/-- `if CSR.HUFF_VALID[s] = 0: raise ContractViolation(4)`. -/
def State.requireSlot (s : State) (i : BitVec 5) : Res Unit := require (s.slotValid i) .contractViolation 4

/-- A histogram from 16 bytes. -/
def histOf (bs : List Byte) : Vector Byte 16 := Vector.ofFn fun i => bs.getD i.val 0

/-- The slot and the offset of the body: from the prefix byte (class in bits 7..4, destination in bits 3..0; a class above 1
is ContractViolation(4)), or from the command (R264, R265). -/
def tablePrefix (s : State) (a : Nat) (slot : BitVec 5) (pfx : Bool) : Res (BitVec 5 × Nat) :=
  if pfx then do
    let p ← s.readByte a
    require (decide (p.toNat / 16 ≤ 1)) .contractViolation 4
    return (BitVec.ofNat 5 (16 * (p.toNat / 16) + p.toNat % 16), a + 1)
  else .ok (slot, a)

/-- A table body at a: the histogram, then its symbols; and their number (R264, R265). -/
def readTable (s : State) (a : Nat) : Res (HuffSlot × Nat) := do
  let hist ← s.readBytes a 16
  let counts := hist.map BitVec.toNat
  let nsym := counts.sum
  require (decide (nsym ≤ Config.hsymMax)) .contractViolation 6
  let syms ← s.readBytes (a + 16) nsym
  require (buildTreeOk counts) .contractViolation 5
  return (⟨histOf hist, syms⟩, nsym)

/-- HBUILD (R265): a fault leaves the slot. X[ra] <- the bytes consumed, the prefix included. -/
def execHbuild (ra rb : Reg) (slot : BitVec 5) (pfx : Bool) (s : State) : Outcome :=
  finish s do
    let (i, a) ← tablePrefix s (s.getXNat rb) slot pfx
    let (t, nsym) ← readTable s a
    return (s.setSlot i t).setX ra (u32 (a + 16 + nsym - s.getXNat rb))

/-- HDEC (R266). -/
def execHdec (ra : Reg) (slot : BitVec 5) (s : State) : Outcome :=
  finish s (leaving [.csr .brPos] do
    s.requireSlot slot
    let (v, p) ← huffDecode s.reader s (s.slot slot) (s.getCsrNat .brPos)
    return (s.setX ra (v.setWidth 32)).setCsrNat .brPos p)

/-- The 4 bytes of one HCTAB entry: CODE[v] as u16 little-endian, LEN[v], 0 (R268). -/
def codeEntry (table : List (Byte × Nat × Nat)) (v : Nat) : List Byte :=
  match codeOf table v with
  | some (code, len) => leBytes 2 code ++ [BitVec.ofNat 8 len, 0]
  | none => [0, 0, 0, 0]

/-- What an IoError of HCTAB leaves: the bytes written before the write that faults. Where only the first byte of an entry
is in MEM, the 2-byte write of its code writes neither (R105, R494). -/
def State.hctabLeft (s : State) (dst : Nat) : Leftover :=
  let room := s.memSize - dst
  .mem dst (min 1024 (if room % 4 = 1 then room - 1 else room))

/-- HCTAB (R268): 256 entries at X[rb]; a repeated symbol leaves MEM. -/
def execHctab (rb : Reg) (slot : BitVec 5) (s : State) : Outcome :=
  finish s do
    let dst := s.getXNat rb
    leaving [.mem dst 1024] (s.requireSlot slot)
    let table ← codeTable (s.slot slot)
    leaving [s.hctabLeft dst] (s.storeBytes dst ((List.range 256).flatMap (codeEntry table)))

/-- HENC (R269): the code of X[rb] goes to the bit writer; a value above 255 has none. -/
def execHenc (rb : Reg) (slot : BitVec 5) (s : State) : Outcome :=
  finish s (leaving (s.writerLeft 16) do
    s.requireSlot slot
    let (code, len) ← huffCode (s.slot slot) (s.getXNat rb)
    s.commit (s.packer.putBits code len))

/-- An entry of HFROMENT (R270). -/
structure CodeEntry where
  code : Nat
  len : Nat
  sym : Byte
  deriving DecidableEq, Repr

/-- The entries of 4 bytes each: code u16 little-endian, length, symbol (R270). -/
def entriesOf : List Byte → List CodeEntry
  | b0 :: b1 :: b2 :: b3 :: rest => ⟨leValue [b0, b1], b2.toNat, b3⟩ :: entriesOf rest
  | _ => []

/-- The order of HFROMENT's sort: code ascending, ties by length ascending (R270). -/
def CodeEntry.le (a b : CodeEntry) : Bool := decide (a.code < b.code) || (a.code == b.code && decide (a.len ≤ b.len))

/-- An entry put before the first one it is not above. -/
def insertEntry (e : CodeEntry) : List CodeEntry → List CodeEntry
  | [] => [e]
  | x :: xs => if e.le x then e :: x :: xs else x :: insertEntry e xs

/-- The stable sort of R270. -/
def sortEntries (es : List CodeEntry) : List CodeEntry := es.foldr insertEntry []

/-- An entry in range: a length in 1..16 and a code below 2^len (R270). -/
def CodeEntry.inRange (e : CodeEntry) : Bool := decide (1 ≤ e.len ∧ e.len ≤ 16 ∧ e.code < 2 ^ e.len)

/-- H[1..16] of entries (R270). -/
def lengthCounts (es : List CodeEntry) : List Nat :=
  (List.range 16).map fun i => (es.filter fun e => e.len == i + 1).length

/-- The table body of entries: the histogram bytes, then the symbols in sorted order; anything but the canonical code of a
histogram is ContractViolation(9) (R270). -/
def bodyOfEntries (es : List CodeEntry) : Res (List Byte) := do
  require (es.all CodeEntry.inRange) .contractViolation 9
  let sorted := sortEntries es
  let counts := lengthCounts sorted
  require (counts.all fun h => decide (h ≤ 255)) .contractViolation 9
  require (buildTreeOk counts && sorted.map (fun e => (e.code, e.len)) == canonicalCodes counts) .contractViolation 9
  return counts.map (BitVec.ofNat 8) ++ sorted.map CodeEntry.sym

/-- HFROMENT (R270): ra in/out, the destination and the bytes written; nothing is written on a fault (log entry 29). -/
def execHfroment (ra rb rc : Reg) (s : State) : Outcome :=
  finish s do
    let src := s.getXNat rb
    let n := s.getXNat rc
    let dst := s.getXNat ra
    require (decide (n ≤ 256)) .contractViolation 6
    requireDisjoint ⟨src, 4 * n⟩ ⟨dst, 16 + n⟩
    let bytes ← s.readBytes src (4 * n)
    let body ← bodyOfEntries (entriesOf bytes)
    let t ← s.storeBytes dst body
    return t.setX ra (u32 (16 + n))

end Sys2Proof.Machine
end

