-- ==== Sys2Proof/Machine/Coef.lean ====
section
/-! DEFINITION. JPEG DC/AC coefficient coding of one block (spec/47_coefficient_coding.md): DECBLK, ENCBLK, PRST. -/

namespace Sys2Proof.Machine

/-- `cat(v) = bitlen(|v|)` (R460). -/
def category (v : Int) : Nat := bitlen v.natAbs

/-- `extend(bits, t)` for t > 0 (R460). -/
def extend (bits t : Nat) : Int := if 2 ^ (t - 1) ≤ bits then (bits : Int) else (bits : Int) - 2 ^ t + 1

/-- `rawbits(v, t)`, the inverse of extend (R460). -/
def rawbits (v : Int) (t : Nat) : Nat := if 0 ≤ v then v.toNat else (v + 2 ^ t - 1).toNat

/-- `extend(ReadBits(t), t) if t > 0 else 0`, and the cursor after it (R464). -/
def readExtended (rd : Reader) (s : State) (t p : Nat) : Res (Int × Nat) :=
  if t = 0 then .ok (0, p)
  else do
    let (bits, p) ← rd.readBits s p t
    return (extend bits t, p)

/-- The slot of an AC table: class 1, destination ac (R464). -/
def acSlot (ac : BitVec 4) : BitVec 5 := 1#1 ++ ac

/-- The slot of a DC table: class 0, destination dc (R464). -/
def dcSlot (dc : BitVec 4) : BitVec 5 := 0#1 ++ dc

/-- K with element k written. -/
def setCoef (block : Vector Word 64) (k : Nat) (v : Word) : Vector Word 64 := block.setIfInBounds k v

/-- The AC loop of DECBLK from coefficient k and cursor p on (R462, R464). Every pass moves k on, so 64 passes fill the
block. -/
def acLoop (rd : Reader) (s : State) (slot : HuffSlot) : Nat → Nat → Nat → Vector Word 64 → Res (Vector Word 64 × Nat)
  | 0, _, p, block => .ok (block, p)
  | fuel + 1, k, p, block =>
    if 64 ≤ k then .ok (block, p)
    else do
      let (rs, p) ← huffDecode rd s slot p
      let r := rs.toNat / 16
      let size := rs.toNat % 16
      if size = 0 then
        if r = 0 then return (block, p)
        else if r = 15 then
          require (decide (k + 16 ≤ 64)) .corruptStream 10
          acLoop rd s slot fuel (k + 16) p block
        else fail .corruptStream 9
      else
        require (decide (k + r ≤ 63)) .corruptStream 10
        let (v, p) ← readExtended rd s size p
        acLoop rd s slot fuel (k + r + 1) p (setCoef block (k + r) (u32i v))

/-- The block DECBLK decodes: K in scan order, the new predictor, and the cursor (R464). -/
def decodeBlock (s : State) (dc ac : BitVec 5) (pred : Word) : Res (Vector Word 64 × Word × Nat) := do
  let rd := s.reader
  let (t, p) ← huffDecode rd s (s.slot dc) (s.getCsrNat .brPos)
  require (decide (t.toNat ≤ 16)) .corruptStream 9
  let (diff, p) ← readExtended rd s t.toNat p
  let pred := u32i (pred.toNat + diff)
  let (block, p) ← acLoop rd s (s.slot ac) 64 1 p (setCoef (Vector.replicate 64 0) 0 pred)
  return (block, pred, p)

/-- DECBLK (R464): K, PRED[p] and BR_POS are unspecified after a fault. -/
def execDecblk (dc ac : BitVec 4) (p : BitVec 2) (s : State) : Outcome :=
  finish s (leaving [.kFile, .csr (Csr.pred p), .csr .brPos] do
    s.requireSlot (dcSlot dc)
    s.requireSlot (acSlot ac)
    let (block, pred, pos) ← decodeBlock s (dcSlot dc) (acSlot ac) (s.getCsr (Csr.pred p))
    return ({ s with kfile := block }.setCsr (Csr.pred p) pred).setCsrNat .brPos pos)

/-- The ZRL symbols of a run above 15, and the run left (R466). -/
def zrlCodes (zrl : Nat × Nat) (run : Nat) : List (Nat × Nat) := List.replicate (run / 16) zrl

/-- The AC part of ENCBLK on the coefficients still to come after `run` zeros: the codes and raw bits in order (R466). -/
def acCodes (slot : HuffSlot) : List Word → Nat → Res (List (Nat × Nat))
  | [], run => if 0 < run then (huffCode slot 0x00).map fun c => [c] else .ok []
  | w :: ws, run =>
    let v := s32 w
    if v = 0 then acCodes slot ws (run + 1)
    else do
      let zrls ← if 16 ≤ run then (huffCode slot 0xF0).map fun c => zrlCodes c run else .ok []
      let c ← huffCode slot (16 * (run % 16) + category v)
      let rest ← acCodes slot ws 0
      return zrls ++ c :: (rawbits v (category v), category v) :: rest

/-- The DC part of ENCBLK (R461, R466). -/
def dcCodes (slot : HuffSlot) (diff : Int) : Res (List (Nat × Nat)) := do
  let t := category diff
  let c ← huffCode slot t
  return if 0 < t then [c, (rawbits diff t, t)] else [c]

/-- The most bits ENCBLK puts: a DC code and its raw bits, 63 AC codes with theirs, 3 ZRLs and an EOB, codes of at most 16
bits. -/
def maxBlockBits : Nat := 32 + 63 * 31 + 4 * 16

/-- The bits ENCBLK puts, as codes with their widths; every symbol is looked up before any bit is written, so that
ContractViolation(7) and (8) keep the writer, while (11) leaves it as R494 says (R466). Log entries 9 and 21. -/
def encodeBlock (s : State) (dc ac : BitVec 5) (pred : Word) : Res (List (Nat × Nat)) := do
  let diff := s32 (blockAt s.kfile 0 0) - s32 pred
  let acs := s.kfile.toList.drop 1
  leaving (s.writerLeft maxBlockBits) do
    require (decide (diff.natAbs < 2 ^ 16)) .contractViolation 11
    require (acs.all fun w => decide ((s32 w).natAbs < 2 ^ 15)) .contractViolation 11
  let dcs ← dcCodes (s.slot dc) diff
  let rest ← acCodes (s.slot ac) acs 0
  return dcs ++ rest

/-- ENCBLK (R466). -/
def execEncblk (dc ac : BitVec 4) (p : BitVec 2) (s : State) : Outcome :=
  finish s (leaving [.csr (Csr.pred p)] do
    leaving (s.writerLeft maxBlockBits) do
      s.requireSlot (dcSlot dc)
      s.requireSlot (acSlot ac)
    let codes ← encodeBlock s (dcSlot dc) (acSlot ac) (s.getCsr (Csr.pred p))
    let t ← leaving (s.writerLeft maxBlockBits) (s.commit (s.packer.putAll codes))
    return t.setCsr (Csr.pred p) (blockAt s.kfile 0 0))

/-- PRST (R467): the four predictors become 0. -/
def execPrst (s : State) : Outcome :=
  finish s (.ok ((((s.setCsr .pred0 0).setCsr .pred1 0).setCsr .pred2 0).setCsr .pred3 0))

end Sys2Proof.Machine
end

