-- ==== Sys2Proof/Machine/Engine.lean ====
section
/-! DEFINITION. The engine control commands (spec/40_engine.md): NOP, HALT, LUI, ORI, ADDI, ADD, SUB, BEQ, BNE, BLTU, CSRR, CSRW,
LBU, SB. -/

namespace Sys2Proof.Machine

/-- NOP (R175). -/
def execNop (s : State) : Outcome := finish s (.ok s)

/-- HALT (R176): pc moves on, BUSY <- 0, DONE <- 1; irq follows from STATUS and IE (R500). -/
def execHalt (s : State) : Outcome :=
  .next (s.advance.setCsr .status (statusHalted (s.getCsr .status)))

/-- LUI (R177): X[ra] <- imm20 << 12. -/
def execLui (ra : Reg) (imm20 : BitVec 20) (s : State) : Outcome := finish s (.ok (s.setX ra (upperImm imm20)))

/-- ORI (R178): X[ra] <- X[rb] | zext_12(imm12). -/
def execOri (ra rb : Reg) (imm12 : BitVec 12) (s : State) : Outcome :=
  finish s (.ok (s.setX ra (s.getX rb ||| zext12 imm12)))

/-- ADDI (R179): X[ra] <- X[rb] + sext_12(imm12), modulo 2^32. -/
def execAddi (ra rb : Reg) (imm12 : BitVec 12) (s : State) : Outcome :=
  finish s (.ok (s.setX ra (s.getX rb + sext12 imm12)))

/-- ADD (R184), modulo 2^32. -/
def execAdd (ra rb rc : Reg) (s : State) : Outcome := finish s (.ok (s.setX ra (s.getX rb + s.getX rc)))

/-- SUB (R185), modulo 2^32. -/
def execSub (ra rb rc : Reg) (s : State) : Outcome := finish s (.ok (s.setX ra (s.getX rb - s.getX rc)))

/-- BEQ (R180). -/
def execBeq (rb rc : Reg) (imm12 : BitVec 12) (s : State) : Outcome :=
  .next (s.branch (s.getX rb == s.getX rc) imm12)

/-- BNE (R181). -/
def execBne (rb rc : Reg) (imm12 : BitVec 12) (s : State) : Outcome :=
  .next (s.branch (s.getX rb != s.getX rc) imm12)

/-- BLTU (R188): an unsigned comparison. -/
def execBltu (rb rc : Reg) (imm12 : BitVec 12) (s : State) : Outcome :=
  .next (s.branch (BitVec.ult (s.getX rb) (s.getX rc)) imm12)

/-- CSRR (R182): X[ra] <- CSR; an unknown number is IllegalCommand with the command's word. -/
def execCsrr (ra : Reg) (csr : BitVec 12) (s : State) : Outcome :=
  finish s
    (match Csr.ofNumber csr with
    | some c => .ok (s.setX ra (s.getCsr c))
    | none => fail .illegalCommand (encode (.csrr ra csr)).toNat)

/-- CSRW (R183): an RW CSR takes X[rb]'s named bits; an unknown or RO number is IllegalCommand and changes no CSR (log
entry 11). -/
def execCsrw (rb : Reg) (csr : BitVec 12) (s : State) : Outcome :=
  finish s
    (match Csr.ofNumber csr with
    | some c =>
      if c.access = .rw then .ok (s.setCsr c (s.getX rb))
      else fail .illegalCommand (encode (.csrw rb csr)).toNat
    | none => fail .illegalCommand (encode (.csrw rb csr)).toNat)

/-- LBU (R186): X[ra] <- MemRead(a, 1), zero-extended. -/
def execLbu (ra rb : Reg) (imm12 : BitVec 12) (s : State) : Outcome :=
  finish s do
    let b ← s.readByte (s.effAddr rb imm12)
    return s.setX ra (b.setWidth 32)

/-- SB (R187): MemWrite(a, 1, X[rc] & 0xFF); a fault writes nothing (R105). -/
def execSb (rb rc : Reg) (imm12 : BitVec 12) (s : State) : Outcome :=
  finish s (s.storeBytes (s.effAddr rb imm12) [(s.getX rc).setWidth 8])

end Sys2Proof.Machine
end

