-- ==== Sys2Proof/Machine/Lzw.lean ====
section
/-! DEFINITION. The LZW decoder and encoder (spec/43_lzw.md) and their commands LZWDEC and LZWENC. -/

namespace Sys2Proof.Machine

/-- `clear` = 2^m (R300); `end` is one above it. -/
def lzwClear (m : Nat) : Nat := 2 ^ m

/-- The code width W(size) (R301). -/
def lzwWidth (m size : Nat) : Nat := min Config.lzwMaxWidth (max (m + 1) (bitlen size))

/-! ### Decoder -/

/-- What one `LzwDecode(m, d, cap)` works on: its reader, the code size, the destination and its capacity; `strict` is false
for GIFNEXT, which counts the indices beyond cap and does not write them (spec/45_gif_decode.md R392). -/
structure LzwJob where
  rd : Reader
  m : Nat
  dst : Nat
  cap : Nat
  strict : Bool
  deriving DecidableEq, Repr

/-- The result of a decode: the bytes written at dst, the number of indices, of codes, and the cursor after the end code. -/
structure LzwDecoded where
  out : List Byte
  indices : Nat
  codes : Nat
  pos : Nat
  deriving DecidableEq, Repr

/-- The loop variables of `LzwDecode` (R303). `added` holds T[clear + 2], T[clear + 3], …; `prev` is T[prev], the string of
the previous code; `out` is last first. -/
structure LzwState where
  pos : Nat
  added : Array (List Byte)
  prev : Option (List Byte)
  first : Bool
  out : List Byte
  indices : Nat
  codes : Nat
  deriving DecidableEq, Repr

/-- `size`, the number of table entries (R300). -/
def LzwState.size (m : Nat) (v : LzwState) : Nat := lzwClear m + 2 + v.added.size

/-- T[c] for a code c below size that is neither clear nor end (R300, R303). -/
def LzwState.entry (m : Nat) (v : LzwState) (c : Nat) : List Byte :=
  if c < lzwClear m then [BitVec.ofNat 8 c] else v.added.getD (c - (lzwClear m + 2)) []

/-- The string put out, index by index: at the capacity a strict decode faults, another one only counts (R303, R392). -/
def lzwEmit (s : State) (job : LzwJob) : List Byte → LzwState → Res LzwState
  | [], v => .ok v
  | b :: bs, v =>
    if v.indices < job.cap then do
      s.checkRange (job.dst + v.indices) 1
      lzwEmit s job bs { v with out := b :: v.out, indices := v.indices + 1 }
    else if job.strict then fail .contractViolation 2
    else lzwEmit s job bs { v with indices := v.indices + 1 }

/-- The table after a code in the table whose string is str (R303): T[prev] ++ [str[0]] is added if there is a previous code
and room. -/
def LzwState.learn (m : Nat) (v : LzwState) (str : List Byte) : LzwState :=
  match v.prev with
  | some q => if v.size m < Config.lzwMaxEntries then { v with added := v.added.push (q ++ str.take 1) } else v
  | none => v

/-- The loop of `LzwDecode` (R303, R304). Every pass reads at least one bit, so 8 * len + 1 passes exhaust the reader. -/
def lzwDecodeLoop (s : State) (job : LzwJob) : Nat → LzwState → Res LzwDecoded
  | 0, _ => fail .corruptStream 1
  | fuel + 1, v => do
    let (c, p) ← job.rd.readBits s v.pos (lzwWidth job.m (v.size job.m))
    require (!(v.first && c != lzwClear job.m && s.params.lzwRequireInitialClear)) .corruptStream 4
    let v := { v with pos := p, codes := v.codes + 1, first := false }
    if c = lzwClear job.m then lzwDecodeLoop s job fuel { v with added := #[], prev := none }
    else if c = lzwClear job.m + 1 then return ⟨v.out.reverse, v.indices, v.codes, v.pos⟩
    else if c < v.size job.m then
      let str := v.entry job.m c
      let v ← lzwEmit s job str (v.learn job.m str)
      lzwDecodeLoop s job fuel { v with prev := some str }
    else
      match v.prev with
      | none => fail .corruptStream 3
      | some q =>
        require (c == v.size job.m) .corruptStream 3
        let str := q ++ q.take 1
        let v ← lzwEmit s job str { v with added := v.added.push str }
        lzwDecodeLoop s job fuel { v with prev := some str }

/-- `LzwDecode(m, d, cap)` from cursor p (R303). -/
def lzwDecode (s : State) (job : LzwJob) (p : Nat) : Res LzwDecoded :=
  lzwDecodeLoop s job (8 * job.rd.len + 1) ⟨p, #[], none, true, [], 0, 0⟩

/-- LZWDEC (R306): ra in/out, the destination and the index count; AUX the codes read. -/
def execLzwdec (ra rc : Reg) (m : BitVec 4) (s : State) : Outcome :=
  finish s do
    let dst := s.getXNat ra
    let cap := s.getXNat rc
    let left : List Leftover := [.csr .aux, .csr .brPos, .mem dst cap]
    leaving left (require (s.reader.order == .lsb) .contractViolation 12)
    requireDisjoint s.readRegion ⟨dst, cap⟩
    let r ← leaving left (lzwDecode s ⟨s.reader, m.toNat, dst, cap, true⟩ (s.getCsrNat .brPos))
    return (((s.putMem dst r.out).setX ra (u32 r.indices)).setCsrNat .aux r.codes).setCsrNat .brPos r.pos

/-! ### Encoder -/

/-- The encoder's dictionary E beyond the one-index strings (R307): each entry is the code of a string P, an index c and the
code of P ++ [c], newest first. Every string of E but the one-index ones is such a P ++ [c] with P in E, so the pair names
it. -/
abbrev LzwDict := List (Nat × Byte × Nat)

/-- E[P ++ [c]] (R307). -/
def LzwDict.find (dict : LzwDict) (p : Nat) (c : Byte) : Option Nat :=
  (List.find? (fun e => e.1 == p && e.2.1 == c) dict).map fun e => e.2.2

/-- The loop variables of `LzwEncode` (R307): E, se, the shadow size sd, hp, and the codes written, each with its width,
last first. -/
structure LzwEncoder where
  dict : LzwDict
  se : Nat
  sd : Nat
  hp : Bool
  out : List (Nat × Nat)
  deriving DecidableEq, Repr

/-- `reset()` (R307). -/
def LzwEncoder.reset (m : Nat) (v : LzwEncoder) : LzwEncoder :=
  { v with dict := [], se := lzwClear m + 2, sd := lzwClear m + 2, hp := false }

/-- A code at the current width (R307). -/
def LzwEncoder.put (m : Nat) (v : LzwEncoder) (code : Nat) : LzwEncoder :=
  { v with out := (code, lzwWidth m v.sd) :: v.out }

/-- `emit(code)` (R307). -/
def LzwEncoder.emit (m : Nat) (v : LzwEncoder) (code : Nat) : LzwEncoder :=
  let w := v.put m code
  { w with sd := if v.hp && decide (v.sd < Config.lzwMaxEntries) then v.sd + 1 else v.sd, hp := true }

/-- `emitclear()` (R307). -/
def LzwEncoder.emitClear (m : Nat) (v : LzwEncoder) : LzwEncoder := (v.put m (lzwClear m)).reset m

/-- The loop of `LzwEncode` (R307, R308) with the pending string's code p. -/
def lzwEncodeLoop (m : Nat) : List Byte → Nat → LzwEncoder → LzwEncoder
  | [], p, v => v.emit m p
  | c :: cs, p, v =>
    match v.dict.find p c with
    | some code => lzwEncodeLoop m cs code v
    | none =>
      let v := v.emit m p
      let v :=
        if v.se < Config.lzwMaxEntries then { v with dict := (p, c, v.se) :: v.dict, se := v.se + 1 }
        else v.emitClear m
      lzwEncodeLoop m cs c.toNat v

/-- `LzwEncode` of indices below 2^m: the codes in order, each with its width (R307). -/
def lzwEncode (m : Nat) (indices : List Byte) : List (Nat × Nat) :=
  let v := (LzwEncoder.reset m ⟨[], 0, 0, false, []⟩).emitClear m
  let v :=
    match indices with
    | [] => v
    | i :: is => lzwEncodeLoop m is i.toNat v
  (v.put m (lzwClear m + 1)).out.reverse

/-- The indices of LZWENC, each checked to be below 2^m before any code is written (R307, R310, R493). A read outside MEM
leaves what `left` says; an index out of range leaves the writer. Log entry 22. -/
def lzwIndices (s : State) (m : Nat) (left : List Leftover) : Nat → Nat → Res (List Byte)
  | _, 0 => .ok []
  | a, n + 1 => do
    let b ← leaving left (s.readByte a)
    require (decide (b.toNat < lzwClear m)) .contractViolation 10
    let bs ← lzwIndices s m left (a + 1) n
    return b :: bs

/-- LZWENC (R310). -/
def execLzwenc (rb rc : Reg) (m : BitVec 4) (s : State) : Outcome :=
  finish s do
    let src := s.getXNat rb
    let n := s.getXNat rc
    let left := s.writerLeft (12 * (2 * n + 3))
    leaving left (require (s.packer.order == .lsb) .contractViolation 12)
    leaving left (require (!s.packer.stuff) .contractViolation 13)
    requireDisjoint ⟨src, n⟩ s.writeRegion
    let indices ← lzwIndices s m.toNat left src n
    leaving left (s.commit (s.packer.putAll (lzwEncode m.toNat indices)))

end Sys2Proof.Machine
end

