-- ==== Sys2Proof/Machine/GifDecode.lean ====
section
/-! DEFINITION. The GIF89a parser and frame compositing (spec/45_gif_decode.md): GIFOPEN, GIFNEXT, GIFREWIND. -/

namespace Sys2Proof.Machine

/-! ### File access (R380) -/

/-- `FileByte(o)` of a file of len bytes at base (R380). -/
def fileByte (s : State) (file : Region) (o : Nat) : Res Byte := do
  require (decide (o < file.len)) .corruptStream 6
  s.readByte (file.base + o)

/-- `FileU16(o)` (R380). -/
def fileU16 (s : State) (file : Region) (o : Nat) : Res Nat := do
  let lo ← fileByte s file o
  let hi ← fileByte s file (o + 1)
  return lo.toNat + 256 * hi.toNat

/-- n file bytes from o on. -/
def fileBytes (s : State) (file : Region) : Nat → Nat → Res (List Byte)
  | _, 0 => .ok []
  | o, n + 1 => do
    let b ← fileByte s file o
    let bs ← fileBytes s file (o + 1) n
    return b :: bs

/-- `SkipSub(o)` (R380). Every pass moves o on within the file, so len + 1 passes reach its end. -/
def skipSub (s : State) (file : Region) : Nat → Nat → Res Nat
  | 0, _ => fail .corruptStream 6
  | fuel + 1, o => do
    let l ← fileByte s file o
    if l == 0 then return o + 1
    else
      require (decide (o + 1 + l.toNat ≤ file.len)) .corruptStream 6
      skipSub s file fuel (o + 1 + l.toNat)

/-- The copy of one sub-block in `GatherSub`: l bytes from o, the n-th and later ones of the destination (R380). -/
def gatherBlock (s : State) (file : Region) (dst : Region) : Nat → Nat → Nat → Res (List Byte)
  | 0, _, _ => .ok []
  | l + 1, o, n => do
    require (decide (n < dst.len)) .contractViolation 2
    let b ← fileByte s file o
    s.checkRange (dst.base + n) 1
    let bs ← gatherBlock s file dst l (o + 1) (n + 1)
    return b :: bs

/-- `GatherSub(o, d, cap)` (R380): the offset after the chain and the data, n bytes of which came before. -/
def gatherSub (s : State) (file : Region) (dst : Region) : Nat → Nat → Nat → Res (Nat × List Byte)
  | 0, _, _ => fail .corruptStream 6
  | fuel + 1, o, n => do
    let l ← fileByte s file o
    if l == 0 then return (o + 1, [])
    else
      let bs ← gatherBlock s file dst l.toNat (o + 1) n
      let (o', rest) ← gatherSub s file dst fuel (o + 1 + l.toNat) (n + l.toNat)
      return (o', bs ++ rest)

/-- The open file (R380, R46). -/
def State.file (s : State) : Region := ⟨s.getCsrNat .gFileBase, s.getCsrNat .gFileLen⟩

/-- The framebuffer's bytes per pixel (R393). -/
def State.pixelBytes (s : State) : Nat := if s.getCsrNat .gPixFmt = 0 then 3 else 4

/-- The framebuffer (R393). -/
def State.frameRegion (s : State) : Region :=
  ⟨s.getCsrNat .gFbBase, s.getCsrNat .gSw * s.getCsrNat .gSh * s.pixelBytes⟩

/-- The scratch region (R58). -/
def State.scratchRegion (s : State) : Region := ⟨s.getCsrNat .gScrBase, s.getCsrNat .gScrLen⟩

/-- The comment buffer (R386). -/
def State.commentRegion (s : State) : Region := ⟨s.getCsrNat .gCmtBase, s.getCsrNat .gCmtCap⟩

/-! ### GIFOPEN (R381, R382, R390) -/

/-- "GIF89a" (R381). -/
def gif89a : List Byte := [0x47, 0x49, 0x46, 0x38, 0x39, 0x61]

/-- "GIF87a", accepted only under ACCEPT_GIF87A (R381). -/
def gif87a : List Byte := [0x47, 0x49, 0x46, 0x38, 0x37, 0x61]

/-- The entry count of a colour table: 2^(exponent + 1), the exponent being bits 2..0 of the packed byte (R382, R387). -/
def tableEntries (pk : Byte) : Nat := 2 ^ ((pk.extractLsb' 0 3).toNat + 1)

/-- The check of R390 that the whole table of n entries at offset o is in the file. -/
def checkTable (s : State) (file : Region) (o n : Nat) : Res Unit := do
  let _ ← fileByte s file (o + 3 * n - 1)
  return ()

/-- The state after GIFOPEN of the file (R390). -/
def openFile (s : State) (file : Region) : Res State := do
  let sig ← fileBytes s file 0 6
  require (sig == gif89a || s.params.acceptGif87a && sig == gif87a) .malformedHeader 1
  let sw ← fileU16 s file 6
  let sh ← fileU16 s file 8
  let pk ← fileByte s file 10
  let bg ← fileByte s file 11
  let asp ← fileByte s file 12
  let n := if pk.getLsbD 7 then tableEntries pk else 0
  if 0 < n then checkTable s file 13 n else .ok ()
  let loopOff := 13 + 3 * n
  let t := (s.setCsrNat .gFileBase file.base).setCsrNat .gFileLen file.len
  let t := (((t.setCsrNat .gSw sw).setCsrNat .gSh sh).setCsr .gLsdPk (pk.setWidth 32)).setCsr .gBg (bg.setWidth 32)
  let t := ((t.setCsr .gAspect (asp.setWidth 32)).setCsrNat .gGctN n).setCsrNat .gLoopOff loopOff
  let t := ((((t.setCsrNat .gCur loopOff).setCsr .gGce 0).setCsr .gDelay 0).setCsr .gTrans 0).setCsr .gLoop 0
  let t := (((t.setCsr .gCmtLen 0).setCsr .gImgPos 0).setCsr .gImgSize 0).setCsr .gImgPk 0
  return (((t.setCsr .gLctN 0).setCsr .gLctOff 0).setCsr .gFrames 0).setCsr .gOpen 1

/-- What a GIFOPEN fault leaves: G_OPEN = 0 and the other parser CSRs unspecified (R390, S7; log entry 12). -/
def openFault (s : State) : State := s.setCsr .gOpen 0

/-- GIFOPEN (R390). A fault is taken from the state with G_OPEN = 0. -/
def execGifopen (rb rc : Reg) (s : State) : Outcome :=
  let r := leaving (Csr.gifParser.map .csr) (openFile s ⟨s.getXNat rb, s.getXNat rc⟩)
  match r with
  | .ok _ => finish s r
  | .error _ => finish (openFault s) r

/-! ### The image case of GIFNEXT (R387 to R389, R392 to R395) -/

/-- An image descriptor with what follows it up to the compressed data (R387, R388, R392). -/
structure ImageHeader where
  left : Nat
  top : Nat
  width : Nat
  height : Nat
  pk : Byte
  /-- G_LCT_N and G_LCT_OFF. -/
  lctN : Nat
  lctOff : Nat
  /-- The active colour table: its file offset and entry count. -/
  tabOff : Nat
  tabN : Nat
  /-- The minimum code size, and the offset of the first sub-block. -/
  m : Nat
  dataOff : Nat
  deriving DecidableEq, Repr

/-- The active table: local if present, else global (R387). -/
def activeTable (s : State) (lctOff lctN : Nat) : Res (Nat × Nat) :=
  if 0 < lctN then .ok (lctOff, lctN)
  else if 0 < s.getCsrNat .gGctN then .ok (13, s.getCsrNat .gGctN)
  else fail .malformedHeader 5

/-- The header of the image whose descriptor starts at offset o (R392). -/
def readImageHeader (s : State) (o : Nat) : Res ImageHeader := do
  let file := s.file
  let left ← fileU16 s file o
  let top ← fileU16 s file (o + 2)
  let width ← fileU16 s file (o + 4)
  let height ← fileU16 s file (o + 6)
  let pk ← fileByte s file (o + 8)
  require (!pk.getLsbD 6) .unsupportedFeature 2
  let lctN := if pk.getLsbD 7 then tableEntries pk else 0
  let lctOff := if pk.getLsbD 7 then o + 9 else 0
  if 0 < lctN then checkTable s file (o + 9) lctN else .ok ()
  require (decide (left + width ≤ s.getCsrNat .gSw ∧ top + height ≤ s.getCsrNat .gSh)) .malformedHeader 4
  let (tabOff, tabN) ← activeTable s lctOff lctN
  let m ← fileByte s file (o + 9 + 3 * lctN)
  require (decide (2 ≤ m.toNat ∧ m.toNat ≤ 8)) .corruptStream 12
  require (s.getCsrNat .gPixFmt != 3) .contractViolation 18
  return ⟨left, top, width, height, pk, lctN, lctOff, tabOff, tabN, m.toNat, o + 9 + 3 * lctN + 1⟩

/-- The indices of the image (R392): the compressed data go to the scratch region, and are decoded from there to the bytes
behind them by a private LSB-first reader, whose cursor has the limit of BR_POS, which R392 does not say (log entry 32).
Answers the offset after the data, the w*h indices, and the count decoded. -/
def readIndices (s : State) (h : ImageHeader) : Res (Nat × List Byte × Nat) := do
  let scr := s.scratchRegion
  let (o, data) ← gatherSub s s.file scr (s.file.len + 1) h.dataOff 0
  let pixels := h.width * h.height
  require (decide (data.length + pixels ≤ scr.len)) .contractViolation 2
  let t := s.putMem scr.base data
  let r ← lzwDecode t ⟨⟨scr.base, data.length, .lsb⟩, h.m, scr.base + data.length, pixels, false⟩ 0
  require (decide (pixels ≤ r.indices)) .corruptStream 8
  return (o, r.out, r.indices)

/-- A GCE is in force with its transparency flag set (R389, R392). -/
def State.transparency (s : State) : Bool := (s.getCsr .gGce).getLsbD 0 && (s.getCsr .gGce).getLsbD 1

/-- The index is the transparent one and is skipped (R389). -/
def State.skips (s : State) (v : Byte) : Bool := s.transparency && v == (s.getCsr .gTrans).setWidth 8

/-- A GCE is in force with disposal 2 (R389, R392). -/
def State.disposes (s : State) : Bool := (s.getCsr .gGce).getLsbD 0 && (s.getCsr .gGce).extractLsb' 3 3 == 2

/-- Every index that is not skipped is below the table's entry count (R389, R392). -/
def requireIndices (s : State) (n : Nat) (indices : List Byte) : Res Unit :=
  require (indices.all fun v => s.skips v || decide (v.toNat < n)) .corruptStream 7

/-- The bytes of pixel (r, g, b) in the configured layout (R393). -/
def pixelLayout (fmt : Nat) (r g b : Byte) : List Byte :=
  if fmt = 0 then [r, g, b] else if fmt = 1 then [r, g, b, 0xFF] else [0xFF, r, g, b]

/-- Entry v of the colour table at file offset tabOff: bytes 3v .. 3v + 2 (R382, R392). -/
def tableColour (s : State) (tabOff v : Nat) : Res (Byte × Byte × Byte) := do
  let r ← fileByte s s.file (tabOff + 3 * v)
  let g ← fileByte s s.file (tabOff + 3 * v + 1)
  let b ← fileByte s s.file (tabOff + 3 * v + 2)
  return (r, g, b)

/-- The disposal fill colour (R395). -/
def fillColour (s : State) : Res (Byte × Byte × Byte) :=
  match s.params.disposeFill with
  | .white => .ok (0xFF, 0xFF, 0xFF)
  | .background =>
    if s.getCsrNat .gBg < s.getCsrNat .gGctN then tableColour s 13 (s.getCsrNat .gBg) else .ok (0xFF, 0xFF, 0xFF)

/-- The address of pixel (x, y) (R393). -/
def State.pixelAddr (s : State) (x y : Nat) : Nat :=
  s.getCsrNat .gFbBase + (y * s.getCsrNat .gSw + x) * s.pixelBytes

/-- The disposal fill: every pixel of the framebuffer, if the GCE asks for it (R389, R392, R395). `s` holds the file, `t` is
painted. -/
def fillFrame (s t : State) : Res State :=
  if s.disposes then do
    let (r, g, b) ← fillColour s
    let pixel := pixelLayout (s.getCsrNat .gPixFmt) r g b
    t.storeBytes s.frameRegion.base (List.replicate (s.getCsrNat .gSw * s.getCsrNat .gSh) pixel).flatten
  else .ok t

/-- The pixels of the image from index j on (R392, R394): a skipped one leaves its pixel. -/
def paint (s : State) (h : ImageHeader) : List Byte → Nat → State → Res State
  | [], _, t => .ok t
  | v :: vs, j, t =>
    if s.skips v then paint s h vs (j + 1) t
    else do
      let (r, g, b) ← tableColour s h.tabOff v.toNat
      let t ← t.storeBytes (s.pixelAddr (h.left + j % h.width) (h.top + j / h.width))
        (pixelLayout (s.getCsrNat .gPixFmt) r g b)
      paint s h vs (j + 1) t

/-- The CSR updates of an image, at the end of the command (R392). The rule states no reduction for the count in AUX nor for
G_FRAMES + 1; both are taken modulo 2^32, which is the model's choice (log entry 31). -/
def imageDone (t : State) (h : ImageHeader) (o count : Nat) : State :=
  let t := (t.setCsrNat .gImgPos (h.left + h.top * 2 ^ 16)).setCsrNat .gImgSize (h.width + h.height * 2 ^ 16)
  let t := ((t.setCsr .gImgPk (h.pk.setWidth 32)).setCsrNat .gLctN h.lctN).setCsrNat .gLctOff h.lctOff
  let t := (t.setCsr .gFrames (t.getCsr .gFrames + 1)).setCsr .gGce 0
  (t.setCsrNat .gCur o).setCsrNat .aux count

/-- `DecodeImage(o)` (R392): the state with the framebuffer painted and the CSRs updated. All checks come before the first
framebuffer byte (R389), so only a fault while painting leaves the framebuffer unspecified. -/
def decodeImage (s : State) (o : Nat) : Res State := do
  let h ← readImageHeader s o
  requireDisjoint3 s.frameRegion s.scratchRegion s.file
  let (o, indices, count) ← readIndices s h
  requireIndices s h.tabN indices
  let t ← leaving [.mem s.frameRegion.base s.frameRegion.len] do
    let t ← fillFrame s s
    paint s h indices 0 t
  return imageDone t h o count

/-! ### The other blocks (R383 to R386, R391) -/

/-- The fixed bytes of the loop extension's first sub-blocks: 0B "NETSCAPE2.0" 03 01 (R385). -/
def netscapeBytes : List Byte := [0x0B, 0x4E, 0x45, 0x54, 0x53, 0x43, 0x41, 0x50, 0x45, 0x32, 0x2E, 0x30, 0x03, 0x01]

/-- The file bytes from o on are these, read only as far as needed to tell (R391). -/
def fileMatches (s : State) : List Byte → Nat → Res Bool
  | [], _ => .ok true
  | x :: xs, o => do
    let b ← fileByte s s.file o
    if b == x then fileMatches s xs (o + 1) else return false

/-- The graphic control extension at o, its size byte's offset (R384, R391). -/
def nextControl (ra : Reg) (s : State) (o : Nat) : Res State := do
  let file := s.file
  let size ← fileByte s file o
  require (size == 4) .malformedHeader 3
  let term ← fileByte s file (o + 5)
  require (term == 0) .malformedHeader 3
  let pk ← fileByte s file (o + 1)
  let disp := pk.extractLsb' 2 3
  require (disp == 0 || disp == 2) .unsupportedFeature 1
  let delay ← fileU16 s file (o + 2)
  let trans ← fileByte s file (o + 4)
  let gce : BitVec 6 := disp ++ pk.extractLsb' 1 1 ++ pk.extractLsb' 0 1 ++ 1#1
  let t := ((s.setCsr .gGce (gce.setWidth 32)).setCsrNat .gDelay delay).setCsr .gTrans (trans.setWidth 32)
  return ((t.setCsrNat .gCur (o + 6)).setX ra 2).setCsr .aux 0

/-- The application extension at o (R385, R391). -/
def nextApplication (ra : Reg) (s : State) (o : Nat) : Res State := do
  let isLoop ← fileMatches s netscapeBytes o
  let count ← if isLoop then (fileU16 s s.file (o + 14)).map some else .ok none
  let o' ← skipSub s s.file (s.file.len + 1) o
  let t :=
    match count with
    | some n => s.setCsrNat .gLoop (0x10000 + n)
    | none => s
  return ((t.setCsrNat .gCur o').setX ra 3).setCsr .aux 0

/-- The comment extension at o (R386, R391). -/
def nextComment (ra : Reg) (s : State) (o : Nat) : Res State := do
  let cmt := s.commentRegion
  requireDisjoint cmt s.file
  let (o', data) ← leaving [.mem cmt.base cmt.len] (gatherSub s s.file cmt (s.file.len + 1) o 0)
  let t := (s.putMem cmt.base data).setCsrNat .gCmtLen data.length
  return ((t.setCsrNat .gCur o').setX ra 4).setCsrNat .aux data.length

/-- Any other extension at o (R383, R391). -/
def nextOther (ra : Reg) (s : State) (label : Byte) (o : Nat) : Res State := do
  let o' ← skipSub s s.file (s.file.len + 1) o
  return ((s.setCsrNat .gCur o').setX ra 5).setCsr .aux (label.setWidth 32)

/-- One block of the file (R391). The scratch region is left to `execGifnext`. -/
def nextBlock (ra : Reg) (s : State) : Res State := do
  require (s.getCsr .gOpen == 1) .contractViolation 17
  let o := s.getCsrNat .gCur
  let t ← fileByte s s.file o
  if t == 0x3B then return (s.setX ra 0).setCsr .aux 0
  else if t == 0x2C then
    let t ← decodeImage s (o + 1)
    return t.setX ra 1
  else
    require (t == 0x21) .malformedHeader 2
    let label ← fileByte s s.file (o + 1)
    if label == 0xF9 then nextControl ra s (o + 2)
    else if label == 0xFF then nextApplication ra s (o + 2)
    else if label == 0xFE then nextComment ra s (o + 2)
    else nextOther ra s label (o + 2)

/-- GIFNEXT (R391). After any GIFNEXT the scratch region is unspecified (R58, S5; log entry 13); a fault leaves every G_*
CSR, and AUX unspecified unless it is that of R109 (log entry 10). -/
def execGifnext (ra : Reg) (s : State) : Outcome :=
  let scr := s.scratchRegion
  finish s (leaving [.mem scr.base scr.len] do
    let t ← leavingPastOverlap [.csr .aux] (nextBlock ra s)
    return t.drawMem scr.base scr.len)

/-- GIFREWIND (R399). -/
def execGifrewind (s : State) : Outcome :=
  finish s (leaving [.csr .gCur, .csr .gLctN, .csr .gLctOff, .csr .gGce] do
    require (s.getCsr .gOpen == 1) .contractViolation 17
    return (((s.setCsr .gCur (s.getCsr .gLoopOff)).setCsr .gLctN 0).setCsr .gLctOff 0).setCsr .gGce 0)

end Sys2Proof.Machine
end

