-- ==== Sys2Proof/Machine/GifEncode.lean ====
section
/-! DEFINITION. The GIF89a writer (spec/46_gif_encode.md): GIFWOPEN, GIFWFRAME, GIFWEND. -/

namespace Sys2Proof.Machine

/-! ### Palette (R430) -/

/-- `lev(c, L)`: the level of a colour component (R430). -/
def paletteLevel (c levels : Nat) : Nat := c * levels / 256

/-- `val(l, L)`: the component of a level (R430). -/
def paletteValue (l levels : Nat) : Nat := l * 255 / (levels - 1)

/-- `PalIndex(r, g, b)` (R430). -/
def palIndex (r g b : Byte) : Byte :=
  let (lr, lg, lb) := Config.palLevels
  BitVec.ofNat 8 ((paletteLevel r.toNat lr * lg + paletteLevel g.toNat lg) * lb + paletteLevel b.toNat lb)

/-- `Pal[i]`, three bytes R, G, B; black beyond the palette (R430). -/
def palette (i : Nat) : List Byte :=
  let (lr, lg, lb) := Config.palLevels
  if i < lr * lg * lb then
    [BitVec.ofNat 8 (paletteValue (i / (lg * lb)) lr), BitVec.ofNat 8 (paletteValue (i / lb % lg) lg),
      BitVec.ofNat 8 (paletteValue (i % lb) lb)]
  else [0, 0, 0]

/-! ### Layout (R431 to R433) -/

/-- The 800 bytes of the header for width, height and loop count (R431). -/
def gifHeader (w h loops : Nat) : List Byte :=
  [0x47, 0x49, 0x46, 0x38, 0x39, 0x61] ++ leBytes 2 w ++ leBytes 2 h ++ [0xF7, 0x00, 0x00] ++
    (List.range 256).flatMap palette ++
    [0x21, 0xFF, 0x0B, 0x4E, 0x45, 0x54, 0x53, 0x43, 0x41, 0x50, 0x45, 0x32, 0x2E, 0x30, 0x03, 0x01] ++
    leBytes 2 loops ++ [0x00]

/-- A byte string as sub-blocks of 255 bytes, a shorter last one, then the terminator (R432, spec/41_bitstream.md R226). Every
pass takes at least one byte, so length + 1 passes suffice. -/
def subBlocks : Nat → List Byte → List Byte
  | 0, _ => [0]
  | fuel + 1, bs =>
    if bs.isEmpty then [0]
    else BitVec.ofNat 8 (min 255 bs.length) :: (bs.take 255 ++ subBlocks fuel (bs.drop 255))

/-- A rectangle of a frame (R434). -/
structure FrameRect where
  left : Nat
  top : Nat
  width : Nat
  height : Nat
  deriving DecidableEq, Repr

/-- Z: the LZW data of the rectangle's indices, from an empty LSB-first writer, flushed with pad bit 0 (R432). -/
def frameData (indices : List Byte) : List Byte :=
  ((Packer.staging.putAll (lzwEncode 8 indices)).flush false).out.reverse

/-- The bytes of one frame (R432). -/
def frameBytes (r : FrameRect) (delay : Nat) (z : List Byte) : List Byte :=
  [0x21, 0xF9, 0x04, 0x00] ++ leBytes 2 delay ++ [0x00, 0x00] ++
    [0x2C] ++ leBytes 2 r.left ++ leBytes 2 r.top ++ leBytes 2 r.width ++ leBytes 2 r.height ++ [0x00] ++
    [0x08] ++ subBlocks (z.length + 1) z

/-! ### Frames (R434) -/

/-- The positions p at which two index frames differ. -/
def changedAt (cur prev : List Byte) : List Nat :=
  (List.range cur.length).filter fun p => cur.getD p 0 != prev.getD p 0

/-- The least of a non-empty list given by its head and tail. -/
def leastOf (x : Nat) (xs : List Nat) : Nat := xs.foldl min x

/-- The greatest of a non-empty list given by its head and tail. -/
def greatestOf (x : Nat) (xs : List Nat) : Nat := xs.foldl max x

/-- The smallest rectangle that holds every changed pixel of a frame of width w; (0, 0, 1, 1) when there is none (R434). -/
def changedRect (w : Nat) (changed : List Nat) : FrameRect :=
  match changed with
  | [] => ⟨0, 0, 1, 1⟩
  | p :: ps =>
    let x0 := leastOf (p % w) (ps.map (· % w))
    let x1 := greatestOf (p % w) (ps.map (· % w))
    let y0 := leastOf (p / w) (ps.map (· / w))
    let y1 := greatestOf (p / w) (ps.map (· / w))
    ⟨x0, y0, x1 - x0 + 1, y1 - y0 + 1⟩

/-- n rows of width bytes, read one after the other; the first begins at a, each next one w bytes on. -/
def State.readRows (s : State) (w width : Nat) : Nat → Nat → Res (List Byte)
  | _, 0 => .ok []
  | a, n + 1 => do
    let row ← s.readBytes a width
    let rows ← s.readRows w width (a + w) n
    return row ++ rows

/-- The rectangle's indices, row-major, read from the index frame of width w at idx (R432, R437). The rectangle (0, 0, 1, 1) of
a screen of no pixels takes in the byte at idx too. -/
def State.rectIndices (s : State) (idx w : Nat) (r : FrameRect) : Res (List Byte) :=
  s.readRows w r.width (idx + (r.top * w + r.left)) r.height

/-- The current index frame from the pixel at src on, each index checked as a write at dst (R434, R437). -/
def mapFrame (s : State) : Nat → Nat → Nat → Res (List Byte)
  | _, _, 0 => .ok []
  | src, dst, n + 1 => do
    let r ← s.readByte src
    let g ← s.readByte (src + 1)
    let b ← s.readByte (src + 2)
    s.checkRange dst 1
    let is ← mapFrame s (src + 3) (dst + 1) n
    return palIndex r g b :: is

/-! ### Commands -/

/-- The preconditions of R435, in the order of its text (log entry 21). What their faults leave is what any fault of the
command leaves (R494, R437; log entry 9). -/
def requireGifWriter (s : State) : Res Unit := do
  require (s.getCsr .bwNacc == 0) .contractViolation 20
  require (orderOfMode (s.getCsr .bwMode) == .lsb) .contractViolation 12
  require (!(s.getCsr .bwMode).getLsbD 1) .contractViolation 13

/-- Bytes put through the bit writer with PutByte (R435). -/
def State.putWriter (s : State) (bs : List Byte) : Res State := s.commit (s.packer.putBytes bs)

/-- GIFWOPEN (R436): GW_* are unchanged on a fault. -/
def execGifwopen (ra rb rc : Reg) (s : State) : Outcome :=
  finish s (leaving (s.writerLeftBytes 800) do
    requireGifWriter s
    let w := s.getXNat rb
    let h := s.getXNat rc
    let l := s.getXNat ra
    require (decide (1 ≤ w ∧ w ≤ 65535 ∧ 1 ≤ h ∧ h ≤ 65535 ∧ l ≤ 65535)) .contractViolation 21
    let t ← s.putWriter (gifHeader w h l)
    return (((t.setCsrNat .gwW w).setCsrNat .gwH h).setCsr .gwFrames 0).setCsr .gwOpen 1)

/-- What any GIFWFRAME fault leaves unspecified, that of R109 among them: the writer's bytes past the old BW_LEN and the index
frames (R437; log entry 10). -/
def frameLeft (s : State) : List Leftover :=
  [s.writerRoomLeft (s.getCsrNat .bwCap), .mem (s.getCsrNat .gwIdxBase) (2 * (s.getCsrNat .gwW * s.getCsrNat .gwH))]

/-- The rectangle of the frame whose indices are cur (R434): all of it for the first one after GIFWOPEN, else what differs
from PREV. -/
def frameRect (s : State) (w h : Nat) (cur : List Byte) : Res FrameRect :=
  if s.getCsr .gwFrames = 0 then .ok ⟨0, 0, w, h⟩
  else do
    let prev ← s.readBytes (s.getCsrNat .gwIdxBase + w * h) (w * h)
    return changedRect w (changedAt cur prev)

/-- The work of GIFWFRAME after its checks: CUR, the rectangle, the frame's bytes, CUR -> PREV (R437). The rule states no
reduction for GW_FRAMES + 1; it is taken modulo 2^32, so that a frame after 2^32 others counts as the first, which is the
model's choice (log entry 31). -/
def writeFrame (s : State) (src delay : Nat) : Res State := do
  let w := s.getCsrNat .gwW
  let h := s.getCsrNat .gwH
  let idx := s.getCsrNat .gwIdxBase
  let cur ← mapFrame s src idx (w * h)
  let t := s.putMem idx cur
  let rect ← frameRect t w h cur
  let indices ← t.rectIndices idx w rect
  let t ← t.putWriter (frameBytes rect delay (frameData indices))
  let t ← t.storeBytes (idx + w * h) cur
  return t.setCsr .gwFrames (t.getCsr .gwFrames + 1)

/-- GIFWFRAME (R437). A fault leaves the writer's CSRs unspecified too (R494), unless it is that of R109, which comes before
the command writes anything (log entry 10). -/
def execGifwframe (rb rc : Reg) (s : State) : Outcome :=
  finish s (leaving (frameLeft s) (leavingPastOverlap writerCsrsLeft do
    let pixels := s.getCsrNat .gwW * s.getCsrNat .gwH
    require (s.getCsr .gwOpen == 1) .contractViolation 19
    requireGifWriter s
    require (decide (s.getXNat rc ≤ 65535)) .contractViolation 21
    requireDisjoint3 ⟨s.getXNat rb, 3 * pixels⟩ ⟨s.getCsrNat .gwIdxBase, 2 * pixels⟩ s.writeRegion
    writeFrame s (s.getXNat rb) (s.getXNat rc)))

/-- GIFWEND (R438). -/
def execGifwend (s : State) : Outcome :=
  finish s (leaving (.csr .gwOpen :: s.writerLeftBytes 1) do
    require (s.getCsr .gwOpen == 1) .contractViolation 19
    requireGifWriter s
    let t ← s.putWriter [0x3B]
    return t.setCsr .gwOpen 0)

end Sys2Proof.Machine
end

