-- ==== Sys2Proof/Machine/Dispatch.lean ====
section
/-! DEFINITION. Execution: one arm per command, each a call of its meaning. -/

namespace Sys2Proof.Machine

def exec (i : Instr) (s : State) : Host.Outcome State Fault Refusal :=
  match i with
  | .nop => Sys2Proof.Machine.execNop s
  | .halt => Sys2Proof.Machine.execHalt s
  | .lui ra imm20 => Sys2Proof.Machine.execLui ra imm20 s
  | .ori ra rb imm12 => Sys2Proof.Machine.execOri ra rb imm12 s
  | .addi ra rb imm12 => Sys2Proof.Machine.execAddi ra rb imm12 s
  | .add ra rb rc => Sys2Proof.Machine.execAdd ra rb rc s
  | .sub ra rb rc => Sys2Proof.Machine.execSub ra rb rc s
  | .beq rb rc imm12 => Sys2Proof.Machine.execBeq rb rc imm12 s
  | .bne rb rc imm12 => Sys2Proof.Machine.execBne rb rc imm12 s
  | .csrr ra csr => Sys2Proof.Machine.execCsrr ra csr s
  | .csrw rb csr => Sys2Proof.Machine.execCsrw rb csr s
  | .lbu ra rb imm12 => Sys2Proof.Machine.execLbu ra rb imm12 s
  | .sb rb rc imm12 => Sys2Proof.Machine.execSb rb rc imm12 s
  | .bltu rb rc imm12 => Sys2Proof.Machine.execBltu rb rc imm12 s
  | .brinit rb rc order => Sys2Proof.Machine.execBrinit rb rc order s
  | .rdbits ra n => Sys2Proof.Machine.execRdbits ra n s
  | .align => Sys2Proof.Machine.execAlign s
  | .unstuff ra rb rc => Sys2Proof.Machine.execUnstuff ra rb rc s
  | .bwinit rb rc order stuff => Sys2Proof.Machine.execBwinit rb rc order stuff s
  | .wrbits rb n => Sys2Proof.Machine.execWrbits rb n s
  | .bwflush ra pad => Sys2Proof.Machine.execBwflush ra pad s
  | .sbgather ra rb rc => Sys2Proof.Machine.execSbgather ra rb rc s
  | .sbsplit ra rb rc => Sys2Proof.Machine.execSbsplit ra rb rc s
  | .hbuild ra rb slot pfx => Sys2Proof.Machine.execHbuild ra rb slot pfx s
  | .hdec ra slot => Sys2Proof.Machine.execHdec ra slot s
  | .hctab rb slot => Sys2Proof.Machine.execHctab rb slot s
  | .henc rb slot => Sys2Proof.Machine.execHenc rb slot s
  | .hfroment ra rb rc => Sys2Proof.Machine.execHfroment ra rb rc s
  | .lzwdec ra rc m => Sys2Proof.Machine.execLzwdec ra rc m s
  | .lzwenc rb rc m => Sys2Proof.Machine.execLzwenc rb rc m s
  | .qload ra rb q pfx tord => Sys2Proof.Machine.execQload ra rb q pfx tord s
  | .sldb rb rc shift => Sys2Proof.Machine.execSldb rb rc shift s
  | .sstb rb rc shift => Sys2Proof.Machine.execSstb rb rc shift s
  | .kld rb => Sys2Proof.Machine.execKld rb s
  | .kst rb => Sys2Proof.Machine.execKst rb s
  | .fdct => Sys2Proof.Machine.execFdct s
  | .idct => Sys2Proof.Machine.execIdct s
  | .quant q order => Sys2Proof.Machine.execQuant q order s
  | .dequant q order => Sys2Proof.Machine.execDequant q order s
  | .zzfwd file => Sys2Proof.Machine.execZzfwd file s
  | .zzinv file => Sys2Proof.Machine.execZzinv file s
  | .cvtks => Sys2Proof.Machine.execCvtks s
  | .cvtsk => Sys2Proof.Machine.execCvtsk s
  | .decblk dc ac p => Sys2Proof.Machine.execDecblk dc ac p s
  | .encblk dc ac p => Sys2Proof.Machine.execEncblk dc ac p s
  | .prst => Sys2Proof.Machine.execPrst s
  | .gifopen rb rc => Sys2Proof.Machine.execGifopen rb rc s
  | .gifnext ra => Sys2Proof.Machine.execGifnext ra s
  | .gifrewind => Sys2Proof.Machine.execGifrewind s
  | .gifwopen ra rb rc => Sys2Proof.Machine.execGifwopen ra rb rc s
  | .gifwframe rb rc => Sys2Proof.Machine.execGifwframe rb rc s
  | .gifwend => Sys2Proof.Machine.execGifwend s

end Sys2Proof.Machine
end

