-- ==== Sys2Proof/Machine/Fetch.lean ====
section
/-! DEFINITION. Fetch and decode of the command at PC (spec/40_engine.md R170, spec/60_exceptions.md R492). -/

namespace Sys2Proof.Machine

/-- The command at PC: IoError if one of its four bytes is outside MEM, IllegalCommand with the word if it is illegal;
neither has any other effect (R170, R492). -/
def fetchInstr (s : State) : Res Instr := do
  s.checkRange s.pc.toNat 4
  let bytes ← s.readBytes s.pc.toNat 4
  match decodeBytes bytes with
  | .ok (i, _) => return i
  | .error _ => fail .illegalCommand (leValue bytes)

/-- The four bytes of a word stored at PC, no check. -/
def State.putCommand (s : State) (w : Nat) : State := s.putMem s.pc.toNat (leBytes 4 w)

end Sys2Proof.Machine
end

