-- ==== Sys2Proof/Machine/Host.lean ====
section
/-! DEFINITION. The host (spec/10_state.md R30, spec/60_exceptions.md R510, spec/70_reset_and_hazards.md R530): its moves, when it
may make them, and what it may read. -/

namespace Sys2Proof.Machine

/-- Reset (R530): every register, CSR, slot, table and file at its reset value; MEM is not changed. The model's own fields
are kept. Log entry 18. -/
def State.resetBy (s : State) : State :=
  { State.reset with mem := s.mem, params := s.params, draws := s.draws, host := s.host }

/-- START (R510): STATUS <- BUSY = 1, the other fields cleared. -/
def State.started (s : State) : State := s.setCsr .status statusRunning

/-- A write of PC by the host: bits 1..0 cleared (R33, R510). -/
def State.setPcByHost (s : State) (v : Word) : State := { s with pc := v &&& ~~~3#32 }

/-- A move the host may make at any time (R510). -/
def HostMove.anyTime : HostMove → Bool
  | .reset | .observe => true
  | .writeMem .. | .writeX .. | .writePc _ | .writeCsr .. | .writeStatus _ | .start => false

/-- The host may make the move now: BUSY = 0, or a move of any time (R115, R510). -/
def HostMove.allowed (m : HostMove) (s : State) : Bool := !s.busy || m.anyTime

/-- What a move does (R510). Outside MEM there is no byte to write, and only an RW CSR can be written; the host has no such
move (log entry 19). -/
def hostMove (m : HostMove) (s : State) : Outcome :=
  match m with
  | .writeMem a v => if a < s.memSize then .next (s.putMem a [v]) else .fault .hostMoveNotAllowed
  | .writeX r v => .next (s.setX r v)
  | .writePc v => .next (s.setPcByHost v)
  | .writeCsr c v => if c.access = .rw then .next (s.setCsr c v) else .fault .hostMoveNotAllowed
  | .writeStatus v => .next (s.setCsr .status (statusHostWrite (s.getCsr .status) v))
  | .start => .next s.started
  | .reset => .next s.resetBy
  | .observe => .next s

/-- The move due in this step, if any, and the state with the script moved on. A due move the host may not make yet waits:
its duty is to make none while BUSY = 1 (R115, R510). Log entry 15. -/
def hostTurn (s : State) : Option HostMove × State :=
  match s.host with
  | [] => (none, s)
  | (0, m) :: rest => if m.allowed s then (some m, { s with host := rest }) else (none, s)
  | (n + 1, m) :: rest => (none, { s with host := (n, m) :: rest })

/-! ### What the host may read (R510, R115): no value while BUSY = 1, but for STATUS and irq -/

/-- Read a byte of MEM. -/
def State.hostReadMem (s : State) (a : Nat) : Option Byte := if s.busy then none else s.mem.read? a

/-- Read X[i]. -/
def State.hostReadX (s : State) (r : Reg) : Option Word := if s.busy then none else some (s.getX r)

/-- Read PC. -/
def State.hostReadPc (s : State) : Option Word := if s.busy then none else some s.pc

/-- Read a CSR; STATUS at any time. -/
def State.hostReadCsr (s : State) (c : Csr) : Option Word :=
  if s.busy && c != .status then none else some (s.getCsr c)

/-- Observe irq, at any time (R500). -/
def State.hostReadIrq (s : State) : Bool := s.irq

end Sys2Proof.Machine
end

