-- ==== Sys2Proof/Machine/Cycle.lean ====
section
/-! DEFINITION. What one step does: the host's due move, or one command of a running engine (spec/40_engine.md R170). -/

namespace Sys2Proof.Machine

/-- One turn of the engine: while BUSY = 1 a command is fetched, decoded and executed (R170); an idle engine does nothing
(log entry 16). -/
def engineStep (s : State) : Outcome :=
  if s.busy then
    match fetchInstr s with
    | .ok i => exec i s
    | .error e => finish s (.error e)
  else .next s

/-- The host's due move, or else the engine's turn (R30). -/
def cycle (s : State) : Outcome :=
  match hostTurn s with
  | (some m, t) => hostMove m t
  | (none, t) => engineStep t

/-- The state in which the next step fetches and runs the command whose bits are w: it stands at PC, the engine runs, and no
host move is to come. Log entry 15. -/
def State.readyFor (s : State) (w : Nat) : State := { (s.putCommand w).started with host := [] }

end Sys2Proof.Machine
end

