-- ==== Sys2Proof/Machine/Step.lean ====
section
/-! DEFINITION. One step of the machine. -/

namespace Sys2Proof.Machine

/-- One step (Machine/Cycle.lean). -/
def step (s : State) : Host.Outcome State Fault Refusal := cycle s

/-- s with the command whose bits are w (those above nbits zero) where step fetches its next command. -/
def State.withFetchWord (s : State) (nbits w : Nat) : State := s.readyFor (w % 2 ^ nbits)

end Sys2Proof.Machine
end

