-- ==== Sys2Proof/Safety.lean ====
section
/-! DEFINITION. The terms in which claims speak of runs: what every reachable state meets, what a command may change, how a
fault shows, and what stands in MEM and in the bit stream. -/

namespace Sys2Proof.Machine

/-! ### What a good state meets -/

/-- A slot holds as many symbols as its histogram counts, at most 256, and its tree is not over-subscribed (R50, R260,
R265). -/
def HuffSlot.wf (t : HuffSlot) : Bool :=
  t.syms.length == t.counts.sum && decide (t.syms.length ≤ Config.hsymMax) && buildTreeOk t.counts

/-- The invariant of every step: MEM_SIZE is legal (R7), MEM is in canonical form and inside MEM_SIZE (R100), PC is a
multiple of 4 (R33), the cell of X0 is 0 (R32), no CSR holds an unnamed bit (R35), STATUS holds one of its values (R40), S
holds finite values (R51), and every slot is well formed (R50). -/
structure State.Inv (s : State) : Prop where
  params : s.params.legal
  memWf : s.mem.wf = true
  memBelow : s.mem.below s.memSize = true
  pcAligned : s.pc.extractLsb' 0 2 = 0
  x0 : s.x.get 0 = 0
  csrNamed : ∀ c, s.getCsr c &&& ~~~c.mask = 0
  status : statusLegal (s.getCsr .status) = true
  sFinite : ∀ i : Fin 64, Binary64.isFinite (s.sfile.get i) = true
  slotsWf : ∀ i : Fin 32, (s.slots.get i).wf = true

/-! ### What a command may change (the "State written" of each rule) -/

/-- The CSRs of the bit writer that writing bits changes (R217, R218). -/
def writerCsrs : List Csr := [.bwLen, .bwAcc, .bwNacc]

/-- The CSRs every fault writes (R494). -/
def faultCsrs : List Csr := [.status, .errpc, .erraux]

/-- The register a command writes: its ra, out or in/out (R134). GIFWOPEN only reads its ra (R140). -/
def destReg : Instr → Option Reg
  | .lui ra _ | .ori ra _ _ | .addi ra _ _ | .add ra _ _ | .sub ra _ _ | .csrr ra _ | .lbu ra _ _ | .rdbits ra _
  | .unstuff ra _ _ | .bwflush ra _ | .sbgather ra _ _ | .sbsplit ra _ _ | .hbuild ra _ _ _ | .hdec ra _
  | .hfroment ra _ _ | .lzwdec ra _ _ | .qload ra _ _ _ _ | .gifnext ra => some ra
  | .nop | .halt | .beq .. | .bne .. | .bltu .. | .csrw .. | .sb .. | .brinit .. | .align | .bwinit .. | .wrbits ..
  | .hctab .. | .henc .. | .lzwenc .. | .sldb .. | .sstb .. | .kld _ | .kst _ | .fdct | .idct | .quant .. | .dequant ..
  | .zzfwd _ | .zzinv _ | .cvtks | .cvtsk | .decblk .. | .encblk .. | .prst | .gifopen .. | .gifrewind | .gifwopen ..
  | .gifwframe .. | .gifwend => none

/-- The CSRs a command may write, beside those of a fault. -/
def csrsWritten : Instr → List Csr
  | .nop | .lui .. | .ori .. | .addi .. | .add .. | .sub .. | .beq .. | .bne .. | .bltu .. | .csrr .. | .lbu .. | .sb ..
  | .sbsplit .. | .hctab .. | .hfroment .. | .sldb .. | .sstb .. | .kld _ | .kst _ | .fdct | .idct | .quant ..
  | .dequant .. | .zzfwd _ | .zzinv _ | .cvtks | .cvtsk => []
  | .halt => [.status]
  | .csrw _ n => (Csr.ofNumber n).toList
  | .brinit .. => [.brBase, .brLen, .brPos, .brMode]
  | .rdbits .. | .align | .hdec .. => [.brPos]
  | .unstuff .. | .sbgather .. => [.aux]
  | .bwinit .. => [.bwBase, .bwCap, .bwLen, .bwAcc, .bwNacc, .bwMode]
  | .wrbits .. | .bwflush .. | .henc .. | .lzwenc .. => writerCsrs
  | .hbuild .. => [.huffValid]
  | .lzwdec .. => [.aux, .brPos]
  | .qload .. => [.qValid]
  | .decblk _ _ p => [Csr.pred p, .brPos]
  | .encblk _ _ p => Csr.pred p :: writerCsrs
  | .prst => [.pred0, .pred1, .pred2, .pred3]
  | .gifopen .. => .gOpen :: Csr.gifParser
  | .gifnext _ => [.aux, .gCur, .gGce, .gDelay, .gTrans, .gLoop, .gCmtLen, .gImgPos, .gImgSize, .gImgPk, .gLctN,
      .gLctOff, .gFrames]
  | .gifrewind => [.gCur, .gLctN, .gLctOff, .gGce]
  | .gifwopen .. => [.gwW, .gwH, .gwFrames, .gwOpen] ++ writerCsrs
  | .gifwframe .. => .gwFrames :: writerCsrs
  | .gifwend => .gwOpen :: writerCsrs

/-- The part of the bit writer's buffer past BW_LEN, where committed bytes go (R217). -/
def State.writerRoom (s : State) : Region :=
  ⟨s.getCsrNat .bwBase + s.getCsrNat .bwLen, s.getCsrNat .bwCap - s.getCsrNat .bwLen⟩

/-- The index frames of the GIF writer (R434). -/
def State.indexRegion (s : State) : Region := ⟨s.getCsrNat .gwIdxBase, 2 * (s.getCsrNat .gwW * s.getCsrNat .gwH)⟩

/-- The bytes of MEM a command executed in state s may write. -/
def bytesWritten (i : Instr) (s : State) : List Region :=
  match i with
  | .sb rb _ imm => [⟨s.effAddr rb imm, 1⟩]
  | .unstuff ra _ rc | .sbgather ra _ rc => [⟨s.getXNat ra, s.getXNat rc⟩]
  | .sbsplit ra _ rc => [⟨s.getXNat ra, splitLength (s.getXNat rc)⟩]
  | .wrbits .. | .bwflush .. | .henc .. | .lzwenc .. | .encblk .. | .gifwopen .. | .gifwend => [s.writerRoom]
  | .hctab rb _ => [⟨s.getXNat rb, 1024⟩]
  | .hfroment ra _ rc => [⟨s.getXNat ra, 16 + s.getXNat rc⟩]
  | .lzwdec ra rc _ => [⟨s.getXNat ra, s.getXNat rc⟩]
  | .sstb rb rc _ => (List.range 64).map fun k => ⟨s.blockAddr rb rc k, 1⟩
  | .kst rb => [⟨s.getXNat rb, 256⟩]
  | .gifnext _ => [s.frameRegion, s.scratchRegion, s.commentRegion]
  | .gifwframe .. => [s.writerRoom, s.indexRegion]
  | .nop | .halt | .lui .. | .ori .. | .addi .. | .add .. | .sub .. | .beq .. | .bne .. | .csrr .. | .csrw .. | .lbu ..
  | .bltu .. | .brinit .. | .rdbits .. | .align | .bwinit .. | .hbuild .. | .hdec .. | .qload .. | .sldb .. | .kld _
  | .fdct | .idct | .quant .. | .dequant .. | .zzfwd _ | .zzinv _ | .cvtks | .cvtsk | .decblk .. | .prst | .gifopen ..
  | .gifrewind => []

/-- The files and stores beside the registers, CSRs and MEM (R50 to R53). -/
inductive Store where
  | sfile
  | kfile
  | slots
  | tables
  deriving DecidableEq, Repr

/-- The files and stores a command may write (R50 to R53). -/
def storesWritten : Instr → List Store
  | .sldb .. | .cvtks | .fdct | .idct => [.sfile]
  | .kld _ | .quant .. | .dequant .. | .cvtsk | .decblk .. => [.kfile]
  | .zzfwd f | .zzinv f =>
    match f with
    | .s => [.sfile]
    | .k => [.kfile]
  | .hbuild .. => [.slots]
  | .qload .. => [.tables]
  | .nop | .halt | .lui .. | .ori .. | .addi .. | .add .. | .sub .. | .beq .. | .bne .. | .bltu .. | .csrr .. | .csrw ..
  | .lbu .. | .sb .. | .brinit .. | .rdbits .. | .align | .unstuff .. | .bwinit .. | .wrbits .. | .bwflush ..
  | .sbgather .. | .sbsplit .. | .hdec .. | .hctab .. | .henc .. | .hfroment .. | .lzwdec .. | .lzwenc .. | .sstb ..
  | .kst _ | .encblk .. | .prst | .gifopen .. | .gifnext _ | .gifrewind | .gifwopen .. | .gifwframe .. | .gifwend => []

/-- The byte at a is in none of the ranges. -/
def outside (rs : List Region) (a : Nat) : Prop := ∀ r ∈ rs, a < r.base ∨ r.base + r.len ≤ a

/-- Between s and t nothing changed but the registers rs, the CSRs cs, the stores fs and the bytes of the ranges bytes; PC and
the count of free values drawn aside. -/
structure Effect (rs : List Reg) (cs : List Csr) (fs : List Store) (bytes : List Region) (s t : State) : Prop where
  reg : ∀ q, q ∉ rs → t.getX q = s.getX q
  csr : ∀ c, c ∉ cs → t.getCsr c = s.getCsr c
  mem : ∀ a, outside bytes a → t.mem.read? a = s.mem.read? a
  sfile : .sfile ∉ fs → t.sfile = s.sfile
  kfile : .kfile ∉ fs → t.kfile = s.kfile
  slots : .slots ∉ fs → t.slots = s.slots
  tables : .tables ∉ fs → t.qtabs = s.qtabs
  params : t.params = s.params
  host : t.host = s.host

/-- Register ra of t holds v, where a register that discards writes holds 0 (R32, R171). -/
def RegIs (ra : Reg) (v : Word) (t : State) : Prop := t.getX ra = if ra = 0 then 0 else v

/-- t is s after a fault with this code and detail word (R494): PC and the registers are kept, STATUS, ERRPC and ERRAUX
written. -/
structure FaultTaken (code : FaultCode) (aux : Word) (s t : State) : Prop where
  pc : t.pc = s.pc
  reg : ∀ q, t.getX q = s.getX q
  status : t.getCsr .status = u32 (256 * code.number + 4)
  errpc : t.getCsr .errpc = s.pc
  erraux : t.getCsr .erraux = aux

/-- t is s after a fault that keeps everything but the CSRs of a fault and, beside them, the CSRs cs, the stores fs and the
bytes of the ranges bytes, which may hold any value (R494). -/
def FaultLeaving (code : FaultCode) (aux : Word) (cs : List Csr) (fs : List Store) (bytes : List Region) (s t : State) :
    Prop :=
  FaultTaken code aux s t ∧ Effect [] (cs ++ faultCsrs) fs bytes s t

/-- t is s after a fault that leaves everything else as it was. -/
def CleanFault (code : FaultCode) (aux : Word) (s t : State) : Prop := FaultLeaving code aux [] [] [] s t

/-- t is s after a command that is no branch: PC at the next command, and only what is named changed (R33, R170). -/
def Advanced (rs : List Reg) (cs : List Csr) (fs : List Store) (bytes : List Region) (s t : State) : Prop :=
  t.pc = s.pc + 4 ∧ Effect rs cs fs bytes s t

/-- What R530 gives a value, at that value. -/
structure State.IsReset (t : State) : Prop where
  pc : t.pc = 0
  x0 : t.getX 0 = 0
  csrs : ∀ c, t.getCsr c = 0
  sfile : ∀ i : Fin 64, t.sfile.get i = 0
  kfile : ∀ i : Fin 64, t.kfile.get i = 0
  idle : t.busy = false
  irq : t.irq = false
  slots : ∀ i, t.slotValid i = false
  tables : ∀ q, t.tableValid q = false

/-! ### What stands in MEM, in the bit stream and in the bit writer -/

/-- The bytes stand in MEM at a, a + 1, …, all inside MEM. -/
def State.holds (s : State) : Nat → List Byte → Bool
  | _, [] => true
  | a, b :: bs => s.mem.read? a == some b && decide (a < s.memSize) && s.holds (a + 1) bs

/-- The bits the reader finds from cursor p on, each within the buffer and MEM (R211). -/
def Reader.hasBits (rd : Reader) (s : State) : Nat → List Bool → Bool
  | _, [] => true
  | p, b :: bs =>
    decide (p < 8 * rd.len ∧ p < 0xFFFFFFFF ∧ rd.base + p / 8 < s.memSize) &&
      (match s.mem.read? (rd.base + p / 8) with
        | some y => streamBit rd.order y p == b.toNat
        | none => false) &&
      rd.hasBits s (p + 1) bs

/-- The number that bits read in this order make: the first one is the most significant MSB-first, the least LSB-first
(R212). -/
def valueOf : BitOrder → List Bool → Nat
  | _, [] => 0
  | .msb, b :: bs => b.toNat * 2 ^ bs.length + valueOf .msb bs
  | .lsb, b :: bs => b.toNat + 2 * valueOf .lsb bs

/-- The bits of codes put one after the other, each most or least significant bit first (R220, R302). -/
def bitString (order : BitOrder) (codes : List (Nat × Nat)) : List Bool := codes.flatMap fun c => bitsOf order c.1 c.2

/-- The bits in a byte, in stream order (R218). -/
def byteBits (order : BitOrder) (b : Byte) : List Bool := bitsOf order b.toNat 8

/-- The bits in a packer: those of its finished bytes, then the pending ones (R43). -/
def Packer.bits (k : Packer) : List Bool :=
  k.out.reverse.flatMap (byteBits k.order) ++ (byteBits k.order k.acc).take k.nacc

/-- Fewer than 8 bits pend, and the unused positions of the partial byte are 0 (R43). -/
def Packer.clean (k : Packer) : Bool := decide (k.nacc < 8) && ((byteBits k.order k.acc).drop k.nacc).all (!·)

/-- Bytes with a 0x00 after every 0xFF (R217). -/
def stuffed (bs : List Byte) : List Byte := bs.flatMap fun b => if b = 0xFF then [0xFF, 0x00] else [b]

/-- The finished bytes of the packer fit the writer's buffer and MEM (R217). -/
def State.fits (s : State) (k : Packer) : Prop :=
  k.out = [] ∨
    (s.getCsrNat .bwLen + k.out.length ≤ s.getCsrNat .bwCap ∧
      s.getCsrNat .bwBase + s.getCsrNat .bwLen + k.out.length ≤ s.memSize)

/-- Where the packer's finished bytes go (R217). -/
def State.committedRegion (s : State) (k : Packer) : Region :=
  ⟨s.getCsrNat .bwBase + s.getCsrNat .bwLen, k.out.length⟩

/-- t is s with the packer's finished bytes committed, and the packer's partial byte and the new BW_LEN in the CSRs
(R217, R218). -/
def Committed (s : State) (k : Packer) (t : State) : Prop :=
  t.holds (s.getCsrNat .bwBase + s.getCsrNat .bwLen) k.out.reverse = true ∧
    t.getCsrNat .bwLen = s.getCsrNat .bwLen + k.out.length ∧ t.getCsr .bwAcc = k.acc.setWidth 32 ∧
    t.getCsrNat .bwNacc = k.nacc

/-- What UNSTUFF makes of a source, with the source bytes it consumes; none when there is no FF D9 (R216). -/
def unstuffed : List Byte → Option (List Byte × Nat)
  | [] => none
  | [_] => none
  | b :: c :: rest =>
    if b ≠ 0xFF then (unstuffed (c :: rest)).map fun r => (b :: r.1, r.2 + 1)
    else if c = 0x00 then (unstuffed rest).map fun r => (0xFF :: r.1, r.2 + 2)
    else if 0xD0 ≤ c.toNat ∧ c.toNat ≤ 0xD7 then (unstuffed rest).map fun r => (r.1, r.2 + 2)
    else if c = 0xD9 then some ([], 2)
    else (unstuffed (c :: rest)).map fun r => (0xFF :: r.1, r.2 + 1)

/-- A sub-block chain: each chunk with its length before it, then the zero-length terminator (R224). -/
def subBlockChain (chunks : List (List Byte)) : List Byte :=
  chunks.flatMap (fun c => BitVec.ofNat 8 c.length :: c) ++ [0]

/-- Every chunk is a legal sub-block: 1 to 255 bytes (R224). -/
def chunksLegal (chunks : List (List Byte)) : Bool := chunks.all fun c => decide (1 ≤ c.length ∧ c.length ≤ 255)

/-- The bytes of a table body: the histogram, then the symbols (R264). -/
def tableBody (t : HuffSlot) : List Byte := t.hist.toList ++ t.syms

/-- The symbols of a table in order, each with its canonical code and the code's length (R261). -/
def HuffSlot.table (t : HuffSlot) : List (Byte × Nat × Nat) := t.syms.zip (canonicalCodes t.counts)

/-- The entries HFROMENT takes for a table: each symbol's canonical code, its length and the symbol (R270). -/
def tableEntriesOf (t : HuffSlot) : List CodeEntry := t.table.map fun e => ⟨e.2.1, e.2.2, e.1⟩

/-- The 4 bytes of an entry (R270). -/
def entryBytes (e : CodeEntry) : List Byte := leBytes 2 e.code ++ [BitVec.ofNat 8 e.len, e.sym]

/-- The AC symbols a block needs after `run` zeros (R466). -/
def acSymbols : List Word → Nat → List Nat
  | [], run => if 0 < run then [0x00] else []
  | w :: ws, run =>
    if w = 0 then acSymbols ws (run + 1)
    else List.replicate (run / 16) 0xF0 ++ (16 * (run % 16) + category (s32 w)) :: acSymbols ws 0

/-- Every value of the list has a code in the slot, and no symbol stands twice in it (R263). -/
def HuffSlot.codesAll (t : HuffSlot) (vs : List Nat) : Bool :=
  !hasRepeat t.syms && vs.all fun v => t.syms.any fun b => b.toNat == v

/-- The code and length of a value in a table of symbols with their codes (R263). -/
def codeIn (table : List (Byte × Nat × Nat)) (v : Nat) : Nat × Nat :=
  ((table.find? fun e => e.1.toNat == v).map Prod.snd).getD (0, 0)

/-- The raw bits of a value with their number; none for 0 (R460). -/
def rawCode (v : Int) : List (Nat × Nat) := if category v = 0 then [] else [(rawbits v (category v), category v)]

/-- What ENCBLK puts for the AC coefficients still to come after `run` zeros: for each nonzero one a ZRL for every 16 zeros,
its symbol and its raw bits; at the end an EOB if zeros remain (R462, R466). -/
def acPieces (table : List (Byte × Nat × Nat)) : List Word → Nat → List (Nat × Nat)
  | [], run => if 0 < run then [codeIn table 0x00] else []
  | w :: ws, run =>
    if w = 0 then acPieces table ws (run + 1)
    else List.replicate (run / 16) (codeIn table 0xF0) ++ codeIn table (16 * (run % 16) + category (s32 w)) ::
      (rawCode (s32 w) ++ acPieces table ws 0)

/-- What ENCBLK puts for a block: the DC category's code and raw bits, then the AC part (R461, R466). -/
def blockPieces (dc ac : List (Byte × Nat × Nat)) (diff : Int) (acs : List Word) : List (Nat × Nat) :=
  codeIn dc (category diff) :: (rawCode diff ++ acPieces ac acs 0)

/-! ### Numbers -/

/-- A value in units of 2^-1074, rounded to an integer with halves away from zero (R335). -/
def roundUnits (u : Int) : Int :=
  if 0 ≤ u then (2 * u + 2 ^ 1074) / 2 ^ 1075 else -((2 * -u + 2 ^ 1074) / 2 ^ 1075)

/-- The element is exactly the integer n, and +0.0 when n is 0 (R351). -/
def HoldsInt (d : Binary64) (n : Int) : Prop :=
  Binary64.isFinite d = true ∧ f64Units d = n * 2 ^ 1074 ∧ (n = 0 → d = 0)

/-! ### A GIF file in MEM -/

/-- The open file has these bytes at offset o, within its length (R380). -/
def State.fileHolds (s : State) (o : Nat) (bs : List Byte) : Prop :=
  o + bs.length ≤ s.getCsrNat .gFileLen ∧ s.holds (s.getCsrNat .gFileBase + o) bs = true

/-- An image block: its descriptor, local colour table and compressed data, with the indices the data stand for (R387,
R388). -/
structure ImageBlock where
  left : Nat
  top : Nat
  width : Nat
  height : Nat
  pk : Byte
  lct : List Byte
  m : Nat
  chunks : List (List Byte)
  indices : List Byte
  deriving DecidableEq, Repr

/-- The bytes of an image descriptor (R387). -/
def ImageBlock.descriptor (b : ImageBlock) : List Byte :=
  [0x2C] ++ leBytes 2 b.left ++ leBytes 2 b.top ++ leBytes 2 b.width ++ leBytes 2 b.height ++ [b.pk]

/-- The bytes of an image block (R387, R388). -/
def ImageBlock.bytes (b : ImageBlock) : List Byte :=
  b.descriptor ++ b.lct ++ [BitVec.ofNat 8 b.m] ++ subBlockChain b.chunks

/-- The entry count of the local colour table, 0 when absent (R387). -/
def ImageBlock.lctN (b : ImageBlock) : Nat := if b.pk.getLsbD 7 then 2 ^ (b.pk.toNat % 8 + 1) else 0

/-- The block can be decoded: the fields fit, it is not interlaced, its rectangle lies on the screen, its data begin with the
LZW codes of its indices, and there is an index for each pixel; more indices than pixels are allowed (R387, R388). The codes have fewer than 2^32 bits,
beyond which the model's private reader does not go (log entry 32). -/
structure ImageBlock.Legal (b : ImageBlock) (s : State) : Prop where
  fields : b.left < 2 ^ 16 ∧ b.top < 2 ^ 16 ∧ b.width < 2 ^ 16 ∧ b.height < 2 ^ 16
  progressive : b.pk.getLsbD 6 = false
  lct : b.lct.length = 3 * b.lctN
  onScreen : b.left + b.width ≤ s.getCsrNat .gSw ∧ b.top + b.height ≤ s.getCsrNat .gSh
  codeSize : 2 ≤ b.m ∧ b.m ≤ 8
  chunks : chunksLegal b.chunks = true
  data : bitString .lsb (lzwEncode b.m b.indices) <+: b.chunks.flatten.flatMap (byteBits .lsb)
  bits : (bitString .lsb (lzwEncode b.m b.indices)).length ≤ 0xFFFFFFFF
  pixels : b.width * b.height ≤ b.indices.length
  below : ∀ v ∈ b.indices, v.toNat < 2 ^ b.m

/-- The active colour table of the block: its file offset and entry count (R387). -/
def ImageBlock.activeTable (b : ImageBlock) (s : State) : Nat × Nat :=
  if b.pk.getLsbD 7 then (s.getCsrNat .gCur + 10, b.lctN) else (13, s.getCsrNat .gGctN)

/-- The buffers GIFNEXT needs for the block: framebuffer, scratch region and file share no byte, the compressed data and the
indices fit the scratch region, and both regions lie in MEM (R392, R393). -/
structure ImageBlock.Room (b : ImageBlock) (s : State) : Prop where
  format : s.getCsrNat .gPixFmt ≠ 3
  apart : s.frameRegion.overlaps s.scratchRegion = false ∧ s.frameRegion.overlaps s.file = false ∧
    s.scratchRegion.overlaps s.file = false
  scratch : b.chunks.flatten.length + b.width * b.height ≤ s.getCsrNat .gScrLen
  scratchMem : s.getCsrNat .gScrBase + b.chunks.flatten.length + b.width * b.height ≤ s.memSize
  frameMem : s.frameRegion.base + s.frameRegion.len ≤ s.memSize

/-- Pixel (x, y) of the screen is painted by the block: it is in the rectangle and its index is not skipped (R389). -/
def ImageBlock.paints (b : ImageBlock) (s : State) (x y : Nat) : Bool :=
  decide (b.left ≤ x ∧ x < b.left + b.width ∧ b.top ≤ y ∧ y < b.top + b.height) &&
    !s.skips (b.indices.getD ((y - b.top) * b.width + (x - b.left)) 0)

/-- The rectangle holds pixel p of a frame of width w. -/
def FrameRect.contains (r : FrameRect) (w p : Nat) : Prop :=
  r.left ≤ p % w ∧ p % w < r.left + r.width ∧ r.top ≤ p / w ∧ p / w < r.top + r.height

/-- (r, g, b) is the disposal fill colour: the global table's entry G_BG where the parameter says BACKGROUND and the table has
it, else white (R395). -/
def State.FillColour (s : State) (r g b : Byte) : Prop :=
  if s.params.disposeFill = .background ∧ s.getCsrNat .gBg < s.getCsrNat .gGctN then
    s.fileHolds (13 + 3 * s.getCsrNat .gBg) [r, g, b]
  else r = 0xFF ∧ g = 0xFF ∧ b = 0xFF

/-- The bytes of a frame's pixels, R, G, B each (R437). -/
def pixelBytesOf (pixels : List (Byte × Byte × Byte)) : List Byte := pixels.flatMap fun p => [p.1, p.2.1, p.2.2]

/-- The bit writer is ready for a GIF writer command: byte-aligned with nothing pending, LSB-first, stuffing off (R435). -/
def State.gifWriterReady (s : State) : Prop :=
  s.getCsrNat .bwNacc = 0 ∧ s.getCsr .bwAcc = 0 ∧ s.getCsr .bwMode = 1

end Sys2Proof.Machine
end

