-- ==== Sys2Proof/Certificates/Slice0/Obligations.lean ====
section
/-! DEFINITION. The statements for the provers, from the numbered rules of the spec. -/

open Sys2Proof Sys2Proof.Machine

/-! ### Encoding -/

/-- R102, R130, R140, R142: the word of a well-formed command decodes to it, every operand at every value its field admits;
and its four little-endian bytes, at the head of any bytes, decode to it and leave the rest. -/
def Obligations.DecodeOfEncode : Prop :=
  ∀ i : Instr, i.wellFormed = true → decodeWord (encode i) = .ok i ∧
    ∀ rest : List Byte, decodeBytes (leBytes 4 (encode i).toNat ++ rest) = .ok (i, rest)

/-- R141, R142: a word decodes to at most one command, a well-formed one, and is exactly that command's word, so no zero
field, reserved bit or restricted subfield of a legal word is lost. -/
def Obligations.LegalWordsAreEncodings : Prop :=
  ∀ (w : Word) (i : Instr), decodeWord w = .ok i → i.wellFormed = true ∧ encode i = w

/-- R140: words written out from the tables of the encoding, one or more of each family, decode to the commands they stand
for; words R141 calls illegal decode to none. -/
def Obligations.SpecWordsDecode : Prop :=
  decodeTableWord 32 0x00000001 = some .nop ∧
  decodeTableWord 32 0x12345103 = some (.lui 1 0x12345) ∧
  decodeTableWord 32 0xFFF03305 = some (.addi 3 3 0xFFF) ∧
  decodeTableWord 32 0x00C02111 = none ∧
  decodeTableWord 32 0x00C00111 = some (.rdbits 1 12) ∧
  decodeTableWord 32 0x00032014 = some (.bwinit 2 3 .msb false) ∧
  decodeTableWord 32 0x02002120 = some (.hbuild 1 2 0 true) ∧
  decodeTableWord 32 0x00230130 = some (.lzwdec 1 3 2) ∧
  decodeTableWord 32 0x01100047 = some (.quant 1 .natural) ∧
  decodeTableWord 32 0x11000050 = some (.decblk 0 1 1) ∧
  decodeTableWord 32 0x00032060 = some (.gifopen 2 3) ∧
  decodeTableWord 32 0x00032163 = some (.gifwopen 1 2 3) ∧
  decodeTableWord 32 0x00000000 = none ∧
  decodeTableWord 32 0x01900111 = none

/-! ### Reset, the host and the cycle -/

/-- R530: the machine right after reset has the values R530 gives, and a reset of any state, running or not, gives them and
leaves MEM. Of X1..X15 and the contents of slots and tables R530 gives no value, and nothing is said. MEM's having no value
then is the model's reading (log entry 2), and that params and the rest of the host's script stay is the model's own (log
entries 3, 15, 18). -/
def Obligations.ResetState : Prop :=
  State.reset.IsReset ∧ (∀ a, State.reset.mem.read? a = none) ∧
    ∀ s : State, ∀ rest, s.host = (0, .reset) :: rest →
      ∃ t, step s = .next t ∧ t.IsReset ∧ t.mem = s.mem ∧ t.params = s.params ∧ t.host = rest

/-- The invariant of the model holds right after reset. It rests on the model's reset values too (log entries 1, 3, 20). -/
def Obligations.ResetMeetsInvariant : Prop := State.reset.Inv

/-- Every step keeps the invariant: X0 reads 0 (R32), PC is a multiple of 4 (R33), no CSR holds an unnamed bit (R35), STATUS
holds one of its values (R40), the slots are well formed (R50), S is finite (R51), and MEM is in canonical form and inside
MEM_SIZE (R100), whatever the host does and whichever command runs or faults. What a fault leaves is drawn inside these
bounds (log entries 8, 23). -/
def Obligations.StepKeepsInvariant : Prop :=
  ∀ s t : State, s.Inv → step s = .next t → t.Inv

/-- R170: where no move of the host is due, a running engine whose four bytes at PC decode to a command runs exactly that
command, and an idle one does nothing; the host's script is all that may have moved on before. The host's script and the
idle step are the model's own (log entries 15, 16). -/
def Obligations.StepRunsTheDecodedCommand : Prop :=
  ∀ s s' : State, hostTurn s = (none, s') →
    s' = { s with host := s'.host } ∧
    (s'.busy = false → step s = .next s') ∧
    ∀ (bytes : List Byte) (i : Instr), s'.busy = true → bytes.length = 4 → s'.holds s'.pc.toNat bytes = true →
      decodeBytes bytes = .ok (i, []) → step s = exec i s'

/-- R492: a fetch that leaves MEM is IoError with the first byte address outside MEM, an illegal word is IllegalCommand with
the word, and neither has any other effect. -/
def Obligations.FetchFaults : Prop :=
  ∀ s s' : State, hostTurn s = (none, s') → s'.busy = true →
    (s'.memSize < s'.pc.toNat + 4 →
      ∃ t, step s = .next t ∧ CleanFault .ioError (u32 (max s'.pc.toNat s'.memSize)) s' t) ∧
    ∀ (w : Word) (r : Reject), s'.holds s'.pc.toNat (leBytes 4 w.toNat) = true → decodeWord w = .error r →
      ∃ t, step s = .next t ∧ CleanFault .illegalCommand w s' t

/-- R40, R115, R510: while the engine runs the host makes no move but reset and observing; a due move it may make is made;
and each move, and each read of the host, does what the table of R510 says and nothing else. The host's script and its turns
are the model's own (log entry 15), so is the reading of a STATUS write that is not 0 (log entry 17), and that a reset keeps
params and the script (log entry 18). -/
def Obligations.HostMoves : Prop :=
  (∀ (s t : State) (m : HostMove), s.busy = true → hostTurn s = (some m, t) → m = .reset ∨ m = .observe) ∧
  (∀ (s : State) (m : HostMove) (rest : List (Nat × HostMove)), s.busy = false ∨ m = .reset ∨ m = .observe →
    s.host = (0, m) :: rest → step s = hostMove m { s with host := rest }) ∧
  ∀ u : State,
    (∀ a v, a < u.memSize → ∃ t, hostMove (.writeMem a v) u = .next t ∧ t.mem.read? a = some v ∧ t.pc = u.pc ∧
      Effect [] [] [] [⟨a, 1⟩] u t) ∧
    (∀ r v, ∃ t, hostMove (.writeX r v) u = .next t ∧ RegIs r v t ∧ t.pc = u.pc ∧ Effect [r] [] [] [] u t) ∧
    (∀ v, ∃ t, hostMove (.writePc v) u = .next t ∧ t.pc = v &&& ~~~3#32 ∧ Effect [] [] [] [] u t) ∧
    (∀ c v, c.access = .rw → ∃ t, hostMove (.writeCsr c v) u = .next t ∧ t.getCsr c = v &&& c.mask ∧ t.pc = u.pc ∧
      Effect [] [c] [] [] u t) ∧
    (∀ v, ∃ t, hostMove (.writeStatus v) u = .next t ∧ t.busy = u.busy ∧
      (t.getCsr .status).getLsbD 1 = ((u.getCsr .status).getLsbD 1 && v.getLsbD 1) ∧
      (t.getCsr .status).getLsbD 2 = ((u.getCsr .status).getLsbD 2 && v.getLsbD 2) ∧
      (t.getCsr .status).extractLsb' 8 4 =
        (if (t.getCsr .status).getLsbD 2 = false ∨ v.extractLsb' 8 4 = 0 then 0 else (u.getCsr .status).extractLsb' 8 4) ∧
      (u.busy = false → v = 0 → t.getCsr .status = 0) ∧ t.pc = u.pc ∧ Effect [] [.status] [] [] u t) ∧
    (∃ t, hostMove .start u = .next t ∧ t.getCsr .status = 1 ∧ t.pc = u.pc ∧ Effect [] [.status] [] [] u t) ∧
    (∃ t, hostMove .reset u = .next t ∧ t.IsReset ∧ t.mem = u.mem ∧ t.params = u.params ∧ t.host = u.host) ∧
    hostMove .observe u = .next u ∧
    (u.busy = false → (∀ a, u.hostReadMem a = u.mem.read? a) ∧ (∀ r, u.hostReadX r = some (u.getX r)) ∧
      u.hostReadPc = some u.pc ∧ ∀ c, u.hostReadCsr c = some (u.getCsr c)) ∧
    (u.busy = true → (∀ a, u.hostReadMem a = none) ∧ (∀ r, u.hostReadX r = none) ∧ u.hostReadPc = none ∧
      ∀ c, c ≠ .status → u.hostReadCsr c = none) ∧
    u.hostReadCsr .status = some (u.getCsr .status) ∧ u.hostReadIrq = u.irq

/-- R500: irq is high when IE[0] = 1 and DONE or FAULT is set; it has the level of IE[0] after HALT and after every fault,
and is low after the host clears STATUS, starts the engine or writes IE[0] = 0. irq is computed, not stored (log entry 25).
-/
def Obligations.IrqLevel : Prop :=
  (∀ s : State, s.irq = true ↔
    (s.getCsr .ie).getLsbD 0 = true ∧ ((s.getCsr .status).getLsbD 1 = true ∨ (s.getCsr .status).getLsbD 2 = true)) ∧
  (∀ s t : State, exec .halt s = .next t → t.irq = (s.getCsr .ie).getLsbD 0) ∧
  (∀ (i : Instr) (s t : State) (code : FaultCode) (aux : Word), exec i s = .next t → FaultTaken code aux s t →
    t.irq = (s.getCsr .ie).getLsbD 0) ∧
  (∀ s t : State, hostMove (.writeStatus 0) s = .next t → t.irq = false) ∧
  (∀ s t : State, hostMove .start s = .next t → t.irq = false) ∧
  ∀ (s t : State) (v : Word), v.getLsbD 0 = false → hostMove (.writeCsr .ie v) s = .next t → t.irq = false

/-! ### What holds of every command -/

/-- R173, R494, R495: a command that ends either completes, and leaves ERRPC and ERRAUX, moves PC to the next command or, a
branch, to its target, and leaves STATUS unless it is HALT; or it takes one fault, with PC and every register kept. -/
def Obligations.CommandsCompleteOrFault : Prop :=
  ∀ (i : Instr) (s t : State), exec i s = .next t →
    (t.getCsr .errpc = s.getCsr .errpc ∧ t.getCsr .erraux = s.getCsr .erraux ∧
      (i ≠ .halt → t.getCsr .status = s.getCsr .status) ∧
      (t.pc = s.pc + 4 ∨ ∃ rb rc imm, (i = .beq rb rc imm ∨ i = .bne rb rc imm ∨ i = .bltu rb rc imm) ∧
        t.pc = u32i (s.pc.toNat + 4 * s32 (imm.signExtend 32)))) ∨
    ∃ code aux, FaultTaken code aux s t

/-- R134: no command changes a register but its ra, and that only where its ra is an output. -/
def Obligations.RegisterFrame : Prop :=
  ∀ (i : Instr) (s t : State) (q : Reg), exec i s = .next t → destReg i ≠ some q → t.getX q = s.getX q

/-- R494 and the 'State written' of every command: no CSR changes but those the command's rule names and those of a fault.
What a fault leaves is the model's reading (log entries 9 to 14). -/
def Obligations.CsrFrame : Prop :=
  ∀ (i : Instr) (s t : State) (c : Csr), exec i s = .next t → c ∉ csrsWritten i → c ∉ faultCsrs →
    t.getCsr c = s.getCsr c

/-- R494 and the 'State written' of every command: no byte of MEM changes outside the ranges the command writes, computed
from the state it starts in. What a fault leaves, and the bound on it, is the model's reading (log entries 9, 10, 14, 27,
29). -/
def Obligations.MemoryFrame : Prop :=
  ∀ (i : Instr) (s t : State) (a : Nat), exec i s = .next t → outside (bytesWritten i s) a →
    t.mem.read? a = s.mem.read? a

/-- R494 and the 'State written' of every command: the sample file, the coefficient file, the slots and the tables change
only by the commands that write them; the parameters and the host's script by none. params and host are the model's own
fields (log entries 3, 15). -/
def Obligations.StoreFrame : Prop :=
  ∀ (i : Instr) (s t : State), exec i s = .next t →
    (.sfile ∉ storesWritten i → t.sfile = s.sfile) ∧ (.kfile ∉ storesWritten i → t.kfile = s.kfile) ∧
      (.slots ∉ storesWritten i → t.slots = s.slots) ∧ (.tables ∉ storesWritten i → t.qtabs = s.qtabs) ∧
      t.params = s.params ∧ t.host = s.host

/-- R501: every command ends, on every state and with every operand, in a next state; the one thing that stops the model is
a read of a byte of MEM that nothing has written (log entry 2). No command is refused. -/
def Obligations.EveryCommandEnds : Prop :=
  ∀ (i : Instr) (s : State), (∃ t, exec i s = .next t) ∨
    ∃ a, exec i s = .fault (.unwrittenByte a) ∧ a < s.memSize ∧ s.mem.read? a = none

/-! ### Engine control -/

/-- R175, R177, R178, R179, R184, R185: NOP, LUI, ORI, ADDI, ADD and SUB, their words and their results, modulo 2^32. -/
def Obligations.RegisterCommands : Prop :=
  ∀ (ra rb rc : Reg) (imm12 : BitVec 12) (imm20 : BitVec 20) (s : State),
    (decodeWord 0x00000001 = .ok .nop ∧ exec .nop s = .next { s with pc := s.pc + 4 }) ∧
    (decodeWord (imm20 ++ ra ++ 0x03#8) = .ok (.lui ra imm20) ∧
      ∃ t, exec (.lui ra imm20) s = .next t ∧ RegIs ra (u32 (imm20.toNat * 2 ^ 12)) t ∧ Advanced [ra] [] [] [] s t) ∧
    (decodeWord (imm12 ++ 0#4 ++ rb ++ ra ++ 0x04#8) = .ok (.ori ra rb imm12) ∧
      ∃ t, exec (.ori ra rb imm12) s = .next t ∧ RegIs ra (u32 ((s.getX rb).toNat ||| imm12.toNat)) t ∧
        Advanced [ra] [] [] [] s t) ∧
    (decodeWord (imm12 ++ 0#4 ++ rb ++ ra ++ 0x05#8) = .ok (.addi ra rb imm12) ∧
      ∃ t, exec (.addi ra rb imm12) s = .next t ∧ RegIs ra (u32i ((s.getX rb).toNat + imm12.toInt)) t ∧
        Advanced [ra] [] [] [] s t) ∧
    (decodeWord (0#12 ++ rc ++ rb ++ ra ++ 0x06#8) = .ok (.add ra rb rc) ∧
      ∃ t, exec (.add ra rb rc) s = .next t ∧ RegIs ra (u32 ((s.getX rb).toNat + (s.getX rc).toNat)) t ∧
        Advanced [ra] [] [] [] s t) ∧
    (decodeWord (0#12 ++ rc ++ rb ++ ra ++ 0x07#8) = .ok (.sub ra rb rc) ∧
      ∃ t, exec (.sub ra rb rc) s = .next t ∧ RegIs ra (u32i ((s.getX rb).toNat - (s.getX rc).toNat)) t ∧
        Advanced [ra] [] [] [] s t)

/-- R176: HALT moves PC on, clears BUSY and sets DONE, raises irq with IE[0] = 1, and changes nothing else. -/
def Obligations.Halt : Prop :=
  decodeWord 0x00000002 = .ok .halt ∧
  ∀ s : State, ∃ t, exec .halt s = .next t ∧ t.busy = false ∧ (t.getCsr .status).getLsbD 1 = true ∧
    ((s.getCsr .ie).getLsbD 0 = true → t.irq = true) ∧
    (∀ j, j ≠ 0 → j ≠ 1 → (t.getCsr .status).getLsbD j = ((s.getCsr .status).getLsbD j && (Csr.mask .status).getLsbD j)) ∧
    Advanced [] [.status] [] [] s t

/-- R180, R181, R188: a branch goes to its own address plus 4 times its signed offset, modulo 2^32, when its condition holds,
else to the next command; only PC is written. -/
def Obligations.Branches : Prop :=
  ∀ (rb rc : Reg) (imm : BitVec 12) (s : State),
    let target : Word := u32i (s.pc.toNat + 4 * imm.toInt)
    (decodeWord (imm ++ rc ++ rb ++ 0#4 ++ 0x08#8) = .ok (.beq rb rc imm) ∧
      exec (.beq rb rc imm) s = .next { s with pc := if s.getX rb = s.getX rc then target else s.pc + 4 }) ∧
    (decodeWord (imm ++ rc ++ rb ++ 0#4 ++ 0x09#8) = .ok (.bne rb rc imm) ∧
      exec (.bne rb rc imm) s = .next { s with pc := if s.getX rb ≠ s.getX rc then target else s.pc + 4 }) ∧
    (decodeWord (imm ++ rc ++ rb ++ 0#4 ++ 0x0E#8) = .ok (.bltu rb rc imm) ∧
      exec (.bltu rb rc imm) s =
        .next { s with pc := if (s.getX rb).toNat < (s.getX rc).toNat then target else s.pc + 4 })

/-- R182: CSRR reads the CSR of its number, unnamed bits 0, and STATUS reads 1 in a run; an unknown number is IllegalCommand
with the command's word. That the word is the encoding of the command is the model's choice (log entry 24). -/
def Obligations.CsrReads : Prop :=
  ∀ (ra : Reg) (n : BitVec 12) (s : State), s.Inv →
    decodeWord (n ++ 0#4 ++ 0#4 ++ ra ++ 0x0A#8) = .ok (.csrr ra n) ∧
    (∀ c : Csr, c.number = n →
      ∃ t, exec (.csrr ra n) s = .next t ∧ RegIs ra (s.getCsr c &&& c.mask) t ∧ Advanced [ra] [] [] [] s t) ∧
    (s.busy = true → s.getCsr .status = 1) ∧
    ((∀ c : Csr, c.number ≠ n) →
      ∃ t, exec (.csrr ra n) s = .next t ∧ CleanFault .illegalCommand (n ++ 0#4 ++ 0#4 ++ ra ++ 0x0A#8) s t)

/-- R183: CSRW stores the named bits in a CSR of access RW; an unknown number or a CSR of another access is IllegalCommand
with the command's word, and changes no CSR but those of the fault. That such a fault keeps the CSRs and names the command's
encoding is the model's reading (log entries 11, 24). -/
def Obligations.CsrWrites : Prop :=
  ∀ (rb : Reg) (n : BitVec 12) (s : State),
    decodeWord (n ++ 0#4 ++ rb ++ 0#4 ++ 0x0B#8) = .ok (.csrw rb n) ∧
    (∀ c : Csr, c.number = n → c.access = .rw →
      ∃ t, exec (.csrw rb n) s = .next t ∧ t.getCsr c = s.getX rb &&& c.mask ∧ Advanced [] [c] [] [] s t) ∧
    ((∀ c : Csr, c.number = n → c.access ≠ .rw) →
      ∃ t, exec (.csrw rb n) s = .next t ∧ CleanFault .illegalCommand (n ++ 0#4 ++ rb ++ 0#4 ++ 0x0B#8) s t)

/-- R186, R187: LBU and SB at the wrapped address X[rb] plus the signed offset: the byte read, zero-extended; the low byte
stored; IoError with the address outside MEM. -/
def Obligations.ByteAccess : Prop :=
  ∀ (ra rb rc : Reg) (imm : BitVec 12) (s : State),
    let a : Word := u32i ((s.getX rb).toNat + imm.toInt)
    decodeWord (imm ++ 0#4 ++ rb ++ ra ++ 0x0C#8) = .ok (.lbu ra rb imm) ∧
    decodeWord (imm ++ rc ++ rb ++ 0#4 ++ 0x0D#8) = .ok (.sb rb rc imm) ∧
    (∀ v : Byte, a.toNat < s.memSize → s.mem.read? a.toNat = some v →
      ∃ t, exec (.lbu ra rb imm) s = .next t ∧ RegIs ra (u32 v.toNat) t ∧ Advanced [ra] [] [] [] s t) ∧
    (s.memSize ≤ a.toNat → ∃ t, exec (.lbu ra rb imm) s = .next t ∧ CleanFault .ioError a s t) ∧
    (a.toNat < s.memSize →
      ∃ t, exec (.sb rb rc imm) s = .next t ∧ t.mem.read? a.toNat = some (BitVec.ofNat 8 (s.getX rc).toNat) ∧
        Advanced [] [] [] [⟨a.toNat, 1⟩] s t) ∧
    (s.memSize ≤ a.toNat → ∃ t, exec (.sb rb rc imm) s = .next t ∧ CleanFault .ioError a s t)

/-! ### The bit stream -/

/-- R210, R219: BRINIT and BWINIT set the CSRs of the reader and of the writer, and nothing else. -/
def Obligations.StreamSetup : Prop :=
  ∀ (rb rc : Reg) (order : BitOrder) (stuff : Bool) (s : State),
    (decodeWord (0#11 ++ order.bit ++ rc ++ rb ++ 0#4 ++ 0x10#8) = .ok (.brinit rb rc order) ∧
      ∃ t, exec (.brinit rb rc order) s = .next t ∧ t.getCsr .brBase = s.getX rb ∧ t.getCsr .brLen = s.getX rc ∧
        t.getCsr .brPos = 0 ∧ t.getCsr .brMode = 0#31 ++ order.bit ∧
        Advanced [] [.brBase, .brLen, .brPos, .brMode] [] [] s t) ∧
    (decodeWord (0#10 ++ BitVec.ofBool stuff ++ order.bit ++ rc ++ rb ++ 0#4 ++ 0x14#8) =
        .ok (.bwinit rb rc order stuff) ∧
      ∃ t, exec (.bwinit rb rc order stuff) s = .next t ∧ t.getCsr .bwBase = s.getX rb ∧ t.getCsr .bwCap = s.getX rc ∧
        t.getCsr .bwLen = 0 ∧ t.getCsr .bwAcc = 0 ∧ t.getCsr .bwNacc = 0 ∧
        t.getCsr .bwMode = 0#30 ++ BitVec.ofBool stuff ++ order.bit ∧
        Advanced [] [.bwBase, .bwCap, .bwLen, .bwAcc, .bwNacc, .bwMode] [] [] s t)

/-- R211, R212, R213: RDBITS returns the next n bits as a number in the reader's order and moves the cursor by n; with fewer
than n bits left it is CorruptStream(1) and the cursor stays. -/
def Obligations.ReadBits : Prop :=
  ∀ (ra : Reg) (n : BitVec 5) (s : State), 1 ≤ n.toNat → n.toNat ≤ 24 →
    (∀ bits : List Bool, bits.length = n.toNat → s.reader.hasBits s (s.getCsrNat .brPos) bits = true →
      ∃ t, exec (.rdbits ra n) s = .next t ∧ RegIs ra (u32 (valueOf s.reader.order bits)) t ∧
        t.getCsrNat .brPos = s.getCsrNat .brPos + n.toNat ∧ Advanced [ra] [.brPos] [] [] s t) ∧
    (8 * s.getCsrNat .brLen < s.getCsrNat .brPos + n.toNat ∨ 0xFFFFFFFF < s.getCsrNat .brPos + n.toNat →
      ∃ t, exec (.rdbits ra n) s = .next t ∧ CleanFault .corruptStream 1 s t)

/-- R214, R215: ALIGN moves the cursor to the next multiple of 8, or leaves it on one; it faults only where that number does
not fit the cursor, with CorruptStream(1). -/
def Obligations.Align : Prop :=
  decodeWord 0x00000012 = .ok .align ∧
  ∀ s : State,
    let p := s.getCsrNat .brPos
    (p ≤ 0xFFFFFFF8 →
      ∃ t, exec .align s = .next t ∧ t.getCsrNat .brPos % 8 = 0 ∧ p ≤ t.getCsrNat .brPos ∧
        t.getCsrNat .brPos < p + 8 ∧ Advanced [] [.brPos] [] [] s t) ∧
    (0xFFFFFFF8 < p → ∃ t, exec .align s = .next t ∧ FaultLeaving .corruptStream 1 [.brPos] [] [] s t)

/-- R216: UNSTUFF writes the source up to FF D9 with FF 00 made FF and restart markers dropped; the output length goes to ra
and the bytes consumed to AUX. Without an FF D9 it is CorruptStream(5), on overlap ContractViolation(1). That the overlap
fault leaves everything is the model's reading (log entry 10). -/
def Obligations.Unstuff : Prop :=
  ∀ (ra rb rc : Reg) (s : State) (src : List Byte), s.getXNat rc = src.length → s.holds (s.getXNat rb) src = true →
    let dst : Region := ⟨s.getXNat ra, src.length⟩
    let overlap := Region.overlaps ⟨s.getXNat rb, src.length⟩ dst
    (∀ (out : List Byte) (used : Nat), overlap = false → unstuffed src = some (out, used) →
      dst.base + out.length ≤ s.memSize →
      ∃ t, exec (.unstuff ra rb rc) s = .next t ∧ RegIs ra (u32 out.length) t ∧ t.getCsrNat .aux = used ∧
        t.holds dst.base out = true ∧ Advanced [ra] [.aux] [] [⟨dst.base, out.length⟩] s t) ∧
    (overlap = false → unstuffed src = none → dst.base + dst.len ≤ s.memSize →
      ∃ t, exec (.unstuff ra rb rc) s = .next t ∧ FaultLeaving .corruptStream 5 [.aux] [] [dst] s t) ∧
    (overlap = true → ∃ t, exec (.unstuff ra rb rc) s = .next t ∧ CleanFault .contractViolation 1 s t)

/-- R224, R225: SBGATHER writes the data of the sub-block chain at X[rb] to X[ra]; their length goes to ra and the chain's,
terminator included, to AUX. More data than X[rc] is ContractViolation(2), overlap ContractViolation(1). That both faults
leave MEM is the model's reading (log entries 10, 14). -/
def Obligations.GatherSubBlocks : Prop :=
  ∀ (ra rb rc : Reg) (s : State) (chunks : List (List Byte)), chunksLegal chunks = true →
    s.holds (s.getXNat rb) (subBlockChain chunks) = true →
    let data := chunks.flatten
    let overlap := Region.overlaps ⟨s.getXNat rb, (subBlockChain chunks).length⟩ ⟨s.getXNat ra, s.getXNat rc⟩
    (overlap = false → data.length ≤ s.getXNat rc → s.getXNat ra + data.length ≤ s.memSize →
      ∃ t, exec (.sbgather ra rb rc) s = .next t ∧ RegIs ra (u32 data.length) t ∧
        t.getCsr .aux = u32 (subBlockChain chunks).length ∧ t.holds (s.getXNat ra) data = true ∧
        Advanced [ra] [.aux] [] [⟨s.getXNat ra, data.length⟩] s t) ∧
    (overlap = false → s.getXNat rc < data.length →
      ∃ t, exec (.sbgather ra rb rc) s = .next t ∧ FaultLeaving .contractViolation 2 [.aux] [] [] s t) ∧
    (overlap = true → ∃ t, exec (.sbgather ra rb rc) s = .next t ∧ CleanFault .contractViolation 1 s t)

/-- R224, R226: SBSPLIT writes its source as a chain of sub-blocks of 255 bytes, the last one shorter if need be, then the
terminator; n + ceil(n / 255) + 1 bytes in all, a number that goes to ra. -/
def Obligations.SplitSubBlocks : Prop :=
  ∀ (ra rb rc : Reg) (s : State) (src : List Byte), s.getXNat rc = src.length → s.holds (s.getXNat rb) src = true →
    let out : Region := ⟨s.getXNat ra, src.length + (src.length + 254) / 255 + 1⟩
    Region.overlaps ⟨s.getXNat rb, src.length⟩ out = false → out.base + out.len ≤ s.memSize →
    ∃ t chunks, exec (.sbsplit ra rb rc) s = .next t ∧ chunks.flatten = src ∧ chunksLegal chunks = true ∧
      (∀ c ∈ chunks.dropLast, c.length = 255) ∧ (subBlockChain chunks).length = out.len ∧
      t.holds out.base (subBlockChain chunks) = true ∧ RegIs ra (u32 out.len) t ∧ Advanced [ra] [] [] [out] s t

/-- R218, R220, R223, R217: without stuffing, PutBits adds its n bits after those already in the writer, and a flush adds pad
bits up to a byte; with stuffing the same bytes come out, of both, with a 0x00 after every 0xFF. -/
def Obligations.PutBitsAppends : Prop :=
  ∀ (k : Packer) (v n : Nat) (pad : Bool),
    (k.clean = true → k.stuff = false →
      (k.putBits v n).bits = k.bits ++ bitsOf k.order v n ∧ (k.putBits v n).clean = true ∧
      (k.flush pad).bits = k.bits ++ List.replicate ((8 - k.nacc) % 8) pad ∧ (k.flush pad).nacc = 0) ∧
    (let plain : Packer := { k with stuff := false, out := [] }
     let stuffing : Packer := { k with stuff := true, out := [] }
     (stuffing.putBits v n).out.reverse = stuffed (plain.putBits v n).out.reverse ∧
     (stuffing.putBits v n).acc = (plain.putBits v n).acc ∧ (stuffing.putBits v n).nacc = (plain.putBits v n).nacc ∧
     (stuffing.flush pad).out.reverse = stuffed (plain.flush pad).out.reverse ∧
     (stuffing.flush pad).acc = (plain.flush pad).acc ∧ (stuffing.flush pad).nacc = (plain.flush pad).nacc)

/-- R217, R222: WRBITS puts the low n bits of a value that fits n bits; every finished byte is committed at BW_BASE +
BW_LEN. A value that does not fit is ContractViolation(3), a full buffer ContractViolation(2). What a fault leaves is
bounded by the writer's room (log entry 27). -/
def Obligations.WriteBits : Prop :=
  ∀ (rb : Reg) (n : BitVec 5) (s : State), s.Inv → 1 ≤ n.toNat → n.toNat ≤ 16 →
    let k := s.packer.putBits (s.getXNat rb) n.toNat
    (s.getXNat rb < 2 ^ n.toNat → s.fits k →
      ∃ t, exec (.wrbits rb n) s = .next t ∧ Committed s k t ∧ Advanced [] writerCsrs [] [s.committedRegion k] s t) ∧
    (2 ^ n.toNat ≤ s.getXNat rb →
      ∃ t, exec (.wrbits rb n) s = .next t ∧ FaultLeaving .contractViolation 3 writerCsrs [] [s.writerRoom] s t) ∧
    (s.getXNat rb < 2 ^ n.toNat → k.out ≠ [] → s.getCsrNat .bwCap < s.getCsrNat .bwLen + k.out.length →
      s.getCsrNat .bwBase + s.getCsrNat .bwCap ≤ s.memSize →
      ∃ t, exec (.wrbits rb n) s = .next t ∧ FaultLeaving .contractViolation 2 writerCsrs [] [s.writerRoom] s t)

/-- R223: BWFLUSH pads the partial byte, commits it, and reports BW_LEN in ra; no bit is pending after it. -/
def Obligations.FlushWriter : Prop :=
  ∀ (ra : Reg) (pad : Bool) (s : State), s.Inv → s.fits (s.packer.flush pad) →
    ∃ t, exec (.bwflush ra pad) s = .next t ∧ RegIs ra (t.getCsr .bwLen) t ∧ t.getCsr .bwNacc = 0 ∧
      Committed s (s.packer.flush pad) t ∧ Advanced [ra] writerCsrs [] [s.committedRegion (s.packer.flush pad)] s t

/-! ### Huffman -/

/-- R264, R265: HBUILD reads a table body at X[rb], after its prefix byte when it has one, into the slot named by the command
or by that byte; the slot becomes valid, the others stay, and ra gets the bytes consumed. -/
def Obligations.BuildSlot : Prop :=
  ∀ (ra rb : Reg) (slot : BitVec 5) (pfx : Bool) (p : Byte) (h : HuffSlot) (s : State), h.wf = true →
    (pfx = true → p.toNat < 32) → (pfx = false → p = slot.setWidth 8) →
    s.holds (s.getXNat rb) ((if pfx then [p] else []) ++ tableBody h) = true →
    ∃ t, exec (.hbuild ra rb slot pfx) s = .next t ∧ t.slot (p.setWidth 5) = h ∧
      (∀ j : BitVec 5, t.slotValid j = (decide (j = p.setWidth 5) || s.slotValid j)) ∧
      (∀ j : BitVec 5, j ≠ p.setWidth 5 → t.slot j = s.slot j) ∧
      RegIs ra (u32 ((if pfx then 1 else 0) + 16 + h.syms.length)) t ∧ Advanced [ra] [.huffValid] [.slots] [] s t

/-- R262, R266: HDEC of the canonical code of a symbol returns that symbol and moves the cursor by the code's length; 17 bits
that begin with no code are CorruptStream(2). -/
def Obligations.DecodeSymbol : Prop :=
  ∀ (ra : Reg) (slot : BitVec 5) (s : State), s.slotValid slot = true → (s.slot slot).wf = true →
    (∀ e ∈ (s.slot slot).table, s.reader.hasBits s (s.getCsrNat .brPos) (bitsOf .msb e.2.1 e.2.2) = true →
      ∃ t, exec (.hdec ra slot) s = .next t ∧ RegIs ra (u32 e.1.toNat) t ∧
        t.getCsrNat .brPos = s.getCsrNat .brPos + e.2.2 ∧ Advanced [ra] [.brPos] [] [] s t) ∧
    (∀ bits : List Bool, bits.length = 17 → s.reader.hasBits s (s.getCsrNat .brPos) bits = true →
      (∀ e ∈ (s.slot slot).table, ¬ bitsOf .msb e.2.1 e.2.2 <+: bits) →
      ∃ t, exec (.hdec ra slot) s = .next t ∧ FaultLeaving .corruptStream 2 [.brPos] [] [] s t)

/-- R263, R268: HCTAB writes 4 bytes for each symbol value: its code, little-endian, its length and 0, or four zeros when it
has no code; a repeated symbol is ContractViolation(7) and nothing is written. -/
def Obligations.CodeTableInMemory : Prop :=
  ∀ (rb : Reg) (slot : BitVec 5) (s : State), s.slotValid slot = true → (s.slot slot).wf = true →
    (hasRepeat (s.slot slot).syms = false → s.getXNat rb + 1024 ≤ s.memSize →
      ∃ t, exec (.hctab rb slot) s = .next t ∧
        (∀ e ∈ (s.slot slot).table,
          t.holds (s.getXNat rb + 4 * e.1.toNat) (leBytes 2 e.2.1 ++ [BitVec.ofNat 8 e.2.2, 0]) = true) ∧
        (∀ v : Byte, v ∉ (s.slot slot).syms → t.holds (s.getXNat rb + 4 * v.toNat) [0, 0, 0, 0] = true) ∧
        Advanced [] [] [] [⟨s.getXNat rb, 1024⟩] s t) ∧
    (hasRepeat (s.slot slot).syms = true →
      ∃ t, exec (.hctab rb slot) s = .next t ∧ CleanFault .contractViolation 7 s t)

/-- R263, R269: HENC appends the symbol's canonical code to the bit writer; a value that is no symbol of the slot is
ContractViolation(8). What a fault leaves is bounded by the writer's room (log entry 27). -/
def Obligations.EncodeSymbol : Prop :=
  ∀ (rb : Reg) (slot : BitVec 5) (s : State), s.Inv → s.slotValid slot = true →
    hasRepeat (s.slot slot).syms = false →
    (∀ e ∈ (s.slot slot).table, s.getXNat rb = e.1.toNat → s.fits (s.packer.putBits e.2.1 e.2.2) →
      ∃ t, exec (.henc rb slot) s = .next t ∧ Committed s (s.packer.putBits e.2.1 e.2.2) t ∧
        Advanced [] writerCsrs [] [s.committedRegion (s.packer.putBits e.2.1 e.2.2)] s t) ∧
    ((∀ b ∈ (s.slot slot).syms, s.getXNat rb ≠ b.toNat) →
      ∃ t, exec (.henc rb slot) s = .next t ∧ FaultLeaving .contractViolation 8 writerCsrs [] [s.writerRoom] s t)

/-- R270, R271: HFROMENT of the entries of a canonical table, in any order, writes back exactly its histogram and its symbols,
and their length goes to ra; entries of no table are ContractViolation(9) and write nothing. -/
def Obligations.TableFromEntries : Prop :=
  ∀ (ra rb rc : Reg) (s : State) (es : List CodeEntry), s.getXNat rc = es.length → es.length ≤ 256 →
    (∀ e ∈ es, e.code < 2 ^ 16 ∧ e.len < 2 ^ 8) → s.holds (s.getXNat rb) (es.flatMap entryBytes) = true →
    Region.overlaps ⟨s.getXNat rb, 4 * es.length⟩ ⟨s.getXNat ra, 16 + es.length⟩ = false →
    (∀ h : HuffSlot, h.wf = true → es.Perm (tableEntriesOf h) → s.getXNat ra + 16 + es.length ≤ s.memSize →
      ∃ t, exec (.hfroment ra rb rc) s = .next t ∧ t.holds (s.getXNat ra) (tableBody h) = true ∧
        RegIs ra (u32 (16 + es.length)) t ∧ Advanced [ra] [] [] [⟨s.getXNat ra, 16 + es.length⟩] s t) ∧
    ((∀ h : HuffSlot, h.wf = true → ¬ es.Perm (tableEntriesOf h)) →
      ∃ t, exec (.hfroment ra rb rc) s = .next t ∧ CleanFault .contractViolation 9 s t)

/-- R264 to R269, R464, R466: a command that uses a slot that was never built is ContractViolation(4); HBUILD of an
over-subscribed histogram is ContractViolation(5) and of more than 256 symbols ContractViolation(6), and both keep every
slot. That a fault of HENC or ENCBLK keeps every byte outside the writer's room is the model's reading (log entry 27). -/
def Obligations.SlotFaults : Prop :=
  (∀ (r : Reg) (slot : BitVec 5) (s : State), s.slotValid slot = false →
    (∃ t, exec (.hdec r slot) s = .next t ∧ FaultLeaving .contractViolation 4 [.brPos] [] [] s t) ∧
    (∃ t, exec (.hctab r slot) s = .next t ∧ FaultLeaving .contractViolation 4 [] [] [⟨s.getXNat r, 1024⟩] s t) ∧
    (∃ t, exec (.henc r slot) s = .next t ∧ FaultLeaving .contractViolation 4 writerCsrs [] [s.writerRoom] s t)) ∧
  (∀ (dc ac : BitVec 4) (p : BitVec 2) (s : State), s.slotValid (0#1 ++ dc) = false ∨ s.slotValid (1#1 ++ ac) = false →
    (∃ t, exec (.decblk dc ac p) s = .next t ∧
      FaultLeaving .contractViolation 4 [Csr.pred p, .brPos] [.kfile] [] s t) ∧
    ∃ t, exec (.encblk dc ac p) s = .next t ∧
      FaultLeaving .contractViolation 4 (Csr.pred p :: writerCsrs) [] [s.writerRoom] s t) ∧
  ∀ (ra rb : Reg) (slot : BitVec 5) (s : State) (hist syms : List Byte), hist.length = 16 →
    syms.length = (hist.map BitVec.toNat).sum → s.holds (s.getXNat rb) (hist ++ syms) = true →
    (256 < syms.length →
      ∃ t, exec (.hbuild ra rb slot false) s = .next t ∧ CleanFault .contractViolation 6 s t) ∧
    (syms.length ≤ 256 → buildTreeOk (hist.map BitVec.toNat) = false →
      ∃ t, exec (.hbuild ra rb slot false) s = .next t ∧ CleanFault .contractViolation 5 s t)

/-! ### LZW -/

/-- R307, R310: LZWENC puts the codes of LzwEncode for the indices at X[rb]; an index of 2^m or more is
ContractViolation(10) with no code written, MSB-first order ContractViolation(12), stuffing ContractViolation(13). The
indices are checked first, and that fault leaves everything (log entry 22). That (12) and (13) keep every byte outside the
writer's room is the model's reading (log entry 27). -/
def Obligations.LzwEncoding : Prop :=
  ∀ (rb rc : Reg) (m : BitVec 4) (s : State) (indices : List Byte), s.Inv → 2 ≤ m.toNat → m.toNat ≤ 8 →
    s.getXNat rc = indices.length → s.holds (s.getXNat rb) indices = true →
    Region.overlaps ⟨s.getXNat rb, indices.length⟩ s.writeRegion = false →
    let k := s.packer.putAll (lzwEncode m.toNat indices)
    (s.getCsr .bwMode = 1 → (∀ v ∈ indices, v.toNat < 2 ^ m.toNat) → s.fits k →
      ∃ t, exec (.lzwenc rb rc m) s = .next t ∧ Committed s k t ∧ Advanced [] writerCsrs [] [s.committedRegion k] s t) ∧
    (s.getCsr .bwMode = 1 → (∃ v ∈ indices, 2 ^ m.toNat ≤ v.toNat) →
      ∃ t, exec (.lzwenc rb rc m) s = .next t ∧ CleanFault .contractViolation 10 s t) ∧
    ((s.getCsr .bwMode).getLsbD 0 = false →
      ∃ t, exec (.lzwenc rb rc m) s = .next t ∧ FaultLeaving .contractViolation 12 writerCsrs [] [s.writerRoom] s t) ∧
    (s.getCsr .bwMode = 3 →
      ∃ t, exec (.lzwenc rb rc m) s = .next t ∧ FaultLeaving .contractViolation 13 writerCsrs [] [s.writerRoom] s t)

/-- R303, R306, R309: LZWDEC over a stream that begins with what LzwEncode writes for some indices writes back exactly those
indices, their count to ra, the number of codes to AUX, and stops after the end code; a first code that is not clear is
CorruptStream(4). -/
def Obligations.LzwRoundTrip : Prop :=
  ∀ (ra rc : Reg) (m : BitVec 4) (s : State), 2 ≤ m.toNat → m.toNat ≤ 8 → s.getCsr .brMode = 1 →
    Region.overlaps s.readRegion ⟨s.getXNat ra, s.getXNat rc⟩ = false →
    (∀ indices : List Byte, (∀ v ∈ indices, v.toNat < 2 ^ m.toNat) → indices.length ≤ s.getXNat rc →
      s.getXNat ra + indices.length ≤ s.memSize →
      s.reader.hasBits s (s.getCsrNat .brPos) (bitString .lsb (lzwEncode m.toNat indices)) = true →
      ∃ t, exec (.lzwdec ra rc m) s = .next t ∧ t.holds (s.getXNat ra) indices = true ∧
        RegIs ra (u32 indices.length) t ∧ t.getCsrNat .aux = (lzwEncode m.toNat indices).length ∧
        t.getCsrNat .brPos = s.getCsrNat .brPos + (bitString .lsb (lzwEncode m.toNat indices)).length ∧
        Advanced [ra] [.aux, .brPos] [] [⟨s.getXNat ra, indices.length⟩] s t) ∧
    (∀ c : Nat, c < 2 ^ (m.toNat + 1) → c ≠ 2 ^ m.toNat → s.params.lzwRequireInitialClear = true →
      s.reader.hasBits s (s.getCsrNat .brPos) (bitsOf .lsb c (m.toNat + 1)) = true →
      ∃ t, exec (.lzwdec ra rc m) s = .next t ∧
        FaultLeaving .corruptStream 4 [.aux, .brPos] [] [⟨s.getXNat ra, s.getXNat rc⟩] s t)

/-! ### Block transform -/

/-- R334, R340: QLOAD reads 64 table bytes at X[rb], after the prefix byte when it has one, into the table named by the
command or by that byte: byte k is divisor k in scan order, byte ZZ[k] is divisor k in natural order. A precision other than
0 is UnsupportedFeature(3), with every table kept. -/
def Obligations.LoadTable : Prop :=
  ∀ (ra rb : Reg) (q : BitVec 4) (pfx : Bool) (tord : TableOrder) (p : Byte) (body : List Byte) (s : State),
    body.length = 64 → (pfx = false → p = q.setWidth 8) →
    s.holds (s.getXNat rb) ((if pfx then [p] else []) ++ body) = true →
    (p.toNat < 16 →
      ∃ t, exec (.qload ra rb q pfx tord) s = .next t ∧
        (∀ k, k < 64 → t.divisor (p.setWidth 4) k =
          (body.getD (if tord = .natural then zz k else k) 0).toNat) ∧
        (∀ j : BitVec 4, t.tableValid j = (decide (j = p.setWidth 4) || s.tableValid j)) ∧
        (∀ (j : BitVec 4) (k : Nat), j ≠ p.setWidth 4 → t.divisor j k = s.divisor j k) ∧
        RegIs ra (if pfx then 65 else 64) t ∧ Advanced [ra] [.qValid] [.tables] [] s t) ∧
    (16 ≤ p.toNat →
      ∃ t, exec (.qload ra rb q pfx tord) s = .next t ∧ CleanFault .unsupportedFeature 3 s t)

/-- R336, R341, R342: SLDB loads each byte of the block, less the level shift, as an exact number; SSTB stores each sample
plus the shift, rounded with halves away from zero and clamped to 0..255, later writes winning. Addresses do not wrap. -/
def Obligations.BlockBytes : Prop :=
  ∀ (rb rc : Reg) (shift : Bool) (s : State),
    let addr := fun i => s.getXNat rb + i / 8 * s.getXNat rc + i % 8
    let level : Int := if shift then 128 else 0
    (∀ i, i < 64 → addr i < s.memSize) →
    (∀ b : Nat → Byte, (∀ i, i < 64 → s.mem.read? (addr i) = some (b i)) →
      ∃ t, exec (.sldb rb rc shift) s = .next t ∧
        (∀ i, i < 64 → HoldsInt (blockAt t.sfile i 0) ((b i).toNat - level)) ∧ Advanced [] [] [.sfile] [] s t) ∧
    ∃ t, exec (.sstb rb rc shift) s = .next t ∧
      (∀ i, i < 64 → (∀ j, i < j → j < 64 → addr j ≠ addr i) →
        t.mem.read? (addr i) = some (BitVec.ofInt 8
          (min 255 (max 0 (roundUnits (f64Units (f64Add (blockAt s.sfile i 0) (f64OfInt level)))))))) ∧
      Advanced [] [] [] ((List.range 64).map fun i => ⟨addr i, 1⟩) s t

/-- R343, R344: KLD fills K with the 64 little-endian words at X[rb], and KST writes the 64 words of K there. -/
def Obligations.CoefficientWords : Prop :=
  ∀ (rb : Reg) (s : State),
    (∀ words : Vector Word 64, s.holds (s.getXNat rb) (words.toList.flatMap fun w => leBytes 4 w.toNat) = true →
      ∃ t, exec (.kld rb) s = .next t ∧ t.kfile = words ∧ Advanced [] [] [.kfile] [] s t) ∧
    (s.getXNat rb + 256 ≤ s.memSize →
      ∃ t, exec (.kst rb) s = .next t ∧
        t.holds (s.getXNat rb) (s.kfile.toList.flatMap fun w => leBytes 4 w.toNat) = true ∧
        Advanced [] [] [] [⟨s.getXNat rb, 256⟩] s t)

/-- R349, R350: ZZFWD and ZZINV reorder the named file by the zigzag table, and ZZINV after ZZFWD restores it. -/
def Obligations.Zigzag : Prop :=
  ∀ (file : BlockFile) (s : State),
    (decodeWord (0#11 ++ file.bit ++ 0#4 ++ 0#4 ++ 0#4 ++ 0x49#8) = .ok (.zzfwd file) ∧
      ∃ t, exec (.zzfwd file) s = .next t ∧
        (∀ k, k < 64 →
          match file with
          | .k => blockAt t.kfile k 0 = blockAt s.kfile (zz k) 0
          | .s => blockAt t.sfile k 0 = blockAt s.sfile (zz k) 0) ∧
        Advanced [] [] (if file = .k then [.kfile] else [.sfile]) [] s t) ∧
    (decodeWord (0#11 ++ file.bit ++ 0#4 ++ 0#4 ++ 0#4 ++ 0x4A#8) = .ok (.zzinv file) ∧
      ∃ t, exec (.zzinv file) s = .next t ∧
        (∀ k, k < 64 →
          match file with
          | .k => blockAt t.kfile (zz k) 0 = blockAt s.kfile k 0
          | .s => blockAt t.sfile (zz k) 0 = blockAt s.sfile k 0) ∧
        Advanced [] [] (if file = .k then [.kfile] else [.sfile]) [] s t) ∧
    ∃ t u, exec (.zzfwd file) s = .next t ∧ exec (.zzinv file) t = .next u ∧ u.sfile = s.sfile ∧ u.kfile = s.kfile

/-- R351, R352, R335: CVTKS makes every K[i] the same number in S, exactly; CVTSK rounds every S[i] with halves away from
zero, and a value outside int32 is ContractViolation(16). -/
def Obligations.Conversions : Prop :=
  ∀ s : State,
    (decodeWord 0x0000004B = .ok .cvtks ∧
      ∃ t, exec .cvtks s = .next t ∧
        (∀ i, i < 64 → HoldsInt (blockAt t.sfile i 0) (s32 (blockAt s.kfile i 0))) ∧ Advanced [] [] [.sfile] [] s t) ∧
    decodeWord 0x0000004C = .ok .cvtsk ∧
    let value := fun i => roundUnits (f64Units (blockAt s.sfile i 0))
    ((∀ i, i < 64 → -2 ^ 31 ≤ value i ∧ value i ≤ 2 ^ 31 - 1) →
      ∃ t, exec .cvtsk s = .next t ∧ (∀ i, i < 64 → s32 (blockAt t.kfile i 0) = value i) ∧
        Advanced [] [] [.kfile] [] s t) ∧
    ((∃ i, i < 64 ∧ ¬ (-2 ^ 31 ≤ value i ∧ value i ≤ 2 ^ 31 - 1)) →
      ∃ t, exec .cvtsk s = .next t ∧ FaultLeaving .contractViolation 16 [] [.kfile] [] s t)

/-- R331: the binary64 rounding of an exact quotient of integers, in units of 2^-1074, is a nearest binary64, and of two
nearest ones the one whose last bit is 0. -/
def Obligations.RoundsToNearestEven : Prop :=
  ∀ (neg : Bool) (num den : Nat) (e : Binary64), 0 < den → Binary64.isFinite (f64Round neg num den) = true →
    Binary64.isFinite e = true →
    let exact : Int := if neg then -num else num
    let d := f64Round neg num den
    (f64Units d * den - exact).natAbs ≤ (f64Units e * den - exact).natAbs ∧
    ((f64Units d * den - exact).natAbs = (f64Units e * den - exact).natAbs → f64Units e ≠ f64Units d →
      d.getLsbD 0 = false)

/-- R334, R347, R348: QUANT rounds every quotient by its divisor, and DEQUANT multiplies every coefficient by its divisor,
exactly; element i has divisor i in scan order and divisor ZI[i] in natural order. A table never loaded is
ContractViolation(14), a zero divisor in QUANT (15), a result outside int32 (16). -/
def Obligations.Quantization : Prop :=
  ∀ (q : BitVec 4) (order : TableOrder) (s : State),
    let divisor := fun i => s.divisor q (if order = .natural then zi i else i)
    let quotient := fun i => roundUnits (f64Units (f64DivNat (blockAt s.sfile i 0) (divisor i)))
    let product := fun i => s32 (blockAt s.kfile i 0) * (divisor i : Int)
    let fits := fun v : Int => -2 ^ 31 ≤ v ∧ v ≤ 2 ^ 31 - 1
    (s.tableValid q = true → (∀ i, i < 64 → divisor i ≠ 0 ∧ fits (quotient i)) →
      ∃ t, exec (.quant q order) s = .next t ∧ (∀ i, i < 64 → s32 (blockAt t.kfile i 0) = quotient i) ∧
        Advanced [] [] [.kfile] [] s t) ∧
    (s.tableValid q = true → (∀ i, i < 64 → fits (product i)) →
      ∃ t, exec (.dequant q order) s = .next t ∧ (∀ i, i < 64 → s32 (blockAt t.kfile i 0) = product i) ∧
        Advanced [] [] [.kfile] [] s t) ∧
    (∀ i, s.tableValid q = true → i < 64 → (∀ j, j < i → divisor j ≠ 0 ∧ fits (quotient j)) → divisor i = 0 →
      ∃ t, exec (.quant q order) s = .next t ∧ FaultLeaving .contractViolation 15 [] [.kfile] [] s t) ∧
    (∀ i, s.tableValid q = true → i < 64 → (∀ j, j < i → divisor j ≠ 0 ∧ fits (quotient j)) → divisor i ≠ 0 →
      ¬ fits (quotient i) →
      ∃ t, exec (.quant q order) s = .next t ∧ FaultLeaving .contractViolation 16 [] [.kfile] [] s t) ∧
    (s.tableValid q = true → (∃ i, i < 64 ∧ ¬ fits (product i)) →
      ∃ t, exec (.dequant q order) s = .next t ∧ FaultLeaving .contractViolation 16 [] [.kfile] [] s t) ∧
    (s.tableValid q = false →
      (∃ t, exec (.quant q order) s = .next t ∧ FaultLeaving .contractViolation 14 [] [.kfile] [] s t) ∧
      ∃ t, exec (.dequant q order) s = .next t ∧ FaultLeaving .contractViolation 14 [] [.kfile] [] s t)

/-- R331, R332, R333, R345, R346: FDCT and IDCT complete on every block and write finite samples. With the reference numerics
(log entries 5 and 6) each sample is the double sum in binary64 where that is finite, with cosines and a C(0) within half a
unit in the last place of the real ones, and a zero block stays zero. With the drawn numerics each sample is within DCT_EPS of
the exact real transform where any binary64 is, up to 2^-127 of the samples' sum (log entry 5), and the free value is taken
whenever it is within DCT_EPS. -/
def Obligations.Transforms : Prop :=
  (∀ x u : Nat, x < 8 → u < 8 →
    2 * |(f64Units (cosTerm x u) : ℝ) - 2 ^ 1074 * Real.cos ((2 * (x : ℝ) + 1) * u * Real.pi / 16)| ≤
      2 ^ (f64Exp (cosTerm x u) - 1)) ∧
  2 * |(f64Units 0x3FE6A09E667F3BCD : ℝ) - 2 ^ 1074 * (1 / Real.sqrt 2)| ≤ 2 ^ 1021 ∧
  ∀ s : State,
    let value : Binary64 → ℝ := fun d => (f64Units d : ℝ) / 2 ^ 1074
    let sample : Nat → ℝ := fun i => value (blockAt s.sfile i 0)
    let basis : Nat → Nat → ℝ := fun x u => Real.cos ((2 * (x : ℝ) + 1) * u * Real.pi / 16)
    let norm : Nat → ℝ := fun u => if u = 0 then 1 / Real.sqrt 2 else 1
    let forward : Nat → ℝ := fun n => 1 / 4 * norm (n % 8) * norm (n / 8) *
      ∑ y ∈ Finset.range 8, ∑ x ∈ Finset.range 8, sample (8 * y + x) * basis x (n % 8) * basis y (n / 8)
    let inverse : Nat → ℝ := fun n => 1 / 4 *
      ∑ v ∈ Finset.range 8, ∑ u ∈ Finset.range 8, norm u * norm v * sample (8 * v + u) * basis (n % 8) u * basis (n / 8) v
    let normBits : Nat → Binary64 := fun u => if u = 0 then 0x3FE6A09E667F3BCD else 0x3FF0000000000000
    let quarterBits : Binary64 := 0x3FD0000000000000
    let sum : (Nat → Binary64) → Binary64 := fun f => (List.range 64).foldl (fun acc j => f64Add acc (f j)) 0
    let forwardBits : Nat → Binary64 := fun n =>
      f64Mul (sum fun j => f64Mul (f64Mul (blockAt s.sfile j 0) (cosTerm (j % 8) (n % 8))) (cosTerm (j / 8) (n / 8)))
        (f64Mul (f64Mul quarterBits (normBits (n % 8))) (normBits (n / 8)))
    let inverseBits : Nat → Binary64 := fun n =>
      f64Mul (sum fun j =>
        f64Mul (f64Mul (f64Mul (f64Mul (normBits (j % 8)) (normBits (j / 8))) (blockAt s.sfile j 0))
          (cosTerm (n % 8) (j % 8))) (cosTerm (n / 8) (j / 8))) quarterBits
    let slack : ℝ := (∑ i ∈ Finset.range 64, |sample i|) / 2 ^ 127
    let written : (Nat → ℝ) → (Nat → Binary64) → State → Prop := fun exact bits t =>
      (∀ n, n < 64 → Binary64.isFinite (blockAt t.sfile n 0) = true) ∧
      (s.params.dct = .reference → ∀ n, n < 64 → Binary64.isFinite (bits n) = true → blockAt t.sfile n 0 = bits n) ∧
      (s.params.dct = .reference → s.sfile = Vector.replicate 64 0 → t.sfile = Vector.replicate 64 0) ∧
      ∀ eps n : Nat, s.params.dct = .drawn eps → n < 64 →
        ((∃ e : Binary64, Binary64.isFinite e = true ∧ |value e - exact n| ≤ eps / 2 ^ 64) →
          |value (blockAt t.sfile n 0) - exact n| ≤ eps / 2 ^ 64 + slack) ∧
        (|value (freeFiniteSample (s.draws + n)) - exact n| ≤ eps / 2 ^ 64 →
          blockAt t.sfile n 0 = freeFiniteSample (s.draws + n))
    (∃ t, exec .fdct s = .next t ∧ written forward forwardBits t ∧ Advanced [] [] [.sfile] [] s t) ∧
    ∃ t, exec .idct s = .next t ∧ written inverse inverseBits t ∧ Advanced [] [] [.sfile] [] s t

/-! ### Coefficient coding -/

/-- R460: rawbits and extend are each other's inverse between the values of category t and the t-bit numbers. -/
def Obligations.RawBitsInvertExtend : Prop :=
  (∀ v : Int, v ≠ 0 → rawbits v (category v) < 2 ^ category v ∧ extend (rawbits v (category v)) (category v) = v) ∧
  ∀ bits t : Nat, 0 < t → bits < 2 ^ t → category (extend bits t) = t ∧ rawbits (extend bits t) t = bits

/-- R460, R461, R462, R466: ENCBLK of coefficients in range, every symbol of which has a code, completes when the bits fit the
writer: it puts the code of the DC category and its raw bits, then for each nonzero coefficient the ZRLs, the code of its run
and category and its raw bits, then an end of block if zeros remain; the predictor becomes K[0]. A value out of range is
ContractViolation(11). What that fault leaves is bounded by the writer's room (log entry 27). -/
def Obligations.EncodeBlock : Prop :=
  ∀ (dc ac : BitVec 4) (p : BitVec 2) (s : State), s.Inv → s.slotValid (0#1 ++ dc) = true →
    s.slotValid (1#1 ++ ac) = true →
    let diff : Int := s32 (blockAt s.kfile 0 0) - s32 (s.getCsr (Csr.pred p))
    let acs := s.kfile.toList.drop 1
    let inRange := diff.natAbs < 2 ^ 16 ∧ ∀ w ∈ acs, (s32 w).natAbs < 2 ^ 15
    let codes := blockPieces (s.slot (0#1 ++ dc)).table (s.slot (1#1 ++ ac)).table diff acs
    let k := s.packer.putAll codes
    (inRange → (s.slot (0#1 ++ dc)).codesAll [category diff] = true →
      (s.slot (1#1 ++ ac)).codesAll (acSymbols acs 0) = true → s.fits k →
      ∃ t, exec (.encblk dc ac p) s = .next t ∧ Committed s k t ∧ t.getCsr (Csr.pred p) = blockAt s.kfile 0 0 ∧
        Advanced [] (Csr.pred p :: writerCsrs) [] [s.committedRegion k] s t) ∧
    (inRange → (s.slot (0#1 ++ dc)).codesAll [category diff] = true →
      (s.slot (1#1 ++ ac)).codesAll (acSymbols acs 0) = true →
      encodeBlock s (0#1 ++ dc) (1#1 ++ ac) (s.getCsr (Csr.pred p)) = .ok codes) ∧
    (¬ inRange → ∃ t, exec (.encblk dc ac p) s = .next t ∧
      FaultLeaving .contractViolation 11 (Csr.pred p :: writerCsrs) [] [s.writerRoom] s t)

/-- R464, R466: DECBLK of the bits ENCBLK puts for a block, with the same tables, the same predictor and an MSB-first reader,
gives back the block and leaves the predictor and the cursor where ENCBLK's are. -/
def Obligations.BlockRoundTrip : Prop :=
  ∀ (dc ac : BitVec 4) (p : BitVec 2) (s u : State) (codes : List (Nat × Nat)),
    encodeBlock s (0#1 ++ dc) (1#1 ++ ac) (s.getCsr (Csr.pred p)) = .ok codes →
    u.slotValid (0#1 ++ dc) = true → u.slotValid (1#1 ++ ac) = true →
    u.slot (0#1 ++ dc) = s.slot (0#1 ++ dc) → u.slot (1#1 ++ ac) = s.slot (1#1 ++ ac) →
    (u.slot (0#1 ++ dc)).wf = true → (u.slot (1#1 ++ ac)).wf = true →
    u.getCsr (Csr.pred p) = s.getCsr (Csr.pred p) → u.getCsr .brMode = 0 →
    u.reader.hasBits u (u.getCsrNat .brPos) (bitString .msb codes) = true →
    ∃ t, exec (.decblk dc ac p) u = .next t ∧ t.kfile = s.kfile ∧ t.getCsr (Csr.pred p) = blockAt s.kfile 0 0 ∧
      t.getCsrNat .brPos = u.getCsrNat .brPos + (bitString .msb codes).length ∧
      Advanced [] [Csr.pred p, .brPos] [.kfile] [] u t

/-! ### GIF decoding -/

/-- R381, R382, R390: GIFOPEN of a file that begins with GIF89a and holds its whole global colour table sets the parser CSRs
from it and leaves the buffers' CSRs; another signature is MalformedHeader(1) with no file open. What the fault leaves
follows S7 (log entry 12). -/
def Obligations.OpenFile : Prop :=
  ∀ (rb rc : Reg) (s : State) (sw sh : Nat) (sig rest : List Byte) (pk bg asp : Byte),
    sw < 2 ^ 16 → sh < 2 ^ 16 → sig.length = 6 →
    s.holds (s.getXNat rb) (sig ++ leBytes 2 sw ++ leBytes 2 sh ++ [pk, bg, asp] ++ rest) = true →
    s.getXNat rc = 13 + rest.length →
    let n := if pk.getLsbD 7 then 2 ^ (pk.toNat % 8 + 1) else 0
    (sig = [0x47, 0x49, 0x46, 0x38, 0x39, 0x61] → 3 * n ≤ rest.length →
      ∃ t, exec (.gifopen rb rc) s = .next t ∧ t.getCsr .gFileBase = s.getX rb ∧ t.getCsr .gFileLen = s.getX rc ∧
        t.getCsrNat .gSw = sw ∧ t.getCsrNat .gSh = sh ∧ t.getCsrNat .gLsdPk = pk.toNat ∧ t.getCsrNat .gBg = bg.toNat ∧
        t.getCsrNat .gAspect = asp.toNat ∧ t.getCsrNat .gGctN = n ∧ t.getCsrNat .gLoopOff = 13 + 3 * n ∧
        t.getCsrNat .gCur = 13 + 3 * n ∧ t.getCsr .gOpen = 1 ∧
        (∀ c ∈ [Csr.gGce, .gDelay, .gTrans, .gLoop, .gCmtLen, .gImgPos, .gImgSize, .gImgPk, .gLctN, .gLctOff, .gFrames],
          t.getCsr c = 0) ∧
        Advanced [] [.gFileBase, .gFileLen, .gCur, .gLoopOff, .gSw, .gSh, .gLsdPk, .gBg, .gAspect, .gGctN, .gGce, .gDelay,
          .gTrans, .gLoop, .gImgPos, .gImgSize, .gImgPk, .gLctN, .gFrames, .gCmtLen, .gOpen, .gLctOff] [] [] s t) ∧
    (sig ≠ [0x47, 0x49, 0x46, 0x38, 0x39, 0x61] → s.params.acceptGif87a = false →
      ∃ t, exec (.gifopen rb rc) s = .next t ∧ t.getCsr .gOpen = 0 ∧
        FaultLeaving .malformedHeader 1 (.gOpen :: Csr.gifParser) [] [] s t)

/-- R383, R384, R391: GIFNEXT at the trailer answers 0 and stays; at a graphic control extension of disposal 0 or 2 it sets
the GCE CSRs and answers 2; another first byte is MalformedHeader(2), no open file ContractViolation(17). The scratch region
is unspecified after it, and a fault leaves every G_* CSR (R58). The scratch region and AUX after it are the model's reading
(log entry 13). -/
def Obligations.NextControlBlock : Prop :=
  ∀ (ra : Reg) (s : State),
    (s.getCsr .gOpen = 1 → s.fileHolds (s.getCsrNat .gCur) [0x3B] →
      ∃ t, exec (.gifnext ra) s = .next t ∧ RegIs ra 0 t ∧ t.getCsr .aux = 0 ∧
        Advanced [ra] [.aux] [] [s.scratchRegion] s t) ∧
    (∀ pk lo hi trans : Byte, s.getCsr .gOpen = 1 →
      s.fileHolds (s.getCsrNat .gCur) [0x21, 0xF9, 0x04, pk, lo, hi, trans, 0x00] →
      pk.toNat / 4 % 8 = 0 ∨ pk.toNat / 4 % 8 = 2 →
      ∃ t, exec (.gifnext ra) s = .next t ∧ RegIs ra 2 t ∧ t.getCsr .aux = 0 ∧
        t.getCsrNat .gGce = 1 + 2 * (pk.toNat % 2) + 4 * (pk.toNat / 2 % 2) + 8 * (pk.toNat / 4 % 8) ∧
        t.getCsrNat .gDelay = lo.toNat + 256 * hi.toNat ∧ t.getCsrNat .gTrans = trans.toNat ∧
        t.getCsrNat .gCur = s.getCsrNat .gCur + 8 ∧
        Advanced [ra] [.aux, .gGce, .gDelay, .gTrans, .gCur] [] [s.scratchRegion] s t) ∧
    (∀ pk lo hi trans : Byte, s.getCsr .gOpen = 1 →
      s.fileHolds (s.getCsrNat .gCur) [0x21, 0xF9, 0x04, pk, lo, hi, trans, 0x00] →
      pk.toNat / 4 % 8 ≠ 0 → pk.toNat / 4 % 8 ≠ 2 →
      ∃ t, exec (.gifnext ra) s = .next t ∧ FaultLeaving .unsupportedFeature 1 [.aux] [] [s.scratchRegion] s t) ∧
    (∀ b : Byte, s.getCsr .gOpen = 1 → s.fileHolds (s.getCsrNat .gCur) [b] → b ≠ 0x21 → b ≠ 0x2C → b ≠ 0x3B →
      ∃ t, exec (.gifnext ra) s = .next t ∧ FaultLeaving .malformedHeader 2 [.aux] [] [s.scratchRegion] s t) ∧
    (s.getCsr .gOpen = 0 →
      ∃ t, exec (.gifnext ra) s = .next t ∧ FaultLeaving .contractViolation 17 [.aux] [] [s.scratchRegion] s t)

/-- R383, R385, R386, R391: GIFNEXT at an extension that is a sub-block chain answers its kind and moves past the chain: the
loop extension sets G_LOOP, another application extension does not, a comment is copied to the comment buffer, and any other
extension is skipped. The scratch region is unspecified after it (log entry 13). -/
def Obligations.NextExtension : Prop :=
  ∀ (ra : Reg) (s : State) (label : Byte) (chunks : List (List Byte)), s.getCsr .gOpen = 1 → chunksLegal chunks = true →
    s.fileHolds (s.getCsrNat .gCur) ([0x21, label] ++ subBlockChain chunks) →
    let cur := s.getCsrNat .gCur + 2 + (subBlockChain chunks).length
    let loopHead : List Byte := [0x0B, 0x4E, 0x45, 0x54, 0x53, 0x43, 0x41, 0x50, 0x45, 0x32, 0x2E, 0x30, 0x03, 0x01]
    (∀ lo hi : Byte, label = 0xFF → loopHead ++ [lo, hi] <+: subBlockChain chunks →
      ∃ t, exec (.gifnext ra) s = .next t ∧ RegIs ra 3 t ∧ t.getCsr .aux = 0 ∧ t.getCsrNat .gCur = cur ∧
        t.getCsrNat .gLoop = 0x10000 + lo.toNat + 256 * hi.toNat ∧
        Advanced [ra] [.aux, .gCur, .gLoop] [] [s.scratchRegion] s t) ∧
    (label = 0xFF → ¬ loopHead <+: subBlockChain chunks →
      ∃ t, exec (.gifnext ra) s = .next t ∧ RegIs ra 3 t ∧ t.getCsr .aux = 0 ∧ t.getCsrNat .gCur = cur ∧
        Advanced [ra] [.aux, .gCur] [] [s.scratchRegion] s t) ∧
    (label = 0xFE → s.commentRegion.overlaps s.file = false → chunks.flatten.length ≤ s.getCsrNat .gCmtCap →
      s.getCsrNat .gCmtBase + chunks.flatten.length ≤ s.memSize →
      ∃ t, exec (.gifnext ra) s = .next t ∧ RegIs ra 4 t ∧ t.getCsrNat .aux = chunks.flatten.length ∧
        t.getCsrNat .gCmtLen = chunks.flatten.length ∧ t.getCsrNat .gCur = cur ∧
        (∀ i (h : i < chunks.flatten.length), outside [s.scratchRegion] (s.getCsrNat .gCmtBase + i) →
          t.mem.read? (s.getCsrNat .gCmtBase + i) = some chunks.flatten[i]) ∧
        Advanced [ra] [.aux, .gCmtLen, .gCur] [] [⟨s.getCsrNat .gCmtBase, chunks.flatten.length⟩, s.scratchRegion] s t) ∧
    (label ≠ 0xF9 → label ≠ 0xFF → label ≠ 0xFE →
      ∃ t, exec (.gifnext ra) s = .next t ∧ RegIs ra 5 t ∧ t.getCsrNat .aux = label.toNat ∧ t.getCsrNat .gCur = cur ∧
        Advanced [ra] [.aux, .gCur] [] [s.scratchRegion] s t)

/-- R387 to R389, R392 to R395: GIFNEXT at an image block decodes its indices and paints them: a pixel of the rectangle whose
index is not skipped gets the colour of its index in the active table, in the configured layout; every other pixel keeps
its bytes, or under a disposal of 2 gets the fill colour, white or the background entry. Indices beyond the pixels are
discarded but counted. The image CSRs, the frame count and AUX are set and the GCE is used up. The scratch region is
unspecified after it (log entry 13), the two counts are taken modulo 2^32 (log entry 31), and the codes have fewer
than 2^32 bits, beyond which the model's private reader does not go (log entry 32). -/
def Obligations.NextImage : Prop :=
  ∀ (ra : Reg) (s : State) (b : ImageBlock) (colours : List Byte) (fr fg fb : Byte), s.getCsr .gOpen = 1 → b.Legal s → b.Room s →
    s.fileHolds (s.getCsrNat .gCur) b.bytes →
    0 < (b.activeTable s).2 → colours.length = 3 * (b.activeTable s).2 → s.fileHolds (b.activeTable s).1 colours →
    (∀ v ∈ b.indices.take (b.width * b.height), s.skips v = true ∨ v.toNat < (b.activeTable s).2) →
    (s.disposes = true → s.FillColour fr fg fb) →
    ∃ t, exec (.gifnext ra) s = .next t ∧ RegIs ra 1 t ∧ t.getCsr .aux = u32 b.indices.length ∧
      t.getCsrNat .gCur = s.getCsrNat .gCur + b.bytes.length ∧ t.getCsr .gGce = 0 ∧
      t.getCsr .gFrames = s.getCsr .gFrames + 1 ∧ t.getCsrNat .gImgPos = b.left + b.top * 2 ^ 16 ∧
      t.getCsrNat .gImgSize = b.width + b.height * 2 ^ 16 ∧ t.getCsrNat .gImgPk = b.pk.toNat ∧
      t.getCsrNat .gLctN = b.lctN ∧
      t.getCsrNat .gLctOff = (if b.pk.getLsbD 7 then s.getCsrNat .gCur + 10 else 0) ∧
      (∀ x y, x < s.getCsrNat .gSw → y < s.getCsrNat .gSh →
        let at' := s.getCsrNat .gFbBase + (y * s.getCsrNat .gSw + x) * s.pixelBytes
        let v := (b.indices.getD ((y - b.top) * b.width + (x - b.left)) 0).toNat
        if b.paints s x y then
          t.holds at' (pixelLayout (s.getCsrNat .gPixFmt) (colours.getD (3 * v) 0) (colours.getD (3 * v + 1) 0)
            (colours.getD (3 * v + 2) 0)) = true
        else if s.disposes then t.holds at' (pixelLayout (s.getCsrNat .gPixFmt) fr fg fb) = true
        else ∀ i, i < s.pixelBytes → t.mem.read? (at' + i) = s.mem.read? (at' + i)) ∧
      Advanced [ra] [.aux, .gCur, .gGce, .gFrames, .gImgPos, .gImgSize, .gImgPk, .gLctN, .gLctOff] []
        [s.frameRegion, s.scratchRegion] s t

/-- R387, R391, R392: an image descriptor that is interlaced is UnsupportedFeature(2); one without a local table whose
rectangle leaves the screen is MalformedHeader(4), and one inside it with no global table either is MalformedHeader(5). No
G_* CSR changes. The scratch region and AUX after it are the model's reading (log entry 13). -/
def Obligations.BadImages : Prop :=
  ∀ (ra : Reg) (s : State) (b : ImageBlock), s.getCsr .gOpen = 1 →
    b.left < 2 ^ 16 → b.top < 2 ^ 16 → b.width < 2 ^ 16 → b.height < 2 ^ 16 →
    s.fileHolds (s.getCsrNat .gCur) b.descriptor →
    let onScreen := b.left + b.width ≤ s.getCsrNat .gSw ∧ b.top + b.height ≤ s.getCsrNat .gSh
    (b.pk.getLsbD 6 = true →
      ∃ t, exec (.gifnext ra) s = .next t ∧ FaultLeaving .unsupportedFeature 2 [.aux] [] [s.scratchRegion] s t) ∧
    (b.pk.getLsbD 6 = false → b.pk.getLsbD 7 = false → ¬ onScreen →
      ∃ t, exec (.gifnext ra) s = .next t ∧ FaultLeaving .malformedHeader 4 [.aux] [] [s.scratchRegion] s t) ∧
    (b.pk.getLsbD 6 = false → b.pk.getLsbD 7 = false → onScreen → s.getCsr .gGctN = 0 →
      ∃ t, exec (.gifnext ra) s = .next t ∧ FaultLeaving .malformedHeader 5 [.aux] [] [s.scratchRegion] s t)

/-- R399, R467: GIFREWIND returns to the offset after the global colour table and resets the local-table CSRs and the GCE,
and without an open file is ContractViolation(17); PRST clears the four predictors. -/
def Obligations.Restarts : Prop :=
  decodeWord 0x00000062 = .ok .gifrewind ∧ decodeWord 0x00000052 = .ok .prst ∧
  ∀ s : State,
    (s.getCsr .gOpen = 1 →
      ∃ t, exec .gifrewind s = .next t ∧ t.getCsr .gCur = s.getCsr .gLoopOff ∧ t.getCsr .gLctN = 0 ∧
        t.getCsr .gLctOff = 0 ∧ t.getCsr .gGce = 0 ∧ Advanced [] [.gCur, .gLctN, .gLctOff, .gGce] [] [] s t) ∧
    (s.getCsr .gOpen = 0 →
      ∃ t, exec .gifrewind s = .next t ∧
        FaultLeaving .contractViolation 17 [.gCur, .gLctN, .gLctOff, .gGce] [] [] s t) ∧
    ∃ t, exec .prst s = .next t ∧ (∀ p, t.getCsr (Csr.pred p) = 0) ∧
      Advanced [] [.pred0, .pred1, .pred2, .pred3] [] [] s t

/-! ### GIF writing -/

/-- R430, R431, R433, R435, R436, R438: GIFWOPEN writes the 800 bytes of the header, palette included, and opens the file;
GIFWEND writes the trailer byte and closes it. An operand out of range is ContractViolation(21), GIFWEND with no file being
written ContractViolation(19). What a fault leaves is bounded by the writer's room (log entry 27). -/
def Obligations.WriteHeaderAndTrailer : Prop :=
  ∀ (ra rb rc : Reg) (s : State), s.Inv → s.gifWriterReady →
    let at' := s.getCsrNat .bwBase + s.getCsrNat .bwLen
    let room := fun n => s.getCsrNat .bwLen + n ≤ s.getCsrNat .bwCap ∧ at' + n ≤ s.memSize
    let inRange := 1 ≤ s.getXNat rb ∧ s.getXNat rb ≤ 65535 ∧ 1 ≤ s.getXNat rc ∧ s.getXNat rc ≤ 65535 ∧
      s.getXNat ra ≤ 65535
    (inRange → room 800 →
      ∃ t, exec (.gifwopen ra rb rc) s = .next t ∧
        t.holds at' ([0x47, 0x49, 0x46, 0x38, 0x39, 0x61] ++ leBytes 2 (s.getXNat rb) ++ leBytes 2 (s.getXNat rc) ++
          [0xF7, 0x00, 0x00]) = true ∧
        (∀ i, i < 252 → t.holds (at' + 13 + 3 * i)
          [BitVec.ofNat 8 (i / 42 * 51), BitVec.ofNat 8 (i / 7 % 6 * 51), BitVec.ofNat 8 (i % 7 * 255 / 6)] = true) ∧
        (∀ i, 252 ≤ i → i < 256 → t.holds (at' + 13 + 3 * i) [0, 0, 0] = true) ∧
        t.holds (at' + 781) ([0x21, 0xFF, 0x0B, 0x4E, 0x45, 0x54, 0x53, 0x43, 0x41, 0x50, 0x45, 0x32, 0x2E, 0x30, 0x03,
          0x01] ++ leBytes 2 (s.getXNat ra) ++ [0x00]) = true ∧
        t.getCsrNat .bwLen = s.getCsrNat .bwLen + 800 ∧ t.getCsr .bwAcc = 0 ∧ t.getCsr .bwNacc = 0 ∧
        t.getCsr .gwW = s.getX rb ∧ t.getCsr .gwH = s.getX rc ∧ t.getCsr .gwFrames = 0 ∧ t.getCsr .gwOpen = 1 ∧
        Advanced [] ([.gwW, .gwH, .gwFrames, .gwOpen] ++ writerCsrs) [] [⟨at', 800⟩] s t) ∧
    (¬ inRange →
      ∃ t, exec (.gifwopen ra rb rc) s = .next t ∧ FaultLeaving .contractViolation 21 writerCsrs [] [s.writerRoom] s t) ∧
    (s.getCsr .gwOpen = 1 → room 1 →
      ∃ t, exec .gifwend s = .next t ∧ t.mem.read? at' = some 0x3B ∧
        t.getCsrNat .bwLen = s.getCsrNat .bwLen + 1 ∧ t.getCsr .bwAcc = 0 ∧ t.getCsr .bwNacc = 0 ∧
        t.getCsr .gwOpen = 0 ∧ Advanced [] (.gwOpen :: writerCsrs) [] [⟨at', 1⟩] s t) ∧
    (s.getCsr .gwOpen = 0 →
      ∃ t, exec .gifwend s = .next t ∧
        FaultLeaving .contractViolation 19 (.gwOpen :: writerCsrs) [] [s.writerRoom] s t)

/-- R430, R432, R434, R437: GIFWFRAME maps the pixels to palette indices, writes the control block, the descriptor and the LZW
data of the first frame's whole screen or of the rectangle that changed, and leaves the indices as the current and the previous
index frame. Where the screen has no pixels, the rectangle of a later frame holds the byte at GW_IDX_BASE. Its faults are ContractViolation(19), those of R435, (21) and, on an overlap, (1), in this order; each leaves
what R437 says, (1) nothing else (log entry 10), and GW_FRAMES is unchanged on every fault. Of those of R435 the model takes
(20) before (12) before (13), which is its own choice (log entry 21); that the writer's bytes end at BW_CAP is its reading
(log entry 27), and the frame count is taken modulo 2^32 (log entry 31). -/
def Obligations.WriteFrame : Prop :=
  ∀ (rb rc : Reg) (s : State),
    let w := s.getCsrNat .gwW
    let h := s.getCsrNat .gwH
    let idx := s.getCsrNat .gwIdxBase
    let at' := s.getCsrNat .bwBase + s.getCsrNat .bwLen
    let src : Region := ⟨s.getXNat rb, 3 * (w * h)⟩
    let overlap := src.overlaps s.indexRegion || src.overlaps s.writeRegion || s.indexRegion.overlaps s.writeRegion
    let leaves := fun (code : Word) (csrs : List Csr) => ∃ t, exec (.gifwframe rb rc) s = .next t ∧
      FaultLeaving .contractViolation code csrs [] [s.writerRoom, s.indexRegion] s t
    let faults := fun code : Word => leaves code writerCsrs
    (∀ (pixels : List (Byte × Byte × Byte)) (prev : List Byte) (first : Byte), s.Inv → s.gifWriterReady →
      s.getCsr .gwOpen = 1 → s.getXNat rc ≤ 65535 → overlap = false →
      pixels.length = w * h → s.holds (s.getXNat rb) (pixelBytesOf pixels) = true → prev.length = w * h →
      (s.getCsr .gwFrames ≠ 0 → s.holds (idx + w * h) prev = true) → idx + 2 * (w * h) ≤ s.memSize →
      (s.getCsr .gwFrames ≠ 0 → w * h = 0 → s.holds idx [first] = true) →
      let cur : List Byte := pixels.map fun p =>
        BitVec.ofNat 8 ((p.1.toNat * 6 / 256 * 6 + p.2.1.toNat * 6 / 256) * 7 + p.2.2.toNat * 7 / 256)
      let changed := (List.range (w * h)).filter fun p => cur.getD p 0 != prev.getD p 0
      let r : FrameRect := if s.getCsr .gwFrames = 0 then ⟨0, 0, w, h⟩ else changedRect w changed
      let indices := (List.range r.height).flatMap fun dy =>
        (List.range r.width).map fun dx => cur.getD ((r.top + dy) * w + (r.left + dx)) first
      let z := frameData indices
      let out := [0x21, 0xF9, 0x04, 0x00] ++ leBytes 2 (s.getXNat rc) ++ [0x00, 0x00] ++
        [0x2C] ++ leBytes 2 r.left ++ leBytes 2 r.top ++ leBytes 2 r.width ++ leBytes 2 r.height ++ [0x00] ++
        [0x08] ++ subBlocks (z.length + 1) z
      s.getCsrNat .bwLen + out.length ≤ s.getCsrNat .bwCap → at' + out.length ≤ s.memSize →
      ∃ t, exec (.gifwframe rb rc) s = .next t ∧ t.holds at' out = true ∧ t.holds idx cur = true ∧
        t.holds (idx + w * h) cur = true ∧ t.getCsrNat .bwLen = s.getCsrNat .bwLen + out.length ∧ t.getCsr .bwAcc = 0 ∧
        t.getCsr .bwNacc = 0 ∧ t.getCsr .gwFrames = s.getCsr .gwFrames + 1 ∧
        Advanced [] (.gwFrames :: writerCsrs) [] [⟨at', out.length⟩, s.indexRegion] s t) ∧
    (s.getCsr .gwOpen = 0 → faults 19) ∧
    (s.getCsr .gwOpen = 1 → s.getCsr .bwNacc ≠ 0 → faults 20) ∧
    (s.getCsr .gwOpen = 1 → s.getCsr .bwNacc = 0 → (s.getCsr .bwMode).getLsbD 0 = false → faults 12) ∧
    (s.getCsr .gwOpen = 1 → s.getCsr .bwNacc = 0 → s.getCsr .bwMode = 3 → faults 13) ∧
    (s.getCsr .gwOpen = 1 → s.getCsr .bwNacc = 0 → s.getCsr .bwMode = 1 → 65535 < s.getXNat rc → faults 21) ∧
    (s.getCsr .gwOpen = 1 → s.getCsr .bwNacc = 0 → s.getCsr .bwMode = 1 → s.getXNat rc ≤ 65535 → overlap = true →
      leaves 1 []) ∧
    ∀ (t : State) (code : FaultCode) (aux : Word), exec (.gifwframe rb rc) s = .next t → FaultTaken code aux s t →
      t.getCsr .gwFrames = s.getCsr .gwFrames

/-- R434: the rectangle of a later frame holds every pixel that changed, and lies inside every rectangle that does; with no
change it is (0, 0, 1, 1). -/
def Obligations.SmallestRectangle : Prop :=
  ∀ (w : Nat) (changed : List Nat), changedRect w [] = ⟨0, 0, 1, 1⟩ ∧
    (changed ≠ [] →
      (∀ p ∈ changed, (changedRect w changed).contains w p) ∧
      ∀ r : FrameRect, (∀ p ∈ changed, r.contains w p) →
        r.left ≤ (changedRect w changed).left ∧ r.top ≤ (changedRect w changed).top ∧
          (changedRect w changed).left + (changedRect w changed).width ≤ r.left + r.width ∧
          (changedRect w changed).top + (changedRect w changed).height ≤ r.top + r.height)

/-- R432, R226: the data of a written frame, its sub-blocks put together and read LSB-first, begin with the LZW codes of the
rectangle's indices, and are a legal sub-block chain of 255-byte blocks with a shorter last one. -/
def Obligations.FrameDataIsTheLzwStream : Prop :=
  ∀ indices : List Byte, ∃ chunks, chunksLegal chunks = true ∧ chunks.flatten = frameData indices ∧
    (∀ c ∈ chunks.dropLast, c.length = 255) ∧
    subBlocks ((frameData indices).length + 1) (frameData indices) = subBlockChain chunks ∧
    bitString .lsb (lzwEncode 8 indices) <+: (frameData indices).flatMap (byteBits .lsb)
end

