-- ==== Sys2Proof/Laws/Memory.lean ====
section
/-! SUPPORT. The laws of MEM: what a byte reads after a write, and that every write keeps the canonical form. -/

namespace Sys2Proof.Machine

theorem Memory.read?_append (m n : Memory) (a : Nat) :
    Memory.read? (m ++ n) a = (Memory.read? m a).or (Memory.read? n a) := by
  induction m with
  | nil => simp [Memory.read?, Memory.unlisted]
  | cons c m ih => obtain ⟨b, v⟩ := c; by_cases h : a = b <;> simp [Memory.read?, h, ih]

theorem Memory.read?_filter (p : Nat → Bool) (m : Memory) (a : Nat) :
    Memory.read? (m.filter fun c => p c.1) a = if p a then Memory.read? m a else none := by
  induction m with
  | nil => simp [Memory.read?, Memory.unlisted]
  | cons c m ih =>
    obtain ⟨b, v⟩ := c
    by_cases hb : p b = true <;> by_cases h : a = b <;> simp_all [Memory.read?]

theorem Memory.read?_cellsFrom (bs : List Byte) (base a : Nat) :
    Memory.read? (Memory.cellsFrom base bs) a = if base ≤ a then bs[a - base]? else none := by
  induction bs generalizing base with
  | nil => simp [Memory.cellsFrom, Memory.read?, Memory.unlisted]
  | cons b bs ih =>
    simp only [Memory.cellsFrom, Memory.read?, ih]
    by_cases h : a = base
    · simp [h]
    · by_cases h1 : base ≤ a
      · have : a - base = a - (base + 1) + 1 := by omega
        simp [h, h1, show base + 1 ≤ a by omega, this]
      · simp [h, h1, show ¬ base + 1 ≤ a by omega]

/-- A byte that is written reads as the byte written. -/
theorem Memory.read?_write_inside (m : Memory) (base : Nat) (bs : List Byte) (i : Nat) (h : i < bs.length) :
    (m.write base bs).read? (base + i) = some bs[i] := by
  have h1 : ¬ base + i < base := by omega
  simp [Memory.write, Memory.read?_append, Memory.read?_cellsFrom,
    Memory.read?_filter (fun a => decide (a < base)), List.getElem?_eq_getElem h]

/-- Every other byte reads as before. -/
theorem Memory.read?_write_outside (m : Memory) (base : Nat) (bs : List Byte) (a : Nat)
    (h : a < base ∨ base + bs.length ≤ a) : (m.write base bs).read? a = m.read? a := by
  have h1 := Memory.read?_filter (fun a => decide (a < base)) m a
  have h2 := Memory.read?_filter (fun a => decide (base + bs.length ≤ a)) m a
  simp only [Memory.write, Memory.read?_append, h1, h2, Memory.read?_cellsFrom]
  rcases h with h | h
  · simp [h, show ¬ base ≤ a by omega, show ¬ base + bs.length ≤ a by omega]
  · simp [h, show ¬ a < base by omega, show base ≤ a by omega, show bs.length ≤ a - base by omega]

/-- Canonical form is: addresses strictly rising. -/
theorem Memory.wf_iff (m : Memory) : m.wf = true ↔ m.Pairwise fun c d => c.1 < d.1 := by
  induction m with
  | nil => simp [Memory.wf]
  | cons c m ih => simp [Memory.wf, List.pairwise_cons, ih]

theorem Memory.cellsFrom_bounds (bs : List Byte) (base : Nat) :
    ∀ c ∈ Memory.cellsFrom base bs, base ≤ c.1 ∧ c.1 < base + bs.length := by
  induction bs generalizing base with
  | nil => simp [Memory.cellsFrom]
  | cons b bs ih =>
    intro c hc
    simp only [Memory.cellsFrom, List.mem_cons] at hc
    rcases hc with rfl | hc
    · simp
    · have := ih (base + 1) c hc
      simp only [List.length_cons]; omega

theorem Memory.cellsFrom_pairwise (bs : List Byte) (base : Nat) :
    (Memory.cellsFrom base bs).Pairwise fun c d => c.1 < d.1 := by
  induction bs generalizing base with
  | nil => simp [Memory.cellsFrom]
  | cons b bs ih =>
    refine List.pairwise_cons.2 ⟨fun c hc => ?_, ih (base + 1)⟩
    have := Memory.cellsFrom_bounds bs (base + 1) c hc
    simp only; omega

/-- A write keeps the canonical form. -/
theorem Memory.write_wf (m : Memory) (base : Nat) (bs : List Byte) (h : m.wf = true) : (m.write base bs).wf = true := by
  rw [Memory.wf_iff] at h ⊢
  simp only [Memory.write, List.append_assoc, List.pairwise_append, List.mem_append, List.mem_filter,
    decide_eq_true_eq]
  refine ⟨h.filter _, ⟨Memory.cellsFrom_pairwise bs base, h.filter _, ?_⟩, ?_⟩
  · rintro c hc d ⟨-, hd⟩
    have := Memory.cellsFrom_bounds bs base c hc
    omega
  · rintro c ⟨-, hc⟩ d (hd | ⟨-, hd⟩)
    · have := Memory.cellsFrom_bounds bs base d hd
      omega
    · omega

/-- A write inside a MEM of n bytes keeps every listed address inside it. -/
theorem Memory.write_below (n : Nat) (m : Memory) (base : Nat) (bs : List Byte) (h : m.below n = true)
    (hb : bs = [] ∨ base + bs.length ≤ n) : (m.write base bs).below n = true := by
  simp only [Memory.below, List.all_eq_true, decide_eq_true_eq] at h ⊢
  intro c hc
  simp only [Memory.write, List.mem_append, List.mem_filter] at hc
  rcases hc with (⟨hc, -⟩ | hc) | ⟨hc, -⟩
  · exact h c hc
  · rcases hb with rfl | hb
    · simp [Memory.cellsFrom] at hc
    · have := Memory.cellsFrom_bounds bs base c hc
      omega
  · exact h c hc

theorem State.reset_mem_wf : State.reset.mem.wf = true := rfl

end Sys2Proof.Machine
end

