-- ==== Sys2Proof/Laws/State.lean ====
section
/-! SUPPORT. What each update of the state does to each of its parts, so that no proof unfolds a record update. -/

namespace Sys2Proof.Machine

/-! ### Registers -/

@[simp] theorem State.getX_zero (s : State) : s.getX 0#4 = 0#32 := rfl

@[simp] theorem State.setX_zero (s : State) (v : Word) : s.setX 0#4 v = s := rfl

/-- What a register reads after a register write (R171). -/
theorem State.getX_setX (s : State) (r q : Reg) (v : Word) :
    (s.setX r v).getX q = if q = r ∧ r ≠ 0#4 then v else s.getX q := by
  by_cases hr : r = 0#4
  · subst hr; simp
  · have hs : s.setX r v = { s with x := s.x.set r.toNat v r.isLt } := if_neg hr
    by_cases hq : q = r
    · subst hq
      simp [hs, hr, State.getX, Vector.get_eq_getElem]
    · have h' : r.toNat ≠ q.toNat := fun e => hq (BitVec.eq_of_toNat_eq e.symm)
      simp [hs, hq, State.getX, Vector.get_eq_getElem, h']

theorem State.getX_setX_self (s : State) (r : Reg) (v : Word) (h : r ≠ 0#4) : (s.setX r v).getX r = v := by
  simp [State.getX_setX, h]

theorem State.getX_setX_of_ne (s : State) (r q : Reg) (v : Word) (h : q ≠ r) : (s.setX r v).getX q = s.getX q := by
  simp [State.getX_setX, h]

@[simp] theorem State.setX_pc (s : State) (r : Reg) (v : Word) : (s.setX r v).pc = s.pc := by
  unfold State.setX; split <;> rfl

@[simp] theorem State.setX_csrs (s : State) (r : Reg) (v : Word) : (s.setX r v).csrs = s.csrs := by
  unfold State.setX; split <;> rfl

@[simp] theorem State.setX_slots (s : State) (r : Reg) (v : Word) : (s.setX r v).slots = s.slots := by
  unfold State.setX; split <;> rfl

@[simp] theorem State.setX_sfile (s : State) (r : Reg) (v : Word) : (s.setX r v).sfile = s.sfile := by
  unfold State.setX; split <;> rfl

@[simp] theorem State.setX_kfile (s : State) (r : Reg) (v : Word) : (s.setX r v).kfile = s.kfile := by
  unfold State.setX; split <;> rfl

@[simp] theorem State.setX_qtabs (s : State) (r : Reg) (v : Word) : (s.setX r v).qtabs = s.qtabs := by
  unfold State.setX; split <;> rfl

@[simp] theorem State.setX_mem (s : State) (r : Reg) (v : Word) : (s.setX r v).mem = s.mem := by
  unfold State.setX; split <;> rfl

@[simp] theorem State.setX_params (s : State) (r : Reg) (v : Word) : (s.setX r v).params = s.params := by
  unfold State.setX; split <;> rfl

@[simp] theorem State.setX_draws (s : State) (r : Reg) (v : Word) : (s.setX r v).draws = s.draws := by
  unfold State.setX; split <;> rfl

@[simp] theorem State.setX_host (s : State) (r : Reg) (v : Word) : (s.setX r v).host = s.host := by
  unfold State.setX; split <;> rfl

@[simp] theorem State.setX_getCsr (s : State) (r : Reg) (v : Word) (c : Csr) : (s.setX r v).getCsr c = s.getCsr c := by
  simp [State.getCsr]

/-! ### CSRs -/

/-- The CSRs in the order of their cells. -/
def Csr.inOrder : List Csr :=
  [.status, .errpc, .erraux, .aux, .ie, .brBase, .brLen, .brPos, .brMode, .bwBase, .bwCap, .bwLen, .bwAcc,
   .bwNacc, .bwMode, .huffValid, .qValid, .pred0, .pred1, .pred2, .pred3, .gFileBase, .gFileLen, .gCur,
   .gLoopOff, .gSw, .gSh, .gLsdPk, .gBg, .gAspect, .gGctN, .gGce, .gDelay, .gTrans, .gLoop, .gImgPos,
   .gImgSize, .gImgPk, .gLctN, .gFrames, .gFbBase, .gPixFmt, .gScrBase, .gScrLen, .gCmtBase, .gCmtCap,
   .gCmtLen, .gOpen, .gLctOff, .gwW, .gwH, .gwIdxBase, .gwFrames, .gwOpen]

theorem Csr.inOrder_idx (c : Csr) : Csr.inOrder[c.idx.val]? = some c := by cases c <;> rfl

theorem Csr.mem_inOrder (c : Csr) : c ∈ Csr.inOrder := List.mem_of_getElem? (Csr.inOrder_idx c)

theorem Csr.idx_injective {c d : Csr} (h : c.idx = d.idx) : c = d := by
  have hc := Csr.inOrder_idx c
  rw [h, Csr.inOrder_idx d] at hc
  exact (Option.some.inj hc).symm

theorem Csr.ofNumber_number (c : Csr) : Csr.ofNumber c.number = some c := by cases c <;> rfl

@[simp] theorem State.getCsr_setCsr_self (s : State) (c : Csr) (v : Word) : (s.setCsr c v).getCsr c = v &&& c.mask := by
  simp [State.getCsr, State.setCsr, Vector.get_eq_getElem]

theorem State.getCsr_setCsr_of_ne (s : State) {c d : Csr} (v : Word) (h : d ≠ c) :
    (s.setCsr c v).getCsr d = s.getCsr d := by
  have h' : c.idx.val ≠ d.idx.val := fun e => h (Csr.idx_injective (Fin.ext e)).symm
  simp [State.getCsr, State.setCsr, Vector.get_eq_getElem, h']

/-- What a CSR reads after a CSR write (R35). -/
theorem State.getCsr_setCsr (s : State) (c d : Csr) (v : Word) :
    (s.setCsr c v).getCsr d = if d = c then v &&& c.mask else s.getCsr d := by
  by_cases h : d = c
  · subst h; simp
  · simp [State.getCsr_setCsr_of_ne, h]

@[simp] theorem State.setCsr_x (s : State) (c : Csr) (v : Word) : (s.setCsr c v).x = s.x := rfl

@[simp] theorem State.setCsr_pc (s : State) (c : Csr) (v : Word) : (s.setCsr c v).pc = s.pc := rfl

@[simp] theorem State.setCsr_slots (s : State) (c : Csr) (v : Word) : (s.setCsr c v).slots = s.slots := rfl

@[simp] theorem State.setCsr_sfile (s : State) (c : Csr) (v : Word) : (s.setCsr c v).sfile = s.sfile := rfl

@[simp] theorem State.setCsr_kfile (s : State) (c : Csr) (v : Word) : (s.setCsr c v).kfile = s.kfile := rfl

@[simp] theorem State.setCsr_qtabs (s : State) (c : Csr) (v : Word) : (s.setCsr c v).qtabs = s.qtabs := rfl

@[simp] theorem State.setCsr_mem (s : State) (c : Csr) (v : Word) : (s.setCsr c v).mem = s.mem := rfl

@[simp] theorem State.setCsr_params (s : State) (c : Csr) (v : Word) : (s.setCsr c v).params = s.params := rfl

@[simp] theorem State.setCsr_draws (s : State) (c : Csr) (v : Word) : (s.setCsr c v).draws = s.draws := rfl

@[simp] theorem State.setCsr_host (s : State) (c : Csr) (v : Word) : (s.setCsr c v).host = s.host := rfl

@[simp] theorem State.setCsr_getX (s : State) (c : Csr) (v : Word) (r : Reg) : (s.setCsr c v).getX r = s.getX r := rfl

/-! ### PC and MEM -/

@[simp] theorem State.advance_pc (s : State) : s.advance.pc = s.pc + 4 := rfl

@[simp] theorem State.advance_x (s : State) : s.advance.x = s.x := rfl

@[simp] theorem State.advance_csrs (s : State) : s.advance.csrs = s.csrs := rfl

@[simp] theorem State.advance_slots (s : State) : s.advance.slots = s.slots := rfl

@[simp] theorem State.advance_sfile (s : State) : s.advance.sfile = s.sfile := rfl

@[simp] theorem State.advance_kfile (s : State) : s.advance.kfile = s.kfile := rfl

@[simp] theorem State.advance_qtabs (s : State) : s.advance.qtabs = s.qtabs := rfl

@[simp] theorem State.advance_mem (s : State) : s.advance.mem = s.mem := rfl

@[simp] theorem State.advance_params (s : State) : s.advance.params = s.params := rfl

@[simp] theorem State.advance_draws (s : State) : s.advance.draws = s.draws := rfl

@[simp] theorem State.advance_host (s : State) : s.advance.host = s.host := rfl

@[simp] theorem State.advance_getX (s : State) (r : Reg) : s.advance.getX r = s.getX r := rfl

@[simp] theorem State.advance_getCsr (s : State) (c : Csr) : s.advance.getCsr c = s.getCsr c := rfl

@[simp] theorem State.putMem_mem (s : State) (a : Nat) (bs : List Byte) : (s.putMem a bs).mem = s.mem.write a bs := rfl

@[simp] theorem State.putMem_x (s : State) (a : Nat) (bs : List Byte) : (s.putMem a bs).x = s.x := rfl

@[simp] theorem State.putMem_pc (s : State) (a : Nat) (bs : List Byte) : (s.putMem a bs).pc = s.pc := rfl

@[simp] theorem State.putMem_csrs (s : State) (a : Nat) (bs : List Byte) : (s.putMem a bs).csrs = s.csrs := rfl

@[simp] theorem State.putMem_slots (s : State) (a : Nat) (bs : List Byte) : (s.putMem a bs).slots = s.slots := rfl

@[simp] theorem State.putMem_sfile (s : State) (a : Nat) (bs : List Byte) : (s.putMem a bs).sfile = s.sfile := rfl

@[simp] theorem State.putMem_kfile (s : State) (a : Nat) (bs : List Byte) : (s.putMem a bs).kfile = s.kfile := rfl

@[simp] theorem State.putMem_qtabs (s : State) (a : Nat) (bs : List Byte) : (s.putMem a bs).qtabs = s.qtabs := rfl

@[simp] theorem State.putMem_params (s : State) (a : Nat) (bs : List Byte) : (s.putMem a bs).params = s.params := rfl

@[simp] theorem State.putMem_draws (s : State) (a : Nat) (bs : List Byte) : (s.putMem a bs).draws = s.draws := rfl

@[simp] theorem State.putMem_host (s : State) (a : Nat) (bs : List Byte) : (s.putMem a bs).host = s.host := rfl

@[simp] theorem State.putMem_getX (s : State) (a : Nat) (bs : List Byte) (r : Reg) :
    (s.putMem a bs).getX r = s.getX r := rfl

@[simp] theorem State.putMem_getCsr (s : State) (a : Nat) (bs : List Byte) (c : Csr) :
    (s.putMem a bs).getCsr c = s.getCsr c := rfl

end Sys2Proof.Machine
end

