-- ==== Sys2Proof/Laws/Result.lean ====
section
/-! SUPPORT. One lemma for each shared operation that says when it answers and what: results, checks, reads and writes of MEM,
faults, and the end of a command. -/

namespace Sys2Proof.Machine

/-! ### Results -/

@[simp] theorem Res.ok_bind {α β : Type} (a : α) (f : α → Res β) : (Except.ok a >>= f) = f a := rfl

@[simp] theorem Res.error_bind {α β : Type} (e : Stop) (f : α → Res β) : ((Except.error e : Res α) >>= f) = .error e :=
  rfl

theorem Res.bind_eq_ok {α β : Type} {r : Res α} {f : α → Res β} {b : β} :
    (r >>= f) = .ok b ↔ ∃ a, r = .ok a ∧ f a = .ok b := by
  cases r <;> simp

theorem Res.bind_eq_error {α β : Type} {r : Res α} {f : α → Res β} {e : Stop} :
    (r >>= f) = .error e ↔ r = .error e ∨ ∃ a, r = .ok a ∧ f a = .error e := by
  cases r <;> simp

theorem require_eq_ok {c : Bool} {code : FaultCode} {aux : Nat} {u : Unit} :
    require c code aux = .ok u ↔ c = true := by
  cases c <;> simp [require, fail]

theorem require_eq_error {c : Bool} {code : FaultCode} {aux : Nat} {e : Stop} :
    require c code aux = .error e ↔ c = false ∧ e = .raise ⟨code, u32 aux⟩ [] := by
  cases c <;> simp [require, fail, eq_comm]

theorem leaving_eq_ok {α : Type} {ps : List Leftover} {r : Res α} {a : α} : leaving ps r = .ok a ↔ r = .ok a := by
  rcases r with (_ | _) | _ <;> simp [leaving]

/-- A part that leaves pieces behind faults as it did, with those pieces added. -/
theorem leaving_eq_raise {α : Type} {ps left : List Leftover} {r : Res α} {f : EngineFault} :
    leaving ps r = .error (.raise f left) ↔ ∃ qs, r = .error (.raise f qs) ∧ left = qs ++ ps := by
  rcases r with (_ | _) | _ <;> simp [leaving, eq_comm]

theorem leaving_eq_halt {α : Type} {ps : List Leftover} {r : Res α} {f : Fault} :
    leaving ps r = .error (.halt f) ↔ r = .error (.halt f) := by
  rcases r with (_ | _) | _ <;> simp [leaving]

theorem leavingPastOverlap_eq_ok {α : Type} {ps : List Leftover} {r : Res α} {a : α} :
    leavingPastOverlap ps r = .ok a ↔ r = .ok a := by
  rcases r with (_ | _) | _ <;> simp only [leavingPastOverlap]
  split <;> simp

/-- The fault of R109 leaves what the part leaves; any other adds the pieces. -/
theorem leavingPastOverlap_eq_raise {α : Type} {ps left : List Leftover} {r : Res α} {f : EngineFault} :
    leavingPastOverlap ps r = .error (.raise f left) ↔
      ∃ qs, r = .error (.raise f qs) ∧ left = if f = ⟨.contractViolation, 1⟩ then qs else qs ++ ps := by
  rcases r with (⟨g, qs⟩ | _) | _ <;> simp only [leavingPastOverlap]
  · split <;> rename_i h <;> constructor
    · intro e; cases e; exact ⟨_, rfl, (if_pos h).symm⟩
    · rintro ⟨_, e, rfl⟩; cases e; rw [if_pos h]
    · intro e; cases e; exact ⟨_, rfl, (if_neg h).symm⟩
    · rintro ⟨_, e, rfl⟩; cases e; rw [if_neg h]
  · simp
  · simp

theorem leavingPastOverlap_eq_halt {α : Type} {ps : List Leftover} {r : Res α} {f : Fault} :
    leavingPastOverlap ps r = .error (.halt f) ↔ r = .error (.halt f) := by
  rcases r with (_ | _) | _ <;> simp only [leavingPastOverlap]
  split <;> simp

/-! ### Reads and writes of MEM -/

theorem State.checkRange_eq_ok {s : State} {a n : Nat} {u : Unit} :
    s.checkRange a n = .ok u ↔ n = 0 ∨ a + n ≤ s.memSize := by
  unfold State.checkRange; split <;> simp_all [fail]

/-- The check of a range fails at its first byte outside MEM (R101). -/
theorem State.checkRange_eq_error {s : State} {a n : Nat} {e : Stop} :
    s.checkRange a n = .error e ↔
      (n ≠ 0 ∧ s.memSize < a + n) ∧ e = .raise ⟨.ioError, u32 (max a s.memSize)⟩ [] := by
  unfold State.checkRange
  by_cases h : n = 0 ∨ a + n ≤ s.memSize
  · simp only [h, if_true]
    constructor
    · intro h'; cases h'
    · rintro ⟨⟨h1, h2⟩, -⟩; omega
  · simp only [h, if_false, fail]
    constructor
    · intro h'; cases h'; exact ⟨by omega, rfl⟩
    · rintro ⟨-, rfl⟩; rfl

/-- A byte is read exactly when it is inside MEM and something has written it (R104). -/
theorem State.readByte_eq_ok {s : State} {a : Nat} {b : Byte} :
    s.readByte a = .ok b ↔ a < s.memSize ∧ s.mem.read? a = some b := by
  unfold State.readByte State.byteAt
  simp only [Res.bind_eq_ok, State.checkRange_eq_ok]
  constructor
  · rintro ⟨-, h, h'⟩
    refine ⟨by omega, ?_⟩
    split at h' <;> simp_all
  · rintro ⟨h, h'⟩
    exact ⟨(), by omega, by simp [h']⟩

/-- n bytes are read exactly when they stand in MEM. -/
theorem State.readBytes_eq_ok {s : State} {a n : Nat} {bs : List Byte} :
    s.readBytes a n = .ok bs ↔ bs.length = n ∧ s.holds a bs = true := by
  induction n generalizing a bs with
  | zero => cases bs <;> simp [State.readBytes, State.holds]
  | succ n ih =>
    simp only [State.readBytes, Res.bind_eq_ok, State.readByte_eq_ok, ih]
    cases bs with
    | nil => simp [pure, Except.pure]
    | cons b bs =>
      simp only [State.holds, List.length_cons, Bool.and_eq_true, beq_iff_eq, decide_eq_true_eq, pure, Except.pure,
        Except.ok.injEq, List.cons.injEq, Nat.add_right_cancel_iff]
      constructor
      · rintro ⟨_, ⟨h1, h2⟩, _, ⟨h3, h4⟩, rfl, rfl⟩
        exact ⟨h3, ⟨h2, h1⟩, h4⟩
      · rintro ⟨h3, ⟨h2, h1⟩, h4⟩
        exact ⟨b, ⟨h1, h2⟩, bs, ⟨h3, h4⟩, rfl, rfl⟩

/-- Reading rows answers the bytes that stand in MEM row by row. -/
theorem State.readRows_eq_ok {s : State} {w width n : Nat} {bs : List Byte} : ∀ {a : Nat},
    s.readRows w width a n = .ok bs ↔
      bs.length = n * width ∧ ∀ i, i < n → s.holds (a + i * w) ((bs.drop (i * width)).take width) = true := by
  induction n generalizing bs with
  | zero => intro a; cases bs <;> simp [State.readRows]
  | succ n ih =>
    intro a
    simp only [State.readRows, Res.bind_eq_ok, State.readBytes_eq_ok, ih]
    constructor
    · rintro ⟨row, ⟨hl, hr⟩, rows, ⟨hl', hr'⟩, h⟩
      cases h
      refine ⟨by simp [hl, hl', Nat.succ_mul, Nat.add_comm], fun i hi => ?_⟩
      cases i with
      | zero => simpa [← hl] using hr
      | succ i =>
        have := hr' i (by omega)
        rwa [show (i + 1) * width = row.length + i * width by rw [hl]; ring, ← List.drop_drop, List.drop_left,
          show a + (i + 1) * w = a + w + i * w by ring]
    · rintro ⟨hl, h⟩
      refine ⟨bs.take width, ⟨?_, by simpa using h 0 (by omega)⟩, bs.drop width, ⟨?_, fun i hi => ?_⟩, ?_⟩
      · rw [List.length_take, hl, Nat.succ_mul]; omega
      · rw [List.length_drop, hl, Nat.succ_mul]; omega
      · have := h (i + 1) (by omega)
        rwa [show (i + 1) * width = width + i * width by ring, ← List.drop_drop,
          show a + (i + 1) * w = a + w + i * w by ring] at this
      · rw [List.take_append_drop]; rfl

/-- Bytes are stored exactly when all of them are inside MEM (R105). -/
theorem State.storeBytes_eq_ok {s t : State} {a : Nat} {bs : List Byte} :
    s.storeBytes a bs = .ok t ↔ (bs = [] ∨ a + bs.length ≤ s.memSize) ∧ t = s.putMem a bs := by
  simp only [State.storeBytes, Res.bind_eq_ok, State.checkRange_eq_ok, List.length_eq_zero_iff, pure, Except.pure,
    Except.ok.injEq]
  constructor
  · rintro ⟨-, h, rfl⟩; exact ⟨h, rfl⟩
  · rintro ⟨h, rfl⟩; exact ⟨(), h, rfl⟩

theorem State.holds_getElem {s : State} {a : Nat} {bs : List Byte} (h : s.holds a bs = true) (i : Nat)
    (hi : i < bs.length) : s.mem.read? (a + i) = some bs[i] ∧ a + i < s.memSize := by
  induction bs generalizing a i with
  | nil => simp at hi
  | cons b bs ih =>
    simp only [State.holds, Bool.and_eq_true, beq_iff_eq, decide_eq_true_eq] at h
    cases i with
    | zero => simpa using h.1
    | succ i =>
      have := ih h.2 i (by simpa using hi)
      rw [show a + (i + 1) = a + 1 + i by omega]
      simpa using this

theorem State.holds_of_getElem {s : State} {a : Nat} {bs : List Byte}
    (h : ∀ i (hi : i < bs.length), s.mem.read? (a + i) = some bs[i] ∧ a + i < s.memSize) : s.holds a bs = true := by
  induction bs generalizing a with
  | nil => rfl
  | cons b bs ih =>
    simp only [State.holds, Bool.and_eq_true, beq_iff_eq, decide_eq_true_eq]
    refine ⟨h 0 (Nat.succ_pos _), ih fun i hi => ?_⟩
    have := h (i + 1) (by simpa using hi)
    rw [show a + (i + 1) = a + 1 + i by omega] at this
    simpa using this

/-- Stored bytes stand in MEM. -/
theorem State.putMem_holds (s : State) (a : Nat) (bs : List Byte) (h : bs = [] ∨ a + bs.length ≤ s.memSize) :
    (s.putMem a bs).holds a bs = true := by
  refine State.holds_of_getElem fun i hi => ⟨?_, ?_⟩
  · simpa using Memory.read?_write_inside s.mem a bs i hi
  · rcases h with rfl | h
    · simp at hi
    · exact Nat.lt_of_lt_of_le (by omega) h

/-! ### Faults and the end of a command -/

@[simp] theorem State.takeFault_x (s : State) (f : EngineFault) : (s.takeFault f).x = s.x := rfl

@[simp] theorem State.takeFault_pc (s : State) (f : EngineFault) : (s.takeFault f).pc = s.pc := rfl

@[simp] theorem State.takeFault_mem (s : State) (f : EngineFault) : (s.takeFault f).mem = s.mem := rfl

@[simp] theorem State.takeFault_params (s : State) (f : EngineFault) : (s.takeFault f).params = s.params := rfl

@[simp] theorem State.takeFault_host (s : State) (f : EngineFault) : (s.takeFault f).host = s.host := rfl

/-- What the CSRs read after a fault (R494). -/
theorem State.takeFault_getCsr (s : State) (f : EngineFault) (c : Csr) :
    (s.takeFault f).getCsr c =
      if c = .status then u32 (256 * f.code.number + 4)
      else if c = .erraux then f.aux
      else if c = .errpc then s.pc
      else s.getCsr c := by
  have hm : statusFaulted f.code.number &&& Csr.mask .status = u32 (256 * f.code.number + 4) := by
    cases f.code <;> rfl
  have h1 : f.aux &&& Csr.mask .erraux = f.aux := BitVec.and_allOnes
  have h2 : s.pc &&& Csr.mask .errpc = s.pc := BitVec.and_allOnes
  simp only [State.takeFault, State.getCsr_setCsr, hm, h1, h2]

/-- A fault keeps the registers, PC, the parameters and the host's script, whatever it leaves behind (R494). -/
theorem State.leave_keeps (s : State) (p : Leftover) :
    (s.leave p).x = s.x ∧ (s.leave p).pc = s.pc ∧ (s.leave p).params = s.params ∧ (s.leave p).host = s.host ∧
      (s.leave p).slots = s.slots ∧ (s.leave p).qtabs = s.qtabs := by
  cases p with
  | stored cells =>
    simp only [State.leave, State.putCells]
    induction cells generalizing s with
    | nil => simp
    | cons c cs ih => simpa using ih (s.putMem c.1 [c.2])
  | csr c => simp [State.leave, State.drawCsr]
  | mem base len => simp [State.leave, State.drawMem]
  | kFile => simp [State.leave, State.drawK]
  | sFile => simp [State.leave, State.drawS]

theorem State.leaveAll_keeps (s : State) (ps : List Leftover) :
    (s.leaveAll ps).x = s.x ∧ (s.leaveAll ps).pc = s.pc ∧ (s.leaveAll ps).params = s.params ∧
      (s.leaveAll ps).host = s.host ∧ (s.leaveAll ps).slots = s.slots ∧ (s.leaveAll ps).qtabs = s.qtabs := by
  induction ps generalizing s with
  | nil => simp [State.leaveAll]
  | cons p ps ih =>
    obtain ⟨h1, h2, h3, h4, h5, h6⟩ := s.leave_keeps p
    simpa [State.leaveAll, h1, h2, h3, h4, h5, h6] using ih (s.leave p)

/-- Everything the end of a command can answer as a next state. -/
theorem finish_eq_next {s t : State} {r : Res State} :
    finish s r = .next t ↔
      (∃ u, r = .ok u ∧ t = u.advance) ∨ ∃ f ps, r = .error (.raise f ps) ∧ t = (s.leaveAll ps).takeFault f := by
  rcases r with (_ | _) | _ <;> simp [finish, eq_comm]

end Sys2Proof.Machine
end

