-- ==== Sys2Proof/Laws/Bits.lean ====
section
/-! SUPPORT. The laws of the bit reader, of the bit writer's commit, of byte copies and of blocks: when each answers, and
what. -/

namespace Sys2Proof.Machine

/-- A bit that stands in the stream is read, and the cursor moves past it (R211). -/
theorem Reader.readBit_of_hasBits {rd : Reader} {s : State} {p : Nat} {b : Bool} {bs : List Bool}
    (h : rd.hasBits s p (b :: bs) = true) : rd.readBit s p = .ok (b.toNat, p + 1) ∧ rd.hasBits s (p + 1) bs = true := by
  simp only [Reader.hasBits, Bool.and_eq_true, decide_eq_true_eq] at h
  obtain ⟨⟨⟨h1, h2, h3⟩, h4⟩, h5⟩ := h
  refine ⟨?_, h5⟩
  split at h4
  · next y hy =>
    have hr : s.readByte (rd.base + p / 8) = .ok y := State.readByte_eq_ok.2 ⟨h3, hy⟩
    have hq : require (!(decide (8 * rd.len ≤ p) || p == 0xFFFFFFFF)) .corruptStream 1 = .ok () := by
      refine require_eq_ok.2 ?_
      simp only [Bool.not_eq_true', Bool.or_eq_false_iff, decide_eq_false_iff_not, beq_eq_false_iff_ne]
      omega
    simp only [Reader.readBit, hq, Res.ok_bind, hr, pure, Except.pure]
    simp only [beq_iff_eq] at h4
    rw [h4]
  · simp at h4

/-- The value of bits added to a value of i bits read before (R212). -/
theorem valueOf_msb_length (bs : List Bool) (v : Nat) :
    bs.foldl (fun v b => 2 * v + b.toNat) v = v * 2 ^ bs.length + valueOf .msb bs := by
  induction bs generalizing v with
  | nil => simp [valueOf]
  | cons b bs ih => simp only [List.foldl_cons, ih, valueOf, List.length_cons, Nat.pow_succ]; ring

theorem Reader.readBitsLoop_of_hasBits {rd : Reader} {s : State} {bits : List Bool} (i v p : Nat)
    (h : rd.hasBits s p bits = true) :
    rd.readBitsLoop s bits.length i v p = .ok
      ((match rd.order with
        | .msb => v * 2 ^ bits.length + valueOf .msb bits
        | .lsb => v + 2 ^ i * valueOf .lsb bits), p + bits.length) := by
  induction bits generalizing i v p with
  | nil => cases rd.order <;> simp [Reader.readBitsLoop, valueOf]
  | cons b bs ih =>
    obtain ⟨h1, h2⟩ := Reader.readBit_of_hasBits h
    simp only [List.length_cons, Reader.readBitsLoop, h1, Res.ok_bind]
    rw [ih (i + 1) _ (p + 1) h2]
    cases hrd : rd.order with
    | msb =>
      simp only [appendBit, valueOf, Except.ok.injEq, Prod.mk.injEq]
      exact ⟨by rw [Nat.pow_succ]; ring, by omega⟩
    | lsb =>
      simp only [appendBit, valueOf, Except.ok.injEq, Prod.mk.injEq]
      exact ⟨by rw [Nat.pow_succ]; ring, by omega⟩

/-- Bits that stand in the stream lie before the end of the buffer and of the cursor's range. -/
theorem Reader.hasBits_bound {rd : Reader} {s : State} {bits : List Bool} {p : Nat} (h : rd.hasBits s p bits = true)
    (hb : bits ≠ []) : p + bits.length ≤ 8 * rd.len ∧ p + bits.length ≤ 0xFFFFFFFF := by
  induction bits generalizing p with
  | nil => exact absurd rfl hb
  | cons b bs ih =>
    have h' := (Reader.readBit_of_hasBits h).2
    simp only [Reader.hasBits, Bool.and_eq_true, decide_eq_true_eq] at h
    by_cases hbs : bs = []
    · subst hbs; simp only [List.length_singleton]; omega
    · have := ih h' hbs
      simp only [List.length_cons]; omega

/-- `ReadBits` of bits that stand in the stream: their number in the reader's order, and the cursor past them (R212). -/
theorem Reader.readBits_of_hasBits {rd : Reader} {s : State} {bits : List Bool} {p : Nat} (hb : bits ≠ [])
    (h : rd.hasBits s p bits = true) :
    rd.readBits s p bits.length = .ok (valueOf rd.order bits, p + bits.length) := by
  have hr : rd.requireBits p bits.length = .ok () := by
    refine require_eq_ok.2 ?_
    simpa using Reader.hasBits_bound h hb
  simp only [Reader.readBits, hr, Res.ok_bind, Reader.readBitsLoop_of_hasBits 0 0 p h]
  cases rd.order <;> simp

/-- The bits of two lists, one after the other. -/
theorem Reader.hasBits_append {rd : Reader} {s : State} {xs ys : List Bool} {p : Nat} :
    rd.hasBits s p (xs ++ ys) = (rd.hasBits s p xs && rd.hasBits s (p + xs.length) ys) := by
  induction xs generalizing p with
  | nil => simp [Reader.hasBits]
  | cons x xs ih =>
    simp only [List.cons_append, Reader.hasBits, ih, List.length_cons, Bool.and_assoc]
    rw [show p + 1 + xs.length = p + (xs.length + 1) by omega]

/-! ### The commit of the bit writer -/

theorem State.commitCheck_eq_ok {s : State} {base cap k len : Nat} {u : Unit} :
    s.commitCheck base cap k len = .ok u ↔ k = 0 ∨ (len + k ≤ cap ∧ base + len + k ≤ s.memSize) := by
  induction k generalizing len with
  | zero => simp [State.commitCheck]
  | succ k ih =>
    simp only [State.commitCheck, Res.bind_eq_ok, require_eq_ok, State.checkRange_eq_ok, ih, decide_eq_true_eq]
    constructor
    · rintro ⟨-, h1, -, h2, h3⟩; omega
    · intro h; exact ⟨(), by omega, (), by omega, by omega⟩

/-- The finished bytes are committed exactly when they fit the buffer and MEM (R217). -/
theorem State.commit_eq_ok {s t : State} {k : Packer} :
    s.commit k = .ok t ↔ s.fits k ∧
      t = (s.putMem (s.getCsrNat .bwBase + s.getCsrNat .bwLen) k.out.reverse).setWriter k
        (s.getCsrNat .bwLen + k.out.length) := by
  simp only [State.commit, Res.bind_eq_ok, State.commitCheck_eq_ok, State.fits, List.length_reverse,
    List.length_eq_zero_iff, pure, Except.pure, Except.ok.injEq]
  constructor
  · rintro ⟨-, h, rfl⟩; exact ⟨h, rfl⟩
  · rintro ⟨h, rfl⟩; exact ⟨(), h, rfl⟩

/-! ### Byte copies and blocks -/

/-- A copy answers the bytes that stand at its source, when every one of its destinations lies in MEM. -/
theorem State.copyFrom_eq_ok {s : State} {src dst n : Nat} {bs : List Byte} :
    s.copyFrom src dst n = .ok bs ↔ bs.length = n ∧ s.holds src bs = true ∧ (n = 0 ∨ dst + n ≤ s.memSize) := by
  induction n generalizing src dst bs with
  | zero => cases bs <;> simp [State.copyFrom, State.holds]
  | succ n ih =>
    simp only [State.copyFrom, Res.bind_eq_ok, State.readByte_eq_ok, State.checkRange_eq_ok, ih, pure, Except.pure,
      Except.ok.injEq]
    constructor
    · rintro ⟨b, ⟨h1, h2⟩, -, h3, bs', ⟨h4, h5, h6⟩, rfl⟩
      refine ⟨by simp [h4], ?_, by omega⟩
      simp [State.holds, h1, h2, h5]
    · cases bs with
      | nil => simp
      | cons b bs' =>
        simp only [State.holds, List.length_cons, Bool.and_eq_true, beq_iff_eq, decide_eq_true_eq]
        rintro ⟨h1, ⟨⟨h2, h3⟩, h4⟩, h5⟩
        exact ⟨b, ⟨h3, h2⟩, (), by omega, bs', ⟨by omega, h4, by omega⟩, rfl⟩

/-- `collect` answers exactly when every element does, in order. -/
theorem collect_eq_ok {α : Type} {f : Nat → Res α} {i k : Nat} {as : List α} :
    collect f i k = .ok as ↔ as.length = k ∧ ∀ j (h : j < as.length), f (i + j) = .ok as[j] := by
  induction k generalizing i as with
  | zero => cases as <;> simp [collect]
  | succ k ih =>
    simp only [collect, Res.bind_eq_ok, ih, pure, Except.pure, Except.ok.injEq]
    constructor
    · rintro ⟨a, h1, as', ⟨h2, h3⟩, rfl⟩
      refine ⟨by simp [h2], fun j h => ?_⟩
      cases j with
      | zero => simpa using h1
      | succ j =>
        have := h3 j (by simpa using h)
        rw [show i + (j + 1) = i + 1 + j by omega]
        simpa using this
    · cases as with
      | nil => simp
      | cons a as' =>
        rintro ⟨h1, h2⟩
        refine ⟨a, h2 0 (Nat.succ_pos _), as', ⟨by simpa using h1, fun j h => ?_⟩, rfl⟩
        have := h2 (j + 1) (by simpa using h)
        rw [show i + (j + 1) = i + 1 + j by omega] at this
        simpa using this

/-- An element of a block that is a function of its place. -/
theorem blockAt_blockOf {α : Type} (f : Nat → α) (d : α) (i : Nat) (h : i < 64) : blockAt (blockOf f) i d = f i := by
  have : (blockOf f).toList.getD i d = (blockOf f).toList[i]'(by simpa using h) := by
    simp [List.getD_eq_getElem?_getD, h]
  rw [blockAt, this]
  simp [blockOf]

/-- A block of results answers exactly when all 64 do. -/
theorem collectBlock_eq_ok {α : Type} {d : α} {f : Nat → Res α} {v : Vector α 64} :
    collectBlock d f = .ok v ↔ ∀ i, i < 64 → f i = .ok (blockAt v i d) := by
  simp only [collectBlock, Res.bind_eq_ok, collect_eq_ok, pure, Except.pure, Except.ok.injEq, Nat.zero_add]
  constructor
  · rintro ⟨as, ⟨h1, h2⟩, rfl⟩ i hi
    rw [blockAt_blockOf _ _ _ hi, h2 i (by omega)]
    simp [List.getD_eq_getElem?_getD, h1, hi]
  · intro h
    refine ⟨v.toList, ⟨by simp, fun j hj => ?_⟩, ?_⟩
    · have hj' : j < 64 := by simpa using hj
      rw [h j hj']
      simp [blockAt, List.getD_eq_getElem?_getD, hj']
    · apply Vector.ext
      intro i hi
      simp [blockOf, List.getD_eq_getElem?_getD]

end Sys2Proof.Machine
end

