-- ==== Sys2Proof/Laws/Cosine.lean ====
section
/-! SUPPORT. The cosine tables beside the real cosines: `cosScaled` and `basisScaled` within 2^-128, `cosBits` and `cosTerm`
within half a unit in the last place (spec/44_block_transform.md R331, R332). -/

namespace Sys2Proof.Machine
open Real

/-- Squares decide between nonnegative numbers. -/
theorem le_and_le_of_sq {x lo hi : ℝ} (hx : 0 ≤ x) (hhi : 0 ≤ hi) (h1 : lo ^ 2 ≤ x ^ 2) (h2 : x ^ 2 ≤ hi ^ 2)
    (hlo : 0 ≤ lo) : lo ≤ x ∧ x ≤ hi :=
  ⟨(sq_le_sq₀ hlo hx).1 h1, (sq_le_sq₀ hx hhi).1 h2⟩

/-- The half-angle step on the sixteenths of pi. -/
theorem cos_sq_sixteenth (k : ℕ) : cos (k * π / 16) ^ 2 = 1 / 2 + cos ((2 * k : ℕ) * π / 16) / 2 := by
  rw [cos_sq]; push_cast; ring_nf

theorem cos_sixteenth_nonneg {k : ℕ} (h : k ≤ 8) : 0 ≤ cos (k * π / 16) := by
  have hk : (k : ℝ) ≤ 8 := by exact_mod_cast h
  have h0 : (0 : ℝ) ≤ k := k.cast_nonneg
  exact cos_nonneg_of_neg_pi_div_two_le_of_le (by have := pi_pos; nlinarith) (by have := pi_pos; nlinarith)

theorem cos_supplement (k : ℕ) (h : k ≤ 16) : cos ((16 - k : ℕ) * π / 16) = -cos (k * π / 16) := by
  rw [← cos_pi_sub]; push_cast [h]; ring_nf

theorem cos_fold_32 (j : ℕ) : cos (j * π / 16) = cos ((j % 32 : ℕ) * π / 16) := by
  conv_lhs => rw [← Nat.div_add_mod j 32]
  rw [← cos_add_nat_mul_two_pi (((j % 32 : ℕ) : ℝ) * π / 16) (j / 32)]
  congr 1; push_cast; ring

theorem cos_fold_down (k : ℕ) (h : k ≤ 32) : cos ((32 - k : ℕ) * π / 16) = cos (k * π / 16) := by
  rw [← cos_neg (k * π / 16), ← cos_add_two_pi (-(k * π / 16))]
  congr 1; push_cast [h]; ring

theorem cos_cosFold_lt {r : ℕ} (hr : r < 32) :
    cos (r * π / 16) = (if (cosFold r).1 then -1 else 1) * cos ((cosFold r).2 * π / 16) := by
  rw [cosFold, Nat.mod_eq_of_lt hr]
  by_cases h1 : r ≤ 8
  · simp [h1]
  by_cases h2 : r ≤ 16
  · have := cos_supplement (16 - r) (by omega)
    rw [show 16 - (16 - r) = r by omega] at this
    simp only [h1, h2, if_true, if_false, this]
    ring
  by_cases h3 : r ≤ 24
  · have h4 : (32 - r : ℕ) = 16 - (r - 16) := by omega
    rw [← cos_fold_down r (by omega), h4, cos_supplement _ (by omega)]
    simp [h1, h2, h3]
  · simp [h1, h2, h3, cos_fold_down r (by omega)]

/-- cos (j pi / 16) is that of `cosFold`, with its sign. -/
theorem cos_cosFold (j : ℕ) : cos (j * π / 16) = (if (cosFold j).1 then -1 else 1) * cos ((cosFold j).2 * π / 16) := by
  have h : cosFold j = cosFold (j % 32) := by simp [cosFold]
  rw [cos_fold_32, h, cos_cosFold_lt (Nat.mod_lt _ (by norm_num))]

theorem cosFold_le (j : ℕ) : (cosFold j).2 ≤ 8 := by
  simp only [cosFold]; split_ifs <;> simp <;> omega

/-- The half-angle step on bounds: those of cos (2k pi / 16) give those of cos (k pi / 16). -/
theorem cos_half_bounds {k : ℕ} (hk : k ≤ 8) {lo hi lo' hi' : ℝ} (h1 : lo' ≤ cos ((2 * k : ℕ) * π / 16))
    (h2 : cos ((2 * k : ℕ) * π / 16) ≤ hi') (hlo : 0 ≤ lo) (hhi : 0 ≤ hi) (h3 : lo ^ 2 ≤ 1 / 2 + lo' / 2)
    (h4 : 1 / 2 + hi' / 2 ≤ hi ^ 2) : lo ≤ cos (k * π / 16) ∧ cos (k * π / 16) ≤ hi := by
  have h := cos_sq_sixteenth k
  exact le_and_le_of_sq (cos_sixteenth_nonneg hk) hhi (by rw [h]; linarith) (by rw [h]; linarith) hlo

theorem cos_8_eq : cos ((8 : ℕ) * π / 16) = 0 := by
  rw [← cos_pi_div_two]; push_cast; ring_nf

theorem cos_4_bounds : (1033437718471923706666374484006904511252097097914 : ℝ) / 2 ^ 160 ≤ cos ((4 : ℕ) * π / 16) ∧
    cos ((4 : ℕ) * π / 16) ≤ 1033437718471923706666374484006904511252097097915 / 2 ^ 160 := by
  have h : cos ((2 * 4 : ℕ) * π / 16) = 0 := cos_8_eq
  exact cos_half_bounds (by norm_num) h.ge h.le (by norm_num) (by norm_num) (by norm_num) (by norm_num)

theorem cos_2_bounds : (1350251449461754748434400416706416525514621074747 : ℝ) / 2 ^ 160 ≤ cos ((2 : ℕ) * π / 16) ∧
    cos ((2 : ℕ) * π / 16) ≤ 1350251449461754748434400416706416525514621074750 / 2 ^ 160 := by
  obtain ⟨h1, h2⟩ := cos_4_bounds
  exact cos_half_bounds (by norm_num) h1 h2 (by norm_num) (by norm_num) (by norm_num) (by norm_num)

theorem cos_6_bounds : (559292462980988547550911243850899431222735402418 : ℝ) / 2 ^ 160 ≤ cos ((6 : ℕ) * π / 16) ∧
    cos ((6 : ℕ) * π / 16) ≤ 559292462980988547550911243850899431222735402423 / 2 ^ 160 := by
  obtain ⟨h1, h2⟩ := cos_4_bounds
  have h3 := neg_le_neg h2
  have h4 := neg_le_neg h1
  rw [← cos_supplement 4 (by norm_num)] at h3 h4
  exact cos_half_bounds (k := 6) (by norm_num) h3 h4 (by norm_num) (by norm_num) (by norm_num) (by norm_num)

theorem cos_1_bounds : (1433419293179370032902808815682339884992159813181 : ℝ) / 2 ^ 160 ≤ cos ((1 : ℕ) * π / 16) ∧
    cos ((1 : ℕ) * π / 16) ≤ 1433419293179370032902808815682339884992159813186 / 2 ^ 160 := by
  obtain ⟨h1, h2⟩ := cos_2_bounds
  exact cos_half_bounds (by norm_num) h1 h2 (by norm_num) (by norm_num) (by norm_num) (by norm_num)

theorem cos_3_bounds : (1215194199771060924365800978532032918482389114157 : ℝ) / 2 ^ 160 ≤ cos ((3 : ℕ) * π / 16) ∧
    cos ((3 : ℕ) * π / 16) ≤ 1215194199771060924365800978532032918482389114162 / 2 ^ 160 := by
  obtain ⟨h1, h2⟩ := cos_6_bounds
  exact cos_half_bounds (by norm_num) h1 h2 (by norm_num) (by norm_num) (by norm_num) (by norm_num)

theorem cos_5_bounds : (811966805210459915923776695941261801554971187014 : ℝ) / 2 ^ 160 ≤ cos ((5 : ℕ) * π / 16) ∧
    cos ((5 : ℕ) * π / 16) ≤ 811966805210459915923776695941261801554971187021 / 2 ^ 160 := by
  obtain ⟨h1, h2⟩ := cos_6_bounds
  have h3 := neg_le_neg h2
  have h4 := neg_le_neg h1
  rw [← cos_supplement 6 (by norm_num)] at h3 h4
  exact cos_half_bounds (k := 5) (by norm_num) h3 h4 (by norm_num) (by norm_num) (by norm_num) (by norm_num)

theorem cos_7_bounds : (285124825053984560730676229419201618762012091785 : ℝ) / 2 ^ 160 ≤ cos ((7 : ℕ) * π / 16) ∧
    cos ((7 : ℕ) * π / 16) ≤ 285124825053984560730676229419201618762012091794 / 2 ^ 160 := by
  obtain ⟨h1, h2⟩ := cos_2_bounds
  have h3 := neg_le_neg h2
  have h4 := neg_le_neg h1
  rw [← cos_supplement 2 (by norm_num)] at h3 h4
  exact cos_half_bounds (k := 7) (by norm_num) h3 h4 (by norm_num) (by norm_num) (by norm_num) (by norm_num)

/-- The table holds the cosines of the first quadrant within 1 (R332). -/
theorem cosScaled_near {k : ℕ} (hk : k ≤ 8) :
    |((cosScaled.getD k 0 : ℕ) : ℝ) - 2 ^ 128 * cos (k * π / 16)| ≤ 1 := by
  rw [abs_le]
  interval_cases k
  · norm_num [cosScaled]
  · have := cos_1_bounds; constructor <;> norm_num [cosScaled] at this ⊢ <;> linarith
  · have := cos_2_bounds; constructor <;> norm_num [cosScaled] at this ⊢ <;> linarith
  · have := cos_3_bounds; constructor <;> norm_num [cosScaled] at this ⊢ <;> linarith
  · have := cos_4_bounds; constructor <;> norm_num [cosScaled] at this ⊢ <;> linarith
  · have := cos_5_bounds; constructor <;> norm_num [cosScaled] at this ⊢ <;> linarith
  · have := cos_6_bounds; constructor <;> norm_num [cosScaled] at this ⊢ <;> linarith
  · have := cos_7_bounds; constructor <;> norm_num [cosScaled] at this ⊢ <;> linarith
  · rw [cos_8_eq]; norm_num [cosScaled]

/-- The double angle of the basis as a sixteenth of pi. -/
theorem cos_basis (x u : ℕ) : cos ((2 * (x : ℝ) + 1) * u * π / 16) = cos (((2 * x + 1) * u : ℕ) * π / 16) := by
  push_cast; ring_nf

theorem cos_4_eq : cos ((4 : ℕ) * π / 16) = 1 / √2 := by
  rw [show ((4 : ℕ) : ℝ) * π / 16 = π / 4 by push_cast; ring, cos_pi_div_four, div_eq_div_iff (by norm_num) (by positivity)]
  norm_num

/-- `basisScaled` is the basis value of R332 within 2^-128. -/
theorem basisScaled_near (x u : ℕ) :
    |(basisScaled x u : ℝ) - 2 ^ 128 * ((if u = 0 then 1 / √2 else 1) * cos ((2 * (x : ℝ) + 1) * u * π / 16))| ≤ 1 := by
  rw [cos_basis]
  by_cases hu : u = 0
  · have h := cosScaled_near (k := 4) (by norm_num)
    rw [cos_4_eq] at h
    simpa [basisScaled, hu] using h
  · have h := cosScaled_near (cosFold_le ((2 * x + 1) * u))
    rw [cos_cosFold]
    simp only [basisScaled, hu, if_false, one_mul]
    generalize cosFold ((2 * x + 1) * u) = p at h
    obtain ⟨neg, k⟩ := p
    cases neg
    · simpa using h
    · rw [← abs_neg]
      convert h using 2
      simp; ring

/-- A binary64 m * 2^a in units of 2^-128 close to a scaled number is within half a unit in the last place of the number. -/
theorem half_ulp_of_scaled {d : Binary64} {c n : ℝ} {m a : ℕ} (h : |n - 2 ^ 128 * c| ≤ 1)
    (hu : f64Units d = m * 2 ^ (946 + a)) (he : f64Exp d - 1 = 946 + a) (hn : 2 * (|m * 2 ^ a - n| + 1) ≤ 2 ^ a) :
    2 * |(f64Units d : ℝ) - 2 ^ 1074 * c| ≤ 2 ^ (f64Exp d - 1) := by
  have key : (f64Units d : ℝ) - 2 ^ 1074 * c = 2 ^ 946 * ((m * 2 ^ a - n) + (n - 2 ^ 128 * c)) := by
    have h946 : (2 : ℝ) ^ 1074 = 2 ^ 946 * 2 ^ 128 := by rw [← pow_add]
    rw [hu, h946]
    simp only [Int.cast_mul, Int.cast_pow, Int.cast_natCast, Int.cast_ofNat, pow_add]
    linear_combination
  have h2 := abs_add_le (m * 2 ^ a - n) (n - 2 ^ 128 * c)
  rw [key, he, abs_mul, abs_of_pos (by positivity : (0 : ℝ) < 2 ^ 946), pow_add]
  have h3 : 2 * |(m : ℝ) * 2 ^ a - n + (n - 2 ^ 128 * c)| ≤ 2 ^ a := by linarith
  calc _ = 2 ^ 946 * (2 * |(m : ℝ) * 2 ^ a - n + (n - 2 ^ 128 * c)|) := mul_left_comm _ _ _
    _ ≤ _ := mul_le_mul_of_nonneg_left h3 (by positivity)

/-- The cosine table of the reference evaluation, within half a unit in the last place (R331). -/
theorem cosBits_near {k : ℕ} (hk : k < 8) :
    2 * |(f64Units (cosBits.getD k 0) : ℝ) - 2 ^ 1074 * cos (k * π / 16)| ≤ 2 ^ (f64Exp (cosBits.getD k 0) - 1) := by
  have h := cosScaled_near (k := k) (by omega)
  interval_cases k
  · exact half_ulp_of_scaled (m := 4503599627370496) (a := 76) h (by decide +kernel) (by decide +kernel) (by norm_num [cosScaled])
  · exact half_ulp_of_scaled (m := 8834128446708912) (a := 75) h (by decide +kernel) (by decide +kernel) (by norm_num [cosScaled])
  · exact half_ulp_of_scaled (m := 8321567036706118) (a := 75) h (by decide +kernel) (by decide +kernel) (by norm_num [cosScaled])
  · exact half_ulp_of_scaled (m := 7489212472271267) (a := 75) h (by decide +kernel) (by decide +kernel) (by norm_num [cosScaled])
  · exact half_ulp_of_scaled (m := 6369051672525773) (a := 75) h (by decide +kernel) (by decide +kernel) (by norm_num [cosScaled])
  · exact half_ulp_of_scaled (m := 5004131788810440) (a := 75) h (by decide +kernel) (by decide +kernel) (by norm_num [cosScaled])
  · exact half_ulp_of_scaled (m := 6893811853601123) (a := 74) h (by decide +kernel) (by decide +kernel) (by norm_num [cosScaled])
  · exact half_ulp_of_scaled (m := 7028869612283403) (a := 73) h (by decide +kernel) (by decide +kernel) (by norm_num [cosScaled])

theorem cosTerm_sign (k : ℕ) (hk : k < 8) : f64Units (cosBits.getD k 0 ||| (1#64 <<< 63)) = -f64Units (cosBits.getD k 0) ∧
    f64Exp (cosBits.getD k 0 ||| (1#64 <<< 63)) = f64Exp (cosBits.getD k 0) := by
  interval_cases k <;> decide +kernel

/-- The cosines of the reference evaluation are the binary64 values nearest to the real ones (R331). -/
theorem cosTerm_near {x u : ℕ} (hx : x < 8) (hu : u < 8) :
    2 * |(f64Units (cosTerm x u) : ℝ) - 2 ^ 1074 * cos ((2 * (x : ℝ) + 1) * u * π / 16)| ≤ 2 ^ (f64Exp (cosTerm x u) - 1) := by
  have hk : (cosFold ((2 * x + 1) * u)).2 < 8 := by
    have key : ∀ x < 8, ∀ u < 8, (cosFold ((2 * x + 1) * u)).2 < 8 := by decide
    exact key x hx u hu
  have h := cosBits_near hk
  have hs := cosTerm_sign _ hk
  rw [cos_basis, cos_cosFold]
  simp only [cosTerm]
  generalize cosFold ((2 * x + 1) * u) = p at h hs
  obtain ⟨neg, k⟩ := p
  cases neg
  · simpa using h
  · simp only [if_true, hs.1, hs.2]
    rw [← abs_neg]
    convert h using 3
    rw [Int.cast_neg]; linear_combination

end Sys2Proof.Machine
end

