-- ==== Sys2Proof/Laws/Inv.lean ====
section
/-! SUPPORT. A check of the invariant on a concrete state, for witnesses and tests. -/

namespace Sys2Proof.Machine

/-- The invariant as one check that evaluates. -/
def State.invCheck (s : State) : Bool :=
  decide s.params.legal && s.mem.wf && s.mem.below s.memSize && s.pc.extractLsb' 0 2 == 0 && s.x.get 0 == 0 &&
    Csr.inOrder.all (fun c => s.getCsr c &&& ~~~c.mask == 0) && statusLegal (s.getCsr .status) &&
    s.sfile.toList.all Binary64.isFinite && s.slots.toList.all HuffSlot.wf

/-- A state that passes the check meets the invariant. -/
theorem State.inv_of_check {s : State} (h : s.invCheck = true) : s.Inv := by
  simp only [State.invCheck, Bool.and_eq_true, decide_eq_true_eq, beq_iff_eq, List.all_eq_true] at h
  obtain ⟨⟨⟨⟨⟨⟨⟨⟨h1, h2⟩, h3⟩, h4⟩, h5⟩, h6⟩, h7⟩, h8⟩, h9⟩ := h
  exact ⟨h1, h2, h3, h4, h5, fun c => h6 c (Csr.mem_inOrder c), h7,
    fun i => h8 _ (by simp [Vector.get_eq_getElem]), fun i => h9 _ (by simp [Vector.get_eq_getElem])⟩

end Sys2Proof.Machine
end

