-- ==== Sys2Proof/Laws/Leave.lean ====
section
/-! SUPPORT. What a fault leaves: the frame of each piece of state a faulting command leaves unspecified, and of taking the
fault. -/

namespace Sys2Proof.Machine

theorem State.getX_of_x {s t : State} (h : t.x = s.x) (q : Reg) : t.getX q = s.getX q := by
  simp [State.getX, h]

/-- A fault changes no register (R494). -/
theorem State.leaveAll_getX (s : State) (ps : List Leftover) (q : Reg) : (s.leaveAll ps).getX q = s.getX q :=
  State.getX_of_x (s.leaveAll_keeps ps).1 q

@[simp] theorem State.drawCsr_mem (s : State) (c : Csr) : (s.drawCsr c).mem = s.mem := rfl

@[simp] theorem State.drawMem_csrs (s : State) (base len : Nat) : (s.drawMem base len).csrs = s.csrs := rfl

@[simp] theorem State.drawMem_x (s : State) (base len : Nat) : (s.drawMem base len).x = s.x := rfl

@[simp] theorem State.drawMem_pc (s : State) (base len : Nat) : (s.drawMem base len).pc = s.pc := rfl

@[simp] theorem State.drawK_csrs (s : State) : s.drawK.csrs = s.csrs := by unfold State.drawK; rfl

@[simp] theorem State.drawS_csrs (s : State) : s.drawS.csrs = s.csrs := by unfold State.drawS; rfl

@[simp] theorem State.drawK_mem (s : State) : s.drawK.mem = s.mem := by unfold State.drawK; rfl

@[simp] theorem State.drawS_mem (s : State) : s.drawS.mem = s.mem := by unfold State.drawS; rfl

theorem State.drawCsr_getCsr_of_ne (s : State) {c d : Csr} (h : d ≠ c) : (s.drawCsr c).getCsr d = s.getCsr d :=
  State.getCsr_setCsr_of_ne s _ h

@[simp] theorem State.freeBytes_length (k n : Nat) : (freeBytes k n).length = n := by simp [freeBytes]

/-- Drawn bytes lie inside the range they are drawn for and inside MEM. -/
theorem State.drawMem_read?_outside (s : State) (base len a : Nat) (h : a < base ∨ base + len ≤ a) :
    (s.drawMem base len).mem.read? a = s.mem.read? a := by
  have : (s.drawMem base len).mem = s.mem.write base (freeBytes s.draws (min len (s.memSize - base))) := rfl
  rw [this, Memory.read?_write_outside]
  simp only [State.freeBytes_length]
  omega

theorem State.drawMem_wf (s : State) (base len : Nat) (h : s.mem.wf = true) : (s.drawMem base len).mem.wf = true :=
  Memory.write_wf _ _ _ h

theorem State.drawMem_below (s : State) (base len : Nat) (h : s.mem.below s.memSize = true) :
    (s.drawMem base len).mem.below s.memSize = true := by
  refine Memory.write_below _ _ _ _ h ?_
  by_cases h0 : min len (s.memSize - base) = 0
  · exact .inl (List.eq_nil_of_length_eq_zero (by rw [State.freeBytes_length]; exact h0))
  · right; rw [State.freeBytes_length]; omega

theorem State.putCells_csrs (s : State) (cells : List Host.Cell) : (s.putCells cells).csrs = s.csrs := by
  simp only [State.putCells]
  induction cells generalizing s with
  | nil => rfl
  | cons c cs ih => exact ih (s.putMem c.1 [c.2])

/-- Cells stored change no byte but their own. -/
theorem State.putCells_read?_outside (s : State) (cells : List Host.Cell) (a : Nat) (h : ∀ c ∈ cells, c.1 ≠ a) :
    (s.putCells cells).mem.read? a = s.mem.read? a := by
  simp only [State.putCells]
  induction cells generalizing s with
  | nil => rfl
  | cons c cs ih =>
    have h1 := h c (by simp)
    refine (ih (s.putMem c.1 [c.2]) fun d hd => h d (by simp [hd])).trans ?_
    exact Memory.read?_write_outside _ _ _ _ (by simp only [List.length_singleton]; omega)

/-- The bytes of MEM a piece may change. -/
def Leftover.bytes : Leftover → List Region
  | .mem base len => [⟨base, len⟩]
  | .stored cells => cells.map fun c => ⟨c.1, 1⟩
  | .csr _ | .kFile | .sFile => []

/-- A piece left changes no CSR but its own. -/
theorem State.leave_getCsr (s : State) (p : Leftover) (c : Csr) (h : p ≠ .csr c) :
    (s.leave p).getCsr c = s.getCsr c := by
  cases p with
  | csr d => exact State.drawCsr_getCsr_of_ne s (fun e => h (by rw [e]))
  | mem base len => simp [State.leave, State.getCsr]
  | kFile => simp [State.leave, State.getCsr]
  | sFile => simp [State.leave, State.getCsr]
  | stored cells => simp [State.leave, State.getCsr, State.putCells_csrs]

/-- Pieces left change no CSR but their own (R494). -/
theorem State.leaveAll_getCsr (s : State) (ps : List Leftover) (c : Csr) (h : .csr c ∉ ps) :
    (s.leaveAll ps).getCsr c = s.getCsr c := by
  induction ps generalizing s with
  | nil => rfl
  | cons p ps ih =>
    simp only [List.mem_cons, not_or] at h
    exact (ih (s.leave p) h.2).trans (s.leave_getCsr p c fun e => h.1 e.symm)

/-- A piece left changes no byte of MEM outside its own. -/
theorem State.leave_read? (s : State) (p : Leftover) (a : Nat) (h : outside p.bytes a) :
    (s.leave p).mem.read? a = s.mem.read? a := by
  cases p with
  | csr d => simp [State.leave]
  | mem base len => exact s.drawMem_read?_outside base len a (h ⟨base, len⟩ (by simp [Leftover.bytes]))
  | kFile => simp [State.leave]
  | sFile => simp [State.leave]
  | stored cells =>
    refine s.putCells_read?_outside cells a fun c hc => ?_
    have := h ⟨c.1, 1⟩ (List.mem_map.2 ⟨c, hc, rfl⟩)
    simp only at this
    omega

/-- Pieces left change no byte of MEM outside their own (R494). -/
theorem State.leaveAll_read? (s : State) (ps : List Leftover) (a : Nat) (h : outside (ps.flatMap Leftover.bytes) a) :
    (s.leaveAll ps).mem.read? a = s.mem.read? a := by
  induction ps generalizing s with
  | nil => rfl
  | cons p ps ih =>
    have h1 : outside p.bytes a := fun r hr => h r (by simp [hr])
    have h2 : outside (ps.flatMap Leftover.bytes) a := fun r hr => h r (by
      simp only [List.flatMap_cons, List.mem_append]; exact .inr hr)
    exact (ih (s.leave p) h2).trans (s.leave_read? p a h1)

/-- Taking a fault, said whole: what `finish` answers for a fault, whatever it leaves (R494). -/
theorem State.faultTaken_leaveAll (s : State) (ps : List Leftover) (f : EngineFault) :
    FaultTaken f.code f.aux s ((s.leaveAll ps).takeFault f) where
  pc := (s.leaveAll_keeps ps).2.1
  reg q := (State.getX_of_x rfl q).trans (s.leaveAll_getX ps q)
  status := by simp [State.takeFault_getCsr]
  errpc := by simp [State.takeFault_getCsr, (s.leaveAll_keeps ps).2.1]
  erraux := by simp [State.takeFault_getCsr]

end Sys2Proof.Machine
end

