-- ==== Sys2Proof/Laws/PerInstr.lean ====
section
/-! SUPPORT. The family Encoding: for each command, decoding the fields that the encoding tables give it returns it. -/

namespace Sys2Proof.Laws.Encoding

/-- The fields of a well-formed command decode to it. -/
def Statement (i : Instr) : Prop := i.wellFormed = true → decodeFields i.fields = .ok i

theorem lui_immediate (v : BitVec 20) : v.extractLsb' 8 12 ++ v.extractLsb' 4 4 ++ v.extractLsb' 0 4 = v := by
  ext i hi
  simp only [BitVec.getElem_append, BitVec.getElem_extractLsb']
  split
  · simp [hi]
  · split
    · simp [show 4 + (i - 4) = i by omega, hi]
    · simp [show 8 + (i - 4 - 4) = i by omega, hi]

theorem five_bits (n : BitVec 5) : (0#7 ++ n).extractLsb' 5 7 = 0#7 ∧ (0#7 ++ n).extractLsb' 0 5 = n := by
  revert n; decide

theorem four_bits (m : BitVec 4) : (0#8 ++ m).extractLsb' 4 8 = 0#8 ∧ (0#8 ++ m).extractLsb' 0 4 = m := by
  revert m; decide

theorem hbuild_fields (slot : BitVec 5) (pfx : Bool) :
    (0#6 ++ BitVec.ofBool pfx ++ slot).extractLsb' 6 6 = 0#6 ∧
      (0#6 ++ BitVec.ofBool pfx ++ slot).extractLsb' 0 5 = slot ∧
      flagOf (immBit (0#6 ++ BitVec.ofBool pfx ++ slot) 5) = pfx := by
  revert slot pfx; decide

theorem qload_fields (q : BitVec 4) (pfx : Bool) (tord : TableOrder) :
    (0#6 ++ tord.bit ++ BitVec.ofBool pfx ++ q).extractLsb' 6 6 = 0#6 ∧
      (0#6 ++ tord.bit ++ BitVec.ofBool pfx ++ q).extractLsb' 0 4 = q ∧
      flagOf (immBit (0#6 ++ tord.bit ++ BitVec.ofBool pfx ++ q) 4) = pfx ∧
      tableOrderOf (immBit (0#6 ++ tord.bit ++ BitVec.ofBool pfx ++ q) 5) = tord := by
  cases tord <;> (revert q pfx; decide)

theorem quant_fields (q : BitVec 4) (order : TableOrder) :
    (0#7 ++ order.bit ++ q).extractLsb' 5 7 = 0#7 ∧ (0#7 ++ order.bit ++ q).extractLsb' 0 4 = q ∧
      tableOrderOf (immBit (0#7 ++ order.bit ++ q) 4) = order := by
  cases order <;> (revert q; decide)

theorem extract_low {n m : Nat} (a : BitVec n) (b : BitVec m) : (a ++ b).extractLsb' 0 m = b := by
  apply BitVec.eq_of_getLsbD_eq
  intro i hi
  simp [BitVec.getLsbD_append, hi]

theorem extract_high {n m : Nat} (k l : Nat) (a : BitVec n) (b : BitVec m) :
    (a ++ b).extractLsb' (m + k) l = a.extractLsb' k l := by
  apply BitVec.eq_of_getLsbD_eq
  intro i hi
  simp [BitVec.getLsbD_append, hi, Nat.add_assoc]

theorem block_fields (dc ac : BitVec 4) (p : BitVec 2) :
    (0#2 ++ p ++ ac ++ dc).extractLsb' 10 2 = 0#2 ∧ (0#2 ++ p ++ ac ++ dc).extractLsb' 0 4 = dc ∧
      (0#2 ++ p ++ ac ++ dc).extractLsb' 4 4 = ac ∧ (0#2 ++ p ++ ac ++ dc).extractLsb' 8 2 = p :=
  ⟨(extract_high 6 2 _ dc).trans ((extract_high 2 2 _ ac).trans ((extract_high 0 2 (0#2) p).trans rfl)),
    extract_low _ dc, (extract_high 0 4 _ dc).trans (extract_low _ ac),
    (extract_high 4 2 _ dc).trans ((extract_high 0 2 _ ac).trans (extract_low (0#2) p))⟩

theorem order_field (o : BitOrder) :
    (0#11 ++ o.bit).extractLsb' 1 11 = 0#11 ∧ bitOrderOf (immBit (0#11 ++ o.bit) 0) = o := by
  cases o <;> decide

theorem writer_fields (o : BitOrder) (stuff : Bool) :
    (0#10 ++ BitVec.ofBool stuff ++ o.bit).extractLsb' 2 10 = 0#10 ∧
      bitOrderOf (immBit (0#10 ++ BitVec.ofBool stuff ++ o.bit) 0) = o ∧
      flagOf (immBit (0#10 ++ BitVec.ofBool stuff ++ o.bit) 1) = stuff := by
  cases o <;> cases stuff <;> decide

theorem flag_field (b : Bool) :
    (0#11 ++ BitVec.ofBool b).extractLsb' 1 11 = 0#11 ∧ flagOf (immBit (0#11 ++ BitVec.ofBool b) 0) = b := by
  cases b <;> decide

theorem file_field (f : BlockFile) :
    (0#11 ++ f.bit).extractLsb' 1 11 = 0#11 ∧ blockFileOf (immBit (0#11 ++ f.bit) 0) = f := by
  cases f <;> decide

theorem nop : Statement .nop := fun _ => rfl

theorem halt : Statement .halt := fun _ => rfl

theorem lui (ra : Reg) (imm20 : BitVec 20) : Statement (.lui ra imm20) := by
  intro _
  change legalRow _ _ = _
  simp [legalRow, Instr.fields, lui_immediate, Instr.wellFormed]

theorem ori (ra rb : Reg) (imm12 : BitVec 12) : Statement (.ori ra rb imm12) := fun _ => rfl

theorem addi (ra rb : Reg) (imm12 : BitVec 12) : Statement (.addi ra rb imm12) := fun _ => rfl

theorem add (ra rb rc : Reg) : Statement (.add ra rb rc) := fun _ => rfl

theorem sub (ra rb rc : Reg) : Statement (.sub ra rb rc) := fun _ => rfl

theorem beq (rb rc : Reg) (imm12 : BitVec 12) : Statement (.beq rb rc imm12) := fun _ => rfl

theorem bne (rb rc : Reg) (imm12 : BitVec 12) : Statement (.bne rb rc imm12) := fun _ => rfl

theorem csrr (ra : Reg) (csr : BitVec 12) : Statement (.csrr ra csr) := fun _ => rfl

theorem csrw (rb : Reg) (csr : BitVec 12) : Statement (.csrw rb csr) := fun _ => rfl

theorem lbu (ra rb : Reg) (imm12 : BitVec 12) : Statement (.lbu ra rb imm12) := fun _ => rfl

theorem sb (rb rc : Reg) (imm12 : BitVec 12) : Statement (.sb rb rc imm12) := fun _ => rfl

theorem bltu (rb rc : Reg) (imm12 : BitVec 12) : Statement (.bltu rb rc imm12) := fun _ => rfl

theorem brinit (rb rc : Reg) (order : BitOrder) : Statement (.brinit rb rc order) := by
  intro _
  change legalRow _ _ = _
  simp [legalRow, Instr.fields, order_field, Instr.wellFormed]

theorem rdbits (ra : Reg) (n : BitVec 5) : Statement (.rdbits ra n) := by
  intro h
  change legalRow _ _ = _
  simp [legalRow, Instr.fields, five_bits, h]

theorem align : Statement .align := fun _ => rfl

theorem unstuff (ra rb rc : Reg) : Statement (.unstuff ra rb rc) := fun _ => rfl

theorem bwinit (rb rc : Reg) (order : BitOrder) (stuff : Bool) : Statement (.bwinit rb rc order stuff) := by
  intro _
  change legalRow _ _ = _
  simp [legalRow, Instr.fields, writer_fields, Instr.wellFormed]

theorem wrbits (rb : Reg) (n : BitVec 5) : Statement (.wrbits rb n) := by
  intro h
  change legalRow _ _ = _
  simp [legalRow, Instr.fields, five_bits, h]

theorem bwflush (ra : Reg) (pad : Bool) : Statement (.bwflush ra pad) := by
  intro _
  change legalRow _ _ = _
  simp [legalRow, Instr.fields, flag_field, Instr.wellFormed]

theorem sbgather (ra rb rc : Reg) : Statement (.sbgather ra rb rc) := fun _ => rfl

theorem sbsplit (ra rb rc : Reg) : Statement (.sbsplit ra rb rc) := fun _ => rfl

theorem hbuild (ra rb : Reg) (slot : BitVec 5) (pfx : Bool) : Statement (.hbuild ra rb slot pfx) := by
  intro h
  change legalRow _ _ = _
  simp [legalRow, Instr.fields, hbuild_fields, h]

theorem hdec (ra : Reg) (slot : BitVec 5) : Statement (.hdec ra slot) := by
  intro _
  change legalRow _ _ = _
  simp [legalRow, Instr.fields, five_bits, Instr.wellFormed]

theorem hctab (rb : Reg) (slot : BitVec 5) : Statement (.hctab rb slot) := by
  intro _
  change legalRow _ _ = _
  simp [legalRow, Instr.fields, five_bits, Instr.wellFormed]

theorem henc (rb : Reg) (slot : BitVec 5) : Statement (.henc rb slot) := by
  intro _
  change legalRow _ _ = _
  simp [legalRow, Instr.fields, five_bits, Instr.wellFormed]

theorem hfroment (ra rb rc : Reg) : Statement (.hfroment ra rb rc) := fun _ => rfl

theorem lzwdec (ra rc : Reg) (m : BitVec 4) : Statement (.lzwdec ra rc m) := by
  intro h
  change legalRow _ _ = _
  simp [legalRow, Instr.fields, four_bits, h]

theorem lzwenc (rb rc : Reg) (m : BitVec 4) : Statement (.lzwenc rb rc m) := by
  intro h
  change legalRow _ _ = _
  simp [legalRow, Instr.fields, four_bits, h]

theorem qload (ra rb : Reg) (q : BitVec 4) (pfx : Bool) (tord : TableOrder) : Statement (.qload ra rb q pfx tord) := by
  intro h
  change legalRow _ _ = _
  simp [legalRow, Instr.fields, qload_fields, h]

theorem sldb (rb rc : Reg) (shift : Bool) : Statement (.sldb rb rc shift) := by
  intro _
  change legalRow _ _ = _
  simp [legalRow, Instr.fields, flag_field, Instr.wellFormed]

theorem sstb (rb rc : Reg) (shift : Bool) : Statement (.sstb rb rc shift) := by
  intro _
  change legalRow _ _ = _
  simp [legalRow, Instr.fields, flag_field, Instr.wellFormed]

theorem kld (rb : Reg) : Statement (.kld rb) := fun _ => rfl

theorem kst (rb : Reg) : Statement (.kst rb) := fun _ => rfl

theorem fdct : Statement .fdct := fun _ => rfl

theorem idct : Statement .idct := fun _ => rfl

theorem quant (q : BitVec 4) (order : TableOrder) : Statement (.quant q order) := by
  intro _
  change legalRow _ _ = _
  simp [legalRow, Instr.fields, quant_fields, Instr.wellFormed]

theorem dequant (q : BitVec 4) (order : TableOrder) : Statement (.dequant q order) := by
  intro _
  change legalRow _ _ = _
  simp [legalRow, Instr.fields, quant_fields, Instr.wellFormed]

theorem zzfwd (file : BlockFile) : Statement (.zzfwd file) := by
  intro _
  change legalRow _ _ = _
  simp [legalRow, Instr.fields, file_field, Instr.wellFormed]

theorem zzinv (file : BlockFile) : Statement (.zzinv file) := by
  intro _
  change legalRow _ _ = _
  simp [legalRow, Instr.fields, file_field, Instr.wellFormed]

theorem cvtks : Statement .cvtks := fun _ => rfl

theorem cvtsk : Statement .cvtsk := fun _ => rfl

theorem decblk (dc ac : BitVec 4) (p : BitVec 2) : Statement (.decblk dc ac p) := by
  intro _
  change legalRow _ _ = _
  simp [legalRow, Instr.fields, block_fields, Instr.wellFormed]

theorem encblk (dc ac : BitVec 4) (p : BitVec 2) : Statement (.encblk dc ac p) := by
  intro _
  change legalRow _ _ = _
  simp [legalRow, Instr.fields, block_fields, Instr.wellFormed]

theorem prst : Statement .prst := fun _ => rfl

theorem gifopen (rb rc : Reg) : Statement (.gifopen rb rc) := fun _ => rfl

theorem gifnext (ra : Reg) : Statement (.gifnext ra) := fun _ => rfl

theorem gifrewind : Statement .gifrewind := fun _ => rfl

theorem gifwopen (ra rb rc : Reg) : Statement (.gifwopen ra rb rc) := fun _ => rfl

theorem gifwframe (rb rc : Reg) : Statement (.gifwframe rb rc) := fun _ => rfl

theorem gifwend : Statement .gifwend := fun _ => rfl

end Sys2Proof.Laws.Encoding
end

