-- ==== Sys2Proof/Tests/Slice0.lean ====
section
/-! SUPPORT. Tests: ill-formed commands refused, decoding of words written from the encoding tables, one step of each command
on the spec's own test vectors (spec/95_test_vectors.md), and a witness for the hypotheses of each statement. -/

namespace Sys2Proof.Tests

set_option Elab.async false

open Sys2Proof Sys2Proof.Machine

/-! ### Ill-formed commands (R141) -/

theorem test_illformed_read_count : wellFormedReadCount 0 = false ∧ wellFormedReadCount 25 = false ∧
    Instr.wellFormed (.rdbits 1 25) = false := by decide

theorem test_illformed_write_count : wellFormedWriteCount 0 = false ∧ wellFormedWriteCount 17 = false ∧
    Instr.wellFormed (.wrbits 1 17) = false := by decide

theorem test_illformed_code_size : wellFormedCodeSize 1 = false ∧ wellFormedCodeSize 9 = false ∧
    Instr.wellFormed (.lzwdec 1 2 9) = false ∧ Instr.wellFormed (.lzwenc 1 2 1) = false := by decide

theorem test_illformed_slot : wellFormedSlot 1 true = false ∧ Instr.wellFormed (.hbuild 1 2 1 true) = false := by decide

theorem test_illformed_table : wellFormedTable 1 true = false ∧ Instr.wellFormed (.qload 1 2 1 true .scan) = false := by
  decide

/-! ### Decoding (R131, R132, R140; words of spec/95_test_vectors.md, and written out from the table) -/

theorem test_decode_engine :
    decodeTableWord 32 0x00000001 = some .nop ∧ decodeTableWord 32 0x00000002 = some .halt ∧
    decodeTableWord 32 0x12345103 = some (.lui 1 0x12345) ∧ decodeTableWord 32 0x67802204 = some (.ori 2 2 0x678) ∧
    decodeTableWord 32 0xFFF03305 = some (.addi 3 3 0xFFF) ∧ decodeTableWord 32 0x00032106 = some (.add 1 2 3) ∧
    decodeTableWord 32 0x00032107 = some (.sub 1 2 3) ∧ decodeTableWord 32 0xFFE21008 = some (.beq 1 2 0xFFE) := by decide

theorem test_decode_engine_2 :
    decodeTableWord 32 0x00321009 = some (.bne 1 2 3) ∧ decodeTableWord 32 0x0022100E = some (.bltu 1 2 2) ∧
    decodeTableWord 32 0x0030210C = some (.lbu 1 2 3) ∧ decodeTableWord 32 0x0003200D = some (.sb 2 3 0) ∧
    decodeTableWord 32 0x0120040A = some (.csrr 4 0x012) ∧ decodeTableWord 32 0x0300500B = some (.csrw 5 0x030) := by
  decide

theorem test_decode_bitstream :
    decodeTableWord 32 0x00032010 = some (.brinit 2 3 .msb) ∧ decodeTableWord 32 0x00132010 = some (.brinit 2 3 .lsb) ∧
    decodeTableWord 32 0x00400111 = some (.rdbits 1 4) ∧ decodeTableWord 32 0x00000012 = some .align ∧
    decodeTableWord 32 0x00032113 = some (.unstuff 1 2 3) ∧
    decodeTableWord 32 0x00232014 = some (.bwinit 2 3 .msb true) := by decide

theorem test_decode_bitstream_2 :
    decodeTableWord 32 0x01001015 = some (.wrbits 1 16) ∧ decodeTableWord 32 0x00100116 = some (.bwflush 1 true) ∧
    decodeTableWord 32 0x00032117 = some (.sbgather 1 2 3) ∧ decodeTableWord 32 0x00032118 = some (.sbsplit 1 2 3) := by
  decide

theorem test_decode_huffman :
    decodeTableWord 32 0x02002120 = some (.hbuild 1 2 0 true) ∧ decodeTableWord 32 0x01102120 = some (.hbuild 1 2 17 false) ∧
    decodeTableWord 32 0x00500121 = some (.hdec 1 5) ∧ decodeTableWord 32 0x00502022 = some (.hctab 2 5) ∧
    decodeTableWord 32 0x00502023 = some (.henc 2 5) ∧ decodeTableWord 32 0x00032124 = some (.hfroment 1 2 3) := by decide

theorem test_decode_lzw :
    decodeTableWord 32 0x00240330 = some (.lzwdec 3 4 2) ∧ decodeTableWord 32 0x00832031 = some (.lzwenc 2 3 8) := by decide

theorem test_decode_block :
    decodeTableWord 32 0x01002140 = some (.qload 1 2 0 true .scan) ∧
    decodeTableWord 32 0x02002140 = some (.qload 1 2 0 false .natural) ∧
    decodeTableWord 32 0x00132041 = some (.sldb 2 3 true) ∧ decodeTableWord 32 0x00132042 = some (.sstb 2 3 true) ∧
    decodeTableWord 32 0x00002043 = some (.kld 2) ∧ decodeTableWord 32 0x00002044 = some (.kst 2) ∧
    decodeTableWord 32 0x00000045 = some .fdct ∧ decodeTableWord 32 0x00000046 = some .idct := by decide

theorem test_decode_block_2 :
    decodeTableWord 32 0x01100047 = some (.quant 1 .natural) ∧ decodeTableWord 32 0x00100048 = some (.dequant 1 .scan) ∧
    decodeTableWord 32 0x00100049 = some (.zzfwd .s) ∧ decodeTableWord 32 0x0000004A = some (.zzinv .k) ∧
    decodeTableWord 32 0x0000004B = some .cvtks ∧ decodeTableWord 32 0x0000004C = some .cvtsk := by decide

theorem test_decode_coefficient :
    decodeTableWord 32 0x21100050 = some (.decblk 1 1 2) ∧ decodeTableWord 32 0x11200051 = some (.encblk 2 1 1) ∧
    decodeTableWord 32 0x00000052 = some .prst := by decide

theorem test_decode_gif :
    decodeTableWord 32 0x00032060 = some (.gifopen 2 3) ∧ decodeTableWord 32 0x00000361 = some (.gifnext 3) ∧
    decodeTableWord 32 0x00000062 = some .gifrewind ∧ decodeTableWord 32 0x00032163 = some (.gifwopen 1 2 3) ∧
    decodeTableWord 32 0x00032064 = some (.gifwframe 2 3) ∧ decodeTableWord 32 0x00000065 = some .gifwend := by decide

theorem test_decode_illegal :
    decodeWord 0 = .error (.unassignedOpcode 0) ∧ decodeWord 0x00000101 = .error .reservedField ∧
    decodeWord 0x01900311 = .error .operandRange ∧ decodeWord 0x02102020 = .error .operandRange ∧
    decodeBytes [1, 0, 0] = .error .tooShort := by decide

/-! ### A state to test on, and what to ask of the next one -/

/-- A running engine with these registers, CSRs and bytes of a MEM of 64 KiB, at PC 0x40. -/
def running (regs : List (Reg × Nat)) (csrs : List (Csr × Nat)) (mem : List (Nat × List Byte)) : State :=
  let s : State := { State.reset with pc := 0x40, params := { Params.taken with memSize := 0x10000 } }
  let s := s.setCsr .status 1
  let s := regs.foldl (fun s r => s.setX r.1 (u32 r.2)) s
  let s := csrs.foldl (fun s c => s.setCsrNat c.1 c.2) s
  mem.foldl (fun s m => s.putMem m.1 m.2) s

/-- The next state of the command meets the test. -/
def after (i : Instr) (s : State) (p : State → Bool) : Bool :=
  match exec i s with
  | .next t => p t
  | .fault _ => false
  | .refused _ => false

/-- The engine has faulted with this STATUS and ERRAUX, at PC 0x40. -/
def faulted (status aux : Nat) (t : State) : Bool :=
  t.getCsrNat .status == status && t.getCsrNat .erraux == aux && t.getCsrNat .errpc == 0x40 && t.pc == 0x40

/-! ### One step of each command -/

/-- EG3, EG4: LUI, and LUI to X0. -/
theorem test_lui : after (.lui 1 0x12345) (running [] [] []) (fun t => t.getX 1 == 0x12345000 && t.pc == 0x44) = true ∧
    after (.lui 0 0x12345) (running [] [] []) (fun t => t.getX 0 == 0) = true := by decide +kernel

/-- EG5. -/
theorem test_ori : after (.ori 2 2 0x678) (running [(2, 0x12345000)] [] []) (fun t => t.getX 2 == 0x12345678) = true := by
  decide +kernel

/-- EG6, EG7: a negative immediate, and a wrap. -/
theorem test_addi : after (.addi 3 3 0xFFF) (running [(3, 10)] [] []) (fun t => t.getX 3 == 9) = true ∧
    after (.addi 1 2 1) (running [(2, 0xFFFFFFFF)] [] []) (fun t => t.getX 1 == 0) = true := by decide +kernel

/-- EG9, EG10: sums and differences wrap; the source may be the destination. -/
theorem test_add_sub :
    after (.add 2 2 3) (running [(2, 0xFFFFFFFF), (3, 2)] [] []) (fun t => t.getX 2 == 1) = true ∧
    after (.sub 1 2 3) (running [(2, 0), (3, 1)] [] []) (fun t => t.getX 1 == 0xFFFFFFFF) = true := by decide +kernel

/-- EG12, EG13: BEQ taken backwards, and not taken. -/
theorem test_beq : after (.beq 1 2 0xFFE) (running [(1, 5), (2, 5)] [] []) (fun t => t.pc == 0x38) = true ∧
    after (.beq 1 2 0xFFE) (running [(1, 5), (2, 6)] [] []) (fun t => t.pc == 0x44) = true := by decide +kernel

/-- EG14. -/
theorem test_bne : after (.bne 1 2 3) (running [(1, 1)] [] []) (fun t => t.pc == 0x4C) = true := by decide +kernel

/-- EG15, EG16: BLTU compares unsigned words, and nothing is below 0. -/
theorem test_bltu : after (.bltu 1 2 2) (running [(1, 3), (2, 0xFFFFFFFF)] [] []) (fun t => t.pc == 0x48) = true ∧
    after (.bltu 1 0 2) (running [(1, 0xFFFFFFFF)] [] []) (fun t => t.pc == 0x44) = true := by decide +kernel

/-- EG1, EG2. -/
theorem test_nop_halt : after .nop (running [] [] []) (fun t => t.pc == 0x44 && t.busy) = true ∧
    after .halt (running [] [(.ie, 1)] []) (fun t => t.pc == 0x44 && t.getCsr .status == 2 && t.irq) = true := by
  decide +kernel

/-- EG29 and an unknown number, IllegalCommand with the word. -/
theorem test_csrr : after (.csrr 1 0) (running [] [] []) (fun t => t.getX 1 == 1) = true ∧
    after (.csrr 1 0x7FF) (running [] [] []) (faulted 0x604 0x7FF0010A) = true := by decide +kernel

/-- EG26: BR_MODE keeps one bit; a read-only CSR is IllegalCommand. -/
theorem test_csrw : after (.csrw 1 0x013) (running [(1, 0xFFFFFFFF)] [] []) (fun t => t.getCsr .brMode == 1) = true ∧
    after (.csrw 0 0x000) (running [] [] []) (faulted 0x604 0x0000000B) = true := by decide +kernel

/-- EG18, EG21: a byte, zero-extended, and the first address outside MEM. -/
theorem test_lbu : after (.lbu 1 2 3) (running [(2, 0x1000)] [] [(0x1003, [0xC4])]) (fun t => t.getX 1 == 0xC4) = true ∧
    after (.lbu 2 1 0) (running [(1, 0xFFFFFFFF)] [] []) (faulted 0x404 0xFFFFFFFF) = true := by decide +kernel

/-- EG22: only the low byte is stored. -/
theorem test_sb : after (.sb 2 3 0) (running [(2, 0x1000), (3, 0x1FF)] [] [])
    (fun t => t.mem.read? 0x1000 == some 0xFF && t.mem.read? 0x1001 == none) = true := by decide +kernel

/-- R210's example. -/
theorem test_brinit : after (.brinit 2 3 .lsb) (running [(2, 0x2000), (3, 2)] [(.brPos, 9)] [])
    (fun t => t.getCsr .brBase == 0x2000 && t.getCsr .brLen == 2 && t.getCsr .brPos == 0 && t.getCsr .brMode == 1) = true := by
  decide +kernel

/-- A reader on bytes at 0x2000. -/
def reading (bytes : List Byte) (pos order : Nat) (regs : List (Reg × Nat)) : State :=
  running regs [(.brBase, 0x2000), (.brLen, bytes.length), (.brPos, pos), (.brMode, order)] [(0x2000, bytes)]

/-- BR1, BR2: the second read of 8 bits across a byte, in both orders. -/
theorem test_rdbits : after (.rdbits 5 8) (reading [0xA5, 0x0F] 4 0 []) (fun t => t.getX 5 == 0x50 && t.getCsr .brPos == 12) = true ∧
    after (.rdbits 5 8) (reading [0xA5, 0x0F] 4 1 []) (fun t => t.getX 5 == 0xFA) = true := by decide +kernel

/-- R215's example, and the exhausted reader of BR3. -/
theorem test_align : after .align (reading [0xA5, 0x0F] 13 0 []) (fun t => t.getCsr .brPos == 16) = true ∧
    after (.rdbits 6 1) (reading [0xA5, 0x0F] 16 0 []) (faulted 0x304 1) = true := by decide +kernel

/-- US1. -/
theorem test_unstuff : after (.unstuff 1 2 3)
    (running [(1, 0x3000), (2, 0x2000), (3, 10)] [] [(0x2000, [0x12, 0xFF, 0x00, 0x34, 0xFF, 0xD3, 0x56, 0xFF, 0xD9, 0x77])])
    (fun t => t.getX 1 == 4 && t.getCsr .aux == 9 && t.holds 0x3000 [0x12, 0xFF, 0x34, 0x56]) = true := by decide +kernel

/-- R219. -/
theorem test_bwinit : after (.bwinit 2 3 .msb true) (running [(2, 0x4000), (3, 16)] [(.bwLen, 5), (.bwNacc, 3)] [])
    (fun t => t.getCsr .bwBase == 0x4000 && t.getCsr .bwCap == 16 && t.getCsr .bwLen == 0 && t.getCsr .bwNacc == 0 &&
      t.getCsr .bwMode == 2) = true := by decide +kernel

/-- A writer to 0x4000 with this capacity, mode and length. -/
def writing (cap mode len : Nat) (regs : List (Reg × Nat)) (mem : List (Nat × List Byte)) : State :=
  running regs [(.bwBase, 0x4000), (.bwCap, cap), (.bwMode, mode), (.bwLen, len)] mem

/-- BW3: two bytes FF, each stuffed; BW6: the capacity. -/
theorem test_wrbits : after (.wrbits 4 16) (writing 16 2 0 [(4, 0xFFFF)] [])
      (fun t => t.holds 0x4000 [0xFF, 0x00, 0xFF, 0x00] && t.getCsr .bwLen == 4 && t.getCsr .bwNacc == 0) = true ∧
    after (.wrbits 4 8) (writing 1 2 0 [(4, 0xFF)] []) (faulted 0x504 2) = true := by decide +kernel

/-- R223's example: 3 pending bits 111, pad 1. -/
theorem test_bwflush : after (.bwflush 1 true)
    (running [] [(.bwBase, 0x4000), (.bwCap, 16), (.bwMode, 2), (.bwAcc, 0xE0), (.bwNacc, 3)] [])
    (fun t => t.holds 0x4000 [0xFF, 0x00] && t.getX 1 == 2 && t.getCsr .bwNacc == 0) = true := by decide +kernel

/-- SB1. -/
theorem test_sbgather : after (.sbgather 1 2 3)
    (running [(1, 0x3000), (2, 0x2000), (3, 16)] [] [(0x2000, [3, 0xAA, 0xBB, 0xCC, 1, 0xDD, 0])])
    (fun t => t.getX 1 == 4 && t.getCsr .aux == 7 && t.holds 0x3000 [0xAA, 0xBB, 0xCC, 0xDD]) = true := by decide +kernel

/-- SB4, SB5. -/
theorem test_sbsplit : after (.sbsplit 1 2 3) (running [(1, 0x3000), (2, 0x2000), (3, 2)] [] [(0x2000, [0xAA, 0xBB])])
      (fun t => t.getX 1 == 4 && t.holds 0x3000 [2, 0xAA, 0xBB, 0]) = true ∧
    after (.sbsplit 1 2 3) (running [(1, 0x3000), (2, 0x2000)] [] []) (fun t => t.getX 1 == 1 && t.holds 0x3000 [0]) = true := by
  decide +kernel

/-- The table body of R265's example. -/
def exampleBody : List Byte := [0, 1, 5, 1, 1, 1, 1, 1, 1, 0, 0, 0, 0, 0, 0, 0, 0, 1, 2, 3, 4, 5, 6, 7, 8, 9, 10, 11]

/-- Its slot. -/
def exampleSlot : HuffSlot := ⟨histOf (exampleBody.take 16), exampleBody.drop 16⟩

/-- HF1, HF11: the bytes consumed and the valid bit; an over-subscribed histogram. -/
theorem test_hbuild : after (.hbuild 1 2 0 false) (running [(2, 0x2000)] [] [(0x2000, exampleBody)])
      (fun t => t.getX 1 == 28 && t.getCsr .huffValid == 1 && decide (t.slot 0 = exampleSlot)) = true ∧
    after (.hbuild 1 2 1 false)
      (running [(2, 0x2000)] [] [(0x2000, [3, 0, 0, 0, 0, 0, 0, 0, 0, 0, 0, 0, 0, 0, 0, 0, 1, 2, 3])])
      (faulted 0x504 5) = true := by decide +kernel

/-- HF3, HF5: a symbol of 4 bits; 17 bits without a code. -/
theorem test_hdec : after (.hdec 6 0) ((reading [0xE0] 0 0 []).setSlot 0 exampleSlot)
      (fun t => t.getX 6 == 6 && t.getCsr .brPos == 4) = true ∧
    after (.hdec 6 0) ((reading [0xFF, 0xFF, 0xFF] 0 0 []).setSlot 0 exampleSlot) (faulted 0x304 2) = true := by
  decide +kernel

/-- R268's example: entry 6. -/
theorem test_hctab : after (.hctab 3 0) ((running [(3, 0x3000)] [] []).setSlot 0 exampleSlot)
    (fun t => t.holds (0x3000 + 4 * 6) [0x0E, 0x00, 0x04, 0x00, 0x1E] && t.holds (0x3000 + 4 * 12) [0, 0, 0, 0]) = true := by
  decide +kernel

/-- HF7, HF9: symbol 6; a value above 255. -/
theorem test_henc : after (.henc 9 0) ((writing 16 0 0 [(9, 6)] []).setSlot 0 exampleSlot)
      (fun t => t.getCsr .bwAcc == 0xE0 && t.getCsr .bwNacc == 4) = true ∧
    after (.henc 9 0) ((writing 16 0 0 [(9, 256)] []).setSlot 0 exampleSlot) (faulted 0x504 8) = true := by decide +kernel

/-- R270's example, out of order. -/
theorem test_hfroment : after (.hfroment 1 2 3)
    (running [(1, 0x3000), (2, 0x2000), (3, 3)] [] [(0x2000, [0, 0, 1, 0x41, 3, 0, 2, 0x43, 2, 0, 2, 0x42])])
    (fun t => t.getX 1 == 19 && t.holds 0x3000 [1, 2, 0, 0, 0, 0, 0, 0, 0, 0, 0, 0, 0, 0, 0, 0, 0x41, 0x42, 0x43]) = true := by
  decide +kernel

/-- LZ2, LZ8: R306's example; a first code that is not clear. -/
theorem test_lzwdec : after (.lzwdec 3 4 2) (reading [0x44, 0x02, 0x05] 0 1 [(3, 0x8000), (4, 0x100)])
      (fun t => t.getX 3 == 4 && t.getCsr .aux == 6 && t.getCsr .brPos == 20 && t.holds 0x8000 [0, 1, 1, 0]) = true ∧
    after (.lzwdec 3 4 2) (reading [0x00, 0x00] 0 1 [(3, 0x8000), (4, 0x100)]) (faulted 0x304 4) = true := by
  decide +kernel

/-- LZ1: R310's example before its flush, 20 bits; LZ12: an index out of range. -/
theorem test_lzwenc : after (.lzwenc 2 3 2) (writing 0x100 1 0 [(2, 0x2000), (3, 4)] [(0x2000, [0, 1, 1, 0])])
      (fun t => t.holds 0x4000 [0x44, 0x02] && t.getCsr .bwAcc == 0x05 && t.getCsr .bwNacc == 4) = true ∧
    after (.lzwenc 2 3 2) (writing 0x100 1 0 [(2, 0x2000), (3, 1)] [(0x2000, [4])]) (faulted 0x504 10) = true := by
  decide +kernel

/-- The bytes 1, 2, …, 64. -/
def counting : List Byte := (List.range 64).map fun i => BitVec.ofNat 8 (i + 1)

/-- R340: with a natural-order table byte 8 is divisor 2; BT3: a precision that is not 0. -/
theorem test_qload : after (.qload 1 2 0 false .natural) (running [(2, 0x2000)] [] [(0x2000, counting)])
      (fun t => t.getX 1 == 64 && t.getCsr .qValid == 1 && t.divisor 0 2 == 9) = true ∧
    after (.qload 1 2 0 true .scan) (running [(2, 0x2000)] [] [(0x2000, 0x10 :: counting)]) (faulted 0x204 3) = true := by
  decide +kernel

/-- BT4 in part: 0x80 with the level shift is +0.0; 0x81 is 1.0. -/
theorem test_sldb : after (.sldb 4 5 true) (running [(4, 0x2000), (5, 0)] [] [(0x2000, [0x80, 0x81, 0, 0, 0, 0, 0, 0])])
    (fun t => blockAt t.sfile 0 1 == 0 && blockAt t.sfile 9 0 == 0x3FF0000000000000) = true := by decide +kernel

/-- A state with samples of this bit pattern, or with these coefficients. -/
def samples (d : Binary64) (s : State) : State := { s with sfile := Vector.replicate 64 d }

/-- A state with one coefficient, the others 0. -/
def coefficient (k : Fin 64) (v : Word) (s : State) : State := { s with kfile := (Vector.replicate 64 0).set k v }

/-- A state whose table 0 has one divisor throughout. -/
def divisors (d : Byte) (s : State) : State := s.setTable 0 (Vector.replicate 64 d)

/-- BT5: 1.0 with the level shift stores 0x81. -/
theorem test_sstb : after (.sstb 6 5 true) (samples 0x3FF0000000000000 (running [(6, 0x2000), (5, 8)] [] []))
    (fun t => t.holds 0x2000 [0x81, 0x81] && t.mem.read? 0x2040 == none) = true := by decide +kernel

/-- BT7. -/
theorem test_kld : after (.kld 3) (running [(3, 0x2000)] [] [(0x2000, List.replicate 4 0xFF ++ List.replicate 252 0)])
    (fun t => blockAt t.kfile 0 0 == 0xFFFFFFFF && blockAt t.kfile 1 7 == 0) = true := by decide +kernel

/-- R344's example. -/
theorem test_kst : after (.kst 3) (coefficient 1 300 (running [(3, 0x2000)] [] []))
    (fun t => t.holds 0x2000 [0, 0, 0, 0, 0x2C, 0x01, 0, 0]) = true := by decide +kernel

/-- BT9: a constant block of 1.0 has S[0] = 8.0 within 10^-9 (bits 0x4020000000000000 are 8.0). -/
theorem test_fdct : after .fdct (samples 0x3FF0000000000000 (running [] [] []))
    (fun t => decide ((f64Units (blockAt t.sfile 0 0) - f64Units 0x4020000000000000).natAbs * 10 ^ 9 < 2 ^ 1074)) = true := by
  decide +kernel

/-- BT10: S[0] = 8.0 and the others 0 give 1.0 in the last element, within 10^-9. -/
theorem test_idct : after .idct { running [] [] [] with sfile := (Vector.replicate 64 0).set 0 0x4020000000000000 }
    (fun t => decide ((f64Units (blockAt t.sfile 63 0) - f64Units 0x3FF0000000000000).natAbs * 10 ^ 9 < 2 ^ 1074)) = true := by
  decide +kernel

/-- BT12: 2.5 / 1 is 3; BT13: a zero divisor. -/
theorem test_quant : after (.quant 0 .scan) (divisors 1 (samples 0x4004000000000000 (running [] [] [])))
      (fun t => blockAt t.kfile 0 0 == 3) = true ∧
    after (.quant 0 .scan) (divisors 0 (running [] [] [])) (faulted 0x504 15) = true := by decide +kernel

/-- BT16, BT17. -/
theorem test_dequant : after (.dequant 0 .scan) (divisors 16 (coefficient 0 5 (running [] [] [])))
      (fun t => blockAt t.kfile 0 0 == 80) = true ∧
    after (.dequant 0 .scan) (divisors 2 (coefficient 0 0x40000000 (running [] [] []))) (faulted 0x504 16) = true := by
  decide +kernel

/-- BT18, BT19. -/
theorem test_zigzag : after (.zzfwd .k) (coefficient 8 7 (running [] [] [])) (fun t => blockAt t.kfile 2 0 == 7) = true ∧
    after (.zzinv .k) (coefficient 2 7 (running [] [] [])) (fun t => blockAt t.kfile 8 0 == 7) = true := by decide +kernel

/-- BT20: -1024 is bits 0xC090000000000000. -/
theorem test_cvtks : after .cvtks (coefficient 0 0xFFFFFC00 (running [] [] []))
    (fun t => blockAt t.sfile 0 0 == 0xC090000000000000 && blockAt t.sfile 1 1 == 0) = true := by decide +kernel

/-- BT21: -0.5 gives -1; BT22: 3.0e9 (bits 0x41E65A0BC0000000) is outside int32. -/
theorem test_cvtsk : after .cvtsk (samples 0xBFE0000000000000 (running [] [] []))
      (fun t => blockAt t.kfile 0 0 == 0xFFFFFFFF) = true ∧
    after .cvtsk (samples 0x41E65A0BC0000000 (running [] [] [])) (faulted 0x504 16) = true := by decide +kernel

/-- Slots for DC and AC: "0" -> 0 and "0" -> 00 (R464's example). -/
def flatSlots (s : State) : State :=
  let one : HuffSlot := ⟨histOf [1], [0]⟩
  (s.setSlot 0 one).setSlot 16 one

/-- R464's example: a flat block of two bits; CC11: slots never built. -/
theorem test_decblk : after (.decblk 0 0 0) (flatSlots (coefficient 5 9 (reading [0x3F] 0 0 [])))
      (fun t => decide (t.kfile = Vector.replicate 64 0) && t.getCsr .brPos == 2 && t.getCsr .pred0 == 0) = true ∧
    after (.decblk 0 0 0) (reading [0x3F] 0 0 []) (faulted 0x504 4) = true := by decide +kernel

/-- Slots with codes for a DC of 3 bits (R265's example) and an AC end of block 00. -/
def blockSlots (s : State) : State := (s.setSlot 0 exampleSlot).setSlot 16 ⟨histOf [0, 2, 2, 2], [1, 0, 2, 0xF0, 0x23, 0x81]⟩

/-- CC3: K[0] = 5 puts code(3) = 100, raw 101, code(00) = 01; CC4d: a difference of more than 16 bits. -/
theorem test_encblk : after (.encblk 0 0 0) (blockSlots (coefficient 0 5 (writing 16 2 0 [] [])))
      (fun t => t.mem.read? 0x4000 == some 0x95 && t.getCsr .bwLen == 1 && t.getCsr .bwNacc == 0 && t.getCsr .pred0 == 5) = true ∧
    after (.encblk 0 0 0) (blockSlots (coefficient 0 70000 (writing 16 2 0 [] []))) (faulted 0x504 11) = true := by
  decide +kernel

/-- R467. -/
theorem test_prst : after .prst (running [] [(.pred0, 1), (.pred1, 0xFFFFFFF0), (.pred3, 9)] [])
    (fun t => t.getCsr .pred0 == 0 && t.getCsr .pred1 == 0 && t.getCsr .pred2 == 0 && t.getCsr .pred3 == 0) = true := by
  decide +kernel

/-- The file of section 8 of spec/95_test_vectors.md. -/
def smallGif : List Byte :=
  [0x47, 0x49, 0x46, 0x38, 0x39, 0x61, 2, 0, 2, 0, 0x80, 0, 0, 0xFF, 0, 0, 0, 0xFF, 0] ++
  [0x2C, 0, 0, 0, 0, 2, 0, 2, 0, 0, 2, 3, 0x44, 0x02, 0x05, 0, 0x3B]

/-- R390's example; GD2: another signature. -/
theorem test_gifopen : after (.gifopen 1 2) (running [(1, 0x2000), (2, 36)] [] [(0x2000, smallGif)])
      (fun t => t.getCsr .gSw == 2 && t.getCsr .gSh == 2 && t.getCsr .gGctN == 2 && t.getCsr .gLoopOff == 19 &&
        t.getCsr .gCur == 19 && t.getCsr .gOpen == 1) = true ∧
    after (.gifopen 1 2) (running [(1, 0x2000), (2, 36)] [] [(0x2000, smallGif.set 4 0x37)])
      (fun t => faulted 0x104 1 t && t.getCsr .gOpen == 0) = true := by decide +kernel

/-- The parser on a file open at 0x2000, a 2 x 2 screen with a global table of 2, at this offset. -/
def parsing (file : List Byte) (cur : Nat) (csrs : List (Csr × Nat)) : State :=
  running [] ([(.gFileBase, 0x2000), (.gFileLen, file.length), (.gCur, cur), (.gLoopOff, 19), (.gSw, 2), (.gSh, 2),
    (.gGctN, 2), (.gOpen, 1), (.gFbBase, 0x3000), (.gScrBase, 0x4000), (.gScrLen, 64), (.gCmtBase, 0x5000),
    (.gCmtCap, 64)] ++ csrs) [(0x2000, file)]

/-- GD1: the image's four pixels; GD9: an index that is not below the table's count. -/
theorem test_gifnext : after (.gifnext 3) (parsing smallGif 19 [])
      (fun t => t.getX 3 == 1 && t.getCsr .aux == 4 && t.getCsr .gCur == 35 && t.getCsr .gFrames == 1 &&
        t.holds 0x3000 [0xFF, 0, 0, 0, 0xFF, 0, 0, 0xFF, 0, 0xFF, 0, 0]) = true ∧
    after (.gifnext 3) (parsing (smallGif.set 32 0x22) 19 []) (faulted 0x304 7) = true := by decide +kernel

/-- R399's example; GD13. -/
theorem test_gifrewind : after .gifrewind (parsing smallGif 35 [(.gGce, 1)])
      (fun t => t.getCsr .gCur == 19 && t.getCsr .gGce == 0) = true ∧
    after .gifrewind (running [] [] []) (faulted 0x504 17) = true := by decide +kernel

/-- GW1: the start of the header, the loop extension and the length; GW7: a width of 0. -/
theorem test_gifwopen : after (.gifwopen 3 4 4) (writing 0x1000 1 0 [(4, 2)] [])
      (fun t => t.holds 0x4000 [0x47, 0x49, 0x46, 0x38, 0x39, 0x61, 2, 0, 2, 0, 0xF7, 0, 0, 0, 0, 0, 0, 0, 42] &&
        t.holds 0x430D [0x21, 0xFF, 0x0B, 0x4E] && t.getCsr .bwLen == 800 && t.getCsr .gwOpen == 1) = true ∧
    after (.gifwopen 3 5 4) (writing 0x1000 1 0 [(4, 2)] []) (faulted 0x504 21) = true := by decide +kernel

/-- A GIF of 2 x 2 pixels being written, its header done. -/
def writingGif (regs : List (Reg × Nat)) (mem : List (Nat × List Byte)) : State :=
  (((((writing 0x1000 1 800 regs mem).setCsr .gwW 2).setCsr .gwH 2).setCsr .gwIdxBase 0x1100).setCsr .gwOpen 1)

/-- The frame red, green, green, red. -/
def firstFrame : List Byte := [255, 0, 0, 0, 255, 0, 0, 255, 0, 255, 0, 0]

/-- GW2: 28 bytes of the first frame, its index frames. -/
theorem test_gifwframe : after (.gifwframe 5 7) (writingGif [(5, 0x2000), (7, 10)] [(0x2000, firstFrame)])
    (fun t => t.holds 0x4320 [0x21, 0xF9, 4, 0, 10, 0, 0, 0, 0x2C, 0, 0, 0, 0, 2, 0, 2, 0, 0, 8, 7, 0x00, 0xA5, 0x8D] &&
      t.holds 0x1100 [0xD2, 0x23, 0x23, 0xD2, 0xD2, 0x23, 0x23, 0xD2] && t.getCsr .bwLen == 828 &&
      t.getCsr .gwFrames == 1) = true := by decide +kernel

/-- R438; GW6 for GIFWEND. -/
theorem test_gifwend : after .gifwend (writingGif [] []) (fun t => t.mem.read? 0x4320 == some 0x3B && t.getCsr .bwLen == 801 &&
      t.getCsr .gwOpen == 0) = true ∧
    after .gifwend (writing 0x1000 1 0 [] []) (faulted 0x504 19) = true := by decide +kernel

/-- A step fetches from PC, decodes and runs: the word 0x12345103 after reset. -/
theorem test_step : (match step (State.reset.withFetchWord 32 0x12345103) with
    | .next t => t.getX 1 == 0x12345000 && t.pc == 4
    | _ => false) = true := by decide +kernel

/-! ### Witnesses: states and operands that meet the hypotheses of the statements -/

theorem witness_decodeOfEncode : (Instr.rdbits 1 24).wellFormed = true ∧ (Instr.hbuild 1 2 0 true).wellFormed = true := by
  decide

theorem witness_legalWords : decodeWord 0x12345103 = .ok (.lui 1 0x12345) := by decide

/-- An idle and a running engine with a reset due. -/
theorem witness_resetState : ({ running [] [] [] with host := [(0, .reset)] } : State).host = (0, .reset) :: [] := rfl

theorem witness_stepKeepsInvariant : (running [] [] [(0x40, [1, 0, 0, 0])]).Inv ∧
    ∃ t, step (running [] [] [(0x40, [1, 0, 0, 0])]) = .next t :=
  ⟨State.inv_of_check (by decide +kernel), _, by rfl⟩

/-- An idle engine; a running one whose word is NOP. -/
theorem witness_stepRuns : hostTurn State.reset = (none, State.reset) ∧ State.reset.busy = false ∧
    hostTurn (running [] [] [(0x40, [1, 0, 0, 0])]) = (none, running [] [] [(0x40, [1, 0, 0, 0])]) ∧
    (running [] [] [(0x40, [1, 0, 0, 0])]).busy = true ∧
    (running [] [] [(0x40, [1, 0, 0, 0])]).holds (running [] [] [(0x40, [1, 0, 0, 0])]).pc.toNat [1, 0, 0, 0] = true ∧
    decodeBytes [1, 0, 0, 0] = .ok (.nop, []) := by
  refine ⟨rfl, by decide +kernel, by rfl, by decide +kernel, by decide +kernel, by decide⟩

/-- The last word of MEM is inside, the next one outside; an illegal word. -/
theorem witness_fetchFaults :
    hostTurn { running [] [] [] with pc := 0x10000 } = (none, { running [] [] [] with pc := 0x10000 }) ∧
    ({ running [] [] [] with pc := 0x10000 } : State).busy = true ∧
    ({ running [] [] [] with pc := 0x10000 } : State).memSize < 0x10000 + 4 ∧
    (running [] [] [(0x40, [0, 0, 0, 0])]).holds 0x40 (leBytes 4 (0#32).toNat) = true ∧
    decodeWord 0 = .error (.unassignedOpcode 0) := by
  refine ⟨by rfl, by decide +kernel, by decide +kernel, by decide +kernel, by decide⟩

/-- A reset and an observation due to a running engine; a move due to an idle one; an RW CSR, an address in MEM. -/
theorem witness_hostMoves :
    (running [] [] []).busy = true ∧
    hostTurn { running [] [] [] with host := [(0, .reset)] } = (some .reset, running [] [] []) ∧
    ({ running [] [] [] with host := [(0, .observe), (3, .reset)] } : State).host = (0, .observe) :: [(3, .reset)] ∧
    State.reset.busy = false ∧ ({ State.reset with host := [(0, .start)] } : State).host = (0, .start) :: [] ∧
    0 < State.reset.memSize ∧ Csr.access .ie = .rw ∧ Csr.aux ≠ .status := by
  refine ⟨by decide +kernel, by rfl, rfl, by decide +kernel, rfl, by decide +kernel, rfl, by decide⟩

/-- HALT ends; a CSRR of an unknown number faults; the three moves of the host are made. -/
theorem witness_irqLevel : (∃ t, exec .halt (running [] [] []) = .next t) ∧
    (∃ t, exec (.csrr 1 0x7FF) (running [] [] []) = .next t ∧
      FaultTaken .illegalCommand 0x7FF0010A (running [] [] []) t) ∧
    (∃ t, hostMove (.writeStatus 0) State.reset = .next t) ∧ (∃ t, hostMove .start State.reset = .next t) ∧
    ∃ t, (2#32).getLsbD 0 = false ∧ hostMove (.writeCsr .ie 2) State.reset = .next t :=
  ⟨⟨_, by rfl⟩, ⟨_, by rfl, State.faultTaken_leaveAll _ [] ⟨.illegalCommand, 0x7FF0010A⟩⟩, ⟨_, by rfl⟩, ⟨_, by rfl⟩,
    ⟨_, by decide, by rfl⟩⟩

/-- ADD to X1 from a running state, for the statements about every command: X2, AUX, byte 0 and every store are outside what
it writes. -/
theorem witness_frames : (∃ t, exec (.add 1 2 3) (running [] [] []) = .next t) ∧ destReg (.add 1 2 3) ≠ some 2 ∧
    Csr.aux ∉ csrsWritten (.add 1 2 3) ∧ Csr.aux ∉ faultCsrs ∧
    outside (bytesWritten (.add 1 2 3) (running [] [] [])) 0 ∧ Store.sfile ∉ storesWritten (.add 1 2 3) ∧
    Store.kfile ∉ storesWritten (.add 1 2 3) ∧ Store.slots ∉ storesWritten (.add 1 2 3) ∧
    Store.tables ∉ storesWritten (.add 1 2 3) := by
  refine ⟨⟨_, by rfl⟩, by decide, by decide, by decide, fun r hr => by simp [bytesWritten] at hr, by decide, by decide,
    by decide, by decide⟩

/-- A storing command: the byte before and the byte after the one stored are outside. -/
theorem witness_memoryFrame : (∃ t, exec (.sb 2 3 0) (running [(2, 0x1000)] [] []) = .next t) ∧
    outside (bytesWritten (.sb 2 3 0) (running [(2, 0x1000)] [] [])) 0xFFF ∧
    outside (bytesWritten (.sb 2 3 0) (running [(2, 0x1000)] [] [])) 0x1001 := by
  have h : bytesWritten (.sb 2 3 0) (running [(2, 0x1000)] [] []) = [⟨0x1000, 1⟩] := by decide +kernel
  rw [h]
  refine ⟨⟨_, by rfl⟩, ?_, ?_⟩ <;> intro r hr <;> simp only [List.mem_singleton] at hr <;> subst hr <;> decide

/-- The first and the last number of the map; numbers on either side of a gap; a state that meets the invariant. -/
theorem witness_csrReads : (running [] [] []).Inv ∧ Csr.number .status = 0x000 ∧ Csr.number .gwOpen = 0x064 ∧
    (running [] [] []).busy = true ∧ ∀ c : Csr, c.number ≠ 0x005 :=
  ⟨State.inv_of_check (by decide +kernel), rfl, rfl, by decide +kernel, fun c => by cases c <;> decide⟩

theorem witness_csrWrites : (Csr.number .gwIdxBase = 0x062 ∧ Csr.access .gwIdxBase = .rw) ∧
    (∀ c : Csr, c.number = 0x000 → c.access ≠ .rw) ∧ ∀ c : Csr, c.number = 0xFFF → c.access ≠ .rw :=
  ⟨by decide, fun c => by cases c <;> decide, fun c => by cases c <;> decide⟩

/-- The last byte of MEM, written; the first address outside. -/
theorem witness_byteAccess :
    (let s := running [(2, 0xFFFF)] [] [(0xFFFF, [7])]
     let a : Word := u32i ((s.getX 2).toNat + (0#12).toInt)
     a.toNat < s.memSize ∧ s.mem.read? a.toNat = some 7) ∧
    (let s := running [(2, 0xFFFF)] [] []
     let a : Word := u32i ((s.getX 2).toNat + (1#12).toInt)
     s.memSize ≤ a.toNat) := by decide +kernel

/-- n = 1 and n = 24 on exactly that many bits, and one bit fewer than asked for. -/
theorem witness_readBits :
    ([true] : List Bool).length = (1#5).toNat ∧
    (reading [0x80] 0 0 []).reader.hasBits (reading [0x80] 0 0 []) ((reading [0x80] 0 0 []).getCsrNat .brPos) [true] = true ∧
    (List.replicate 24 false).length = (24#5).toNat ∧
    (reading [0, 0, 0] 0 1 []).reader.hasBits (reading [0, 0, 0] 0 1 []) ((reading [0, 0, 0] 0 1 []).getCsrNat .brPos)
      (List.replicate 24 false) = true ∧
    8 * (reading [0, 0, 0] 1 1 []).getCsrNat .brLen < (reading [0, 0, 0] 1 1 []).getCsrNat .brPos + (24#5).toNat := by
  decide +kernel

/-- The last cursor that ALIGN moves, and the first that it cannot. -/
theorem witness_align : (reading [] 0xFFFFFFF8 0 []).getCsrNat .brPos ≤ 0xFFFFFFF8 ∧
    0xFFFFFFF8 < (reading [] 0xFFFFFFF9 0 []).getCsrNat .brPos := by decide +kernel

/-- A source with an FF D9, one without, and one under its destination. -/
theorem witness_unstuff :
    (let s := running [(1, 0xFFFE), (2, 0x2000), (3, 5)] [] [(0x2000, [0x12, 0xFF, 0x00, 0xFF, 0xD9])]
     s.getXNat 3 = [0x12, 0xFF, 0x00, 0xFF, 0xD9].length ∧ s.holds (s.getXNat 2) [0x12, 0xFF, 0x00, 0xFF, 0xD9] = true ∧
     Region.overlaps ⟨s.getXNat 2, 5⟩ ⟨s.getXNat 1, 5⟩ = false ∧
     unstuffed [0x12, 0xFF, 0x00, 0xFF, 0xD9] = some ([0x12, 0xFF], 5) ∧ s.getXNat 1 + 2 ≤ s.memSize) ∧
    (let s := running [(1, 0x2002), (2, 0x2000), (3, 2)] [] [(0x2000, [0x12, 0xFF])]
     s.getXNat 3 = [0x12, 0xFF].length ∧ s.holds (s.getXNat 2) [0x12, 0xFF] = true ∧
     Region.overlaps ⟨s.getXNat 2, 2⟩ ⟨s.getXNat 1, 2⟩ = false ∧ unstuffed [0x12, 0xFF] = none ∧
     s.getXNat 1 + 2 ≤ s.memSize) ∧
    (let s := running [(1, 0x2001), (2, 0x2000), (3, 2)] [] [(0x2000, [0xFF, 0xD9])]
     s.getXNat 3 = [0xFF, 0xD9].length ∧ s.holds (s.getXNat 2) [0xFF, 0xD9] = true ∧
     Region.overlaps ⟨s.getXNat 2, 2⟩ ⟨s.getXNat 1, 2⟩ = true) := by decide +kernel

/-- A capacity of exactly the data, one byte less, and a destination that shares the terminator's byte. -/
theorem witness_gather :
    (let s := running [(1, 0x3000), (2, 0x2000), (3, 2)] [] [(0x2000, [2, 7, 8, 0])]
     chunksLegal [[7, 8]] = true ∧ s.holds (s.getXNat 2) (subBlockChain [[7, 8]]) = true ∧
     Region.overlaps ⟨s.getXNat 2, (subBlockChain [[7, 8]]).length⟩ ⟨s.getXNat 1, s.getXNat 3⟩ = false ∧
     [[7, 8]].flatten.length ≤ s.getXNat 3 ∧ s.getXNat 1 + [[7, 8]].flatten.length ≤ s.memSize) ∧
    (let s := running [(1, 0x3000), (2, 0x2000), (3, 1)] [] [(0x2000, [2, 7, 8, 0])]
     s.holds (s.getXNat 2) (subBlockChain [[7, 8]]) = true ∧
     Region.overlaps ⟨s.getXNat 2, (subBlockChain [[7, 8]]).length⟩ ⟨s.getXNat 1, s.getXNat 3⟩ = false ∧
     s.getXNat 3 < [[7, 8]].flatten.length) ∧
    (let s := running [(1, 0x2003), (2, 0x2000), (3, 2)] [] [(0x2000, [2, 7, 8, 0])]
     s.holds (s.getXNat 2) (subBlockChain [[7, 8]]) = true ∧
     Region.overlaps ⟨s.getXNat 2, (subBlockChain [[7, 8]]).length⟩ ⟨s.getXNat 1, s.getXNat 3⟩ = true) := by
  decide +kernel

/-- No bytes, and two bytes ending at the end of MEM. -/
theorem witness_split :
    (let s := running [(1, 0xFFFF), (2, 0x2000)] [] []
     s.getXNat 3 = ([] : List Byte).length ∧ s.holds (s.getXNat 2) [] = true ∧
     Region.overlaps ⟨s.getXNat 2, 0⟩ ⟨s.getXNat 1, 1⟩ = false ∧ s.getXNat 1 + 1 ≤ s.memSize) ∧
    (let s := running [(1, 0xFFFC), (2, 0x2000), (3, 2)] [] [(0x2000, [7, 8])]
     s.getXNat 3 = [7, 8].length ∧ s.holds (s.getXNat 2) [7, 8] = true ∧
     Region.overlaps ⟨s.getXNat 2, 2⟩ ⟨s.getXNat 1, 2 + (2 + 254) / 255 + 1⟩ = false ∧
     s.getXNat 1 + (2 + (2 + 254) / 255 + 1) ≤ s.memSize) := by decide +kernel

theorem witness_putBits : Packer.clean ⟨.msb, false, 0xE0, 3, []⟩ = true ∧ Packer.clean Packer.staging = true := by decide

/-- A value that fits its width, one that does not, and a full buffer. -/
theorem witness_writeBits : (writing 1 0 0 [(4, 0xFF)] []).Inv ∧
    ((writing 1 0 0 [(4, 0xFF)] []).getXNat 4 < 2 ^ (8#5).toNat ∧
      (writing 1 0 0 [(4, 0xFF)] []).fits ((writing 1 0 0 [(4, 0xFF)] []).packer.putBits 0xFF 8)) ∧
    (writing 0 0 0 [(4, 0x100)] []).Inv ∧ 2 ^ (8#5).toNat ≤ (writing 0 0 0 [(4, 0x100)] []).getXNat 4 ∧
    (writing 1 2 0 [(4, 0xFF)] []).Inv ∧
    ((writing 1 2 0 [(4, 0xFF)] []).packer.putBits 0xFF 8).out ≠ [] ∧
    (writing 1 2 0 [(4, 0xFF)] []).getCsrNat .bwCap <
      (writing 1 2 0 [(4, 0xFF)] []).getCsrNat .bwLen + ((writing 1 2 0 [(4, 0xFF)] []).packer.putBits 0xFF 8).out.length ∧
    (writing 1 2 0 [(4, 0xFF)] []).getCsrNat .bwBase + (writing 1 2 0 [(4, 0xFF)] []).getCsrNat .bwCap ≤
      (writing 1 2 0 [(4, 0xFF)] []).memSize :=
  ⟨State.inv_of_check (by decide +kernel), ⟨by decide +kernel, .inr (by decide +kernel)⟩,
    State.inv_of_check (by decide +kernel), by decide +kernel, State.inv_of_check (by decide +kernel), by decide +kernel,
    by decide +kernel, by decide +kernel⟩

theorem witness_flush : (running [] [(.bwBase, 0x4000), (.bwCap, 2), (.bwMode, 2), (.bwAcc, 0xE0), (.bwNacc, 3)] []).Inv ∧
    (running [] [(.bwBase, 0x4000), (.bwCap, 2), (.bwMode, 2), (.bwAcc, 0xE0), (.bwNacc, 3)] []).fits
      ((running [] [(.bwBase, 0x4000), (.bwCap, 2), (.bwMode, 2), (.bwAcc, 0xE0), (.bwNacc, 3)] []).packer.flush true) :=
  ⟨State.inv_of_check (by decide +kernel), .inr (by decide +kernel)⟩

/-- The example table in slot 5 by the command, and in slot 31, the last, by its prefix byte. -/
theorem witness_buildSlot : exampleSlot.wf = true ∧
    (running [(2, 0x2000)] [] [(0x2000, exampleBody)]).holds 0x2000 ([] ++ tableBody exampleSlot) = true ∧
    (0x1F : Byte).toNat < 32 ∧
    (running [(2, 0x2000)] [] [(0x2000, 0x1F :: exampleBody)]).holds 0x2000 ([0x1F] ++ tableBody exampleSlot) = true := by
  decide +kernel

/-- The code 1110 of symbol 6; 17 ones, which begin with no code of the example slot. -/
theorem witness_decodeSymbol :
    (let s := (reading [0xE0] 0 0 []).setSlot 0 exampleSlot
     s.slotValid 0 = true ∧ (s.slot 0).wf = true ∧ (6, 14, 4) ∈ (s.slot 0).table ∧
     s.reader.hasBits s (s.getCsrNat .brPos) (bitsOf .msb 14 4) = true) ∧
    (let s := (reading [0xFF, 0xFF, 0x80] 0 0 []).setSlot 0 exampleSlot
     s.slotValid 0 = true ∧ s.reader.hasBits s (s.getCsrNat .brPos) (List.replicate 17 true) = true ∧
     ∀ e ∈ (s.slot 0).table, ¬ bitsOf .msb e.2.1 e.2.2 <+: List.replicate 17 true) := by decide +kernel

/-- The example slot at the end of MEM; a slot with a symbol twice. -/
theorem witness_codeTable :
    (let s := (running [(3, 0xFC00)] [] []).setSlot 0 exampleSlot
     s.slotValid 0 = true ∧ (s.slot 0).wf = true ∧ hasRepeat (s.slot 0).syms = false ∧ s.getXNat 3 + 1024 ≤ s.memSize ∧
     (6, 14, 4) ∈ (s.slot 0).table ∧ (12 : Byte) ∉ (s.slot 0).syms) ∧
    (let s := (running [(3, 0xFC00)] [] []).setSlot 0 ⟨histOf [0, 2], [7, 7]⟩
     s.slotValid 0 = true ∧ (s.slot 0).wf = true ∧ hasRepeat (s.slot 0).syms = true) := by decide +kernel

theorem witness_encodeSymbol : ((writing 16 0 0 [(9, 6)] []).setSlot 0 exampleSlot).Inv ∧
    (let s := (writing 16 0 0 [(9, 6)] []).setSlot 0 exampleSlot
     s.slotValid 0 = true ∧ hasRepeat (s.slot 0).syms = false ∧ (6, 14, 4) ∈ (s.slot 0).table ∧ s.getXNat 9 = 6 ∧
     (s.packer.putBits 14 4).out = []) ∧
    ((writing 16 0 0 [(9, 256)] []).setSlot 0 exampleSlot).Inv ∧
    ∀ b ∈ (((writing 16 0 0 [(9, 256)] []).setSlot 0 exampleSlot).slot 0).syms,
      ((writing 16 0 0 [(9, 256)] []).setSlot 0 exampleSlot).getXNat 9 ≠ b.toNat :=
  ⟨State.inv_of_check (by decide +kernel), by decide +kernel, State.inv_of_check (by decide +kernel), by decide +kernel⟩

/-- The entries of R270's example in another order, up to the end of MEM; no entry at all. -/
theorem witness_tableFromEntries :
    (let es : List CodeEntry := [⟨0, 1, 0x41⟩, ⟨3, 2, 0x43⟩, ⟨2, 2, 0x42⟩]
     let s := running [(1, 0xFFED), (2, 0x2000), (3, 3)] [] [(0x2000, [0, 0, 1, 0x41, 3, 0, 2, 0x43, 2, 0, 2, 0x42])]
     let h : HuffSlot := ⟨histOf [1, 2], [0x41, 0x42, 0x43]⟩
     s.getXNat 3 = es.length ∧ es.length ≤ 256 ∧ (∀ e ∈ es, e.code < 2 ^ 16 ∧ e.len < 2 ^ 8) ∧
     s.holds (s.getXNat 2) (es.flatMap entryBytes) = true ∧
     Region.overlaps ⟨s.getXNat 2, 4 * es.length⟩ ⟨s.getXNat 1, 16 + es.length⟩ = false ∧ h.wf = true ∧
     es.Perm (tableEntriesOf h) ∧ s.getXNat 1 + 16 + es.length ≤ s.memSize) := by decide +kernel

/-- An entry of length 17 is in no table, since no canonical code is that long. -/
theorem witness_tableFromEntries_none : ∀ h : HuffSlot, h.wf = true → ¬ [(⟨0, 17, 0⟩ : CodeEntry)].Perm (tableEntriesOf h) := by
  have canonical_length : ∀ (hs : List Nat) (len first : Nat), ∀ c ∈ canonicalFrom hs len first, c.2 < len + hs.length := by
    intro hs
    induction hs with
    | nil => intro len first c hc; simp [canonicalFrom] at hc
    | cons h hs ih =>
      intro len first c hc
      simp only [canonicalFrom, List.mem_append, List.mem_map] at hc
      rcases hc with ⟨j, -, rfl⟩ | hc
      · simp
      · have := ih _ _ c hc
        simp only [List.length_cons]; omega
  intro h _ hp
  have hm : (⟨0, 17, 0⟩ : CodeEntry) ∈ tableEntriesOf h := hp.subset (by simp)
  simp only [tableEntriesOf, HuffSlot.table, List.mem_map] at hm
  obtain ⟨e, he, heq⟩ := hm
  have h2 := (List.of_mem_zip (a := e.1) (b := e.2) he).2
  have h3 := canonical_length h.counts 1 0 e.2 h2
  have h4 : h.counts.length = 16 := by simp [HuffSlot.counts]
  have h5 : e.2.2 = 17 := by simpa using congrArg CodeEntry.len heq
  omega

/-- Slots never built; a histogram that is over-subscribed, and one of 256 symbols that is; one of 257 symbols. -/
theorem witness_slotFaults : (running [] [] []).slotValid 31 = false ∧ (running [] [] []).slotValid (0#1 ++ 0#4) = false ∧
    (let hist : List Byte := 3 :: List.replicate 15 0
     let s := running [(2, 0x2000)] [] [(0x2000, hist ++ [1, 2, 3])]
     hist.length = 16 ∧ [1, 2, 3].length = (hist.map BitVec.toNat).sum ∧ s.holds (s.getXNat 2) (hist ++ [1, 2, 3]) = true ∧
     buildTreeOk (hist.map BitVec.toNat) = false) ∧
    (let hist : List Byte := 3 :: 253 :: List.replicate 14 0
     let s := running [(2, 0x2000)] [] [(0x2000, hist ++ List.replicate 256 7)]
     hist.length = 16 ∧ (List.replicate 256 (7 : Byte)).length = (hist.map BitVec.toNat).sum ∧
     s.holds (s.getXNat 2) (hist ++ List.replicate 256 7) = true ∧ (List.replicate 256 (7 : Byte)).length ≤ 256 ∧
     buildTreeOk (hist.map BitVec.toNat) = false) ∧
    (let hist : List Byte := List.replicate 14 0 ++ [255, 2]
     let s := running [(2, 0x2000)] [] [(0x2000, hist ++ List.replicate 257 7)]
     hist.length = 16 ∧ (List.replicate 257 (7 : Byte)).length = (hist.map BitVec.toNat).sum ∧
     s.holds (s.getXNat 2) (hist ++ List.replicate 257 7) = true ∧ 256 < (List.replicate 257 (7 : Byte)).length) := by
  decide +kernel

/-- R310's example; an index of 2^m; MSB-first; stuffing on. -/
theorem witness_lzwEncoding : (writing 3 1 0 [(2, 0x2000), (3, 4)] [(0x2000, [0, 1, 1, 0])]).Inv ∧
    (let s := writing 3 1 0 [(2, 0x2000), (3, 4)] [(0x2000, [0, 1, 1, 0])]
     s.getXNat 3 = [0, 1, 1, 0].length ∧ s.holds (s.getXNat 2) [0, 1, 1, 0] = true ∧
     Region.overlaps ⟨s.getXNat 2, 4⟩ s.writeRegion = false ∧ s.getCsr .bwMode = 1 ∧
     (∀ v ∈ ([0, 1, 1, 0] : List Byte), v.toNat < 2 ^ (2#4).toNat) ∧
     s.getCsrNat .bwLen + (s.packer.putAll (lzwEncode 2 [0, 1, 1, 0])).out.length ≤ s.getCsrNat .bwCap ∧
     s.getCsrNat .bwBase + s.getCsrNat .bwLen + (s.packer.putAll (lzwEncode 2 [0, 1, 1, 0])).out.length ≤ s.memSize) ∧
    (writing 3 1 0 [(2, 0x2000), (3, 1)] [(0x2000, [4])]).Inv ∧
    (let s := writing 3 1 0 [(2, 0x2000), (3, 1)] [(0x2000, [4])]
     s.holds (s.getXNat 2) [4] = true ∧ ∃ v ∈ ([4] : List Byte), 2 ^ (2#4).toNat ≤ v.toNat) ∧
    (writing 3 0 0 [] []).Inv ∧ ((writing 3 0 0 [] []).getCsr .bwMode).getLsbD 0 = false ∧
    (writing 3 3 0 [] []).Inv ∧ (writing 3 3 0 [] []).getCsr .bwMode = 3 :=
  ⟨State.inv_of_check (by decide +kernel), by decide +kernel, State.inv_of_check (by decide +kernel),
    by decide +kernel, State.inv_of_check (by decide +kernel), by decide +kernel,
    State.inv_of_check (by decide +kernel), by decide +kernel⟩

/-- R306's example with exactly the room it needs; a first code 0. -/
theorem witness_lzwRoundTrip :
    (let s := reading [0x44, 0x02, 0x05] 0 1 [(3, 0xFFFC), (4, 4)]
     s.getCsr .brMode = 1 ∧ Region.overlaps s.readRegion ⟨s.getXNat 3, s.getXNat 4⟩ = false ∧
     (∀ v ∈ ([0, 1, 1, 0] : List Byte), v.toNat < 2 ^ (2#4).toNat) ∧ [0, 1, 1, 0].length ≤ s.getXNat 4 ∧
     s.getXNat 3 + [0, 1, 1, 0].length ≤ s.memSize ∧
     s.reader.hasBits s (s.getCsrNat .brPos) (bitString .lsb (lzwEncode 2 [0, 1, 1, 0])) = true) ∧
    (let s := reading [0x00] 0 1 [(3, 0xFFFC), (4, 4)]
     0 < 2 ^ ((2#4).toNat + 1) ∧ 0 ≠ 2 ^ (2#4).toNat ∧ s.params.lzwRequireInitialClear = true ∧
     s.reader.hasBits s (s.getCsrNat .brPos) (bitsOf .lsb 0 ((2#4).toNat + 1)) = true) := by decide +kernel

theorem witness_loadTable : counting.length = 64 ∧
    (running [(2, 0x2000)] [] [(0x2000, counting)]).holds 0x2000 ([] ++ counting) = true ∧
    (running [(2, 0x2000)] [] [(0x2000, 0x0F :: counting)]).holds 0x2000 ([0x0F] ++ counting) = true ∧
    (0x0F : Byte).toNat < 16 ∧
    (running [(2, 0x2000)] [] [(0x2000, 0x10 :: counting)]).holds 0x2000 ([0x10] ++ counting) = true ∧
    16 ≤ (0x10 : Byte).toNat := by decide +kernel

/-- A packed block that ends at the end of MEM, and a stride of 0. -/
theorem witness_blockBytes :
    (let s := running [(4, 0xFFC0), (5, 8)] [] [(0xFFC0, counting)]
     ∀ i, i < 64 → s.getXNat 4 + i / 8 * s.getXNat 5 + i % 8 < s.memSize ∧
       s.mem.read? (s.getXNat 4 + i / 8 * s.getXNat 5 + i % 8) = some (BitVec.ofNat 8 (i + 1))) ∧
    (let s := running [(4, 0xFFF8)] [] [(0xFFF8, [1, 2, 3, 4, 5, 6, 7, 8])]
     ∀ i, i < 64 → s.getXNat 4 + i / 8 * s.getXNat 5 + i % 8 < s.memSize ∧
       s.mem.read? (s.getXNat 4 + i / 8 * s.getXNat 5 + i % 8) = some (BitVec.ofNat 8 (i % 8 + 1))) ∧
    ((∀ j, 63 < j → j < 64 → 0xFFF8 + j / 8 * 0 + j % 8 ≠ 0xFFF8 + 63 / 8 * 0 + 63 % 8)) := by
  refine ⟨by decide +kernel, by decide +kernel, fun j h1 h2 => by omega⟩

theorem witness_coefficientWords :
    (running [(3, 0xFF00)] [] [(0xFF00, List.replicate 256 0)]).holds 0xFF00
      ((Vector.replicate 64 (0 : Word)).toList.flatMap fun w => leBytes 4 w.toNat) = true ∧
    (running [(3, 0xFF00)] [] []).getXNat 3 + 256 ≤ (running [(3, 0xFF00)] [] []).memSize := by decide +kernel

/-- -0.5 rounds to -1; 3.0e9 is outside int32. -/
theorem witness_conversions :
    (∀ i, i < 64 → -2 ^ 31 ≤ roundUnits (f64Units (blockAt (samples 0xBFE0000000000000 (running [] [] [])).sfile i 0)) ∧
      roundUnits (f64Units (blockAt (samples 0xBFE0000000000000 (running [] [] [])).sfile i 0)) ≤ 2 ^ 31 - 1) ∧
    ∃ i, i < 64 ∧
      ¬ (-2 ^ 31 ≤ roundUnits (f64Units (blockAt (samples 0x41E65A0BC0000000 (running [] [] [])).sfile i 0)) ∧
        roundUnits (f64Units (blockAt (samples 0x41E65A0BC0000000 (running [] [] [])).sfile i 0)) ≤ 2 ^ 31 - 1) :=
  ⟨by decide +kernel, 0, by decide, by decide +kernel⟩

/-- A third of a unit, and a tie. -/
theorem witness_rounds : Binary64.isFinite (f64Round true 1 3) = true ∧ Binary64.isFinite (f64Round false 3 2) = true ∧
    Binary64.isFinite 1#64 = true ∧
    (f64Units (f64Round false 3 2) * 2 - 3).natAbs = (f64Units 1#64 * 2 - 3).natAbs ∧
    f64Units 1#64 ≠ f64Units (f64Round false 3 2) := by decide +kernel

/-- Every clause of the quantization statement, on one table of equal divisors. -/
theorem witness_quantization :
    (let s := divisors 1 (samples 0x4004000000000000 (running [] [] []))
     s.tableValid 0 = true ∧ ∀ i, i < 64 → s.divisor 0 i ≠ 0 ∧
       (-2 ^ 31 ≤ roundUnits (f64Units (f64DivNat (blockAt s.sfile i 0) (s.divisor 0 i))) ∧
         roundUnits (f64Units (f64DivNat (blockAt s.sfile i 0) (s.divisor 0 i))) ≤ 2 ^ 31 - 1)) ∧
    (let s := divisors 16 (coefficient 0 5 (running [] [] []))
     s.tableValid 0 = true ∧ ∀ i, i < 64 → -2 ^ 31 ≤ s32 (blockAt s.kfile i 0) * (s.divisor 0 i : Int) ∧
       s32 (blockAt s.kfile i 0) * (s.divisor 0 i : Int) ≤ 2 ^ 31 - 1) ∧
    ((divisors 0 (running [] [] [])).tableValid 0 = true ∧ (divisors 0 (running [] [] [])).divisor 0 0 = 0) ∧
    (let s := divisors 1 (samples 0x41E65A0BC0000000 (running [] [] []))
     s.tableValid 0 = true ∧ s.divisor 0 0 ≠ 0 ∧
       ¬ (-2 ^ 31 ≤ roundUnits (f64Units (f64DivNat (blockAt s.sfile 0 0) (s.divisor 0 0))) ∧
         roundUnits (f64Units (f64DivNat (blockAt s.sfile 0 0) (s.divisor 0 0))) ≤ 2 ^ 31 - 1)) ∧
    (let s := divisors 2 (coefficient 0 0x40000000 (running [] [] []))
     s.tableValid 0 = true ∧ ¬ (-2 ^ 31 ≤ s32 (blockAt s.kfile 0 0) * (s.divisor 0 0 : Int) ∧
       s32 (blockAt s.kfile 0 0) * (s.divisor 0 0 : Int) ≤ 2 ^ 31 - 1)) ∧
    (running [] [] []).tableValid 3 = false := by
  refine ⟨by decide +kernel, by decide +kernel, by decide +kernel, by decide +kernel, by decide +kernel, by decide +kernel⟩

/-- The reference numerics, a finite element, and a zero block. -/
theorem witness_transforms : (running [] [] []).params.dct = .reference ∧
    Binary64.isFinite (fdctReference (running [] [] []).sfile 0) = true ∧
    Binary64.isFinite (idctReference (running [] [] []).sfile 63) = true ∧
    (running [] [] []).sfile = Vector.replicate 64 0 := by decide +kernel

/-- An engine with the drawn numerics and a zero block. -/
def drawing (eps : Nat) : State := { running [] [] [] with params := { Params.taken with dct := .drawn eps } }

/-- Every exact element of a zero block is 0: +0 is within a DCT_EPS of 0 of it, and a large DCT_EPS takes in the free value. -/
theorem witness_transforms_drawn (eps n : Nat) (c : Nat → ℝ) :
    (drawing eps).params.dct = .drawn eps ∧
    (∑ i ∈ Finset.range 64, ((f64Units (blockAt (drawing eps).sfile i 0) : ℝ) / 2 ^ 1074) * c i) = 0 ∧
    (∃ e : Binary64, Binary64.isFinite e = true ∧ |(f64Units e : ℝ) / 2 ^ 1074 - 0| ≤ ((0 : Nat) : ℝ) / 2 ^ 64) ∧
    ∃ big : Nat, |(f64Units (freeFiniteSample n) : ℝ) / 2 ^ 1074 - 0| ≤ (big : ℝ) / 2 ^ 64 := by
  have h0 : f64Units 0 = 0 := by decide
  have hz : ∀ i < 64, f64Units (blockAt (drawing eps).sfile i 0) = 0 := by
    have : (drawing eps).sfile = Vector.replicate 64 0 := by rfl
    rw [this]; decide +kernel
  refine ⟨rfl, Finset.sum_eq_zero fun i hi => ?_, ⟨0, by decide, by rw [h0]; simp⟩, ?_⟩
  · rw [hz i (Finset.mem_range.1 hi)]; simp
  · obtain ⟨k, hk⟩ := exists_nat_ge (|(f64Units (freeFiniteSample n) : ℝ) / 2 ^ 1074 - 0| * 2 ^ 64)
    exact ⟨k, (le_div_iff₀ (by positivity)).2 hk⟩

theorem witness_rawBits : ((-7 : Int) ≠ 0 ∧ category (-7) = 3) ∧ 0 < 3 ∧ 0 < 2 ^ 3 := by decide

/-- K[0] = 5, the others 0: in range, its symbols in the slots, one byte to commit and room for it alone; K[0] = 70000: out of
range. -/
theorem witness_encodeBlock : (blockSlots (coefficient 0 5 (writing 1 2 0 [] []))).Inv ∧
    (let s := blockSlots (coefficient 0 5 (writing 1 2 0 [] []))
     let diff := s32 (blockAt s.kfile 0 0) - s32 (s.getCsr (Csr.pred 0))
     let acs := s.kfile.toList.drop 1
     let k := s.packer.putAll (blockPieces (s.slot (0#1 ++ 0#4)).table (s.slot (1#1 ++ 0#4)).table diff acs)
     s.slotValid (0#1 ++ 0#4) = true ∧ s.slotValid (1#1 ++ 0#4) = true ∧ diff.natAbs < 2 ^ 16 ∧
     acs.all (fun w => decide ((s32 w).natAbs < 2 ^ 15)) = true ∧
     (s.slot (0#1 ++ 0#4)).codesAll [category diff] = true ∧
     (s.slot (1#1 ++ 0#4)).codesAll (acSymbols acs 0) = true ∧
     s.getCsrNat .bwLen + k.out.length ≤ s.getCsrNat .bwCap ∧
     s.getCsrNat .bwBase + s.getCsrNat .bwLen + k.out.length ≤ s.memSize) ∧
    (blockSlots (coefficient 0 70000 (writing 16 2 0 [] []))).Inv ∧
    (let s := blockSlots (coefficient 0 70000 (writing 16 2 0 [] []))
     ¬ (s32 (blockAt s.kfile 0 0) - s32 (s.getCsr (Csr.pred 0))).natAbs < 2 ^ 16) :=
  ⟨State.inv_of_check (by decide +kernel), by decide +kernel, State.inv_of_check (by decide +kernel), by decide +kernel⟩

/-- CC3's block, and a reader on the byte 95 it makes. -/
theorem witness_blockRoundTrip :
    (let s := blockSlots (coefficient 0 5 (running [] [] []))
     let u := blockSlots (reading [0x95] 0 0 [])
     encodeBlock s (0#1 ++ 0#4) (1#1 ++ 0#4) (s.getCsr (Csr.pred 0)) = .ok [(4, 3), (5, 3), (1, 2)] ∧
     u.slotValid (0#1 ++ 0#4) = true ∧ u.slotValid (1#1 ++ 0#4) = true ∧
     u.slot (0#1 ++ 0#4) = s.slot (0#1 ++ 0#4) ∧ u.slot (1#1 ++ 0#4) = s.slot (1#1 ++ 0#4) ∧
     (u.slot (0#1 ++ 0#4)).wf = true ∧ (u.slot (1#1 ++ 0#4)).wf = true ∧
     u.getCsr (Csr.pred 0) = s.getCsr (Csr.pred 0) ∧ u.getCsr .brMode = 0 ∧
     u.reader.hasBits u (u.getCsrNat .brPos) (bitString .msb [(4, 3), (5, 3), (1, 2)]) = true) := by decide +kernel

/-- The small file, whose table ends inside it; a file of 13 bytes with another signature. -/
theorem witness_openFile :
    (let s := running [(1, 0x2000), (2, 36)] [] [(0x2000, smallGif)]
     s.holds (s.getXNat 1) (gif89a ++ leBytes 2 2 ++ leBytes 2 2 ++ [0x80, 0, 0] ++ smallGif.drop 13) = true ∧
     s.getXNat 2 = 13 + (smallGif.drop 13).length ∧ 3 * 2 ^ ((0x80 : Byte).toNat % 8 + 1) ≤ (smallGif.drop 13).length) ∧
    (let s := running [(1, 0x2000), (2, 13)] [] [(0x2000, gif87a ++ [2, 0, 2, 0, 0, 0, 0])]
     s.holds (s.getXNat 1) (gif87a ++ leBytes 2 2 ++ leBytes 2 2 ++ [0, 0, 0] ++ []) = true ∧
     s.getXNat 2 = 13 + ([] : List Byte).length ∧ gif87a ≠ gif89a ∧ s.params.acceptGif87a = false) := by decide +kernel

/-- A trailer that is the last byte of the file, a control block of disposal 2 and one of disposal 3, a byte that starts no
block, and no open file. -/
theorem witness_nextControlBlock :
    (parsing [0x3B] 0 []).getCsr .gOpen = 1 ∧ (parsing [0x3B] 0 []).fileHolds ((parsing [0x3B] 0 []).getCsrNat .gCur) [0x3B] ∧
    (parsing [0x21, 0xF9, 4, 9, 10, 0, 1, 0] 0 []).fileHolds 0 [0x21, 0xF9, 0x04, 9, 10, 0, 1, 0x00] ∧
    (9 : Byte).toNat / 4 % 8 = 2 ∧
    (parsing [0x21, 0xF9, 4, 12, 10, 0, 1, 0] 0 []).fileHolds 0 [0x21, 0xF9, 0x04, 12, 10, 0, 1, 0x00] ∧
    ((12 : Byte).toNat / 4 % 8 ≠ 0 ∧ (12 : Byte).toNat / 4 % 8 ≠ 2) ∧ (parsing [0x2D] 0 []).fileHolds 0 [0x2D] ∧
    (running [] [] []).getCsr .gOpen = 0 := by
  refine ⟨by decide +kernel, ?_, ?_, by decide, ?_, by decide, ?_, by decide +kernel⟩ <;>
    exact ⟨by decide +kernel, by decide +kernel⟩

/-- The loop extension, another application extension, a comment as long as its buffer, and a plain-text extension. -/
theorem witness_nextExtension :
    chunksLegal [netscapeBytes.drop 1 |>.take 11, [1, 3, 0]] = true ∧
    netscapeBytes ++ [3, 0] <+: subBlockChain [netscapeBytes.drop 1 |>.take 11, [1, 3, 0]] ∧
    (parsing ([0x21, 0xFF] ++ subBlockChain [netscapeBytes.drop 1 |>.take 11, [1, 3, 0]]) 0 []).fileHolds 0
      ([0x21, 0xFF] ++ subBlockChain [netscapeBytes.drop 1 |>.take 11, [1, 3, 0]]) ∧
    ¬ netscapeBytes <+: subBlockChain [[0x4E]] ∧
    (parsing ([0x21, 0xFF] ++ subBlockChain [[0x4E]]) 0 []).fileHolds 0 ([0x21, 0xFF] ++ subBlockChain [[0x4E]]) ∧
    (let s := parsing ([0x21, 0xFE] ++ subBlockChain [[0x68, 0x69]]) 0 [(.gCmtCap, 2), (.gCmtBase, 0xFFFE)]
     s.commentRegion.overlaps s.file = false ∧ [[0x68, 0x69]].flatten.length ≤ s.getCsrNat .gCmtCap ∧
     s.getCsrNat .gCmtBase + [[0x68, 0x69]].flatten.length ≤ s.memSize) ∧
    (parsing ([0x21, 0xFE] ++ subBlockChain [[0x68, 0x69]]) 0 [(.gCmtCap, 2), (.gCmtBase, 0xFFFE)]).fileHolds 0
      ([0x21, 0xFE] ++ subBlockChain [[0x68, 0x69]]) ∧
    (parsing ([0x21, 0x01] ++ subBlockChain [[0xAA]]) 0 []).fileHolds 0 ([0x21, 0x01] ++ subBlockChain [[0xAA]]) := by
  refine ⟨by decide, by decide, ⟨by decide +kernel, by decide +kernel⟩, by decide, ⟨by decide +kernel, by decide +kernel⟩,
    by decide +kernel, ⟨by decide +kernel, by decide +kernel⟩, ⟨by decide +kernel, by decide +kernel⟩⟩

/-- The image block of the small file: 2 x 2 pixels on a screen of 2 x 2, scratch and framebuffer of exactly the size. -/
def smallImage : ImageBlock := ⟨0, 0, 2, 2, 0, [], 2, [[0x44, 0x02, 0x05]], [0, 1, 1, 0]⟩

/-- The parser at that block, a GCE in force that skips index 1. -/
def atSmallImage : State := parsing smallGif 19 [(.gScrLen, 7), (.gScrBase, 0xFFF9), (.gGce, 3), (.gTrans, 1)]

theorem witness_nextImage : atSmallImage.getCsr .gOpen = 1 ∧ smallImage.Legal atSmallImage ∧ smallImage.Room atSmallImage ∧
    atSmallImage.fileHolds (atSmallImage.getCsrNat .gCur) smallImage.bytes ∧
    0 < (smallImage.activeTable atSmallImage).2 ∧ [0xFF, 0, 0, 0, 0xFF, 0].length = 3 * (smallImage.activeTable atSmallImage).2 ∧
    atSmallImage.fileHolds (smallImage.activeTable atSmallImage).1 [0xFF, 0, 0, 0, 0xFF, 0] ∧
    (∀ v ∈ smallImage.indices.take (smallImage.width * smallImage.height),
      atSmallImage.skips v = true ∨ v.toNat < (smallImage.activeTable atSmallImage).2) ∧
    atSmallImage.disposes = false := by
  refine ⟨by decide +kernel, ?_, ?_, ⟨by decide +kernel, by decide +kernel⟩, by decide +kernel, by decide +kernel,
    ⟨by decide +kernel, by decide +kernel⟩, by decide +kernel, by decide +kernel⟩ <;> constructor <;> decide +kernel

/-- The same stream of four indices for an image of 1 x 2 pixels in column 1. -/
def narrowImage : ImageBlock := ⟨1, 0, 1, 2, 0, [], 2, [[0x44, 0x02, 0x05]], [0, 1, 1, 0]⟩

/-- The parser at that block, a GCE of disposal 2 in force, the fill BACKGROUND with the last entry of the table. -/
def atNarrowImage : State :=
  let s := parsing (smallGif.take 19 ++ narrowImage.bytes ++ [0x3B]) 19 [(.gScrLen, 5), (.gGce, 0x11), (.gBg, 1)]
  { s with params := { s.params with disposeFill := .background } }

theorem witness_nextImage_disposal : atNarrowImage.getCsr .gOpen = 1 ∧ narrowImage.Legal atNarrowImage ∧
    narrowImage.Room atNarrowImage ∧ narrowImage.width * narrowImage.height < narrowImage.indices.length ∧
    atNarrowImage.fileHolds (atNarrowImage.getCsrNat .gCur) narrowImage.bytes ∧
    [0xFF, 0, 0, 0, 0xFF, 0].length = 3 * (narrowImage.activeTable atNarrowImage).2 ∧
    atNarrowImage.fileHolds (narrowImage.activeTable atNarrowImage).1 [0xFF, 0, 0, 0, 0xFF, 0] ∧
    (∀ v ∈ narrowImage.indices.take (narrowImage.width * narrowImage.height),
      atNarrowImage.skips v = true ∨ v.toNat < (narrowImage.activeTable atNarrowImage).2) ∧
    atNarrowImage.disposes = true ∧ atNarrowImage.FillColour 0 0xFF 0 := by
  refine ⟨by decide +kernel, ?_, ?_, by decide, ⟨by decide +kernel, by decide +kernel⟩, by decide +kernel,
    ⟨by decide +kernel, by decide +kernel⟩, by decide +kernel, by decide +kernel, ?_⟩
  · constructor <;> decide +kernel
  · constructor <;> decide +kernel
  · rw [State.FillColour, if_pos (by decide +kernel)]
    exact ⟨by decide +kernel, by decide +kernel⟩

/-- R395, R388: what that image leaves, the fill at (0, 0) and (0, 1), its two pixels, and a count of 4. -/
theorem test_gifnext_disposal : after (.gifnext 3) atNarrowImage
    (fun t => t.getCsr .aux == 4 && t.holds 0x3000 [0, 0xFF, 0, 0xFF, 0, 0, 0, 0xFF, 0, 0, 0xFF, 0]) = true := by
  decide +kernel

/-- An interlaced image; a rectangle that leaves the screen by one; a screen without a global table. -/
theorem witness_badImages :
    (let b : ImageBlock := ⟨0, 0, 2, 2, 0x40, [], 2, [], []⟩
     (parsing b.descriptor 0 []).fileHolds 0 b.descriptor ∧ b.pk.getLsbD 6 = true) ∧
    (let b : ImageBlock := ⟨1, 0, 2, 2, 0, [], 2, [], []⟩
     (parsing b.descriptor 0 []).fileHolds 0 b.descriptor ∧ b.pk.getLsbD 6 = false ∧ b.pk.getLsbD 7 = false ∧
       ¬ b.left + b.width ≤ (parsing b.descriptor 0 []).getCsrNat .gSw) ∧
    (let b : ImageBlock := ⟨0, 0, 2, 2, 0, [], 2, [], []⟩
     (parsing b.descriptor 0 [(.gGctN, 0)]).fileHolds 0 b.descriptor ∧
       b.left + b.width ≤ (parsing b.descriptor 0 [(.gGctN, 0)]).getCsrNat .gSw ∧
       b.top + b.height ≤ (parsing b.descriptor 0 [(.gGctN, 0)]).getCsrNat .gSh ∧
       (parsing b.descriptor 0 [(.gGctN, 0)]).getCsr .gGctN = 0) :=
  ⟨⟨⟨by decide +kernel, by decide +kernel⟩, by decide⟩,
    ⟨⟨by decide +kernel, by decide +kernel⟩, by decide, by decide, by decide +kernel⟩,
    ⟨⟨by decide +kernel, by decide +kernel⟩, by decide +kernel, by decide +kernel, by decide +kernel⟩⟩

theorem witness_restarts : (parsing smallGif 35 []).getCsr .gOpen = 1 ∧ (running [] [] []).getCsr .gOpen = 0 := by
  decide +kernel

/-- A 2 x 65535 screen with exactly 800 bytes of room; a width of 65536; a file being written with one byte of room, and
none being written. -/
theorem witness_header :
    (writing 800 1 0 [(4, 2), (5, 65535)] []).Inv ∧ (writing 800 1 0 [(4, 2), (5, 65535)] []).gifWriterReady ∧
    (let s := writing 800 1 0 [(4, 2), (5, 65535)] []
     (1 ≤ s.getXNat 4 ∧ s.getXNat 4 ≤ 65535 ∧ 1 ≤ s.getXNat 5 ∧ s.getXNat 5 ≤ 65535 ∧ s.getXNat 3 ≤ 65535) ∧
     s.getCsrNat .bwLen + 800 ≤ s.getCsrNat .bwCap ∧ s.getCsrNat .bwBase + s.getCsrNat .bwLen + 800 ≤ s.memSize) ∧
    (writing 800 1 0 [(4, 65536), (5, 2)] []).Inv ∧ (writing 800 1 0 [(4, 65536), (5, 2)] []).gifWriterReady ∧
    ¬ (writing 800 1 0 [(4, 65536), (5, 2)] []).getXNat 4 ≤ 65535 ∧
    (writingGif [] []).Inv ∧ (writingGif [] []).gifWriterReady ∧ (writingGif [] []).getCsr .gwOpen = 1 ∧
    (writingGif [] []).getCsrNat .bwLen + 1 ≤ (writingGif [] []).getCsrNat .bwCap ∧
    (writing 800 1 0 [] []).getCsr .gwOpen = 0 := by
  refine ⟨State.inv_of_check (by decide +kernel), ⟨by decide +kernel, by decide +kernel, by decide +kernel⟩,
    by decide +kernel, State.inv_of_check (by decide +kernel), ⟨by decide +kernel, by decide +kernel, by decide +kernel⟩,
    by decide +kernel, State.inv_of_check (by decide +kernel), ⟨by decide +kernel, by decide +kernel, by decide +kernel⟩,
    by decide +kernel, by decide +kernel, by decide +kernel⟩

/-- The pixels of the first frame. -/
def firstPixels : List (Byte × Byte × Byte) := [(255, 0, 0), (0, 255, 0), (0, 255, 0), (255, 0, 0)]

/-- The state of GW2: a first frame; and one with a previous frame of zeros. -/
def atFrame (frames : Word) : State :=
  (writingGif [(5, 0x2000), (7, 10)] [(0x2000, firstFrame), (0x1104, [0, 0, 0, 0])]).setCsr .gwFrames frames

theorem witness_writeFrame : (atFrame 0).Inv ∧ (atFrame 1).Inv ∧ (atFrame 1).gifWriterReady ∧
    (let s := atFrame 1
     let cur : List Byte := firstPixels.map fun p =>
       BitVec.ofNat 8 ((p.1.toNat * 6 / 256 * 6 + p.2.1.toNat * 6 / 256) * 7 + p.2.2.toNat * 7 / 256)
     let changed := (List.range 4).filter fun p => cur.getD p 0 != ([0, 0, 0, 0] : List Byte).getD p 0
     let r := changedRect 2 changed
     let z := frameData ((List.range r.height).flatMap fun dy =>
       (List.range r.width).map fun dx => cur.getD ((r.top + dy) * 2 + (r.left + dx)) 0)
     let out := [0x21, 0xF9, 0x04, 0x00] ++ leBytes 2 (s.getXNat 7) ++ [0x00, 0x00] ++ [0x2C] ++ leBytes 2 r.left ++
       leBytes 2 r.top ++ leBytes 2 r.width ++ leBytes 2 r.height ++ [0x00] ++ [0x08] ++ subBlocks (z.length + 1) z
     let src : Region := ⟨s.getXNat 5, 3 * (2 * 2)⟩
     s.getCsr .gwOpen = 1 ∧ s.getXNat 7 ≤ 65535 ∧ s.getCsrNat .gwW = 2 ∧ s.getCsrNat .gwH = 2 ∧
     (src.overlaps s.indexRegion || src.overlaps s.writeRegion || s.indexRegion.overlaps s.writeRegion) = false ∧
     firstPixels.length = 2 * 2 ∧ s.holds (s.getXNat 5) (pixelBytesOf firstPixels) = true ∧ s.getCsr .gwFrames ≠ 0 ∧
     s.holds (s.getCsrNat .gwIdxBase + 2 * 2) [0, 0, 0, 0] = true ∧ s.getCsrNat .gwIdxBase + 2 * (2 * 2) ≤ s.memSize ∧
     s.getCsrNat .bwLen + out.length ≤ s.getCsrNat .bwCap ∧
     s.getCsrNat .bwBase + s.getCsrNat .bwLen + out.length ≤ s.memSize) :=
  ⟨State.inv_of_check (by decide +kernel), State.inv_of_check (by decide +kernel),
    ⟨by decide +kernel, by decide +kernel, by decide +kernel⟩, by decide +kernel⟩

/-- A file being written, its screen of no pixels, after one frame. -/
def atEmptyScreen : State := (((atFrame 1).setCsr .gwW 0).setCsr .gwH 0).putMem 0x1100 [7]

/-- A later frame of a screen of no pixels: the rectangle (0, 0, 1, 1) of the byte 7 at GW_IDX_BASE. -/
theorem witness_writeFrame_empty : atEmptyScreen.Inv ∧ atEmptyScreen.gifWriterReady ∧
    (let s := atEmptyScreen
     let z := frameData [7]
     let out := [0x21, 0xF9, 0x04, 0x00] ++ leBytes 2 (s.getXNat 7) ++ [0x00, 0x00] ++ [0x2C] ++ leBytes 2 0 ++
       leBytes 2 0 ++ leBytes 2 1 ++ leBytes 2 1 ++ [0x00] ++ [0x08] ++ subBlocks (z.length + 1) z
     let src : Region := ⟨s.getXNat 5, 0⟩
     s.getCsr .gwOpen = 1 ∧ s.getXNat 7 ≤ 65535 ∧ s.getCsrNat .gwW * s.getCsrNat .gwH = 0 ∧ s.getCsr .gwFrames ≠ 0 ∧
     (src.overlaps s.indexRegion || src.overlaps s.writeRegion || s.indexRegion.overlaps s.writeRegion) = false ∧
     s.getCsrNat .gwIdxBase ≤ s.memSize ∧ s.holds (s.getCsrNat .gwIdxBase) [7] = true ∧ changedRect 0 [] = ⟨0, 0, 1, 1⟩ ∧
     s.getCsrNat .bwLen + out.length ≤ s.getCsrNat .bwCap ∧
     s.getCsrNat .bwBase + s.getCsrNat .bwLen + out.length ≤ s.memSize) :=
  ⟨State.inv_of_check (by decide +kernel), ⟨by decide +kernel, by decide +kernel, by decide +kernel⟩, by decide +kernel⟩

/-- R437, R434, R432 by hand: the codes 256, 7, 257 at width 9 for that rectangle; IoError where GW_IDX_BASE is outside MEM. -/
theorem test_gifwframe_empty : after (.gifwframe 5 7) atEmptyScreen
      (fun t => t.holds 0x4320 [0x21, 0xF9, 4, 0, 10, 0, 0, 0, 0x2C, 0, 0, 0, 0, 1, 0, 1, 0, 0, 8, 4, 0x00, 0x0F, 0x04, 0x04, 0] &&
        t.getCsr .bwLen == 825 && t.getCsr .gwFrames == 2) = true ∧
    after (.gifwframe 5 7) (atEmptyScreen.setCsr .gwIdxBase 0x10000) (faulted 0x404 0x10000) = true := by decide +kernel

/-- No file being written; a pending bit; MSB-first; stuffing on; a delay of 65536; the pixels on the index frames. -/
theorem witness_writeFrame_faults : (writing 0x1000 1 0 [] []).getCsr .gwOpen = 0 ∧
    (let s := (atFrame 0).setCsr .bwNacc 1
     s.getCsr .gwOpen = 1 ∧ s.getCsr .bwNacc ≠ 0) ∧
    (let s := (atFrame 0).setCsr .bwMode 0
     s.getCsr .gwOpen = 1 ∧ s.getCsr .bwNacc = 0 ∧ (s.getCsr .bwMode).getLsbD 0 = false) ∧
    (let s := (atFrame 0).setCsr .bwMode 3
     s.getCsr .gwOpen = 1 ∧ s.getCsr .bwNacc = 0 ∧ s.getCsr .bwMode = 3) ∧
    (let s := (atFrame 0).setX 7 65536
     s.getCsr .gwOpen = 1 ∧ s.getCsr .bwNacc = 0 ∧ s.getCsr .bwMode = 1 ∧ 65535 < s.getXNat 7) ∧
    (let s := (atFrame 0).setX 5 0x10F5
     s.getCsr .gwOpen = 1 ∧ s.getCsr .bwNacc = 0 ∧ s.getCsr .bwMode = 1 ∧ s.getXNat 7 ≤ 65535 ∧
     (Region.mk (s.getXNat 5) (3 * (2 * 2))).overlaps s.indexRegion = true) ∧
    ∃ t, exec (.gifwframe 5 7) (running [] [] []) = .next t ∧
      FaultTaken .contractViolation 19 (running [] [] []) t :=
  ⟨by decide +kernel, by decide +kernel, by decide +kernel, by decide +kernel, by decide +kernel, by decide +kernel,
    ⟨_, by rfl, State.faultTaken_leaveAll _ _ ⟨.contractViolation, 19⟩⟩⟩

/-- R109: GIFWFRAME's overlap fault comes before it writes anything, and keeps the writer's CSRs. -/
theorem test_gifwframe_overlap : after (.gifwframe 5 7) ((atFrame 0).setX 5 0x10F5)
    (fun t => faulted 0x504 1 t && t.getCsr .bwLen == 800 && t.getCsr .bwAcc == 0 && t.getCsr .bwNacc == 0 &&
      t.getCsr .gwFrames == 0) = true := by decide +kernel

/-- R435, R494: a fault of GIFWOPEN's preconditions keeps GW_W, and the byte before the writer's room. -/
theorem test_gifwopen_fault : after (.gifwopen 3 4 4) ((writing 0x1000 0 4 [(4, 2)] [(0x4003, [7])]).setCsr .gwW 9)
    (fun t => faulted 0x504 12 t && t.getCsr .gwW == 9 && t.mem.read? 0x4003 == some 7) = true := by decide +kernel

/-- GW3's change: pixel 3 of a frame of width 2. -/
theorem witness_smallestRectangle : [3] ≠ [] ∧ changedRect 2 [3] = ⟨1, 1, 1, 1⟩ := by decide

end Sys2Proof.Tests
end

section
/-! SUPPORT. Every step keeps the invariant (O6). Each operation on the state keeps it, and so does each piece of state that a
fault leaves (R494). `Res.Meets` then says of each part of a command what the value it answers meets and that what its faults
leave is safe, one lemma for each function of the model; the end of a command turns that into the invariant of the next
state. -/

namespace Sys2Proof.Machine

/-! ### Operations on the state -/

section StateOperations

variable {s : State}

theorem State.Inv.setX (h : s.Inv) {r : Reg} {v : Word} : (s.setX r v).Inv := by
  by_cases hr : r = 0#4
  · simpa [hr] using h
  · have hs : s.setX r v = { s with x := s.x.set r.toNat v r.isLt } := if_neg hr
    have h0 : r.toNat ≠ 0 := fun e => hr (BitVec.eq_of_toNat_eq e)
    rw [hs]
    exact { h with x0 := by simpa [Vector.get_eq_getElem, h0] using h.x0 }

/-- A CSR write keeps the invariant when what it stores in STATUS is one of its values (R35, R40). -/
theorem State.Inv.setCsr_of_legal (h : s.Inv) {c : Csr} {v : Word}
    (hv : c = .status → statusLegal (v &&& Csr.mask .status) = true) : (s.setCsr c v).Inv :=
  { h with
    csrNamed := fun d => by
      rw [State.getCsr_setCsr]
      split
      · next e => rw [e, BitVec.and_assoc, BitVec.and_not_self]; exact BitVec.and_zero
      · exact h.csrNamed d
    status := by
      rw [State.getCsr_setCsr]
      split
      · next e => subst e; exact hv rfl
      · exact h.status }

/-- A command's own CSR writes spare STATUS. -/
theorem State.Inv.setCsr (h : s.Inv) {c : Csr} {v : Word} (hc : c ≠ .status := by decide) : (s.setCsr c v).Inv :=
  h.setCsr_of_legal fun e => absurd e hc

/-- Bytes stored at a, a + 1, … all lie in MEM (R101). -/
abbrev State.RoomFor (s : State) (a : Nat) (bs : List Byte) : Prop := bs = [] ∨ a + bs.length ≤ s.memSize

/-- Bytes written inside MEM keep the invariant (R100). -/
theorem State.Inv.putMem (h : s.Inv) {a : Nat} {bs : List Byte} (hb : s.RoomFor a bs) : (s.putMem a bs).Inv :=
  { h with
    memWf := Memory.write_wf _ _ _ h.memWf
    memBelow := Memory.write_below _ _ _ _ h.memBelow hb }

/-- The two low bits of a word, which are 0 in a multiple of 4. -/
theorem lowBits_eq_setWidth (v : Word) : v.extractLsb' 0 2 = v.setWidth 2 :=
  (BitVec.setWidth_eq_extractLsb' (by decide)).symm

/-- PC stays a multiple of 4 when a multiple of 4 is added (R33). -/
theorem aligned_add {a b : Word} (ha : a.extractLsb' 0 2 = 0) (hb : b.extractLsb' 0 2 = 0) :
    (a + b).extractLsb' 0 2 = 0 := by
  rw [lowBits_eq_setWidth] at ha hb ⊢
  rw [BitVec.setWidth_add _ _ (by decide), ha, hb]; rfl

theorem State.Inv.setPc (h : s.Inv) {v : Word} (hv : v.extractLsb' 0 2 = 0) : ({ s with pc := v } : State).Inv :=
  { h with pcAligned := hv }

theorem State.Inv.advance (h : s.Inv) : s.advance.Inv := h.setPc (aligned_add h.pcAligned rfl)

theorem State.Inv.branch (h : s.Inv) (taken : Bool) (imm : BitVec 12) : (s.branch taken imm).Inv := by
  unfold State.branch
  split
  · refine h.setPc (aligned_add h.pcAligned ?_)
    rw [lowBits_eq_setWidth, BitVec.setWidth_mul _ _ (by decide)]
    exact BitVec.zero_mul
  · exact h.advance

theorem State.Inv.setPcByHost (h : s.Inv) (v : Word) : (s.setPcByHost v).Inv := by
  refine h.setPc ?_
  rw [lowBits_eq_setWidth, BitVec.setWidth_and]
  exact BitVec.and_zero

/-- K may hold any values, and the count of free values drawn is free. -/
theorem State.Inv.setKfile (h : s.Inv) {block : Vector Word 64} {draws : Nat} :
    ({ s with kfile := block, draws := draws } : State).Inv :=
  { h with }

/-- S may hold any finite values (R51), and the count of free values drawn is free. -/
theorem State.Inv.setSfile (h : s.Inv) {block : Vector Binary64 64} {draws : Nat}
    (hb : ∀ i, Binary64.isFinite (block.get i) = true) : ({ s with sfile := block, draws := draws } : State).Inv :=
  { h with sFinite := hb }

theorem State.Inv.setTable (h : s.Inv) (q : BitVec 4) (t : Vector Byte 64) : (s.setTable q t).Inv :=
  State.Inv.setCsr (s := { s with qtabs := s.qtabs.set q.toNat t q.isLt }) { h with }

/-- A well-formed slot may be written (R50, R265). -/
theorem State.Inv.setSlot (h : s.Inv) (i : BitVec 5) {t : HuffSlot} (ht : t.wf = true) : (s.setSlot i t).Inv := by
  refine State.Inv.setCsr (s := { s with slots := s.slots.set i.toNat t i.isLt }) { h with slotsWf := ?_ }
  intro j
  simp only [Vector.get_eq_getElem, Vector.getElem_set]
  split
  · exact ht
  · exact h.slotsWf j

end StateOperations

/-! ### What a fault leaves, and the end of a command -/

/-- A piece that a fault may leave as it says without breaking the invariant of a MEM of n bytes: no CSR is STATUS, and stored
cells lie inside MEM. -/
def Leftover.Safe (n : Nat) : Leftover → Prop
  | .csr c => c ≠ .status
  | .stored cells => ∀ c ∈ cells, c.1 < n
  | .mem _ _ | .kFile | .sFile => True

/-- All the pieces are safe. -/
def Leftover.AllSafe (n : Nat) (ps : List Leftover) : Prop := ∀ p ∈ ps, p.Safe n

section Leftovers

variable {n : Nat}

@[simp] theorem Leftover.safe_csr {c : Csr} : (Leftover.csr c).Safe n ↔ c ≠ .status := Iff.rfl

@[simp] theorem Leftover.safe_mem {base len : Nat} : (Leftover.mem base len).Safe n := trivial

@[simp] theorem Leftover.safe_kFile : Leftover.kFile.Safe n := trivial

@[simp] theorem Leftover.safe_sFile : Leftover.sFile.Safe n := trivial

@[simp] theorem Leftover.allSafe_nil : Leftover.AllSafe n [] := by simp [Leftover.AllSafe]

@[simp] theorem Leftover.allSafe_cons {p : Leftover} {ps : List Leftover} :
    Leftover.AllSafe n (p :: ps) ↔ p.Safe n ∧ Leftover.AllSafe n ps := List.forall_mem_cons

@[simp] theorem Leftover.allSafe_append {ps qs : List Leftover} :
    Leftover.AllSafe n (ps ++ qs) ↔ Leftover.AllSafe n ps ∧ Leftover.AllSafe n qs := List.forall_mem_append

end Leftovers

section Faults

variable {s : State}

theorem State.Inv.putCells (h : s.Inv) {cells : List Host.Cell} (hc : ∀ c ∈ cells, c.1 < s.memSize) :
    (s.putCells cells).Inv := by
  unfold State.putCells
  induction cells generalizing s with
  | nil => exact h
  | cons c cs ih =>
    refine ih (h.putMem (.inr ?_)) fun d hd => hc d (List.mem_cons_of_mem _ hd)
    exact hc c List.mem_cons_self

theorem State.Inv.drawMem (h : s.Inv) (base len : Nat) : (s.drawMem base len).Inv :=
  { h with
    memWf := State.drawMem_wf s base len h.memWf
    memBelow := State.drawMem_below s base len h.memBelow }

theorem freeFiniteSample_isFinite (k : Nat) : Binary64.isFinite (freeFiniteSample k) = true := by
  unfold freeFiniteSample
  dsimp only
  split
  · assumption
  · rfl

theorem State.Inv.drawK (h : s.Inv) : s.drawK.Inv := by
  unfold State.drawK
  exact h.setKfile

theorem State.Inv.drawS (h : s.Inv) : s.drawS.Inv := by
  unfold State.drawS
  refine h.setSfile fun i => ?_
  rw [Vector.get_eq_getElem, Vector.getElem_ofFn]
  exact freeFiniteSample_isFinite _

/-- A piece left as a fault leaves it keeps the invariant (R494). -/
theorem State.Inv.leave (h : s.Inv) {p : Leftover} (hp : p.Safe s.memSize) : (s.leave p).Inv := by
  cases p with
  | csr c => exact { h.setCsr (v := Config.freeWord s.draws) hp with }
  | mem base len => exact h.drawMem base len
  | kFile => exact h.drawK
  | sFile => exact h.drawS
  | stored cells => exact h.putCells hp

theorem State.Inv.leaveAll (h : s.Inv) {ps : List Leftover} (hp : Leftover.AllSafe s.memSize ps) :
    (s.leaveAll ps).Inv := by
  unfold State.leaveAll
  induction ps generalizing s with
  | nil => exact h
  | cons p ps ih =>
    obtain ⟨hp, hps⟩ := Leftover.allSafe_cons.1 hp
    refine ih (h.leave hp) ?_
    rwa [State.memSize, (s.leave_keeps p).2.2.1]

/-- Taking a fault gives STATUS one of its values (R40, R494). -/
theorem State.Inv.takeFault (h : s.Inv) (f : EngineFault) : (s.takeFault f).Inv := by
  refine h.setCsr.setCsr.setCsr_of_legal fun _ => ?_
  cases f.code <;> decide

end Faults

/-! ### Results -/

/-- The result answers a value that meets P, or raises a fault that leaves only safe pieces in a MEM of n bytes, or stops the
model. -/
structure Res.Meets {α : Type} (r : Res α) (n : Nat) (P : α → Prop) : Prop where
  ok : ∀ a, r = .ok a → P a
  raise : ∀ f ps, r = .error (.raise f ps) → Leftover.AllSafe n ps

/-- Every fault of the result leaves only safe pieces, whatever value it answers. -/
def Res.Tame {α : Type} (r : Res α) (n : Nat) : Prop := r.Meets n fun _ => True

section Results

variable {α β : Type} {n : Nat} {P : α → Prop} {Q : β → Prop} {r : Res α}

theorem Res.Meets.tame (h : r.Meets n P) : r.Tame n := ⟨fun _ _ => trivial, h.raise⟩

theorem Res.Tame.intro (h : r.Meets n fun _ => True) : r.Tame n := h

/-- A tame result meets what each value it can answer meets. -/
@[simp] theorem Res.meets_of_tame (h : r.Tame n) : r.Meets n P ↔ ∀ a, r = .ok a → P a :=
  ⟨Res.Meets.ok, fun hP => ⟨hP, h.raise⟩⟩

@[simp] theorem Res.meets_ok {a : α} : Res.Meets (.ok a) n P ↔ P a :=
  ⟨fun h => h.ok a rfl, fun h => ⟨fun _ e => Except.ok.inj e ▸ h, fun _ _ e => nomatch e⟩⟩

@[simp] theorem Res.meets_pure {a : α} : Res.Meets (pure a) n P ↔ P a := Res.meets_ok

theorem Res.Meets.answer {a : α} (h : P a) : Res.Meets (.ok a) n P := Res.meets_ok.2 h

theorem Res.Tame.answer {a : α} : Res.Tame (.ok a) n := Res.Meets.answer trivial

@[simp] theorem Res.meets_bind {f : α → Res β} : (r >>= f).Meets n Q ↔ r.Meets n fun a => (f a).Meets n Q := by
  constructor
  · intro h
    refine ⟨fun a ha => ⟨fun b hb => ?_, fun e ps hf => ?_⟩, fun e ps hr => ?_⟩
    · exact h.ok b (Res.bind_eq_ok.2 ⟨a, ha, hb⟩)
    · exact h.raise e ps (Res.bind_eq_error.2 (.inr ⟨a, ha, hf⟩))
    · exact h.raise e ps (Res.bind_eq_error.2 (.inl hr))
  · intro h
    refine ⟨fun b hb => ?_, fun e ps hr => ?_⟩
    · obtain ⟨a, ha, hb⟩ := Res.bind_eq_ok.1 hb
      exact (h.ok a ha).ok b hb
    · obtain hr | ⟨a, ha, hf⟩ := Res.bind_eq_error.1 hr
      · exact h.raise e ps hr
      · exact (h.ok a ha).raise e ps hf

/-- One part after another: what the first one meets is all the second one needs. -/
theorem Res.Meets.bind {f : α → Res β} (h : r.Meets n P) (hf : ∀ a, P a → (f a).Meets n Q) : (r >>= f).Meets n Q :=
  Res.meets_bind.2 ⟨fun a ha => hf a (h.ok a ha), h.raise⟩

/-- One part after another, when the second one needs nothing of a tame first. -/
theorem Res.Tame.bind {f : α → Res β} (hf : ∀ a, (f a).Meets n Q) (h : r.Meets n fun _ => True := by simp) :
    (r >>= f).Meets n Q :=
  Res.Meets.bind h fun a _ => hf a

@[simp] theorem Res.meets_map {f : α → β} : (f <$> r).Meets n Q ↔ r.Meets n fun a => Q (f a) := by
  rw [← bind_pure_comp, Res.meets_bind]
  simp only [Res.meets_pure]

@[simp] theorem Res.meets_exceptMap {f : α → β} : Res.Meets (Except.map f r) n Q ↔ r.Meets n fun a => Q (f a) :=
  Res.meets_map

@[simp] theorem Res.meets_ite {c : Prop} [Decidable c] {r' : Res α} :
    (if c then r else r').Meets n P ↔ (c → r.Meets n P) ∧ (¬ c → r'.Meets n P) := by
  split <;> simp_all

@[simp] theorem fail_meets {code : FaultCode} {aux : Nat} : Res.Meets (fail code aux) n P :=
  ⟨fun _ e => (nomatch e), fun _ _ e => by cases e; exact Leftover.allSafe_nil⟩

@[simp] theorem require_meets {c : Bool} {code : FaultCode} {aux : Nat} {P : Unit → Prop} :
    (require c code aux).Meets n P ↔ (c = true → P ()) := by
  cases c <;> simp [require]

@[simp] theorem leaving_meets {ps : List Leftover} (hp : Leftover.AllSafe n ps) :
    (leaving ps r).Meets n P ↔ r.Meets n P := by
  refine ⟨fun h => ⟨fun a ha => h.ok a (leaving_eq_ok.2 ha), fun f qs hr => ?_⟩,
    fun h => ⟨fun a ha => h.ok a (leaving_eq_ok.1 ha), fun f left hr => ?_⟩⟩
  · exact (Leftover.allSafe_append.1 (h.raise f _ (leaving_eq_raise.2 ⟨qs, hr, rfl⟩))).1
  · obtain ⟨qs, hq, rfl⟩ := leaving_eq_raise.1 hr
    exact Leftover.allSafe_append.2 ⟨h.raise f qs hq, hp⟩

theorem Res.Meets.leaving {ps : List Leftover} (h : r.Meets n P) (hp : Leftover.AllSafe n ps := by simp) :
    (leaving ps r).Meets n P :=
  (leaving_meets hp).2 h

theorem Res.Meets.leavingPastOverlap {ps : List Leftover} (h : r.Meets n P) (hp : Leftover.AllSafe n ps := by simp) :
    (leavingPastOverlap ps r).Meets n P := by
  refine ⟨fun a ha => h.ok a (leavingPastOverlap_eq_ok.1 ha), fun f left hr => ?_⟩
  obtain ⟨qs, hq, rfl⟩ := leavingPastOverlap_eq_raise.1 hr
  split
  · exact h.raise f qs hq
  · exact Leftover.allSafe_append.2 ⟨h.raise f qs hq, hp⟩

@[simp] theorem requireDisjoint_tame (p q : Region) : (requireDisjoint p q).Tame n :=
  .intro (by simp [requireDisjoint])

@[simp] theorem requireDisjoint3_tame (p q w : Region) : (requireDisjoint3 p q w).Tame n :=
  .intro (by simp [requireDisjoint3])

end Results

/-- Whatever the outcome, a next state meets the invariant. -/
def Outcome.KeepsInv (o : Outcome) : Prop := ∀ t, o = .next t → t.Inv

theorem Outcome.keepsInv_next {t : State} : Outcome.KeepsInv (.next t) ↔ t.Inv := by
  simp [Outcome.KeepsInv]

theorem Outcome.keepsInv_fault {r : Fault} : Outcome.KeepsInv (.fault r) := by simp [Outcome.KeepsInv]

/-- The end of a command keeps the invariant when the command's result meets it. -/
theorem State.Inv.finish {s : State} (h : s.Inv) {r : Res State} (hr : r.Meets s.memSize State.Inv) :
    Outcome.KeepsInv (finish s r) := by
  intro t ht
  obtain ⟨u, hu, rfl⟩ | ⟨f, ps, hf, rfl⟩ := finish_eq_next.1 ht
  · exact (hr.ok u hu).advance
  · exact (h.leaveAll (hr.raise f ps hf)).takeFault f

/-- A command that only updates the state. -/
theorem State.Inv.finish_ok {s t : State} (h : s.Inv) (ht : t.Inv) : Outcome.KeepsInv (Machine.finish s (.ok t)) :=
  h.finish (.answer ht)

/-! ### STATUS -/

/-- STATUS is no RW CSR (R35, R40). -/
theorem Csr.ne_status_of_rw {c : Csr} (hc : c.access = .rw) : c ≠ .status := by
  rintro rfl
  cases hc

/-- The values of STATUS, field by field (R40). -/
theorem statusLegal_iff {st : Word} : statusLegal st = true ↔
    (statusBusy st = true → statusDone st = false ∧ statusFault st = false) ∧
      (statusDone st = true → statusFault st = false) ∧ (statusFault st = false → statusErrcode st = 0) ∧
      st &&& ~~~Csr.mask .status = 0 := by
  simp only [statusLegal, Bool.and_eq_true, Bool.not_eq_true', beq_iff_eq]
  cases statusBusy st <;> cases statusDone st <;> cases statusFault st <;> simp

/-- HALT runs with BUSY = 1, so STATUS has no FAULT and no ERRCODE: DONE alone is set (R40, R176). -/
theorem statusLegal_halted {st : Word} (hb : statusBusy st = true) (hl : statusLegal st = true) :
    statusLegal (statusHalted st &&& Csr.mask .status) = true := by
  obtain ⟨hbusy, -, hcode, -⟩ := statusLegal_iff.1 hl
  have hfault : st[2] = false := (hbusy hb).2
  have herr : st.extractLsb' 8 4 = 0#4 := hcode (hbusy hb).2
  refine statusLegal_iff.2 ⟨?_, ?_, ?_, ?_⟩
  · simp [statusBusy, statusHalted]
  · simp [statusFault, statusHalted, hfault]
  · simp [statusErrcode, statusHalted, Csr.mask, BitVec.extractLsb'_and, BitVec.extractLsb'_or, herr]
  · rw [BitVec.and_assoc, BitVec.and_not_self]; exact BitVec.and_zero

/-- STATUS put together from its fields is legal when they fit each other (R40). -/
theorem statusLegal_fields : ∀ (code : BitVec 4) (fault done busy : Bool),
    (busy = true → done = false ∧ fault = false) → (done = true → fault = false) → (fault = false → code = 0) →
    statusLegal (BitVec.setWidth 32
      (code ++ 0#5 ++ BitVec.ofBool fault ++ BitVec.ofBool done ++ BitVec.ofBool busy) &&& Csr.mask .status) = true := by
  decide

/-- The host's write only clears fields, and ERRCODE with FAULT (R40). -/
theorem statusLegal_hostWrite {st : Word} (v : Word) (hl : statusLegal st = true) :
    statusLegal (statusHostWrite st v &&& Csr.mask .status) = true := by
  obtain ⟨hbusy, hdone, -, -⟩ := statusLegal_iff.1 hl
  refine statusLegal_fields _ _ _ _ (fun hb => ?_) (fun hd => ?_) (fun hf => ?_)
  · simp [hbusy hb]
  · simp [hdone (Bool.and_eq_true_iff.1 hd).1]
  · simp [hf]

/-! ### Reads and writes of MEM -/

section Bytes

variable {n : Nat}

@[simp] theorem State.checkRange_meets {s : State} {a k : Nat} {P : Unit → Prop} :
    (s.checkRange a k).Meets n P ↔ (k = 0 ∨ a + k ≤ s.memSize → P ()) := by
  simp only [State.checkRange, Res.meets_ite, Res.meets_ok, fail_meets, implies_true, and_true]

@[simp] theorem State.byteAt_tame (s : State) (a : Nat) : (s.byteAt a).Tame n := by
  unfold State.byteAt
  split
  · exact .answer
  · exact ⟨fun _ _ => trivial, fun _ _ e => nomatch e⟩

@[simp] theorem State.readByte_tame (s : State) (a : Nat) : (s.readByte a).Tame n :=
  .intro (by simp [State.readByte])

@[simp] theorem State.readBytes_tame (s : State) (a k : Nat) : (s.readBytes a k).Tame n := by
  induction k generalizing a with
  | zero => exact .answer
  | succ k ih => exact .intro (by simp [State.readBytes, ih])

@[simp] theorem State.memRead_tame (s : State) (a k : Nat) : (s.memRead a k).Tame n :=
  .intro (by simp [State.memRead])

theorem State.storeBytes_meets {s : State} (h : s.Inv) (a : Nat) (bs : List Byte) :
    (s.storeBytes a bs).Meets n State.Inv := by
  simp only [State.storeBytes, Res.meets_bind, State.checkRange_meets, List.length_eq_zero_iff, Res.meets_pure]
  exact h.putMem

@[simp] theorem State.copyFrom_tame (s : State) (src dst k : Nat) : (s.copyFrom src dst k).Tame n := by
  induction k generalizing src dst with
  | zero => exact .answer
  | succ k ih => exact .intro (by simp [State.copyFrom, ih])

/-! ### The bit reader and the bit writer -/

@[simp] theorem Reader.readBit_tame (rd : Reader) (s : State) (p : Nat) : (rd.readBit s p).Tame n :=
  .intro (by simp [Reader.readBit])

@[simp] theorem Reader.readBitsLoop_tame (rd : Reader) (s : State) (k i v p : Nat) :
    (rd.readBitsLoop s k i v p).Tame n := by
  induction k generalizing i v p with
  | zero => exact .answer
  | succ k ih => exact .intro (by simp [Reader.readBitsLoop, ih])

@[simp] theorem Reader.requireBits_tame (rd : Reader) (p k : Nat) : (rd.requireBits p k).Tame n :=
  .intro (by simp [Reader.requireBits])

@[simp] theorem Reader.readBits_tame (rd : Reader) (s : State) (p k : Nat) : (rd.readBits s p k).Tame n :=
  .intro (by simp [Reader.readBits])

@[simp] theorem State.commitCheck_tame (s : State) (base cap k len : Nat) : (s.commitCheck base cap k len).Tame n := by
  induction k generalizing len with
  | zero => exact .answer
  | succ k ih => exact .intro (by simp [State.commitCheck, ih])

theorem State.commit_meets {s : State} (h : s.Inv) (k : Packer) : (s.commit k).Meets n State.Inv := by
  have ht : (s.commit k).Tame n := .intro (by simp [State.commit])
  refine (Res.meets_of_tame ht).2 fun t hc => ?_
  obtain ⟨hfit, rfl⟩ := State.commit_eq_ok.1 hc
  refine (h.putMem ?_).setCsr.setCsr.setCsr
  rcases hfit with hk | ⟨-, hk⟩
  · exact .inl (by rw [hk]; rfl)
  · exact .inr (by rwa [List.length_reverse])

@[simp] theorem State.writerLeftBytes_safe (s : State) (k : Nat) : Leftover.AllSafe n (s.writerLeftBytes k) := by
  simp [State.writerLeftBytes, writerCsrsLeft, State.writerRoomLeft]

@[simp] theorem State.writerLeft_safe (s : State) (k : Nat) : Leftover.AllSafe n (s.writerLeft k) :=
  s.writerLeftBytes_safe _

end Bytes

/-! ### Bytes that a loop has checked as writes -/

section Room

variable {s : State} {n a : Nat}

theorem State.RoomFor.cons {bs : List Byte} (h : s.RoomFor (a + 1) bs) (ha : a < s.memSize) (b : Byte) :
    s.RoomFor a (b :: bs) := by
  right
  rw [List.length_cons]
  rcases h with rfl | h
  · rw [List.length_nil]; omega
  · omega

theorem State.RoomFor.append {xs ys : List Byte} (hx : s.RoomFor a xs) (hy : s.RoomFor (a + xs.length) ys) :
    s.RoomFor a (xs ++ ys) := by
  rcases hy with rfl | hy
  · rwa [List.append_nil]
  · right; rw [List.length_append]; omega

theorem State.RoomFor.reverse {bs : List Byte} (h : s.RoomFor a bs) : s.RoomFor a bs.reverse := by
  rwa [State.RoomFor, List.reverse_eq_nil_iff, List.length_reverse]

theorem State.copyFrom_meets (s : State) (src dst k : Nat) :
    (s.copyFrom src dst k).Meets n fun bs => bs.length = k ∧ s.RoomFor dst bs := by
  refine (Res.meets_of_tame (s.copyFrom_tame src dst k)).2 fun bs hbs => ?_
  obtain ⟨hlen, -, hroom⟩ := State.copyFrom_eq_ok.1 hbs
  exact ⟨hlen, by rwa [State.RoomFor, ← List.length_eq_zero_iff, hlen]⟩

/-- UNSTUFF puts out only bytes that it has checked as writes (R216). -/
theorem unstuffLoop_meets (s : State) (src k dst fuel i : Nat) {out : List Byte} (h : s.RoomFor dst out) :
    (unstuffLoop s src k dst fuel i out.length out).Meets n fun r => s.RoomFor dst r.1 := by
  induction fuel generalizing i out with
  | zero => exact fail_meets
  | succ fuel ih =>
    have stored (b : Byte) (j : Nat) :
        (do s.checkRange (dst + out.length) 1
            unstuffLoop s src k dst fuel j (out.length + 1) (b :: out)).Meets n fun r => s.RoomFor dst r.1 :=
      Res.meets_bind.2 (State.checkRange_meets.2 fun hd => ih j (out := b :: out) (.inr (by rw [List.length_cons]; omega)))
    refine Res.Tame.bind fun _ => Res.Tame.bind fun b => Res.meets_ite.2 ⟨fun _ => stored b _, fun _ => ?_⟩
    refine Res.Tame.bind fun _ => Res.Tame.bind fun c => Res.meets_ite.2 ⟨fun _ => stored _ _, fun _ => ?_⟩
    refine Res.meets_ite.2 ⟨fun _ => ih _ h, fun _ => Res.meets_ite.2 ⟨fun _ => ?_, fun _ => stored _ _⟩⟩
    exact .answer h.reverse

@[simp] theorem sbScan_tame (s : State) (src fuel i total : Nat) (segs : List Region) :
    (sbScan s src fuel i total segs).Tame n := by
  induction fuel generalizing i total segs with
  | zero => exact fail_meets
  | succ fuel ih => exact .intro (by simp [sbScan, ih])

theorem gatherCopy_meets (s : State) (segs : List Region) (dst : Nat) :
    (gatherCopy s segs dst).Meets n (s.RoomFor dst) := by
  induction segs generalizing dst with
  | nil => exact .answer (.inl rfl)
  | cons seg segs ih =>
    refine (s.copyFrom_meets seg.base dst seg.len).bind fun bs ⟨hlen, hbs⟩ => ?_
    refine (ih (dst + seg.len)).bind fun rest hrest => ?_
    exact .answer (hbs.append (by rwa [hlen]))

theorem splitLoop_meets (s : State) (fuel src k dst : Nat) :
    (splitLoop s fuel src k dst).Meets n (s.RoomFor dst) := by
  induction fuel generalizing src k dst with
  | zero => exact .answer (.inl rfl)
  | succ fuel ih =>
    refine Res.meets_bind.2 (State.checkRange_meets.2 fun hd => ?_)
    split
    · exact .answer (.inr (by simpa using hd))
    · refine (s.copyFrom_meets src (dst + 1) _).bind fun bs ⟨hlen, hbs⟩ => ?_
      refine (ih _ _ _).bind fun rest hrest => ?_
      exact .answer ((hbs.append (by rwa [hlen])).cons (by omega) _)

end Room

/-! ### The engine control and bit stream commands -/

section Commands

variable {s : State} (h : s.Inv)
include h

theorem execHalt_keepsInv (hb : s.busy = true) : Outcome.KeepsInv (execHalt s) :=
  Outcome.keepsInv_next.2 (h.advance.setCsr_of_legal fun _ => statusLegal_halted hb h.status)

theorem execCsrr_keepsInv (ra : Reg) (csr : BitVec 12) : Outcome.KeepsInv (execCsrr ra csr s) := by
  refine h.finish ?_
  split
  · exact .answer h.setX
  · exact fail_meets

theorem execCsrw_keepsInv (rb : Reg) (csr : BitVec 12) : Outcome.KeepsInv (execCsrw rb csr s) := by
  refine h.finish ?_
  split
  · next c _ =>
    refine Res.meets_ite.2 ⟨fun hc => ?_, fun _ => fail_meets⟩
    exact .answer (h.setCsr (Csr.ne_status_of_rw hc))
  · exact fail_meets

theorem execLbu_keepsInv (ra rb : Reg) (imm12 : BitVec 12) : Outcome.KeepsInv (execLbu ra rb imm12 s) :=
  h.finish (Res.Tame.bind fun _ => .answer h.setX)

theorem execRdbits_keepsInv (ra : Reg) (n : BitVec 5) : Outcome.KeepsInv (execRdbits ra n s) :=
  h.finish (Res.Tame.bind fun _ => Res.Tame.bind fun _ => .answer h.setX.setCsr)

theorem execAlign_keepsInv : Outcome.KeepsInv (execAlign s) :=
  h.finish (Res.Tame.bind fun _ => .answer h.setCsr)

theorem execUnstuff_keepsInv (ra rb rc : Reg) : Outcome.KeepsInv (execUnstuff ra rb rc s) := by
  refine h.finish (Res.Tame.bind fun _ => ?_)
  refine (unstuffLoop_meets s _ _ _ _ _ (.inl rfl)).leaving.bind fun r hr => ?_
  exact .answer (h.putMem hr).setX.setCsr

theorem execWrbits_keepsInv (rb : Reg) (n : BitVec 5) : Outcome.KeepsInv (execWrbits rb n s) :=
  h.finish (Res.Tame.bind fun _ => State.commit_meets h _).leaving

theorem execBwflush_keepsInv (ra : Reg) (pad : Bool) : Outcome.KeepsInv (execBwflush ra pad s) :=
  h.finish ((State.commit_meets h _).leaving.bind fun _ ht => .answer ht.setX)

theorem execSbgather_keepsInv (ra rb rc : Reg) : Outcome.KeepsInv (execSbgather ra rb rc s) := by
  refine h.finish (Res.Tame.bind fun ⟨segs, total, consumed⟩ => ?_)
  refine Res.Tame.bind fun _ => Res.Tame.bind fun _ => ?_
  refine (gatherCopy_meets s segs _).leaving.bind fun out hout => ?_
  exact .answer (h.putMem hout).setX.setCsr

theorem execSbsplit_keepsInv (ra rb rc : Reg) : Outcome.KeepsInv (execSbsplit ra rb rc s) := by
  refine h.finish (Res.Tame.bind fun _ => ?_)
  refine (splitLoop_meets s _ _ _ _).leaving.bind fun out hout => ?_
  exact .answer (h.putMem hout).setX

end Commands

/-! ### Samples are finite (R51) -/

/-- A rounded value whose magnitude bits are below those of the infinity is finite (R331). -/
theorem f64Round_isFinite {neg : Bool} {num den : Nat} (h : f64RoundMag num den < f64InfBits) :
    Binary64.isFinite (f64Round neg num den) = true := by
  have hexp : ((f64Round neg num den).extractLsb' 52 11).toNat = f64RoundMag num den / 2 ^ 52 := by
    rw [f64Round, BitVec.extractLsb'_append_eq_of_add_le (by decide), BitVec.extractLsb'_toNat, BitVec.toNat_ofNat,
      Nat.shiftRight_eq_div_pow]
    unfold f64InfBits at h
    omega
  unfold Binary64.isFinite
  refine bne_iff_ne.2 fun e => ?_
  rw [e] at hexp
  unfold f64InfBits at h
  change 2047 = _ at hexp
  omega

theorem lt_two_pow_bitlen (n : Nat) : n < 2 ^ bitlen n := by
  unfold bitlen
  split
  · next h => simp [h]
  · exact Nat.lt_log2_self

theorem bitlen_le {n k : Nat} (h : n < 2 ^ k) : bitlen n ≤ k := by
  unfold bitlen
  split
  · exact Nat.zero_le k
  · next h0 => exact (Nat.log2_lt h0).2 h

theorem divNearestEven_le (num den : Nat) : divNearestEven num den ≤ num / den + 1 := by
  simp only [divNearestEven]
  split_ifs <;> omega

/-- A value below 2^k units has magnitude bits of an exponent field at most k - 51 (R331). -/
theorem f64RoundMag_le {num k : Nat} (h : num < 2 ^ k) : f64RoundMag num 1 ≤ (k - 53 + 2) * 2 ^ 52 := by
  have hshift : bitlen num - 53 ≤ k - 53 := Nat.sub_le_sub_right (bitlen_le h) 53
  have hquot : num / 2 ^ (bitlen num - 53) < 2 ^ 53 := by
    refine Nat.div_lt_of_lt_mul ((lt_two_pow_bitlen num).trans_le ?_)
    rw [← Nat.pow_add]
    exact Nat.pow_le_pow_right (by decide) (by omega)
  have hround := divNearestEven_le num (2 ^ (bitlen num - 53))
  simp only [f64RoundMag, Nat.div_one, Nat.one_mul]
  split
  · exact Nat.zero_le _
  · refine (Nat.min_le_left _ _).trans ?_
    calc (bitlen num - 53) * 2 ^ 52 + divNearestEven num (2 ^ (bitlen num - 53))
        ≤ (k - 53) * 2 ^ 52 + 2 ^ 53 := Nat.add_le_add (Nat.mul_le_mul_right _ hshift) (hround.trans hquot)
      _ = (k - 53 + 2) * 2 ^ 52 := by ring

theorem scaled_lt {m : Nat} (h : m ≤ 2 ^ 31) (k : Nat) : m * 2 ^ k < 2 ^ (32 + k) := by
  rw [Nat.pow_add]
  exact Nat.mul_lt_mul_of_pos_right (by omega) (Nat.two_pow_pos k)

/-- An integer in the range of a coefficient is finite as a sample (R351). -/
theorem f64OfInt_isFinite {i : Int} (h : i.natAbs ≤ 2 ^ 31) : Binary64.isFinite (f64OfInt i) = true :=
  f64Round_isFinite (Nat.lt_of_le_of_lt (f64RoundMag_le (scaled_lt h 1074)) (by decide))

theorem natAbs_toInt_le (w : Word) : (s32 w).natAbs ≤ 2 ^ 31 := by
  change w.toInt.natAbs ≤ 2 ^ 31
  have h1 := BitVec.le_toInt w
  have h2 := BitVec.toInt_lt (x := w)
  omega

theorem finiteOr_isFinite (k : Nat) (d : Binary64) : Binary64.isFinite (finiteOr k d) = true := by
  unfold finiteOr
  split
  · assumption
  · exact freeFiniteSample_isFinite k

theorem transformElement_isFinite (inverse : Bool) (s : State) (i : Nat) :
    Binary64.isFinite (transformElement inverse s i) = true := by
  unfold transformElement
  split
  · exact finiteOr_isFinite _ _
  · dsimp only
    split
    · exact freeFiniteSample_isFinite _
    · split
      · next hb => exact (Bool.and_eq_true_iff.1 hb).1
      · exact freeFiniteSample_isFinite _

theorem blockAt_isFinite {s : State} (h : s.Inv) (i : Nat) : Binary64.isFinite (blockAt s.sfile i 0) = true := by
  unfold blockAt
  by_cases hi : i < 64
  · simpa [List.getD_eq_getElem?_getD, hi, Vector.get_eq_getElem] using h.sFinite ⟨i, hi⟩
  · have hz : s.sfile.toList.getD i 0 = 0 := List.getD_eq_default _ _ (by simpa using hi)
    rw [hz]; rfl

/-! ### The block commands -/

section Block

variable {n : Nat}

@[simp] theorem toInt32_tame (i : Int) : (toInt32 i).Tame n := .intro (by simp [toInt32])

/-- Each element of a collected list is what its own computation answers. -/
theorem collect_meets {α : Type} {f : Nat → Res α} {Q : α → Prop} (hf : ∀ i, (f i).Meets n Q) (i k : Nat) :
    (collect f i k).Meets n fun as => as.length = k ∧ ∀ a ∈ as, Q a := by
  induction k generalizing i with
  | zero => exact .answer ⟨rfl, by simp⟩
  | succ k ih =>
    refine (hf i).bind fun a ha => (ih (i + 1)).bind fun as ⟨hlen, has⟩ => ?_
    exact .answer ⟨by rw [List.length_cons, hlen], List.forall_mem_cons.2 ⟨ha, has⟩⟩

theorem collectBlock_meets {α : Type} {d : α} {f : Nat → Res α} {Q : α → Prop} (hf : ∀ i, (f i).Meets n Q) :
    (collectBlock d f).Meets n fun v => ∀ i : Fin 64, Q (v.get i) := by
  refine (collect_meets hf 0 64).bind fun as ⟨hlen, has⟩ => .answer fun i => ?_
  have hi : i.val < as.length := by omega
  simp only [blockOf, Vector.get_eq_getElem, Vector.getElem_ofFn, List.getD_eq_getElem _ _ hi]
  exact has _ (List.getElem_mem hi)

theorem collectBlock_tame {α : Type} {d : α} {f : Nat → Res α} (hf : ∀ i, (f i).Tame n) : (collectBlock d f).Tame n :=
  (collectBlock_meets hf).tame

@[simp] theorem quantPrefix_tame (s : State) (a : Nat) (q : BitVec 4) (pfx : Bool) : (quantPrefix s a q pfx).Tame n :=
  .intro (by simp [quantPrefix])

@[simp] theorem State.requireTable_tame (s : State) (q : BitVec 4) : (s.requireTable q).Tame n :=
  .intro (by simp [State.requireTable])

@[simp] theorem quantElement_tame (s : State) (q : BitVec 4) (order : TableOrder) (i : Nat) :
    (quantElement s q order i).Tame n :=
  .intro (by simp [quantElement, f64ToInt32])

/-- SSTB stores inside MEM only, whether it completes or faults on the way (R342). -/
theorem sstbLoop_meets (s : State) (rb rc : Reg) (shift : Bool) (i k : Nat) {done : List Host.Cell}
    (h : ∀ c ∈ done, c.1 < s.memSize) :
    (sstbLoop s rb rc shift i k done).Meets s.memSize fun cells => ∀ c ∈ cells, c.1 < s.memSize := by
  have hrev {cells : List Host.Cell} (hc : ∀ c ∈ cells, c.1 < s.memSize) : ∀ c ∈ cells.reverse, c.1 < s.memSize :=
    fun c hm => hc c (List.mem_reverse.1 hm)
  induction k generalizing i done with
  | zero => exact .answer (hrev h)
  | succ k ih =>
    have hleft : Leftover.AllSafe s.memSize [.stored done.reverse] :=
      Leftover.allSafe_cons.2 ⟨hrev h, Leftover.allSafe_nil⟩
    refine Res.meets_bind.2 ((leaving_meets hleft).2 (State.checkRange_meets.2 fun hd => ?_))
    exact ih (i + 1) (List.forall_mem_cons.2 ⟨by omega, h⟩)

end Block

section BlockCommands

variable {s : State} (h : s.Inv)
include h

/-- S may be computed element by element, when every element is finite. -/
theorem State.Inv.setSfile_blockOf {f : Nat → Binary64} {draws : Nat} (hf : ∀ i, Binary64.isFinite (f i) = true) :
    ({ s with sfile := blockOf f, draws := draws } : State).Inv :=
  h.setSfile fun i => by
    rw [blockOf, Vector.get_eq_getElem, Vector.getElem_ofFn]
    exact hf i

theorem State.Inv.transformed (inverse : Bool) : (s.transformed inverse).Inv :=
  h.setSfile_blockOf (transformElement_isFinite inverse s)

theorem execQload_keepsInv (ra rb : Reg) (q : BitVec 4) (pfx : Bool) (tord : TableOrder) :
    Outcome.KeepsInv (execQload ra rb q pfx tord s) := by
  refine h.finish (Res.Tame.bind fun _ => Res.Tame.bind (fun _ => .answer (h.setTable _ _).setX) ?_)
  exact collectBlock_tame (by simp)

/-- A byte of MEM, shifted or not, is finite as a sample (R336, R341). -/
theorem execSldb_keepsInv (rb rc : Reg) (shift : Bool) : Outcome.KeepsInv (execSldb rb rc shift s) := by
  refine h.finish (Res.Meets.leaving ?_)
  refine (collectBlock_meets (Q := fun d => Binary64.isFinite d = true) fun i => ?_).bind fun _ hb => .answer (h.setSfile hb)
  refine Res.Tame.bind fun b => .answer (f64OfInt_isFinite ?_)
  have := b.isLt
  simp only [levelShift]
  split <;> omega

theorem execSstb_keepsInv (rb rc : Reg) (shift : Bool) : Outcome.KeepsInv (execSstb rb rc shift s) :=
  h.finish ((sstbLoop_meets s rb rc shift 0 64 (by simp)).bind fun _ hcells => .answer (h.putCells hcells))

/-- A command that computes K and leaves it unspecified on a fault. -/
theorem State.Inv.finish_kfile {f : Nat → Res Word} {pre : Res Unit} (hpre : pre.Tame s.memSize)
    (hf : ∀ i, (f i).Tame s.memSize) : Outcome.KeepsInv (Machine.finish s (leaving [.kFile] do
      pre
      let block ← collectBlock 0 f
      return { s with kfile := block })) := by
  refine h.finish (Res.Meets.leaving (Res.Tame.bind (fun _ => ?_) hpre))
  exact Res.Tame.bind (fun _ => .answer h.setKfile) (collectBlock_tame hf)

theorem execKld_keepsInv (rb : Reg) : Outcome.KeepsInv (execKld rb s) := by
  refine h.finish (Res.Tame.bind (fun _ => .answer h.setKfile) (collectBlock_tame ?_)).leaving
  exact fun _ => .intro (by simp)

theorem execKst_keepsInv (rb : Reg) : Outcome.KeepsInv (execKst rb s) :=
  h.finish ((State.storeBytes_meets h _ _).leaving (by simp [State.kstLeft]))

theorem execQuant_keepsInv (q : BitVec 4) (order : TableOrder) : Outcome.KeepsInv (execQuant q order s) :=
  h.finish_kfile (by simp) (by simp)

theorem execDequant_keepsInv (q : BitVec 4) (order : TableOrder) : Outcome.KeepsInv (execDequant q order s) :=
  h.finish_kfile (by simp) (by simp [dequantElement])

theorem execCvtsk_keepsInv : Outcome.KeepsInv (execCvtsk s) := 
  h.finish_kfile (pre := .ok ()) .answer (by simp [f64ToInt32])

theorem execZzfwd_keepsInv (file : BlockFile) : Outcome.KeepsInv (execZzfwd file s) := by
  cases file with
  | k => exact h.finish_ok h.setKfile
  | s => exact h.finish_ok (h.setSfile_blockOf fun k => blockAt_isFinite h (zz k))

theorem execZzinv_keepsInv (file : BlockFile) : Outcome.KeepsInv (execZzinv file s) := by
  cases file with
  | k => exact h.finish_ok h.setKfile
  | s => exact h.finish_ok (h.setSfile_blockOf fun n => blockAt_isFinite h (zi n))

theorem execCvtks_keepsInv : Outcome.KeepsInv (execCvtks s) :=
  h.finish_ok (h.setSfile_blockOf fun i => f64OfInt_isFinite (natAbs_toInt_le (blockAt s.kfile i 0)))

end BlockCommands

/-! ### The Huffman commands -/

section Huffman

variable {n : Nat}

@[simp] theorem huffWalk_tame (rd : Reader) (s : State) (syms : List Byte) (counts : List Nat) (first off code p : Nat) :
    (huffWalk rd s syms counts first off code p).Tame n := by
  induction counts generalizing first off code p with
  | nil => exact .intro (by simp [huffWalk])
  | cons c counts ih => exact .intro (by simp [huffWalk, ih])

@[simp] theorem huffDecode_tame (rd : Reader) (s : State) (t : HuffSlot) (p : Nat) : (huffDecode rd s t p).Tame n :=
  huffWalk_tame ..

@[simp] theorem codeTable_tame (t : HuffSlot) : (codeTable t).Tame n := .intro (by simp [codeTable])

@[simp] theorem huffCode_tame (t : HuffSlot) (v : Nat) : (huffCode t v).Tame n := by
  refine Res.Tame.bind fun table => ?_
  split
  · exact .answer trivial
  · exact fail_meets

@[simp] theorem State.requireSlot_tame (s : State) (i : BitVec 5) : (s.requireSlot i).Tame n :=
  .intro (by simp [State.requireSlot])

@[simp] theorem tablePrefix_tame (s : State) (a : Nat) (slot : BitVec 5) (pfx : Bool) :
    (tablePrefix s a slot pfx).Tame n :=
  .intro (by simp [tablePrefix])

@[simp] theorem bodyOfEntries_tame (es : List CodeEntry) : (bodyOfEntries es).Tame n :=
  .intro (by simp [bodyOfEntries])

theorem State.readBytes_meets (s : State) (a k : Nat) : (s.readBytes a k).Meets n fun bs => bs.length = k :=
  (Res.meets_of_tame (s.readBytes_tame a k)).2 fun _ hbs => (State.readBytes_eq_ok.1 hbs).1

/-- The counts of a slot are the 16 histogram bytes it was read from. -/
theorem histOf_toList {bs : List Byte} (h : bs.length = 16) : (histOf bs).toList = bs := by
  refine List.ext_getElem (by simp [h]) fun i _ hi => ?_
  simp [histOf, List.getElem?_eq_getElem hi]

/-- A table body that HBUILD accepts makes a well-formed slot (R50, R265). -/
theorem readTable_meets (s : State) (a : Nat) : (readTable s a).Meets n fun r => r.1.wf = true := by
  refine (s.readBytes_meets a 16).bind fun hist hhist => ?_
  refine Res.meets_bind.2 (require_meets.2 fun hmax => ?_)
  refine (s.readBytes_meets (a + 16) _).bind fun syms hsyms => ?_
  refine Res.meets_bind.2 (require_meets.2 fun htree => ?_)
  have hcounts : (HuffSlot.mk (histOf hist) syms).counts = hist.map BitVec.toNat := by
    rw [HuffSlot.counts, histOf_toList hhist]
  refine .answer ?_
  simp [HuffSlot.wf, hcounts, hsyms, htree, of_decide_eq_true hmax]

end Huffman

section HuffmanCommands

variable {s : State} (h : s.Inv)
include h

theorem execHbuild_keepsInv (ra rb : Reg) (slot : BitVec 5) (pfx : Bool) :
    Outcome.KeepsInv (execHbuild ra rb slot pfx s) := by
  refine h.finish (Res.Tame.bind fun ⟨i, a⟩ => ?_)
  exact (readTable_meets s a).bind fun ⟨t, nsym⟩ ht => .answer (h.setSlot i ht).setX

theorem execHdec_keepsInv (ra : Reg) (slot : BitVec 5) : Outcome.KeepsInv (execHdec ra slot s) := by
  exact h.finish (Res.Tame.bind fun _ => Res.Tame.bind fun _ => .answer h.setX.setCsr).leaving

theorem execHctab_keepsInv (rb : Reg) (slot : BitVec 5) : Outcome.KeepsInv (execHctab rb slot s) := by
  refine h.finish (Res.Tame.bind fun _ => Res.Tame.bind fun table => ?_)
  exact (State.storeBytes_meets h _ _).leaving (by simp [State.hctabLeft])

theorem execHenc_keepsInv (rb : Reg) (slot : BitVec 5) : Outcome.KeepsInv (execHenc rb slot s) := by
  exact h.finish (Res.Tame.bind fun _ => Res.Tame.bind fun _ => State.commit_meets h _).leaving

theorem execHfroment_keepsInv (ra rb rc : Reg) : Outcome.KeepsInv (execHfroment ra rb rc s) := by
  refine h.finish (Res.Tame.bind fun _ => Res.Tame.bind fun _ => ?_)
  refine Res.Tame.bind fun _ => Res.Tame.bind fun body => ?_
  exact (State.storeBytes_meets h _ body).bind fun _ ht => .answer ht.setX

end HuffmanCommands

/-! ### The coefficient commands -/

section Coefficients

variable {n : Nat}

@[simp] theorem readExtended_tame (rd : Reader) (s : State) (t p : Nat) : (readExtended rd s t p).Tame n :=
  .intro (by simp [readExtended])

@[simp] theorem acLoop_tame (rd : Reader) (s : State) (slot : HuffSlot) (fuel k p : Nat) (block : Vector Word 64) :
    (acLoop rd s slot fuel k p block).Tame n := by
  induction fuel generalizing k p block with
  | zero => exact .answer
  | succ fuel ih => exact .intro (by simp [acLoop, ih])

@[simp] theorem decodeBlock_tame (s : State) (dc ac : BitVec 5) (pred : Word) : (decodeBlock s dc ac pred).Tame n :=
  .intro (by simp [decodeBlock])

@[simp] theorem acCodes_tame (slot : HuffSlot) (ws : List Word) (run : Nat) : (acCodes slot ws run).Tame n := by
  induction ws generalizing run with
  | nil => exact .intro (by simp [acCodes])
  | cons w ws ih => exact .intro (by simp [acCodes, ih])

@[simp] theorem dcCodes_tame (slot : HuffSlot) (diff : Int) : (dcCodes slot diff).Tame n :=
  .intro (by simp [dcCodes])

@[simp] theorem encodeBlock_tame (s : State) (dc ac : BitVec 5) (pred : Word) : (encodeBlock s dc ac pred).Tame n :=
  .intro (by simp [encodeBlock])

theorem Csr.pred_ne_status (p : BitVec 2) : Csr.pred p ≠ .status := by
  unfold Csr.pred
  split <;> decide

end Coefficients

section CoefficientCommands

variable {s : State} (h : s.Inv)
include h

theorem execDecblk_keepsInv (dc ac : BitVec 4) (p : BitVec 2) : Outcome.KeepsInv (execDecblk dc ac p s) := by
  refine h.finish (Res.Meets.leaving ?_ (by simp [Csr.pred_ne_status p]))
  refine Res.Tame.bind fun _ => Res.Tame.bind fun _ => Res.Tame.bind fun _ => ?_
  exact .answer (h.setKfile.setCsr (Csr.pred_ne_status p)).setCsr

theorem execEncblk_keepsInv (dc ac : BitVec 4) (p : BitVec 2) : Outcome.KeepsInv (execEncblk dc ac p s) := by
  refine h.finish (Res.Meets.leaving ?_ (by simp [Csr.pred_ne_status p]))
  refine Res.Tame.bind fun _ => Res.Tame.bind fun _ => ?_
  exact (State.commit_meets h _).leaving.bind fun _ ht => .answer (ht.setCsr (Csr.pred_ne_status p))

end CoefficientCommands

/-! ### The LZW commands -/

section Lzw

variable {n : Nat}

/-- The indices put out so far: one byte for each below the capacity, all of them checked as writes from dst on (R303). -/
structure LzwState.Checked (s : State) (job : LzwJob) (v : LzwState) : Prop where
  length : v.out.length = min v.indices job.cap
  room : s.RoomFor job.dst v.out

/-- Only the indices put out matter. -/
theorem LzwState.Checked.of_eq {s : State} {job : LzwJob} {v w : LzwState} (h : v.Checked s job) (hout : w.out = v.out)
    (hindices : w.indices = v.indices) : w.Checked s job :=
  ⟨by rw [hout, hindices, h.length], by rw [hout]; exact h.room⟩

theorem lzwEmit_meets (s : State) (job : LzwJob) (str : List Byte) {v : LzwState} (h : v.Checked s job) :
    (lzwEmit s job str v).Meets n (LzwState.Checked s job) := by
  induction str generalizing v with
  | nil => exact .answer h
  | cons b bs ih =>
    obtain ⟨hlen, hroom⟩ := h
    rw [lzwEmit]
    split
    · next hcap =>
      have hout : v.out.length = v.indices := by omega
      refine Res.meets_bind.2 (State.checkRange_meets.2 fun hd => ih ⟨?_, .inr ?_⟩)
      · simp only [List.length_cons]; omega
      · simp only [List.length_cons]; omega
    · refine Res.meets_ite.2 ⟨fun _ => fail_meets, fun _ => ih ⟨?_, hroom⟩⟩
      dsimp only; omega

theorem LzwState.Checked.learn {s : State} {job : LzwJob} {v : LzwState} (h : v.Checked s job) (m : Nat) (str : List Byte) :
    (v.learn m str).Checked s job := by
  unfold LzwState.learn
  split
  · split
    · exact h.of_eq rfl rfl
    · exact h
  · exact h

theorem lzwDecodeLoop_meets (s : State) (job : LzwJob) (fuel : Nat) {v : LzwState} (h : v.Checked s job) :
    (lzwDecodeLoop s job fuel v).Meets n fun r => s.RoomFor job.dst r.out := by
  induction fuel generalizing v with
  | zero => exact fail_meets
  | succ fuel ih =>
    have emitted {w : LzwState} (hw : w.Checked s job) (str : List Byte) :
        (lzwEmit s job str w >>= fun v => lzwDecodeLoop s job fuel { v with prev := some str }).Meets n fun r =>
          s.RoomFor job.dst r.out :=
      (lzwEmit_meets s job str hw).bind fun v hv => ih (hv.of_eq rfl rfl)
    refine Res.Tame.bind fun ⟨c, p⟩ => Res.Tame.bind fun _ => ?_
    dsimp only
    split
    · exact ih (h.of_eq rfl rfl)
    · split
      · exact .answer h.room.reverse
      · split
        · refine emitted (LzwState.Checked.learn ?_ _ _) _
          exact h.of_eq rfl rfl
        · split
          · exact fail_meets
          · refine Res.Tame.bind fun _ => emitted ?_ _
            exact h.of_eq rfl rfl

theorem lzwDecode_meets (s : State) (job : LzwJob) (p : Nat) :
    (lzwDecode s job p).Meets n fun r => s.RoomFor job.dst r.out :=
  lzwDecodeLoop_meets s job _ ⟨by simp, .inl rfl⟩

@[simp] theorem lzwDecode_tame (s : State) (job : LzwJob) (p : Nat) : (lzwDecode s job p).Tame n :=
  (lzwDecode_meets s job p).tame

theorem lzwIndices_tame (s : State) (m : Nat) {left : List Leftover} (hl : Leftover.AllSafe n left) (a k : Nat) :
    (lzwIndices s m left a k).Tame n := by
  induction k generalizing a with
  | zero => exact .answer
  | succ k ih => exact .intro (by simp [lzwIndices, hl, ih])

end Lzw

section LzwCommands

variable {s : State} (h : s.Inv)
include h

theorem execLzwdec_keepsInv (ra rc : Reg) (m : BitVec 4) : Outcome.KeepsInv (execLzwdec ra rc m s) := by
  refine h.finish (Res.Tame.bind fun _ => Res.Tame.bind fun _ => ?_)
  refine (lzwDecode_meets s _ _).leaving.bind fun r hr => ?_
  exact .answer (h.putMem hr).setX.setCsr.setCsr

theorem execLzwenc_keepsInv (rb rc : Reg) (m : BitVec 4) : Outcome.KeepsInv (execLzwenc rb rc m s) := by
  refine h.finish (Res.Tame.bind fun _ => Res.Tame.bind fun _ => Res.Tame.bind fun _ => ?_)
  exact Res.Tame.bind (fun _ => (State.commit_meets h _).leaving) (lzwIndices_tame s _ (by simp) _ _)

end LzwCommands

/-! ### The GIF parser -/

section GifDecode

variable {n : Nat}

@[simp] theorem fileByte_tame (s : State) (file : Region) (o : Nat) : (fileByte s file o).Tame n :=
  .intro (by simp [fileByte])

@[simp] theorem fileU16_tame (s : State) (file : Region) (o : Nat) : (fileU16 s file o).Tame n :=
  .intro (by simp [fileU16])

@[simp] theorem fileBytes_tame (s : State) (file : Region) (o k : Nat) : (fileBytes s file o k).Tame n := by
  induction k generalizing o with
  | zero => exact .answer
  | succ k ih => exact .intro (by simp [fileBytes, ih])

@[simp] theorem skipSub_tame (s : State) (file : Region) (fuel o : Nat) : (skipSub s file fuel o).Tame n := by
  induction fuel generalizing o with
  | zero => exact fail_meets
  | succ fuel ih => exact .intro (by simp [skipSub, ih])

theorem gatherBlock_meets (s : State) (file dst : Region) (l o k : Nat) :
    (gatherBlock s file dst l o k).Meets n fun bs => bs.length = l ∧ s.RoomFor (dst.base + k) bs := by
  induction l generalizing o k with
  | zero => exact .answer ⟨rfl, .inl rfl⟩
  | succ l ih =>
    refine Res.Tame.bind fun _ => Res.Tame.bind fun b => ?_
    refine Res.meets_bind.2 (State.checkRange_meets.2 fun hd => ?_)
    refine (ih (o + 1) (k + 1)).bind fun bs ⟨hlen, hroom⟩ => ?_
    exact .answer ⟨by rw [List.length_cons, hlen], State.RoomFor.cons (a := dst.base + k) hroom (by omega) b⟩

/-- The data of a sub-block chain are checked as writes from the k-th byte of the destination on (R380). -/
theorem gatherSub_meets (s : State) (file dst : Region) (fuel o k : Nat) :
    (gatherSub s file dst fuel o k).Meets n fun r => s.RoomFor (dst.base + k) r.2 := by
  induction fuel generalizing o k with
  | zero => exact fail_meets
  | succ fuel ih =>
    refine Res.Tame.bind fun l => Res.meets_ite.2 ⟨fun _ => .answer (.inl rfl), fun _ => ?_⟩
    refine (gatherBlock_meets s file dst l.toNat (o + 1) k).bind fun bs ⟨hlen, hbs⟩ => ?_
    refine (ih _ _).bind fun ⟨o', rest⟩ hrest => ?_
    exact .answer (hbs.append (by rwa [hlen, Nat.add_assoc]))

@[simp] theorem gatherSub_tame (s : State) (file dst : Region) (fuel o k : Nat) :
    (gatherSub s file dst fuel o k).Tame n :=
  (gatherSub_meets s file dst fuel o k).tame

@[simp] theorem checkTable_tame (s : State) (file : Region) (o k : Nat) : (checkTable s file o k).Tame n :=
  .intro (by simp [checkTable])

@[simp] theorem activeTable_tame (s : State) (lctOff lctN : Nat) : (activeTable s lctOff lctN).Tame n :=
  .intro (by simp [activeTable])

@[simp] theorem readImageHeader_tame (s : State) (o : Nat) : (readImageHeader s o).Tame n :=
  .intro (by simp [readImageHeader])

@[simp] theorem readIndices_tame (s : State) (h : ImageHeader) : (readIndices s h).Tame n :=
  .intro (by simp [readIndices])

@[simp] theorem requireIndices_tame (s : State) (k : Nat) (indices : List Byte) : (requireIndices s k indices).Tame n :=
  .intro (by simp [requireIndices])

@[simp] theorem tableColour_tame (s : State) (tabOff v : Nat) : (tableColour s tabOff v).Tame n :=
  .intro (by simp [tableColour])

@[simp] theorem fillColour_tame (s : State) : (fillColour s).Tame n := by
  unfold fillColour
  split
  · exact .answer
  · exact .intro (by simp)

@[simp] theorem fileMatches_tame (s : State) (xs : List Byte) (o : Nat) : (fileMatches s xs o).Tame n := by
  induction xs generalizing o with
  | nil => exact .answer
  | cons x xs ih => exact .intro (by simp [fileMatches, ih])

end GifDecode

section GifDecodeCommands

variable {s : State} {n : Nat} (h : s.Inv)
include h

theorem openFile_meets (file : Region) : (openFile s file).Meets n State.Inv := by
  refine Res.Tame.bind fun sig => Res.Tame.bind fun _ => Res.Tame.bind fun sw => Res.Tame.bind fun sh => ?_
  refine Res.Tame.bind fun pk => Res.Tame.bind fun bg => Res.Tame.bind fun asp => ?_
  refine Res.meets_ite.2 ⟨fun _ => ?_, fun _ => ?_⟩ <;>
    · refine Res.Tame.bind fun _ => .answer ?_
      iterate 22 refine State.Inv.setCsr ?_
      exact h

theorem execGifopen_keepsInv (rb rc : Reg) : Outcome.KeepsInv (execGifopen rb rc s) := by
  have hmeets (k : Nat) : (leaving (Csr.gifParser.map .csr) (openFile s ⟨s.getXNat rb, s.getXNat rc⟩)).Meets k State.Inv :=
    (openFile_meets h _).leaving (by simp [Csr.gifParser])
  unfold execGifopen
  dsimp only
  split
  · exact h.finish (hmeets _)
  · exact State.Inv.finish (s := openFault s) h.setCsr (hmeets _)

theorem fillFrame_meets (s' : State) : (fillFrame s' s).Meets n State.Inv := by
  refine Res.meets_ite.2 ⟨fun _ => ?_, fun _ => .answer h⟩
  exact Res.Tame.bind fun _ => State.storeBytes_meets h _ _

omit h in
theorem paint_meets (s : State) (hd : ImageHeader) (vs : List Byte) (j : Nat) {t : State} (ht : t.Inv) :
    (paint s hd vs j t).Meets n State.Inv := by
  induction vs generalizing j t with
  | nil => exact .answer ht
  | cons v vs ih =>
    refine Res.meets_ite.2 ⟨fun _ => ih _ ht, fun _ => Res.Tame.bind fun _ => ?_⟩
    exact (State.storeBytes_meets ht _ _).bind fun _ hu => ih _ hu

theorem State.Inv.imageDone (hd : ImageHeader) (o count : Nat) : (imageDone s hd o count).Inv :=
  h.setCsr.setCsr.setCsr.setCsr.setCsr.setCsr.setCsr.setCsr.setCsr

theorem decodeImage_meets (o : Nat) : (decodeImage s o).Meets n State.Inv := by
  refine Res.Tame.bind fun hd => Res.Tame.bind fun _ => ?_
  refine Res.Tame.bind fun _ => Res.Tame.bind fun _ => ?_
  refine Res.Meets.bind (Res.Meets.leaving ?_) fun _ ht => .answer (State.Inv.imageDone ht _ _ _)
  exact (fillFrame_meets h s).bind fun _ ht => paint_meets s hd _ 0 ht

theorem nextControl_meets (ra : Reg) (o : Nat) : (nextControl ra s o).Meets n State.Inv := by
  refine Res.Tame.bind fun size => Res.Tame.bind fun _ => Res.Tame.bind fun term => Res.Tame.bind fun _ => ?_
  refine Res.Tame.bind fun pk => Res.Tame.bind fun _ => Res.Tame.bind fun delay => Res.Tame.bind fun trans => ?_
  exact .answer h.setCsr.setCsr.setCsr.setCsr.setX.setCsr

theorem nextApplication_meets (ra : Reg) (o : Nat) : (nextApplication ra s o).Meets n State.Inv := by
  refine Res.Tame.bind fun isLoop => ?_
  dsimp only
  split <;>
    · refine Res.Tame.bind fun count => Res.Tame.bind fun _ => .answer ?_
      cases count with
      | none => exact h.setCsr.setX.setCsr
      | some k => exact h.setCsr.setCsr.setX.setCsr

theorem nextComment_meets (ra : Reg) (o : Nat) : (nextComment ra s o).Meets n State.Inv := by
  refine Res.Tame.bind fun _ => ?_
  refine (gatherSub_meets s _ _ _ _ _).leaving.bind fun r hr => ?_
  exact .answer (h.putMem hr).setCsr.setCsr.setX.setCsr

theorem nextOther_meets (ra : Reg) (label : Byte) (o : Nat) : (nextOther ra s label o).Meets n State.Inv :=
  Res.Tame.bind fun _ => .answer h.setCsr.setX.setCsr

theorem nextBlock_meets (ra : Reg) : (nextBlock ra s).Meets n State.Inv := by
  refine Res.Tame.bind fun _ => Res.Tame.bind fun t => ?_
  refine Res.meets_ite.2 ⟨fun _ => .answer h.setX.setCsr, fun _ => Res.meets_ite.2 ⟨fun _ => ?_, fun _ => ?_⟩⟩
  · exact (decodeImage_meets h _).bind fun _ ht => .answer ht.setX
  · refine Res.Tame.bind fun _ => Res.Tame.bind fun label => ?_
    simp only [Res.meets_ite, nextControl_meets h, nextApplication_meets h, nextComment_meets h, nextOther_meets h,
      implies_true, and_self]

theorem execGifnext_keepsInv (ra : Reg) : Outcome.KeepsInv (execGifnext ra s) := by
  refine h.finish (Res.Meets.leaving ?_)
  exact (nextBlock_meets h ra).leavingPastOverlap.bind fun _ ht => .answer (ht.drawMem _ _)

theorem execGifrewind_keepsInv : Outcome.KeepsInv (execGifrewind s) :=
  h.finish (Res.Tame.bind fun _ => .answer h.setCsr.setCsr.setCsr.setCsr).leaving

end GifDecodeCommands

/-! ### The GIF writer -/

section GifEncode

variable {n : Nat}

@[simp] theorem State.readRows_tame (s : State) (w width a k : Nat) : (s.readRows w width a k).Tame n := by
  induction k generalizing a with
  | zero => exact .answer
  | succ k ih => exact .intro (by simp [State.readRows, ih])

@[simp] theorem State.rectIndices_tame (s : State) (idx w : Nat) (r : FrameRect) : (s.rectIndices idx w r).Tame n :=
  s.readRows_tame ..

theorem mapFrame_meets (s : State) (src dst k : Nat) : (mapFrame s src dst k).Meets n (s.RoomFor dst) := by
  induction k generalizing src dst with
  | zero => exact .answer (.inl rfl)
  | succ k ih =>
    refine Res.Tame.bind fun r => Res.Tame.bind fun g => Res.Tame.bind fun b => ?_
    refine Res.meets_bind.2 (State.checkRange_meets.2 fun hd => ?_)
    exact (ih _ _).bind fun is his => .answer (his.cons (by omega) _)

@[simp] theorem requireGifWriter_tame (s : State) : (requireGifWriter s).Tame n := .intro (by simp [requireGifWriter])

@[simp] theorem frameRect_tame (s : State) (w h : Nat) (cur : List Byte) : (frameRect s w h cur).Tame n :=
  .intro (by simp [frameRect])

theorem frameLeft_safe (s : State) : Leftover.AllSafe n (frameLeft s) := by
  simp [frameLeft, State.writerRoomLeft]

theorem writerCsrsLeft_safe : Leftover.AllSafe n writerCsrsLeft := by simp [writerCsrsLeft]

end GifEncode

section GifEncodeCommands

variable {s : State} {n : Nat} (h : s.Inv)
include h

theorem State.putWriter_meets (bs : List Byte) : (s.putWriter bs).Meets n State.Inv := State.commit_meets h _

theorem execGifwopen_keepsInv (ra rb rc : Reg) : Outcome.KeepsInv (execGifwopen ra rb rc s) := by
  refine h.finish (Res.Tame.bind fun _ => Res.Tame.bind fun _ => ?_).leaving
  exact (State.putWriter_meets h _).bind fun _ ht => .answer ht.setCsr.setCsr.setCsr.setCsr

theorem writeFrame_meets (src delay : Nat) : (writeFrame s src delay).Meets n State.Inv := by
  refine (mapFrame_meets s _ _ _).bind fun cur hcur => ?_
  refine Res.Tame.bind fun rect => Res.Tame.bind fun indices => ?_
  refine (State.putWriter_meets (h.putMem hcur) _).bind fun _ ht => ?_
  exact (State.storeBytes_meets ht _ _).bind fun _ hu => .answer hu.setCsr

theorem execGifwframe_keepsInv (rb rc : Reg) : Outcome.KeepsInv (execGifwframe rb rc s) := by
  refine h.finish ((Res.Meets.leavingPastOverlap ?_ writerCsrsLeft_safe).leaving (frameLeft_safe s))
  refine Res.Tame.bind fun _ => Res.Tame.bind fun _ => ?_
  exact Res.Tame.bind fun _ => Res.Tame.bind fun _ => writeFrame_meets h _ _

theorem execGifwend_keepsInv : Outcome.KeepsInv (execGifwend s) := by
  refine h.finish (Res.Tame.bind fun _ => Res.Tame.bind fun _ => ?_).leaving
  exact (State.putWriter_meets h _).bind fun _ ht => .answer ht.setCsr

end GifEncodeCommands

/-! ### One step -/

section Step

variable {s : State} (h : s.Inv)
include h

/-- Every command of a running engine keeps the invariant. -/
theorem exec_keepsInv (hb : s.busy = true) (i : Instr) : Outcome.KeepsInv (exec i s) := by
  cases i with
  | nop => exact h.finish_ok h
  | halt => exact execHalt_keepsInv h hb
  | lui ra imm20 => exact h.finish_ok h.setX
  | ori ra rb imm12 => exact h.finish_ok h.setX
  | addi ra rb imm12 => exact h.finish_ok h.setX
  | add ra rb rc => exact h.finish_ok h.setX
  | sub ra rb rc => exact h.finish_ok h.setX
  | beq rb rc imm12 => exact Outcome.keepsInv_next.2 (h.branch _ _)
  | bne rb rc imm12 => exact Outcome.keepsInv_next.2 (h.branch _ _)
  | csrr ra csr => exact execCsrr_keepsInv h ra csr
  | csrw rb csr => exact execCsrw_keepsInv h rb csr
  | lbu ra rb imm12 => exact execLbu_keepsInv h ra rb imm12
  | sb rb rc imm12 => exact h.finish (State.storeBytes_meets h _ _)
  | bltu rb rc imm12 => exact Outcome.keepsInv_next.2 (h.branch _ _)
  | brinit rb rc order => exact h.finish_ok h.setCsr.setCsr.setCsr.setCsr
  | rdbits ra n => exact execRdbits_keepsInv h ra n
  | align => exact execAlign_keepsInv h
  | unstuff ra rb rc => exact execUnstuff_keepsInv h ra rb rc
  | bwinit rb rc order stuff => exact h.finish_ok h.setCsr.setCsr.setCsr.setCsr.setCsr.setCsr
  | wrbits rb n => exact execWrbits_keepsInv h rb n
  | bwflush ra pad => exact execBwflush_keepsInv h ra pad
  | sbgather ra rb rc => exact execSbgather_keepsInv h ra rb rc
  | sbsplit ra rb rc => exact execSbsplit_keepsInv h ra rb rc
  | hbuild ra rb slot pfx => exact execHbuild_keepsInv h ra rb slot pfx
  | hdec ra slot => exact execHdec_keepsInv h ra slot
  | hctab rb slot => exact execHctab_keepsInv h rb slot
  | henc rb slot => exact execHenc_keepsInv h rb slot
  | hfroment ra rb rc => exact execHfroment_keepsInv h ra rb rc
  | lzwdec ra rc m => exact execLzwdec_keepsInv h ra rc m
  | lzwenc rb rc m => exact execLzwenc_keepsInv h rb rc m
  | qload ra rb q pfx tord => exact execQload_keepsInv h ra rb q pfx tord
  | sldb rb rc shift => exact execSldb_keepsInv h rb rc shift
  | sstb rb rc shift => exact execSstb_keepsInv h rb rc shift
  | kld rb => exact execKld_keepsInv h rb
  | kst rb => exact execKst_keepsInv h rb
  | fdct => exact h.finish_ok (h.transformed false)
  | idct => exact h.finish_ok (h.transformed true)
  | quant q order => exact execQuant_keepsInv h q order
  | dequant q order => exact execDequant_keepsInv h q order
  | zzfwd file => exact execZzfwd_keepsInv h file
  | zzinv file => exact execZzinv_keepsInv h file
  | cvtks => exact execCvtks_keepsInv h
  | cvtsk => exact execCvtsk_keepsInv h
  | decblk dc ac p => exact execDecblk_keepsInv h dc ac p
  | encblk dc ac p => exact execEncblk_keepsInv h dc ac p
  | prst => exact h.finish_ok h.setCsr.setCsr.setCsr.setCsr
  | gifopen rb rc => exact execGifopen_keepsInv h rb rc
  | gifnext ra => exact execGifnext_keepsInv h ra
  | gifrewind => exact execGifrewind_keepsInv h
  | gifwopen ra rb rc => exact execGifwopen_keepsInv h ra rb rc
  | gifwframe rb rc => exact execGifwframe_keepsInv h rb rc
  | gifwend => exact execGifwend_keepsInv h

omit h in
theorem fetchInstr_tame (s : State) (n : Nat) : (fetchInstr s).Tame n := by
  refine Res.Tame.bind fun _ => Res.Tame.bind fun bytes => ?_
  split
  · exact .answer trivial
  · exact fail_meets

theorem engineStep_keepsInv : Outcome.KeepsInv (engineStep s) := by
  unfold engineStep
  split
  · next hb =>
    split
    · next i _ => exact exec_keepsInv h hb i
    · next e he =>
      refine h.finish ⟨fun _ hok => (nomatch hok), fun f ps hraise => ?_⟩
      exact (fetchInstr_tame s _).raise f ps (by rw [he, Except.error.inj hraise])
  · exact Outcome.keepsInv_next.2 h

/-- A reset gives every register, CSR, slot and file its value of power-up and keeps MEM and the parameters (R530). -/
theorem State.Inv.resetBy : s.resetBy.Inv := by
  have h0 : State.reset.Inv := State.inv_of_check (by decide +kernel)
  exact { h0 with params := h.params, memWf := h.memWf, memBelow := h.memBelow }

theorem hostMove_keepsInv (m : HostMove) : Outcome.KeepsInv (hostMove m s) := by
  cases m with
  | writeMem a v =>
    simp only [hostMove]
    split
    · next ha => exact Outcome.keepsInv_next.2 (h.putMem (.inr ha))
    · exact Outcome.keepsInv_fault
  | writeX r v => exact Outcome.keepsInv_next.2 h.setX
  | writePc v => exact Outcome.keepsInv_next.2 (h.setPcByHost v)
  | writeCsr c v =>
    simp only [hostMove]
    split
    · next hc => exact Outcome.keepsInv_next.2 (h.setCsr (Csr.ne_status_of_rw hc))
    · exact Outcome.keepsInv_fault
  | writeStatus v => exact Outcome.keepsInv_next.2 (h.setCsr_of_legal fun _ => statusLegal_hostWrite v h.status)
  | start => exact Outcome.keepsInv_next.2 (h.setCsr_of_legal fun _ => rfl)
  | reset => exact Outcome.keepsInv_next.2 h.resetBy
  | observe => exact Outcome.keepsInv_next.2 h

/-- The host's script is no part of the invariant. -/
theorem State.Inv.hostTurn : (hostTurn s).2.Inv := by
  unfold Machine.hostTurn
  split
  · exact h
  · split
    · exact { h with }
    · exact h
  · exact { h with }

/-- Whatever the host does and whichever command runs or faults, the next state meets the invariant. -/
theorem step_keepsInv : Outcome.KeepsInv (step s) := by
  have ht := h.hostTurn
  unfold step cycle
  split
  · next m t e => rw [e] at ht; exact hostMove_keepsInv ht m
  · next t e => rw [e] at ht; exact engineStep_keepsInv ht

end Step

/-- Settles O6: each operation on the state keeps the invariant, so does what a fault leaves, and each command's result meets
it. -/
theorem stepKeepsInvariant : Obligations.StepKeepsInvariant := fun _ t h => step_keepsInv h t

end Sys2Proof.Machine
end

section
/-! SUPPORT. The encoding (O1, O2, O3): a word and its fields are the same bits, so decoding and encoding of a word come down to
decoding and encoding of fields. On fields the laws of the family Encoding give the one direction for each command; for the
other, each row of R140 puts its operands back where it took them from. -/

namespace Sys2Proof.Laws.Encoding

/-! ### Words, fields and bytes -/

/-- The fields of a word put together from fields are those fields (R131). -/
theorem ofWord_toWord (f : Fields) : Fields.ofWord f.toWord = f := by
  obtain ⟨op, ra, rb, rc, imm⟩ := f
  have hop := extract_low (imm ++ rc ++ rb ++ ra) op
  have hra := (extract_high 0 4 _ op).trans (extract_low (imm ++ rc ++ rb) ra)
  have hrb := (extract_high 4 4 _ op).trans ((extract_high 0 4 _ ra).trans (extract_low (imm ++ rc) rb))
  have hrc := (extract_high 8 4 _ op).trans ((extract_high 4 4 _ ra).trans
    ((extract_high 0 4 _ rb).trans (extract_low imm rc)))
  have himm := (extract_high 12 12 _ op).trans ((extract_high 8 12 _ ra).trans
    ((extract_high 4 12 _ rb).trans ((extract_high 0 12 imm rc).trans BitVec.extractLsb'_eq_self)))
  exact (Fields.mk.injEq ..).mpr ⟨hop, hra, hrb, hrc, himm⟩

/-- Bits that stand one above the other, put together. -/
theorem extract_join {n j k l m : Nat} {v : BitVec n} (h : j = k + l := by rfl) :
    v.extractLsb' j m ++ v.extractLsb' k l = v.extractLsb' k (m + l) :=
  BitVec.extractLsb'_append_extractLsb'_eq_extractLsb' h

/-- The fields of a word hold all of its bits (R131). -/
theorem toWord_ofWord (w : Word) : (Fields.ofWord w).toWord = w := by
  dsimp only [Fields.ofWord, Fields.toWord]
  rw [extract_join, extract_join, extract_join, extract_join, BitVec.extractLsb'_eq_self]

/-- The four bytes of a word, lowest first (R102). -/
theorem leBytes_word (w : Word) :
    leBytes 4 w.toNat = [w.extractLsb' 0 8, w.extractLsb' 8 8, w.extractLsb' 16 8, w.extractLsb' 24 8] := by
  simp [leBytes, BitVec.extractLsb', Nat.shiftRight_eq_div_pow, Nat.div_div_eq_div_mul]

theorem bytes_joined (w : Word) : w.extractLsb' 24 8 ++ w.extractLsb' 16 8 ++ w.extractLsb' 8 8 ++ w.extractLsb' 0 8 = w := by
  rw [extract_join, extract_join, extract_join, BitVec.extractLsb'_eq_self]

/-- The bytes of a word decode as the word does, and what follows them is left (R102, R130). -/
theorem decodeBytes_leBytes {w : Word} {i : Instr} (h : decodeWord w = .ok i) (rest : List Byte) :
    decodeBytes (leBytes 4 w.toNat ++ rest) = .ok (i, rest) := by
  simp only [leBytes_word, List.cons_append, List.nil_append, decodeBytes, bytes_joined, h]

/-! ### Decoding an encoded command -/

/-- Decoding the fields of any well-formed command returns it (R140). -/
theorem decodeFields_fields : ∀ i : Instr, Statement i
  | .nop => nop
  | .halt => halt
  | .lui ra imm20 => lui ra imm20
  | .ori ra rb imm12 => ori ra rb imm12
  | .addi ra rb imm12 => addi ra rb imm12
  | .add ra rb rc => add ra rb rc
  | .sub ra rb rc => sub ra rb rc
  | .beq rb rc imm12 => beq rb rc imm12
  | .bne rb rc imm12 => bne rb rc imm12
  | .csrr ra csr => csrr ra csr
  | .csrw rb csr => csrw rb csr
  | .lbu ra rb imm12 => lbu ra rb imm12
  | .sb rb rc imm12 => sb rb rc imm12
  | .bltu rb rc imm12 => bltu rb rc imm12
  | .brinit rb rc order => brinit rb rc order
  | .rdbits ra n => rdbits ra n
  | .align => align
  | .unstuff ra rb rc => unstuff ra rb rc
  | .bwinit rb rc order stuff => bwinit rb rc order stuff
  | .wrbits rb n => wrbits rb n
  | .bwflush ra pad => bwflush ra pad
  | .sbgather ra rb rc => sbgather ra rb rc
  | .sbsplit ra rb rc => sbsplit ra rb rc
  | .hbuild ra rb slot pfx => hbuild ra rb slot pfx
  | .hdec ra slot => hdec ra slot
  | .hctab rb slot => hctab rb slot
  | .henc rb slot => henc rb slot
  | .hfroment ra rb rc => hfroment ra rb rc
  | .lzwdec ra rc m => lzwdec ra rc m
  | .lzwenc rb rc m => lzwenc rb rc m
  | .qload ra rb q pfx tord => qload ra rb q pfx tord
  | .sldb rb rc shift => sldb rb rc shift
  | .sstb rb rc shift => sstb rb rc shift
  | .kld rb => kld rb
  | .kst rb => kst rb
  | .fdct => fdct
  | .idct => idct
  | .quant q order => quant q order
  | .dequant q order => dequant q order
  | .zzfwd file => zzfwd file
  | .zzinv file => zzinv file
  | .cvtks => cvtks
  | .cvtsk => cvtsk
  | .decblk dc ac p => decblk dc ac p
  | .encblk dc ac p => encblk dc ac p
  | .prst => prst
  | .gifopen rb rc => gifopen rb rc
  | .gifnext ra => gifnext ra
  | .gifrewind => gifrewind
  | .gifwopen ra rb rc => gifwopen ra rb rc
  | .gifwframe rb rc => gifwframe rb rc
  | .gifwend => gifwend

/-- The word of a well-formed command decodes to it (R142). -/
theorem decodeWord_encode {i : Instr} (h : i.wellFormed = true) : decodeWord (encode i) = .ok i := by
  rw [decodeWord, encode, ofWord_toWord, decodeFields_fields i h]

/-- Settles O1: the fields of the word are those of the command, and they decode to it; the bytes decode as their word. -/
theorem decodeOfEncode : Obligations.DecodeOfEncode := fun _ h =>
  ⟨decodeWord_encode h, decodeBytes_leBytes (decodeWord_encode h)⟩

/-! ### Encoding a decoded word -/

@[simp] theorem bit_bitOrderOf (b : BitVec 1) : (bitOrderOf b).bit = b := by
  revert b; decide

@[simp] theorem bit_blockFileOf (b : BitVec 1) : (blockFileOf b).bit = b := by
  revert b; decide

@[simp] theorem bit_tableOrderOf (b : BitVec 1) : (tableOrderOf b).bit = b := by
  revert b; decide

@[simp] theorem ofBool_flagOf (b : BitVec 1) : BitVec.ofBool (flagOf b) = b := by
  revert b; decide

theorem lui_fields (imm : BitVec 12) (rc rb : Reg) :
    (imm ++ rc ++ rb).extractLsb' 0 4 = rb ∧ (imm ++ rc ++ rb).extractLsb' 4 4 = rc ∧
      (imm ++ rc ++ rb).extractLsb' 8 12 = imm :=
  ⟨extract_low _ rb, (extract_high 0 4 _ rb).trans (extract_low imm rc),
    (extract_high 4 12 _ rb).trans ((extract_high 0 12 imm rc).trans BitVec.extractLsb'_eq_self)⟩

/-! The layouts of imm12 (R140): where its unnamed bits are 0, the subfields a row names put together give imm12 back. -/

section Layouts

variable {imm : BitVec 12}

theorem imm_eq_five (h : imm.extractLsb' 5 7 = 0#7) : 0#7 ++ imm.extractLsb' 0 5 = imm := by
  rw [← h, extract_join, BitVec.extractLsb'_eq_self]

theorem imm_eq_four (h : imm.extractLsb' 4 8 = 0#8) : 0#8 ++ imm.extractLsb' 0 4 = imm := by
  rw [← h, extract_join, BitVec.extractLsb'_eq_self]

theorem imm_eq_bit (h : imm.extractLsb' 1 11 = 0#11) : 0#11 ++ immBit imm 0 = imm := by
  rw [← h, immBit, extract_join, BitVec.extractLsb'_eq_self]

theorem imm_eq_bits (h : imm.extractLsb' 2 10 = 0#10) : 0#10 ++ immBit imm 1 ++ immBit imm 0 = imm := by
  rw [← h, immBit, immBit, extract_join, extract_join, BitVec.extractLsb'_eq_self]

theorem imm_eq_hbuild (h : imm.extractLsb' 6 6 = 0#6) : 0#6 ++ immBit imm 5 ++ imm.extractLsb' 0 5 = imm := by
  rw [← h, immBit, extract_join, extract_join, BitVec.extractLsb'_eq_self]

theorem imm_eq_qload (h : imm.extractLsb' 6 6 = 0#6) :
    0#6 ++ immBit imm 5 ++ immBit imm 4 ++ imm.extractLsb' 0 4 = imm := by
  rw [← h, immBit, immBit, extract_join, extract_join, extract_join, BitVec.extractLsb'_eq_self]

theorem imm_eq_quant (h : imm.extractLsb' 5 7 = 0#7) : 0#7 ++ immBit imm 4 ++ imm.extractLsb' 0 4 = imm := by
  rw [← h, immBit, extract_join, extract_join, BitVec.extractLsb'_eq_self]

theorem imm_eq_block (h : imm.extractLsb' 10 2 = 0#2) :
    0#2 ++ imm.extractLsb' 8 2 ++ imm.extractLsb' 4 4 ++ imm.extractLsb' 0 4 = imm := by
  rw [← h, extract_join, extract_join, extract_join, BitVec.extractLsb'_eq_self]

end Layouts

/-- A row's word is legal when its zero fields are 0 and its command is well formed, and then it is that command. -/
theorem legalRow_eq_ok {zero : Bool} {j i : Instr} :
    legalRow zero j = .ok i ↔ zero = true ∧ j.wellFormed = true ∧ i = j := by
  cases zero <;> cases hj : j.wellFormed <;> simp [legalRow, hj, eq_comm]

/-- Fields that decode are those of the command they decode to. In each row of R140 a field that names no operand is 0, and
imm12 is put together again from the subfields that the row takes from it. -/
theorem fields_of_decodeFields {f : Fields} {i : Instr} (h : decodeFields f = .ok i) :
    i.wellFormed = true ∧ i.fields = f := by
  obtain ⟨op, ra, rb, rc, imm⟩ := f
  unfold decodeFields at h
  dsimp only at h
  split at h
  case h_53 => cases h -- an op byte that no row assigns
  all_goals
    obtain ⟨hzero, hwf, rfl⟩ := legalRow_eq_ok.1 h
    refine ⟨hwf, ?_⟩
    simp only [Bool.and_eq_true, beq_iff_eq] at hzero
    simp [Instr.fields, hzero, lui_fields, imm_eq_five, imm_eq_four, imm_eq_bit, imm_eq_bits, imm_eq_hbuild, imm_eq_qload,
      imm_eq_quant, imm_eq_block]

/-- Settles O2: the fields of the word are those of the command, and a word is put together from its fields. -/
theorem legalWordsAreEncodings : Obligations.LegalWordsAreEncodings := by
  intro w i h
  obtain ⟨hwf, hfields⟩ := fields_of_decodeFields h
  exact ⟨hwf, by rw [encode, hfields, toWord_ofWord]⟩

/-- Settles O3: each word is closed, and decoding it evaluates. -/
theorem specWordsDecode : Obligations.SpecWordsDecode := by
  unfold Obligations.SpecWordsDecode
  decide

end Sys2Proof.Laws.Encoding
end

section
/-! SUPPORT. No command changes a register but its ra (O12, R134). Every register write of a command is a `State.setX` of its
ra; every other operation keeps all registers, and so does what a fault leaves. `Res.Answers` says what each value that a part
of a command answers meets, whatever its faults do. -/

namespace Sys2Proof.Machine

/-! ### Answers -/

/-- Whatever value the result answers meets P. -/
def Res.Answers {α : Type} (r : Res α) (P : α → Prop) : Prop := ∀ a, r = .ok a → P a

section Answers

variable {α β : Type} {P : α → Prop} {Q : β → Prop} {r : Res α}

@[simp] theorem Res.answers_ok {a : α} : Res.Answers (.ok a) P ↔ P a := by simp [Res.Answers]

theorem Res.Answers.ok {a : α} (h : P a) : Res.Answers (.ok a) P := Res.answers_ok.2 h

@[simp] theorem fail_answers {code : FaultCode} {aux : Nat} : Res.Answers (fail code aux) P := fun _ h => nomatch h

theorem Res.Answers.mono {P' : α → Prop} (h : r.Answers P) (hP : ∀ a, P a → P' a) : r.Answers P' :=
  fun a ha => hP a (h a ha)

/-- One part after another: what the first one answers is all the second one needs. -/
theorem Res.Answers.bind {f : α → Res β} (h : r.Answers P) (hf : ∀ a, P a → (f a).Answers Q) : (r >>= f).Answers Q := by
  intro b hb
  obtain ⟨a, ha, hb⟩ := Res.bind_eq_ok.1 hb
  exact hf a (h a ha) b hb

/-- One part after another, when the second one needs nothing of the first. -/
theorem Res.Answers.after {f : α → Res β} (hf : ∀ a, (f a).Answers Q) : (r >>= f).Answers Q :=
  Res.Answers.bind (P := fun _ => True) (fun _ _ => trivial) fun a _ => hf a

@[simp] theorem leaving_answers {ps : List Leftover} : (leaving ps r).Answers P ↔ r.Answers P := by
  simp only [Res.Answers, leaving_eq_ok]

@[simp] theorem leavingPastOverlap_answers {ps : List Leftover} : (leavingPastOverlap ps r).Answers P ↔ r.Answers P := by
  simp only [Res.Answers, leavingPastOverlap_eq_ok]

theorem Res.Answers.leaving {ps : List Leftover} (h : r.Answers P) : (leaving ps r).Answers P := leaving_answers.2 h

theorem Res.answers_ite {c : Prop} [Decidable c] {r' : Res α} (h : c → r.Answers P) (h' : ¬ c → r'.Answers P) :
    (if c then r else r').Answers P := by
  split
  · exact h ‹_›
  · exact h' ‹_›

end Answers

/-! ### Registers and the operations on the state -/

@[simp] theorem State.setSlot_getX (s : State) (i : BitVec 5) (t : HuffSlot) (q : Reg) :
    (s.setSlot i t).getX q = s.getX q := rfl

@[simp] theorem State.setTable_getX (s : State) (i : BitVec 4) (t : Vector Byte 64) (q : Reg) :
    (s.setTable i t).getX q = s.getX q := rfl

@[simp] theorem State.drawMem_getX (s : State) (base len : Nat) (q : Reg) : (s.drawMem base len).getX q = s.getX q := rfl

@[simp] theorem State.branch_getX (s : State) (taken : Bool) (imm : BitVec 12) (q : Reg) :
    (s.branch taken imm).getX q = s.getX q := by
  unfold State.branch; split <;> rfl

@[simp] theorem imageDone_getX (t : State) (h : ImageHeader) (o count : Nat) (q : Reg) :
    (imageDone t h o count).getX q = t.getX q := by
  simp [imageDone]

/-- K is no register. -/
@[simp] theorem State.setKfile_getX (s : State) (block : Vector Word 64) (q : Reg) :
    ({ s with kfile := block } : State).getX q = s.getX q := rfl

/-- Neither is S, nor the count of free values drawn. -/
@[simp] theorem State.setSfile_getX (s : State) (block : Vector Binary64 64) (draws : Nat) (q : Reg) :
    ({ s with sfile := block, draws := draws } : State).getX q = s.getX q := rfl

theorem State.transformed_getX (s : State) (inverse : Bool) (q : Reg) :
    (s.transformed inverse).getX q = s.getX q :=
  s.setSfile_getX _ _ q

theorem State.putCells_getX (s : State) (cells : List Host.Cell) (q : Reg) : (s.putCells cells).getX q = s.getX q :=
  State.getX_of_x (s.leave_keeps (.stored cells)).1 q

theorem State.storeBytes_keepsX (s : State) (a : Nat) (bs : List Byte) (q : Reg) :
    (s.storeBytes a bs).Answers fun t => t.getX q = s.getX q := by
  intro t ht
  obtain ⟨-, rfl⟩ := State.storeBytes_eq_ok.1 ht
  rfl

theorem State.commit_keepsX (s : State) (k : Packer) (q : Reg) : (s.commit k).Answers fun t => t.getX q = s.getX q := by
  intro t ht
  obtain ⟨-, rfl⟩ := State.commit_eq_ok.1 ht
  rfl

theorem State.putWriter_keepsX (s : State) (bs : List Byte) (q : Reg) :
    (s.putWriter bs).Answers fun t => t.getX q = s.getX q :=
  s.commit_keepsX _ q

/-! ### The end of a command -/

/-- Whatever next state the outcome of a command begun in s is, X[q] is as it was. -/
def Outcome.KeepsX (o : Outcome) (s : State) (q : Reg) : Prop := ∀ t, o = .next t → t.getX q = s.getX q

section Commands

variable {s : State} {q : Reg}

theorem Outcome.keepsX_next {t : State} (h : t.getX q = s.getX q) : Outcome.KeepsX (.next t) s q := by
  rintro _ ⟨⟩
  exact h

/-- A fault keeps every register, so a command keeps those that its result keeps (R494). -/
theorem finish_keepsX {r : Res State} (hr : r.Answers fun t => t.getX q = s.getX q) : Outcome.KeepsX (finish s r) s q := by
  intro t ht
  obtain ⟨u, hu, rfl⟩ | ⟨f, ps, -, rfl⟩ := finish_eq_next.1 ht
  · exact hr u hu
  · exact (s.faultTaken_leaveAll ps f).reg q

theorem finish_leaving_keepsX {ps : List Leftover} {r : Res State} (hr : r.Answers fun t => t.getX q = s.getX q) :
    Outcome.KeepsX (finish s (leaving ps r)) s q :=
  finish_keepsX hr.leaving

/-- A command that only updates the state. -/
theorem finish_ok_keepsX {t : State} (h : t.getX q = s.getX q) : Outcome.KeepsX (finish s (.ok t)) s q :=
  finish_keepsX (.ok h)

/-! ### Commands without an output register -/

theorem execCsrw_keepsX (rb : Reg) (csr : BitVec 12) : Outcome.KeepsX (execCsrw rb csr s) s q := by
  refine finish_keepsX ?_
  split
  · exact Res.answers_ite (fun _ => .ok rfl) fun _ => fail_answers
  · exact fail_answers

theorem execAlign_keepsX : Outcome.KeepsX (execAlign s) s q := finish_keepsX (.after fun _ => .ok rfl)

theorem execWrbits_keepsX (rb : Reg) (n : BitVec 5) : Outcome.KeepsX (execWrbits rb n s) s q :=
  finish_leaving_keepsX (.after fun _ => s.commit_keepsX _ q)

theorem execHctab_keepsX (rb : Reg) (slot : BitVec 5) : Outcome.KeepsX (execHctab rb slot s) s q :=
  finish_keepsX (.after fun _ => .after fun _ => (State.storeBytes_keepsX _ _ _ q).leaving)

theorem execHenc_keepsX (rb : Reg) (slot : BitVec 5) : Outcome.KeepsX (execHenc rb slot s) s q :=
  finish_leaving_keepsX (.after fun _ => .after fun _ => s.commit_keepsX _ q)

theorem execLzwenc_keepsX (rb rc : Reg) (m : BitVec 4) : Outcome.KeepsX (execLzwenc rb rc m s) s q :=
  finish_keepsX (.after fun _ => .after fun _ => .after fun _ => .after fun _ => (s.commit_keepsX _ q).leaving)

theorem execSldb_keepsX (rb rc : Reg) (shift : Bool) : Outcome.KeepsX (execSldb rb rc shift s) s q :=
  finish_leaving_keepsX (.after fun _ => .ok (s.setSfile_getX _ _ q))

theorem execSstb_keepsX (rb rc : Reg) (shift : Bool) : Outcome.KeepsX (execSstb rb rc shift s) s q :=
  finish_keepsX (.after fun cells => .ok (s.putCells_getX cells q))

theorem execKld_keepsX (rb : Reg) : Outcome.KeepsX (execKld rb s) s q :=
  finish_leaving_keepsX (.after fun _ => .ok (s.setKfile_getX _ q))

theorem execKst_keepsX (rb : Reg) : Outcome.KeepsX (execKst rb s) s q :=
  finish_leaving_keepsX (State.storeBytes_keepsX _ _ _ q)

theorem execQuant_keepsX (i : BitVec 4) (order : TableOrder) : Outcome.KeepsX (execQuant i order s) s q :=
  finish_leaving_keepsX (.after fun _ => .after fun _ => .ok (s.setKfile_getX _ q))

theorem execDequant_keepsX (i : BitVec 4) (order : TableOrder) : Outcome.KeepsX (execDequant i order s) s q :=
  finish_leaving_keepsX (.after fun _ => .after fun _ => .ok (s.setKfile_getX _ q))

theorem execZzfwd_keepsX (file : BlockFile) : Outcome.KeepsX (execZzfwd file s) s q := by
  cases file with
  | k => exact finish_ok_keepsX (s.setKfile_getX _ q)
  | s => exact finish_ok_keepsX (s.setSfile_getX _ _ q)

theorem execZzinv_keepsX (file : BlockFile) : Outcome.KeepsX (execZzinv file s) s q := by
  cases file with
  | k => exact finish_ok_keepsX (s.setKfile_getX _ q)
  | s => exact finish_ok_keepsX (s.setSfile_getX _ _ q)

theorem execCvtsk_keepsX : Outcome.KeepsX (execCvtsk s) s q :=
  finish_leaving_keepsX (.after fun _ => .ok (s.setKfile_getX _ q))

theorem execDecblk_keepsX (dc ac : BitVec 4) (p : BitVec 2) : Outcome.KeepsX (execDecblk dc ac p s) s q :=
  finish_leaving_keepsX (.after fun _ => .after fun _ => .after fun _ => .ok (by simp))

theorem execEncblk_keepsX (dc ac : BitVec 4) (p : BitVec 2) : Outcome.KeepsX (execEncblk dc ac p s) s q := by
  refine finish_leaving_keepsX (.after fun _ => .after fun codes => ?_)
  exact (s.commit_keepsX _ q).leaving.bind fun _ ht => .ok (by simpa using ht)

theorem openFile_keepsX (file : Region) : (openFile s file).Answers fun t => t.getX q = s.getX q := by
  refine .after fun _ => .after fun _ => .after fun _ => .after fun _ => .after fun _ => .after fun _ => .after fun _ => ?_
  exact Res.answers_ite (fun _ => .after fun _ => .ok (by simp)) fun _ => .after fun _ => .ok (by simp)

/-- A fault of GIFOPEN is taken from the state with G_OPEN = 0, which has the same registers. -/
theorem execGifopen_keepsX (rb rc : Reg) : Outcome.KeepsX (execGifopen rb rc s) s q := by
  unfold execGifopen
  dsimp only
  split
  · exact finish_leaving_keepsX (openFile_keepsX _)
  · exact finish_leaving_keepsX (s := openFault s) (openFile_keepsX _)

theorem execGifrewind_keepsX : Outcome.KeepsX (execGifrewind s) s q :=
  finish_leaving_keepsX (.after fun _ => .ok rfl)

theorem execGifwopen_keepsX (ra rb rc : Reg) : Outcome.KeepsX (execGifwopen ra rb rc s) s q := by
  refine finish_leaving_keepsX (.after fun _ => .after fun _ => ?_)
  exact (s.putWriter_keepsX _ q).bind fun _ ht => .ok ht

theorem writeFrame_keepsX (src delay : Nat) : (writeFrame s src delay).Answers fun t => t.getX q = s.getX q := by
  refine .after fun cur => .after fun rect => .after fun indices => ?_
  refine (State.putWriter_keepsX _ _ q).bind fun t ht => ?_
  exact (State.storeBytes_keepsX _ _ _ q).bind fun u hu => .ok (hu.trans ht)

theorem execGifwframe_keepsX (rb rc : Reg) : Outcome.KeepsX (execGifwframe rb rc s) s q := by
  refine finish_leaving_keepsX (leavingPastOverlap_answers.2 ?_)
  exact .after fun _ => .after fun _ => .after fun _ => .after fun _ => writeFrame_keepsX _ _

theorem execGifwend_keepsX : Outcome.KeepsX (execGifwend s) s q := by
  refine finish_leaving_keepsX (.after fun _ => .after fun _ => ?_)
  exact (s.putWriter_keepsX _ q).bind fun _ ht => .ok ht

/-! ### What GIFNEXT paints, and the commands with an output register -/

theorem fillFrame_keepsX (t : State) (q : Reg) : (fillFrame s t).Answers fun u => u.getX q = t.getX q :=
  Res.answers_ite (fun _ => .after fun _ => State.storeBytes_keepsX _ _ _ q) fun _ => .ok rfl

theorem paint_keepsX (hd : ImageHeader) (vs : List Byte) (j : Nat) (t : State) (q : Reg) :
    (paint s hd vs j t).Answers fun u => u.getX q = t.getX q := by
  induction vs generalizing j t with
  | nil => exact .ok rfl
  | cons v vs ih =>
    refine Res.answers_ite (fun _ => ih _ t) fun _ => .after fun _ => ?_
    exact (State.storeBytes_keepsX _ _ _ q).bind fun u hu => (ih _ u).mono fun _ hw => hw.trans hu

theorem decodeImage_keepsX (o : Nat) (q : Reg) : (decodeImage s o).Answers fun t => t.getX q = s.getX q := by
  refine .after fun hd => .after fun _ => .after fun r => .after fun _ => ?_
  have hpaint : (fillFrame s s >>= paint s hd r.2.1 0).Answers fun t => t.getX q = s.getX q :=
    (fillFrame_keepsX s q).bind fun t ht => (paint_keepsX hd _ 0 t q).mono fun _ hu => hu.trans ht
  exact hpaint.leaving.bind fun _ ht => .ok (by rw [imageDone_getX, ht])

variable {ra : Reg} (h : q ≠ ra)
include h

theorem execCsrr_keepsX (csr : BitVec 12) : Outcome.KeepsX (execCsrr ra csr s) s q := by
  refine finish_keepsX ?_
  split
  · exact .ok (by simp [State.getX_setX_of_ne, h])
  · exact fail_answers

theorem execLbu_keepsX (rb : Reg) (imm12 : BitVec 12) : Outcome.KeepsX (execLbu ra rb imm12 s) s q :=
  finish_keepsX (.after fun _ => .ok (by simp [State.getX_setX_of_ne, h]))

theorem execRdbits_keepsX (n : BitVec 5) : Outcome.KeepsX (execRdbits ra n s) s q :=
  finish_keepsX (.after fun _ => .after fun _ => .ok (by simp [State.getX_setX_of_ne, h]))

theorem execUnstuff_keepsX (rb rc : Reg) : Outcome.KeepsX (execUnstuff ra rb rc s) s q :=
  finish_keepsX (.after fun _ => .after fun _ => .ok (by simp [State.getX_setX_of_ne, h]))

theorem execBwflush_keepsX (pad : Bool) : Outcome.KeepsX (execBwflush ra pad s) s q :=
  finish_keepsX ((s.commit_keepsX _ q).leaving.bind fun _ ht => .ok (by simp [State.getX_setX_of_ne, h, ht]))

theorem execSbgather_keepsX (rb rc : Reg) : Outcome.KeepsX (execSbgather ra rb rc s) s q :=
  finish_keepsX (.after fun _ => .after fun _ => .after fun _ => .after fun _ => .ok (by simp [State.getX_setX_of_ne, h]))

theorem execSbsplit_keepsX (rb rc : Reg) : Outcome.KeepsX (execSbsplit ra rb rc s) s q :=
  finish_keepsX (.after fun _ => .after fun _ => .ok (by simp [State.getX_setX_of_ne, h]))

theorem execHbuild_keepsX (rb : Reg) (slot : BitVec 5) (pfx : Bool) : Outcome.KeepsX (execHbuild ra rb slot pfx s) s q :=
  finish_keepsX (.after fun _ => .after fun _ => .ok (by simp [State.getX_setX_of_ne, h]))

theorem execHdec_keepsX (slot : BitVec 5) : Outcome.KeepsX (execHdec ra slot s) s q :=
  finish_leaving_keepsX (.after fun _ => .after fun _ => .ok (by simp [State.getX_setX_of_ne, h]))

theorem execHfroment_keepsX (rb rc : Reg) : Outcome.KeepsX (execHfroment ra rb rc s) s q := by
  refine finish_keepsX (.after fun _ => .after fun _ => .after fun _ => .after fun _ => ?_)
  exact (State.storeBytes_keepsX _ _ _ q).bind fun _ ht => .ok (by simp [State.getX_setX_of_ne, h, ht])

theorem execLzwdec_keepsX (rc : Reg) (m : BitVec 4) : Outcome.KeepsX (execLzwdec ra rc m s) s q :=
  finish_keepsX (.after fun _ => .after fun _ => .after fun _ => .ok (by simp [State.getX_setX_of_ne, h]))

theorem execQload_keepsX (rb : Reg) (i : BitVec 4) (pfx : Bool) (tord : TableOrder) :
    Outcome.KeepsX (execQload ra rb i pfx tord s) s q :=
  finish_keepsX (.after fun _ => .after fun _ => .ok (by simp [State.getX_setX_of_ne, h]))

theorem nextControl_keepsX (o : Nat) : (nextControl ra s o).Answers fun t => t.getX q = s.getX q := by
  refine .after fun _ => .after fun _ => .after fun _ => .after fun _ => .after fun _ => .after fun _ => .after fun _ => ?_
  exact .after fun _ => .ok (by simp [State.getX_setX_of_ne, h])

theorem nextApplication_keepsX (o : Nat) : (nextApplication ra s o).Answers fun t => t.getX q = s.getX q := by
  refine .after fun isLoop => ?_
  dsimp only
  split <;>
    · refine .after fun count => .after fun _ => .ok ?_
      cases count <;> simp [State.getX_setX_of_ne, h]

theorem nextComment_keepsX (o : Nat) : (nextComment ra s o).Answers fun t => t.getX q = s.getX q :=
  .after fun _ => .after fun _ => .ok (by simp [State.getX_setX_of_ne, h])

theorem nextOther_keepsX (label : Byte) (o : Nat) : (nextOther ra s label o).Answers fun t => t.getX q = s.getX q :=
  .after fun _ => .ok (by simp [State.getX_setX_of_ne, h])

theorem nextBlock_keepsX : (nextBlock ra s).Answers fun t => t.getX q = s.getX q := by
  refine .after fun _ => .after fun t => ?_
  refine Res.answers_ite (fun _ => .ok (by simp [State.getX_setX_of_ne, h])) fun _ => Res.answers_ite (fun _ => ?_) fun _ => ?_
  · exact (decodeImage_keepsX _ q).bind fun _ ht => .ok (by simp [State.getX_setX_of_ne, h, ht])
  · refine .after fun _ => .after fun label => ?_
    refine Res.answers_ite (fun _ => nextControl_keepsX h _) fun _ => ?_
    refine Res.answers_ite (fun _ => nextApplication_keepsX h _) fun _ => ?_
    exact Res.answers_ite (fun _ => nextComment_keepsX h _) fun _ => nextOther_keepsX h label _

theorem execGifnext_keepsX : Outcome.KeepsX (execGifnext ra s) s q := by
  refine finish_leaving_keepsX ?_
  exact (leavingPastOverlap_answers.2 (nextBlock_keepsX h)).bind fun _ ht => .ok (by rw [State.drawMem_getX, ht])

end Commands

/-! ### Every command -/

/-- No command changes a register that is not its output (R134). -/
theorem exec_keepsX {s : State} {q : Reg} {i : Instr} (hq : destReg i ≠ some q) : Outcome.KeepsX (exec i s) s q := by
  have hne {r : Reg} (hr : some r ≠ some q) : q ≠ r := fun e => hr (congrArg some e.symm)
  cases i with
  | nop => exact finish_ok_keepsX rfl
  | halt => exact Outcome.keepsX_next rfl
  | lui ra imm20 => exact finish_ok_keepsX (s.getX_setX_of_ne ra q _ (hne hq))
  | ori ra rb imm12 => exact finish_ok_keepsX (s.getX_setX_of_ne ra q _ (hne hq))
  | addi ra rb imm12 => exact finish_ok_keepsX (s.getX_setX_of_ne ra q _ (hne hq))
  | add ra rb rc => exact finish_ok_keepsX (s.getX_setX_of_ne ra q _ (hne hq))
  | sub ra rb rc => exact finish_ok_keepsX (s.getX_setX_of_ne ra q _ (hne hq))
  | beq rb rc imm12 => exact Outcome.keepsX_next (s.branch_getX _ _ _)
  | bne rb rc imm12 => exact Outcome.keepsX_next (s.branch_getX _ _ _)
  | csrr ra csr => exact execCsrr_keepsX (hne hq) csr
  | csrw rb csr => exact execCsrw_keepsX rb csr
  | lbu ra rb imm12 => exact execLbu_keepsX (hne hq) rb imm12
  | sb rb rc imm12 => exact finish_keepsX (State.storeBytes_keepsX _ _ _ q)
  | bltu rb rc imm12 => exact Outcome.keepsX_next (s.branch_getX _ _ _)
  | brinit rb rc order => exact finish_ok_keepsX rfl
  | rdbits ra n => exact execRdbits_keepsX (hne hq) n
  | align => exact execAlign_keepsX
  | unstuff ra rb rc => exact execUnstuff_keepsX (hne hq) rb rc
  | bwinit rb rc order stuff => exact finish_ok_keepsX rfl
  | wrbits rb n => exact execWrbits_keepsX rb n
  | bwflush ra pad => exact execBwflush_keepsX (hne hq) pad
  | sbgather ra rb rc => exact execSbgather_keepsX (hne hq) rb rc
  | sbsplit ra rb rc => exact execSbsplit_keepsX (hne hq) rb rc
  | hbuild ra rb slot pfx => exact execHbuild_keepsX (hne hq) rb slot pfx
  | hdec ra slot => exact execHdec_keepsX (hne hq) slot
  | hctab rb slot => exact execHctab_keepsX rb slot
  | henc rb slot => exact execHenc_keepsX rb slot
  | hfroment ra rb rc => exact execHfroment_keepsX (hne hq) rb rc
  | lzwdec ra rc m => exact execLzwdec_keepsX (hne hq) rc m
  | lzwenc rb rc m => exact execLzwenc_keepsX rb rc m
  | qload ra rb i pfx tord => exact execQload_keepsX (hne hq) rb i pfx tord
  | sldb rb rc shift => exact execSldb_keepsX rb rc shift
  | sstb rb rc shift => exact execSstb_keepsX rb rc shift
  | kld rb => exact execKld_keepsX rb
  | kst rb => exact execKst_keepsX rb
  | fdct => exact finish_ok_keepsX (s.transformed_getX false q)
  | idct => exact finish_ok_keepsX (s.transformed_getX true q)
  | quant i order => exact execQuant_keepsX i order
  | dequant i order => exact execDequant_keepsX i order
  | zzfwd file => exact execZzfwd_keepsX file
  | zzinv file => exact execZzinv_keepsX file
  | cvtks => exact finish_ok_keepsX (s.setSfile_getX _ _ q)
  | cvtsk => exact execCvtsk_keepsX
  | decblk dc ac p => exact execDecblk_keepsX dc ac p
  | encblk dc ac p => exact execEncblk_keepsX dc ac p
  | prst => exact finish_ok_keepsX rfl
  | gifopen rb rc => exact execGifopen_keepsX rb rc
  | gifnext ra => exact execGifnext_keepsX (hne hq)
  | gifrewind => exact execGifrewind_keepsX
  | gifwopen ra rb rc => exact execGifwopen_keepsX ra rb rc
  | gifwframe rb rc => exact execGifwframe_keepsX rb rc
  | gifwend => exact execGifwend_keepsX

/-- Settles O12: every register write of a command goes to its ra, and a fault writes none. -/
theorem registerFrame : Obligations.RegisterFrame := fun _ _ t _ ht hq => exec_keepsX hq t ht

end Sys2Proof.Machine
end

section
/-! SUPPORT. The engine control commands (O7, O17, O18, O19, O20, O21, O22): each is one update of the state at the end of a
command, or a fault that leaves nothing. `Effect` says once what each update changes and what it keeps. -/

namespace Sys2Proof.Machine

open Sys2Proof.Laws.Encoding (decodeWord_encode lui_immediate)

/-! ### What an update changes -/

section Effects

variable (s : State)

theorem Effect.refl (rs : List Reg) (cs : List Csr) (fs : List Store) (bytes : List Region) : Effect rs cs fs bytes s s :=
  ⟨fun _ _ => rfl, fun _ _ => rfl, fun _ _ => rfl, fun _ => rfl, fun _ => rfl, fun _ => rfl, fun _ => rfl, rfl, rfl⟩

theorem State.effect_setX (ra : Reg) (v : Word) : Effect [ra] [] [] [] s (s.setX ra v) where
  reg q hq := s.getX_setX_of_ne ra q v (List.ne_of_not_mem_cons hq)
  csr c _ := s.setX_getCsr ra v c
  mem a _ := by rw [State.setX_mem]
  sfile _ := s.setX_sfile ra v
  kfile _ := s.setX_kfile ra v
  slots _ := s.setX_slots ra v
  tables _ := s.setX_qtabs ra v
  params := s.setX_params ra v
  host := s.setX_host ra v

theorem State.regIs_setX (ra : Reg) (v : Word) : RegIs ra v (s.setX ra v) := by
  unfold RegIs
  split
  · next h => rw [h]; rfl
  · next h => exact s.getX_setX_self ra v h

theorem State.effect_setCsr (c : Csr) (v : Word) : Effect [] [c] [] [] s (s.setCsr c v) :=
  { Effect.refl s [] [c] [] [] with csr := fun _ hd => s.getCsr_setCsr_of_ne v (List.ne_of_not_mem_cons hd) }

theorem State.effect_putMem (a : Nat) (bs : List Byte) : Effect [] [] [] [⟨a, bs.length⟩] s (s.putMem a bs) :=
  { Effect.refl s [] [] [] [⟨a, bs.length⟩] with
    mem := fun b hb => Memory.read?_write_outside s.mem a bs b (hb _ (List.mem_singleton_self _)) }

/-- Moving PC on is no part of an `Effect`, so a command that ends well has the effect of its update (R33, R170). -/
theorem Effect.advanced {s t : State} {rs : List Reg} {cs : List Csr} {fs : List Store} {bytes : List Region}
    (h : Effect rs cs fs bytes s t) (hpc : t.pc = s.pc) : Advanced rs cs fs bytes s t.advance :=
  ⟨congrArg (· + 4) hpc, { h with }⟩

/-- A fault that leaves nothing behind writes its three CSRs only (R494). -/
theorem State.cleanFault_takeFault (f : EngineFault) : CleanFault f.code f.aux s (s.takeFault f) := by
  refine ⟨s.faultTaken_leaveAll [] f, { Effect.refl s [] ([] ++ faultCsrs) [] [] with csr := fun c hc => ?_ }⟩
  simp only [List.nil_append, faultCsrs, List.mem_cons, List.not_mem_nil, or_false, not_or] at hc
  obtain ⟨hstatus, herrpc, herraux⟩ := hc
  rw [State.takeFault_getCsr, if_neg hstatus, if_neg herraux, if_neg herrpc]

end Effects

/-! ### The end of a command -/

section Finish

variable {s : State}

theorem finish_setX (s : State) (ra : Reg) {v w : Word} (h : v = w) :
    ∃ t, finish s (.ok (s.setX ra v)) = .next t ∧ RegIs ra w t ∧ Advanced [ra] [] [] [] s t :=
  ⟨_, rfl, h ▸ s.regIs_setX ra v, (s.effect_setX ra v).advanced (s.setX_pc ra v)⟩

theorem finish_raise {r : Res State} {code : FaultCode} {aux : Word} (h : r = .error (.raise ⟨code, aux⟩ [])) :
    ∃ t, finish s r = .next t ∧ CleanFault code aux s t :=
  ⟨_, h ▸ rfl, s.cleanFault_takeFault ⟨code, aux⟩⟩

/-- The detail word of a fault is given as a number; a word's own number gives the word. -/
theorem fail_word {α : Type} (code : FaultCode) (w : Word) :
    (fail code w.toNat : Res α) = .error (.raise ⟨code, w⟩ []) := by
  rw [fail, u32, BitVec.ofNat_toNat, BitVec.setWidth_eq]

end Finish

/-! ### Operands as numbers (R8, R133) -/

theorem upperImm_eq (imm : BitVec 20) : upperImm imm = u32 (imm.toNat * 2 ^ 12) := by
  have h : (upperImm imm).toNat = imm.toNat <<< 12 ||| 0 := BitVec.toNat_append imm 0#12
  apply BitVec.eq_of_toNat_eq
  rw [h, Nat.or_zero, Nat.shiftLeft_eq, BitVec.toNat_ofNat, Nat.mod_eq_of_lt (by omega)]

theorem or_zext12 (w : Word) (imm : BitVec 12) : w ||| zext12 imm = u32 (w.toNat ||| imm.toNat) := by
  rw [u32, BitVec.ofNat_or, BitVec.ofNat_toNat, BitVec.ofNat_toNat, BitVec.setWidth_eq, zext12]

theorem ofInt_toNat (w : Word) : BitVec.ofInt 32 w.toNat = w := by
  rw [BitVec.ofInt_natCast, BitVec.ofNat_toNat, BitVec.setWidth_eq]

theorem sext12_eq (imm : BitVec 12) : sext12 imm = u32i imm.toInt := rfl

theorem add_sext12 (w : Word) (imm : BitVec 12) : w + sext12 imm = u32i (w.toNat + imm.toInt) := by
  rw [u32i, BitVec.ofInt_add, ofInt_toNat, sext12_eq]

theorem State.branchTarget_eq (s : State) (imm : BitVec 12) : s.branchTarget imm = u32i (s.pc.toNat + 4 * imm.toInt) := by
  rw [u32i, BitVec.ofInt_add, BitVec.ofInt_mul, ofInt_toNat, State.branchTarget, sext12_eq]; rfl

theorem add_eq_u32 (v w : Word) : v + w = u32 (v.toNat + w.toNat) := by
  simp [BitVec.ofNat_add]

theorem sub_eq_u32i (v w : Word) : v - w = u32i (v.toNat - w.toNat) := by
  rw [u32i, Int.sub_eq_add_neg, BitVec.ofInt_add, BitVec.ofInt_neg, ofInt_toNat, ofInt_toNat, BitVec.sub_eq_add_neg]

theorem State.effAddr_eq (s : State) (rb : Reg) (imm : BitVec 12) :
    s.effAddr rb imm = (u32i ((s.getX rb).toNat + imm.toInt)).toNat :=
  congrArg BitVec.toNat (add_sext12 (s.getX rb) imm)

/-! ### Registers and branches -/

theorem encode_lui (ra : Reg) (imm20 : BitVec 20) : encode (.lui ra imm20) = imm20 ++ ra ++ 0x03#8 :=
  congrArg (· ++ ra ++ 0x03#8) (lui_immediate imm20)

/-- Settles O17: each of the five commands with an output writes its register with a word that R8's arithmetic gives. -/
theorem registerCommands : Obligations.RegisterCommands := by
  intro ra rb rc imm12 imm20 s
  exact ⟨⟨rfl, rfl⟩, ⟨encode_lui ra imm20 ▸ decodeWord_encode rfl, finish_setX s ra (upperImm_eq imm20)⟩,
    ⟨decodeWord_encode (i := .ori ra rb imm12) rfl, finish_setX s ra (or_zext12 _ _)⟩,
    ⟨decodeWord_encode (i := .addi ra rb imm12) rfl, finish_setX s ra (add_sext12 _ _)⟩,
    ⟨decodeWord_encode (i := .add ra rb rc) rfl, finish_setX s ra (add_eq_u32 _ _)⟩,
    ⟨decodeWord_encode (i := .sub ra rb rc) rfl, finish_setX s ra (sub_eq_u32i _ _)⟩⟩

theorem State.branch_eq (s : State) {taken : Bool} {P : Prop} [Decidable P] (h : taken = true ↔ P) (imm : BitVec 12) :
    s.branch taken imm = { s with pc := if P then u32i (s.pc.toNat + 4 * imm.toInt) else s.pc + 4 } := by
  unfold State.branch
  by_cases hP : P
  · rw [if_pos (h.2 hP), if_pos hP, s.branchTarget_eq]
  · rw [if_neg (mt h.1 hP), if_neg hP, State.advance]

/-- Settles O19: the three commands are the same branch under three conditions. -/
theorem branches : Obligations.Branches := by
  intro rb rc imm s target
  exact ⟨⟨decodeWord_encode (i := .beq rb rc imm) rfl, congrArg _ (s.branch_eq beq_iff_eq imm)⟩,
    ⟨decodeWord_encode (i := .bne rb rc imm) rfl, congrArg _ (s.branch_eq bne_iff_ne imm)⟩,
    ⟨decodeWord_encode (i := .bltu rb rc imm) rfl, congrArg _ (s.branch_eq BitVec.ult_iff_toNat_lt imm)⟩⟩

/-! ### STATUS and HALT -/

/-- HALT clears bit 0 of STATUS and sets bit 1 (R176). -/
theorem getLsbD_statusHalted (st : Word) (j : Nat) :
    (statusHalted st).getLsbD j = (decide (j = 1) || (decide (j ≠ 0) && st.getLsbD j)) := by
  have hset : (2 : Word).getLsbD j = decide (j = 1) := by
    rw [show (2 : Word) = BitVec.twoPow 32 1 from rfl, BitVec.getLsbD_twoPow]
    simp [eq_comm]
  rw [statusHalted, BitVec.getLsbD_or, BitVec.getLsbD_and, BitVec.getLsbD_not, BitVec.getLsbD_one, hset]
  by_cases hj : j < 32
  · simp [hj, Bool.or_comm, Bool.and_comm]
  · simp [hj, BitVec.getLsbD_of_ge st j (Nat.le_of_not_lt hj)]

/-- HALT writes STATUS alone, each of its named bits as `statusHalted` says (R176). -/
theorem execHalt_next (s : State) : ∃ t, execHalt s = .next t ∧ Advanced [] [.status] [] [] s t ∧
    ∀ j, (t.getCsr .status).getLsbD j =
      ((decide (j = 1) || (decide (j ≠ 0) && (s.getCsr .status).getLsbD j)) && (Csr.mask .status).getLsbD j) :=
  ⟨_, rfl, ⟨rfl, { s.effect_setCsr .status (statusHalted (s.getCsr .status)) with }⟩, fun j => by
    rw [State.getCsr_setCsr_self, BitVec.getLsbD_and, getLsbD_statusHalted]⟩

/-- Settles O18: of STATUS only bits 0 and 1 change, and IE stays, so irq follows DONE. -/
theorem halt : Obligations.Halt := by
  refine ⟨rfl, fun s => ?_⟩
  obtain ⟨t, ht, hadv, hbit⟩ := execHalt_next s
  refine ⟨t, ht, hbit 0, hbit 1, fun hie => ?_, fun j h0 h1 => ?_, hadv⟩
  · rw [State.irq, irqLevel, hadv.2.csr .ie (by decide), hie, statusDone, hbit 1]
    rfl
  · rw [hbit, decide_eq_false h1, Bool.false_or, decide_eq_true h0, Bool.true_and]

/-- The named bits of STATUS (R40). -/
theorem getLsbD_mask_status : ∀ j < 32, (Csr.mask .status).getLsbD j = decide (j < 3 ∨ 8 ≤ j ∧ j < 12) := by
  decide

/-- Of a CSR only the named bits are set (R35). -/
theorem State.Inv.getCsr_and_mask {s : State} (h : s.Inv) (c : Csr) : s.getCsr c &&& c.mask = s.getCsr c :=
  calc s.getCsr c &&& c.mask = s.getCsr c &&& c.mask ||| s.getCsr c &&& ~~~c.mask := by
        rw [h.csrNamed c]; exact BitVec.or_zero.symm
    _ = s.getCsr c := by rw [← BitVec.and_or_distrib_left, BitVec.or_not_self, BitVec.and_allOnes]

/-- In a run STATUS is 1: BUSY excludes DONE and FAULT, and without FAULT there is no ERRCODE (R40, R182). -/
theorem State.Inv.status_of_busy {s : State} (h : s.Inv) (hb : s.busy = true) : s.getCsr .status = 1 := by
  obtain ⟨hbusy, -, herr, -⟩ := statusLegal_iff.1 h.status
  obtain ⟨hdone, hfault⟩ := hbusy hb
  have hcode : ∀ k < 4, (s.getCsr .status).getLsbD (8 + k) = false := fun k hk => by
    have hk' : (statusErrcode (s.getCsr .status)).getLsbD k = false := by rw [herr hfault]; exact BitVec.getLsbD_zero
    simpa [statusErrcode, hk] using hk'
  refine BitVec.eq_of_getLsbD_eq fun j hj => ?_
  rw [show (1 : Word) = 1#32 from rfl, BitVec.getLsbD_one]
  by_cases hcase : j = 0 ∨ j = 1 ∨ j = 2 ∨ 8 ≤ j ∧ j < 12
  · obtain rfl | rfl | rfl | ⟨hlow, hhigh⟩ := hcase
    · exact hb
    · exact hdone
    · exact hfault
    · obtain ⟨k, rfl⟩ := Nat.exists_eq_add_of_le hlow
      simpa using hcode k (by omega)
  · rw [← h.getCsr_and_mask, BitVec.getLsbD_and, getLsbD_mask_status j hj, decide_eq_false (by omega),
      decide_eq_false (p := j = 0) (by omega), Bool.and_false, Bool.and_false]

/-! ### CSRs -/

/-- Each row of the map names the number it stands at (R36). -/
theorem Csr.number_of_ofNumber {n : BitVec 12} {c : Csr} (h : Csr.ofNumber n = some c) : c.number = n := by
  unfold Csr.ofNumber at h
  split at h <;> cases h <;> exact BitVec.eq_of_toNat_eq (by symm; assumption)

theorem Csr.ofNumber_eq_some {n : BitVec 12} {c : Csr} : Csr.ofNumber n = some c ↔ c.number = n :=
  ⟨Csr.number_of_ofNumber, fun h => h ▸ c.ofNumber_number⟩

theorem Csr.ofNumber_eq_none {n : BitVec 12} (h : ∀ c : Csr, c.number ≠ n) : Csr.ofNumber n = none :=
  Option.eq_none_iff_forall_ne_some.2 fun c hc => h c (Csr.number_of_ofNumber hc)

section Commands

variable {s : State} {ra rb : Reg} {n : BitVec 12} {c : Csr}

theorem execCsrr_of_number (h : c.number = n) : execCsrr ra n s = finish s (.ok (s.setX ra (s.getCsr c))) := by
  simp only [execCsrr, Csr.ofNumber_eq_some.2 h]

theorem execCsrr_unknown (h : ∀ c : Csr, c.number ≠ n) :
    execCsrr ra n s = finish s (fail .illegalCommand (encode (.csrr ra n)).toNat) := by
  simp only [execCsrr, Csr.ofNumber_eq_none h]

theorem execCsrw_of_rw (h : c.number = n) (hrw : c.access = .rw) :
    execCsrw rb n s = finish s (.ok (s.setCsr c (s.getX rb))) := by
  simp only [execCsrw, Csr.ofNumber_eq_some.2 h, if_pos hrw]

theorem execCsrw_of_not_rw (h : ∀ c : Csr, c.number = n → c.access ≠ .rw) :
    execCsrw rb n s = finish s (fail .illegalCommand (encode (.csrw rb n)).toNat) := by
  cases hn : Csr.ofNumber n with
  | none => simp only [execCsrw, hn]
  | some c => simp only [execCsrw, hn, if_neg (h c (Csr.number_of_ofNumber hn))]

end Commands

/-- Settles O20: the word CSRR reads has its unnamed bits 0 by the invariant, which also gives STATUS its value in a run. -/
theorem csrReads : Obligations.CsrReads := by
  intro ra n s hs
  refine ⟨decodeWord_encode (i := .csrr ra n) rfl, fun c hc => ?_, hs.status_of_busy, fun hn => ?_⟩
  · simp only [exec, execCsrr_of_number hc, hs.getCsr_and_mask]
    exact finish_setX s ra rfl
  · simp only [exec, execCsrr_unknown hn]
    exact finish_raise (fail_word ..)

/-- Settles O21: the write stores the named bits; every other number ends in the same fault. -/
theorem csrWrites : Obligations.CsrWrites := by
  intro rb n s
  refine ⟨decodeWord_encode (i := .csrw rb n) rfl, fun c hc hrw => ?_, fun hn => ?_⟩
  · simp only [exec, execCsrw_of_rw hc hrw]
    exact ⟨_, rfl, s.getCsr_setCsr_self c _, (s.effect_setCsr c _).advanced rfl⟩
  · simp only [exec, execCsrw_of_not_rw hn]
    exact finish_raise (fail_word ..)

/-! ### Bytes of MEM -/

section Bytes

variable {s : State} {a : Word}

/-- An address outside MEM is the detail word of the fault it raises (R101). -/
theorem State.checkRange_outside (h : s.memSize ≤ a.toNat) :
    s.checkRange a.toNat 1 = .error (.raise ⟨.ioError, a⟩ []) := by
  refine State.checkRange_eq_error.2 ⟨⟨one_ne_zero, Nat.lt_succ_of_le h⟩, ?_⟩
  rw [max_eq_left h, u32, BitVec.ofNat_toNat, BitVec.setWidth_eq]

theorem State.readByte_outside (h : s.memSize ≤ a.toNat) :
    s.readByte a.toNat = .error (.raise ⟨.ioError, a⟩ []) := by
  rw [State.readByte, State.checkRange_outside h, Res.error_bind]

theorem State.storeByte_inside (h : a.toNat < s.memSize) (b : Byte) :
    s.storeBytes a.toNat [b] = .ok (s.putMem a.toNat [b]) :=
  State.storeBytes_eq_ok.2 ⟨.inr (Nat.succ_le_of_lt h), rfl⟩

theorem State.storeByte_outside (h : s.memSize ≤ a.toNat) (b : Byte) :
    s.storeBytes a.toNat [b] = .error (.raise ⟨.ioError, a⟩ []) := by
  rw [State.storeBytes, List.length_singleton, State.checkRange_outside h, Res.error_bind]

end Bytes

/-- Settles O22: both commands name the one byte at the wrapped address, and it is inside MEM or the detail word. -/
theorem byteAccess : Obligations.ByteAccess := by
  intro ra rb rc imm s a
  have ha : s.effAddr rb imm = a.toNat := s.effAddr_eq rb imm
  refine ⟨decodeWord_encode (i := .lbu ra rb imm) rfl,
    decodeWord_encode (i := .sb rb rc imm) rfl, fun v hin hv => ?_, fun hout => ?_, fun hin => ?_,
    fun hout => ?_⟩
  · simp only [exec, execLbu, ha, State.readByte_eq_ok.2 ⟨hin, hv⟩, Res.ok_bind]
    exact finish_setX s ra (BitVec.ofNat_toNat ..).symm
  · simp only [exec, execLbu, ha, State.readByte_outside hout, Res.error_bind]
    exact finish_raise rfl
  · simp only [exec, execSb, ha, State.storeByte_inside hin]
    refine ⟨_, rfl, ?_, (s.effect_putMem a.toNat _).advanced rfl⟩
    rw [BitVec.ofNat_toNat]
    exact Memory.read?_write_inside s.mem a.toNat [_] 0 Nat.one_pos
  · simp only [exec, execSb, ha, State.storeByte_outside hout]
    exact finish_raise rfl

/-! ### The step -/

/-- Where no move is due, only the host's script may have moved on. -/
theorem hostTurn_none {s s' : State} (h : hostTurn s = (none, s')) : s' = { s with host := s'.host } := by
  unfold hostTurn at h
  split at h
  · cases h; rfl
  · split at h <;> cases h
    rfl
  · cases h; rfl

theorem step_of_hostTurn_none {s s' : State} (h : hostTurn s = (none, s')) : step s = engineStep s' := by
  simp only [step, cycle, h]

/-- The command at PC is what the four bytes that stand there decode to (R170). -/
theorem fetchInstr_of_holds {s : State} {bytes rest : List Byte} {i : Instr} (hlen : bytes.length = 4)
    (hb : s.holds s.pc.toNat bytes = true) (hi : decodeBytes bytes = .ok (i, rest)) : fetchInstr s = .ok i := by
  obtain ⟨-, hlast⟩ := State.holds_getElem hb 3 (by omega)
  have hrange : s.checkRange s.pc.toNat 4 = .ok () := State.checkRange_eq_ok.2 (.inr hlast)
  simp only [fetchInstr, hrange, State.readBytes_eq_ok.2 ⟨hlen, hb⟩, Res.ok_bind, hi]
  rfl

/-- Settles O7: the engine's turn is the whole of the step, and its fetch finds the command. -/
theorem stepRunsTheDecodedCommand : Obligations.StepRunsTheDecodedCommand := by
  intro s s' h
  refine ⟨hostTurn_none h, fun hidle => ?_, fun bytes i hbusy hlen hb hi => ?_⟩
  · simp [step_of_hostTurn_none h, engineStep, hidle]
  · simp [step_of_hostTurn_none h, engineStep, hbusy, fetchInstr_of_holds hlen hb hi]

end Sys2Proof.Machine
end

section
/-! SUPPORT. What a command changes, step by step: each update of the state keeps an `Effect` that names what it writes, and so
does every piece of state that a fault leaves (R494). -/

namespace Sys2Proof.Machine

-- A proof that waits for the kernel holds a thread, and the check's memory bounds their number: with this option the
-- proofs below are elaborated one after another. No variable is named in a proof alone, so the statements stay the same.
set_option deprecated.oldSectionVars true

/-! ### Effects one after another -/

section Effects

variable {rs : List Reg} {cs : List Csr} {fs : List Store} {bytes : List Region} {s t u : State}

theorem Effect.trans (h : Effect rs cs fs bytes s t) (h' : Effect rs cs fs bytes t u) : Effect rs cs fs bytes s u where
  reg q hq := (h'.reg q hq).trans (h.reg q hq)
  csr c hc := (h'.csr c hc).trans (h.csr c hc)
  mem a ha := (h'.mem a ha).trans (h.mem a ha)
  sfile hf := (h'.sfile hf).trans (h.sfile hf)
  kfile hf := (h'.kfile hf).trans (h.kfile hf)
  slots hf := (h'.slots hf).trans (h.slots hf)
  tables hf := (h'.tables hf).trans (h.tables hf)
  params := h'.params.trans h.params
  host := h'.host.trans h.host

/-- An effect on less is an effect on more. -/
theorem Effect.mono {rs' : List Reg} {cs' : List Csr} {fs' : List Store} {bytes' : List Region}
    (h : Effect rs cs fs bytes s t) (hrs : rs ⊆ rs') (hcs : cs ⊆ cs') (hfs : fs ⊆ fs')
    (hbytes : ∀ a, outside bytes' a → outside bytes a) : Effect rs' cs' fs' bytes' s t where
  reg q hq := h.reg q fun hm => hq (hrs hm)
  csr c hc := h.csr c fun hm => hc (hcs hm)
  mem a ha := h.mem a (hbytes a ha)
  sfile hf := h.sfile fun hm => hf (hfs hm)
  kfile hf := h.kfile fun hm => hf (hfs hm)
  slots hf := h.slots fun hm => hf (hfs hm)
  tables hf := h.tables fun hm => hf (hfs hm)
  params := h.params
  host := h.host

theorem outside_nil (a : Nat) : outside [] a := List.forall_mem_nil _

theorem Effect.setX (h : Effect rs cs fs bytes s t) {ra : Reg} {v : Word} (hr : ra ∈ rs) :
    Effect rs cs fs bytes s (t.setX ra v) :=
  h.trans ((t.effect_setX ra v).mono (List.forall_mem_singleton.2 hr) (List.nil_subset _) (List.nil_subset _)
    fun a _ => outside_nil a)

theorem Effect.setCsr (h : Effect rs cs fs bytes s t) {c : Csr} {v : Word} (hc : c ∈ cs) :
    Effect rs cs fs bytes s (t.setCsr c v) :=
  h.trans ((t.effect_setCsr c v).mono (List.nil_subset _) (List.forall_mem_singleton.2 hc) (List.nil_subset _)
    fun a _ => outside_nil a)

theorem Effect.putMem (h : Effect rs cs fs bytes s t) {a : Nat} {bs : List Byte}
    (hb : ∀ b, outside bytes b → outside [⟨a, bs.length⟩] b) : Effect rs cs fs bytes s (t.putMem a bs) :=
  h.trans ((t.effect_putMem a bs).mono (List.nil_subset _) (List.nil_subset _) (List.nil_subset _) hb)

/-- A command with an output register and one CSR beside it. -/
theorem State.effect_setX_setCsr (s : State) (ra : Reg) (v : Word) (c : Csr) (w : Word) :
    Effect [ra] [c] [] [] s ((s.setX ra v).setCsr c w) :=
  ((Effect.refl s ..).setX List.mem_cons_self).setCsr List.mem_cons_self

/-- The same of a command that stores bytes too. -/
theorem State.effect_putMem_setX_setCsr (s : State) (a : Nat) (bs : List Byte) (ra : Reg) (v : Word) (c : Csr) (w : Word) :
    Effect [ra] [c] [] [⟨a, bs.length⟩] s (((s.putMem a bs).setX ra v).setCsr c w) :=
  (((Effect.refl s ..).putMem fun _ => id).setX List.mem_cons_self).setCsr List.mem_cons_self

end Effects

/-! ### What a fault leaves -/

/-- What a fault leaves of this piece is within these CSRs, stores and bytes. -/
def Leftover.Within (cs : List Csr) (fs : List Store) (bytes : List Region) : Leftover → Prop
  | .csr c => c ∈ cs
  | .mem base len => ∀ a, outside bytes a → outside [⟨base, len⟩] a
  | .kFile => .kfile ∈ fs
  | .sFile => .sfile ∈ fs
  | .stored cells => ∀ a, outside bytes a → ∀ c ∈ cells, outside [⟨c.1, 1⟩] a

section Leftovers

variable {cs : List Csr} {fs : List Store} {bytes : List Region} {s : State}

@[simp] theorem Leftover.within_csr {c : Csr} : (Leftover.csr c).Within cs fs bytes ↔ c ∈ cs := Iff.rfl

@[simp] theorem Leftover.within_mem {base len : Nat} :
    (Leftover.mem base len).Within cs fs bytes ↔ ∀ a, outside bytes a → outside [⟨base, len⟩] a := Iff.rfl

theorem State.effect_putCells {cells : List Host.Cell}
    (hc : ∀ a, outside bytes a → ∀ c ∈ cells, outside [⟨c.1, 1⟩] a) : Effect [] cs fs bytes s (s.putCells cells) := by
  unfold State.putCells
  induction cells generalizing s with
  | nil => exact Effect.refl s ..
  | cons c cells ih =>
    have hput : Effect [] cs fs bytes s (s.putMem c.1 [c.2]) :=
      (Effect.refl s ..).putMem fun a ha => hc a ha c List.mem_cons_self
    exact hput.trans (ih fun a ha d hd => hc a ha d (List.mem_cons_of_mem _ hd))

/-- K may hold any values, and the count of free values drawn is free. -/
theorem State.effect_setKfile (hf : .kfile ∈ fs) (block : Vector Word 64) (draws : Nat) :
    Effect [] cs fs bytes s { s with kfile := block, draws := draws } :=
  { Effect.refl s [] cs fs bytes with kfile := fun hn => absurd hf hn }

/-- The same of S. -/
theorem State.effect_setSfile (hf : .sfile ∈ fs) (block : Vector Binary64 64) (draws : Nat) :
    Effect [] cs fs bytes s { s with sfile := block, draws := draws } :=
  { Effect.refl s [] cs fs bytes with sfile := fun hn => absurd hf hn }

/-- A piece left as a fault leaves it changes what it is within, and nothing else (R494). -/
theorem State.effect_leave {p : Leftover} (hp : p.Within cs fs bytes) : Effect [] cs fs bytes s (s.leave p) := by
  cases p with
  | csr c => exact { (Effect.refl s ..).setCsr (v := Config.freeWord s.draws) hp with }
  | mem base len =>
    refine { Effect.refl s [] cs fs bytes with mem := fun a ha => s.drawMem_read?_outside base len a ?_ }
    exact hp a ha _ (List.mem_singleton_self _)
  | kFile =>
    unfold State.leave State.drawK
    exact State.effect_setKfile hp _ _
  | sFile =>
    unfold State.leave State.drawS
    exact State.effect_setSfile hp _ _
  | stored cells => exact State.effect_putCells hp

theorem State.effect_leaveAll {ps : List Leftover} (hps : ∀ p ∈ ps, p.Within cs fs bytes) :
    Effect [] cs fs bytes s (s.leaveAll ps) := by
  unfold State.leaveAll
  induction ps generalizing s with
  | nil => exact Effect.refl s ..
  | cons p ps ih =>
    obtain ⟨hp, hps⟩ := List.forall_mem_cons.1 hps
    exact (State.effect_leave hp).trans (ih hps)

/-- Taking a fault writes its three CSRs (R494). -/
theorem State.effect_takeFault (hcs : faultCsrs ⊆ cs) (f : EngineFault) :
    Effect [] cs fs bytes s (s.takeFault f) := by
  simp only [faultCsrs, List.cons_subset] at hcs
  obtain ⟨hstatus, herrpc, herraux, -⟩ := hcs
  exact (((Effect.refl s ..).setCsr herrpc).setCsr herraux).setCsr hstatus

/-- The end of a command that faults: what changes is what the fault leaves, and its own CSRs (R494). -/
theorem finish_raise_leaving {r : Res State} {code : FaultCode} {aux : Word} {ps : List Leftover}
    (h : r = .error (.raise ⟨code, aux⟩ ps)) (hps : ∀ p ∈ ps, p.Within cs fs bytes) :
    ∃ t, finish s r = .next t ∧ FaultLeaving code aux cs fs bytes s t := by
  subst h
  refine ⟨_, rfl, s.faultTaken_leaveAll ps ⟨code, aux⟩, ?_⟩
  exact ((State.effect_leaveAll hps).mono (List.nil_subset _) (List.subset_append_left _ _) (List.Subset.refl _)
    fun _ => id).trans (State.effect_takeFault (List.subset_append_right _ _) _)

end Leftovers

/-! ### The parts of a command -/

section Parts

variable {α : Type} {s t : State}

@[simp] theorem leaving_ok (ps : List Leftover) (a : α) : leaving ps (.ok a : Res α) = .ok a := rfl

@[simp] theorem leaving_raise (ps qs : List Leftover) (f : EngineFault) :
    leaving ps (.error (.raise f qs) : Res α) = .error (.raise f (qs ++ ps)) := rfl

theorem require_true (code : FaultCode) (aux : Nat) : require true code aux = .ok () := rfl

theorem require_false (code : FaultCode) (aux : Nat) :
    require false code aux = .error (.raise ⟨code, u32 aux⟩ []) := rfl

theorem requireDisjoint_ok {p q : Region} (h : p.overlaps q = false) : requireDisjoint p q = .ok () := by
  rw [requireDisjoint, h]; rfl

theorem requireDisjoint_overlap {p q : Region} (h : p.overlaps q = true) :
    requireDisjoint p q = .error (.raise ⟨.contractViolation, 1⟩ []) := by
  rw [requireDisjoint, h]; rfl

/-- The mask of a CSR whose bits are all named (R35). -/
@[simp] theorem and_fullMask (w : Word) : w &&& 0xFFFFFFFF#32 = w := BitVec.and_allOnes

theorem State.getCsrNat_setCsrNat_full (s : State) {c : Csr} {n : Nat} (hn : n < 2 ^ 32)
    (hc : c.mask = 0xFFFFFFFF#32) : (s.setCsrNat c n).getCsrNat c = n := by
  rw [State.getCsrNat, State.setCsrNat, State.getCsr_setCsr_self, hc, and_fullMask, BitVec.toNat_ofNat, Nat.mod_eq_of_lt hn]

theorem State.checkRange_one {a : Nat} (h : a < s.memSize) : s.checkRange a 1 = .ok () :=
  State.checkRange_eq_ok.2 (.inr h)

/-- What stands in MEM depends on MEM and its size alone. -/
theorem State.holds_congr (hmem : t.mem = s.mem) (hparams : t.params = s.params) (a : Nat) (bs : List Byte) :
    t.holds a bs = s.holds a bs := by
  induction bs generalizing a with
  | nil => rfl
  | cons b bs ih => simp only [State.holds, ih, hmem, State.memSize, hparams]

theorem State.holds_append {a : Nat} {xs ys : List Byte} :
    s.holds a (xs ++ ys) = true ↔ s.holds a xs = true ∧ s.holds (a + xs.length) ys = true := by
  induction xs generalizing a with
  | nil => simp [State.holds]
  | cons x xs ih =>
    simp only [List.cons_append, State.holds, Bool.and_eq_true, ih, List.length_cons, and_assoc,
      show a + 1 + xs.length = a + (xs.length + 1) by omega]

theorem State.holds_drop {a : Nat} {bs : List Byte} (h : s.holds a bs = true) (k : Nat) :
    s.holds (a + k) (bs.drop k) = true := by
  refine State.holds_of_getElem fun i hi => ?_
  have hk := State.holds_getElem h (k + i) (by rw [List.length_drop] at hi; omega)
  rwa [List.getElem_drop, Nat.add_assoc]

theorem State.readByte_of_holds {a : Nat} {b : Byte} {bs : List Byte} (h : s.holds a (b :: bs) = true) :
    s.readByte a = .ok b ∧ s.holds (a + 1) bs = true := by
  simp only [State.holds, Bool.and_eq_true, beq_iff_eq, decide_eq_true_eq] at h
  obtain ⟨⟨hread, hsize⟩, hrest⟩ := h
  exact ⟨State.readByte_eq_ok.2 ⟨hsize, hread⟩, hrest⟩

/-- Bytes that stand in MEM end inside it. -/
theorem State.holds_bound {a : Nat} {bs : List Byte} (h : s.holds a bs = true) (hbs : bs ≠ []) :
    a + bs.length ≤ s.memSize := by
  have hlen := List.length_pos_iff.2 hbs
  obtain ⟨-, hlast⟩ := State.holds_getElem h (bs.length - 1) (by omega)
  omega

/-- Bytes that were stored stand in any state with that MEM. -/
theorem State.holds_of_write {a : Nat} {bs : List Byte} (h : s.RoomFor a bs) (hmem : t.mem = s.mem.write a bs)
    (hparams : t.params = s.params) : t.holds a bs = true :=
  (State.holds_congr (s := s.putMem a bs) hmem hparams a bs).trans (s.putMem_holds a bs h)

end Parts

/-! ### BRINIT, BWINIT, RDBITS and ALIGN -/

open Sys2Proof.Laws.Encoding (decodeWord_encode)

theorem readMode_named (order : BitOrder) : readMode order &&& Csr.mask .brMode = 0#31 ++ order.bit := by
  cases order <;> rfl

theorem writeMode_named (order : BitOrder) (stuff : Bool) :
    writeMode order stuff &&& Csr.mask .bwMode = 0#30 ++ BitVec.ofBool stuff ++ order.bit := by
  cases order <;> cases stuff <;> rfl

/-- Settles O23: each command is a row of CSR writes; of BR_MODE, BW_ACC, BW_NACC and BW_MODE the named bits hold what is
written. -/
theorem streamSetup : Obligations.StreamSetup := by
  intro rb rc order stuff s
  refine ⟨⟨decodeWord_encode (i := .brinit rb rc order) rfl, _, rfl, ?_⟩,
    decodeWord_encode (i := .bwinit rb rc order stuff) rfl, _, rfl, ?_⟩
  · refine ⟨?_, ?_, ?_, ?_, Effect.advanced ?_ rfl⟩
    · simp [State.getCsr_setCsr, Csr.mask]
    · simp [State.getCsr_setCsr, Csr.mask]
    · simp [State.getCsr_setCsr]
    · exact (State.getCsr_setCsr_self ..).trans (readMode_named order)
    · refine ((((Effect.refl s ..).setCsr ?_).setCsr ?_).setCsr ?_).setCsr ?_ <;> simp
  · refine ⟨?_, ?_, ?_, ?_, ?_, ?_, Effect.advanced ?_ rfl⟩
    · simp [State.getCsr_setCsr, Csr.mask]
    · simp [State.getCsr_setCsr, Csr.mask]
    · simp [State.getCsr_setCsr]
    · simp [State.getCsr_setCsr]
    · simp [State.getCsr_setCsr]
    · exact (State.getCsr_setCsr_self ..).trans (writeMode_named order stuff)
    · refine ((((((Effect.refl s ..).setCsr ?_).setCsr ?_).setCsr ?_).setCsr ?_).setCsr ?_).setCsr ?_ <;> simp

/-- The aligned cursor is the next multiple of 8, or the cursor itself (R214). -/
theorem alignedPos_spec (p : Nat) : alignedPos p % 8 = 0 ∧ p ≤ alignedPos p ∧ alignedPos p < p + 8 := by
  unfold alignedPos; omega

theorem exec_align (s : State) : exec .align s = execAlign s := rfl

theorem exec_rdbits (ra : Reg) (n : BitVec 5) (s : State) : exec (.rdbits ra n) s = execRdbits ra n s := rfl

/-- Settles O25: up to 0xFFFFFFF8 the next multiple of 8 fits the cursor, and past it it is 2^32. -/
theorem align : Obligations.Align := by
  refine ⟨decodeWord_encode (i := .align) rfl, fun s => ?_⟩
  obtain ⟨hmod, hle, hlt⟩ := alignedPos_spec (s.getCsrNat .brPos)
  refine ⟨fun hp => ?_, fun hp => ?_⟩
  · have hq : alignedPos (s.getCsrNat .brPos) ≤ 0xFFFFFFFF := by omega
    have hpos := s.getCsrNat_setCsrNat_full (c := .brPos) (Nat.lt_succ_of_le hq) rfl
    simp only [exec_align, execAlign, decide_eq_true hq, require_true, leaving_ok, Res.ok_bind]
    refine ⟨_, rfl, ?_⟩
    simp only [State.getCsrNat, State.advance_getCsr] at hpos ⊢
    rw [hpos]
    exact ⟨hmod, hle, hlt, ((Effect.refl s ..).setCsr List.mem_cons_self).advanced rfl⟩
  · have hq : ¬ alignedPos (s.getCsrNat .brPos) ≤ 0xFFFFFFFF := by omega
    simp only [exec_align, execAlign, decide_eq_false hq, require_false, leaving_raise, Res.error_bind]
    exact finish_raise_leaving rfl (by simp)

/-- Settles O24: the check comes before any bit is read, and bits that stand in the stream pass it. -/
theorem readBits : Obligations.ReadBits := by
  intro ra n s hn _
  refine ⟨fun bits hlen hbits => ?_, fun hfew => ?_⟩
  · have hne : bits ≠ [] := by rintro rfl; simp at hlen; omega
    have hbound := Reader.hasBits_bound hbits hne
    have hread := Reader.readBits_of_hasBits hne hbits
    rw [hlen] at hbound hread
    have hreq : s.reader.requireBits (s.getCsrNat .brPos) n.toNat = .ok () := require_eq_ok.2 (decide_eq_true hbound)
    simp only [exec_rdbits, execRdbits, hreq, hread, leaving_ok, Res.ok_bind]
    refine ⟨_, rfl, ?_, ?_, (s.effect_setX_setCsr ra _ .brPos _).advanced (by simp)⟩
    · exact s.regIs_setX ra _
    · exact State.getCsrNat_setCsrNat_full _ (by omega) rfl
  · have hreq : s.reader.requireBits (s.getCsrNat .brPos) n.toNat = .error (.raise ⟨.corruptStream, 1⟩ []) := by
      refine require_eq_error.2 ⟨decide_eq_false ?_, rfl⟩
      have hr : s.reader.len = s.getCsrNat .brLen := rfl
      omega
    simp only [exec_rdbits, execRdbits, hreq, Res.error_bind]
    exact finish_raise rfl

end Sys2Proof.Machine
end

section
/-! SUPPORT. The commands that copy bytes of MEM (O26, O27, O28). Each loop is read against the bytes that stand at its source:
UNSTUFF's against `unstuffed`, the scan of SBGATHER and the writes of SBSPLIT against the chunks of a sub-block chain. -/

namespace Sys2Proof.Machine

-- A proof that waits for the kernel holds a thread, and the check's memory bounds their number: with this option the
-- proofs below are elaborated one after another. No variable is named in a proof alone, so the statements stay the same.
set_option deprecated.oldSectionVars true

/-! ### UNSTUFF -/

/-- What one pass of UNSTUFF puts out and how many bytes it takes where b and c stand next; none where they end it (R216). -/
def unstuffPass (b c : Byte) : Option (List Byte × Nat) :=
  if b ≠ 0xFF then some ([b], 1)
  else if c = 0x00 then some ([0xFF], 2)
  else if 0xD0 ≤ c.toNat ∧ c.toNat ≤ 0xD7 then some ([], 2)
  else if c = 0xD9 then none
  else some ([0xFF], 1)

section Passes

variable {b c : Byte} {pre : List Byte} {k : Nat}

theorem unstuffPass_bounds (h : unstuffPass b c = some (pre, k)) : 0 < k ∧ k ≤ 2 ∧ pre.length ≤ k := by
  delta unstuffPass at h
  split_ifs at h <;> cases h <;> simp

/-- A pass goes before what the source without its bytes makes; the last one takes FF D9 (R216). -/
theorem unstuffed_cons_cons (b c : Byte) (tail : List Byte) :
    unstuffed (b :: c :: tail) = (unstuffPass b c).elim (some ([], 2)) fun p =>
      (unstuffed ((b :: c :: tail).drop p.2)).map fun r => (p.1 ++ r.1, r.2 + p.2) := by
  delta unstuffPass
  rw [unstuffed]
  split_ifs <;> rfl

theorem unstuffed_of_pass (h : unstuffPass b c = some (pre, k)) (tail : List Byte) :
    unstuffed (b :: c :: tail) = (unstuffed ((b :: c :: tail).drop k)).map fun r => (pre ++ r.1, r.2 + k) := by
  rw [unstuffed_cons_cons, h]; rfl

theorem unstuffed_of_end (h : unstuffPass b c = none) (tail : List Byte) : unstuffed (b :: c :: tail) = some ([], 2) := by
  rw [unstuffed_cons_cons, h]; rfl

end Passes

/-- UNSTUFF consumes no byte past its source. -/
theorem unstuffed_used_le {n : Nat} {src : List Byte} (hn : src.length ≤ n) : ∀ p ∈ unstuffed src, p.2 ≤ src.length := by
  induction n generalizing src with
  | zero => rw [List.eq_nil_of_length_eq_zero (Nat.le_zero.1 hn)]; exact fun p hp => nomatch hp
  | succ n ih =>
    obtain _ | ⟨b, _ | ⟨c, tail⟩⟩ := src
    · exact fun p hp => nomatch hp
    · exact fun p hp => nomatch hp
    · intro p hp
      cases hpass : unstuffPass b c with
      | none =>
        rw [unstuffed_of_end hpass] at hp
        cases hp
        exact Nat.le_add_left ..
      | some r =>
        obtain ⟨hpos, hk, -⟩ := unstuffPass_bounds hpass
        rw [unstuffed_of_pass hpass] at hp
        obtain ⟨q, hq, rfl⟩ := Option.mem_map.1 hp
        have hdrop := List.length_drop (i := r.2) (l := b :: c :: tail)
        have hle := ih (by omega) q hq
        simp only [List.length_cons] at hdrop hn ⊢
        omega

/-- At most so many bytes UNSTUFF stores: its output, or as many as the source has where it has no FF D9 (R216). -/
def unstuffRoom (src : List Byte) : Nat := (unstuffed src).elim src.length fun r => r.1.length

theorem unstuffRoom_some {src : List Byte} {r : List Byte × Nat} (h : unstuffed src = some r) :
    unstuffRoom src = r.1.length := by
  delta unstuffRoom; rw [h]; rfl

theorem unstuffRoom_none {src : List Byte} (h : unstuffed src = none) : unstuffRoom src = src.length := by
  delta unstuffRoom; rw [h]; rfl

theorem unstuffRoom_of_pass {b c : Byte} {pre : List Byte} {k : Nat} (h : unstuffPass b c = some (pre, k))
    (tail : List Byte) : pre.length + unstuffRoom ((b :: c :: tail).drop k) ≤ unstuffRoom (b :: c :: tail) := by
  obtain ⟨-, hk, hpre⟩ := unstuffPass_bounds h
  have hmap := unstuffed_of_pass h tail
  cases hrest : unstuffed ((b :: c :: tail).drop k) with
  | none =>
    rw [hrest, Option.map_none] at hmap
    rw [unstuffRoom_none hmap, unstuffRoom_none hrest, List.length_drop, List.length_cons, List.length_cons]
    omega
  | some r =>
    rw [hrest, Option.map_some] at hmap
    rw [unstuffRoom_some hmap, unstuffRoom_some hrest, List.length_append]

/-- What the loop of UNSTUFF answers after the output `out` and i source bytes, when r is what the rest of the source makes. -/
def unstuffResult (out : List Byte) (i : Nat) (r : Option (List Byte × Nat)) : Res (List Byte × Nat) :=
  r.elim (fail .corruptStream 5) fun r => .ok (out.reverse ++ r.1, i + r.2)

theorem unstuffResult_some (out : List Byte) (i : Nat) (r : List Byte × Nat) :
    unstuffResult out i (some r) = .ok (out.reverse ++ r.1, i + r.2) := rfl

theorem unstuffResult_none (out : List Byte) (i : Nat) : unstuffResult out i none = fail .corruptStream 5 := rfl

section Loop

variable {s : State} {src n dst fuel i : Nat} {out : List Byte} {b c : Byte}

theorem unstuffLoop_atEnd (hi : n ≤ i) :
    unstuffLoop s src n dst (fuel + 1) i out.length out = fail .corruptStream 5 := by
  change (require (decide (i < n)) _ _ >>= _) = _
  rw [decide_eq_false (Nat.not_lt.2 hi)]
  rfl

theorem unstuffLoop_single (hn : n = i + 1) (hb : s.readByte (src + i) = .ok b) (hd : dst + out.length < s.memSize) :
    unstuffLoop s src n dst (fuel + 2) i out.length out = fail .corruptStream 5 := by
  have hi : i < n := by omega
  change (require (decide (i < n)) _ _ >>= _) = _
  rw [decide_eq_true hi, require_true, Res.ok_bind, hb, Res.ok_bind]
  by_cases hff : b = 0xFF
  · rw [if_neg (by rw [hff]; decide), decide_eq_false (by omega)]
    rfl
  · rw [if_pos (bne_iff_ne.2 hff), State.checkRange_one hd, Res.ok_bind]
    exact unstuffLoop_atEnd (out := b :: out) hn.le

/-- The loop does what a pass says, when there is room for the byte it puts out (R216). -/
theorem unstuffLoop_cons_cons (hi : i + 1 < n) (hb : s.readByte (src + i) = .ok b)
    (hc : s.readByte (src + i + 1) = .ok c)
    (hd : ∀ p ∈ unstuffPass b c, dst + (out.length + p.1.length) ≤ s.memSize) :
    unstuffLoop s src n dst (fuel + 1) i out.length out = (unstuffPass b c).elim (.ok (out.reverse, i + 2)) fun p =>
      unstuffLoop s src n dst fuel (i + p.2) (p.1.reverse ++ out).length (p.1.reverse ++ out) := by
  have hstore {pre : List Byte} {k : Nat} (h : unstuffPass b c = some (pre, k)) (hp : pre.length = 1) :
      s.checkRange (dst + out.length) 1 = .ok () := State.checkRange_one (by have := hd _ h; simp only at this; omega)
  change (require (decide (i < n)) _ _ >>= _) = _
  delta unstuffPass at hstore ⊢
  simp only [decide_eq_true (Nat.lt_of_succ_lt hi), decide_eq_true hi, require_true, hb, hc, Res.ok_bind, bne_iff_ne,
    beq_iff_eq, decide_eq_true_eq]
  split_ifs at hstore ⊢
  · rw [hstore rfl rfl]; rfl
  · rw [hstore rfl rfl]; rfl
  · rfl
  · rfl
  · rw [hstore rfl rfl]; rfl

end Loop

/-- The loop of UNSTUFF computes `unstuffed` of the rest of the source (R216). -/
theorem unstuffLoop_eq {s : State} {src n dst fuel i : Nat} {rest out : List Byte} (hfuel : rest.length ≤ fuel)
    (hn : n = i + rest.length) (hsrc : s.holds (src + i) rest = true)
    (hroom : dst + (out.length + unstuffRoom rest) ≤ s.memSize) :
    unstuffLoop s src n dst (fuel + 1) i out.length out = unstuffResult out i (unstuffed rest) := by
  induction fuel generalizing rest i out with
  | zero =>
    obtain rfl := List.eq_nil_of_length_eq_zero (Nat.le_zero.1 hfuel)
    exact unstuffLoop_atEnd hn.le
  | succ fuel ih =>
    obtain _ | ⟨b, _ | ⟨c, tail⟩⟩ := rest
    · exact unstuffLoop_atEnd hn.le
    · exact unstuffLoop_single hn (State.readByte_of_holds hsrc).1 hroom
    · obtain ⟨hb, hnext⟩ := State.readByte_of_holds hsrc
      obtain ⟨hc, -⟩ := State.readByte_of_holds hnext
      have hi : i + 1 < n := by rw [hn, List.length_cons, List.length_cons]; omega
      cases hpass : unstuffPass b c with
      | none =>
        rw [unstuffLoop_cons_cons hi hb hc (by simp [hpass]), hpass, unstuffed_of_end hpass, Option.elim_none,
          unstuffResult_some, List.append_nil]
      | some r =>
        obtain ⟨pre, k⟩ := r
        obtain ⟨hpos, hk, -⟩ := unstuffPass_bounds hpass
        have hle := unstuffRoom_of_pass hpass tail
        have hdrop := List.length_drop (i := k) (l := b :: c :: tail)
        have hrest := State.holds_drop hsrc k
        have hd : ∀ p ∈ unstuffPass b c, dst + (out.length + p.1.length) ≤ s.memSize := by
          rw [hpass]; rintro _ ⟨⟩; dsimp only; omega
        simp only [List.length_cons, Nat.add_assoc] at hdrop hn hfuel hrest
        rw [unstuffLoop_cons_cons hi hb hc hd, hpass, unstuffed_of_pass hpass, Option.elim_some,
          ih (by omega) (by omega) hrest (by simp only [List.length_append, List.length_reverse]; omega)]
        cases unstuffed ((b :: c :: tail).drop k) with
        | none => rfl
        | some r => simp [unstuffResult_some, Nat.add_comm, Nat.add_left_comm]

/-- The whole loop, with the fuel and the start UNSTUFF gives it (R216). -/
theorem unstuffLoop_start {s : State} {base dst : Nat} {src : List Byte} (hsrc : s.holds base src = true)
    (hroom : dst + unstuffRoom src ≤ s.memSize) :
    unstuffLoop s base src.length dst (src.length + 1) 0 0 [] = unstuffResult [] 0 (unstuffed src) :=
  unstuffLoop_eq (out := []) le_rfl (Nat.zero_add _).symm hsrc (by rwa [List.length_nil, Nat.zero_add])

theorem exec_unstuff (ra rb rc : Reg) (s : State) : exec (.unstuff ra rb rc) s = execUnstuff ra rb rc s := rfl

/-- Settles O26: the loop answers `unstuffed` of the source, whose fault leaves AUX and the destination, and the overlap is
checked before it. -/
theorem unstuff : Obligations.Unstuff := by
  intro ra rb rc s src hlen hsrc
  refine ⟨fun out used hd hout hroom => ?_, fun hd hnone hroom => ?_, fun hd => ?_⟩
  · have hroom' : s.getXNat ra + unstuffRoom src ≤ s.memSize := by rwa [unstuffRoom_some hout]
    have hloop := unstuffLoop_start hsrc hroom'
    rw [hout, unstuffResult_some, List.reverse_nil, List.nil_append, Nat.zero_add] at hloop
    simp only [exec_unstuff, execUnstuff, hlen, requireDisjoint_ok hd, hloop, leaving_ok, Res.ok_bind]
    refine ⟨_, rfl, ?_, ?_, ?_, (s.effect_putMem_setX_setCsr _ _ ra _ .aux _).advanced (by simp)⟩
    · exact State.regIs_setX _ ra _
    · have hused : used ≤ src.length := unstuffed_used_le le_rfl _ hout
      have hlt : src.length < 2 ^ 32 := hlen ▸ (s.getX rc).isLt
      exact State.getCsrNat_setCsrNat_full _ (by omega) rfl
    · exact State.holds_of_write (.inr hroom) (by simp) (by simp)
  · have hroom' : s.getXNat ra + unstuffRoom src ≤ s.memSize := by rwa [unstuffRoom_none hnone]
    have hloop := unstuffLoop_start hsrc hroom'
    rw [hnone, unstuffResult_none, fail] at hloop
    simp only [exec_unstuff, execUnstuff, hlen, requireDisjoint_ok hd, hloop, leaving_raise, Res.ok_bind, Res.error_bind]
    exact finish_raise_leaving rfl (by simp)
  · simp only [exec_unstuff, execUnstuff, hlen, requireDisjoint_overlap hd, Res.error_bind]
    exact finish_raise rfl

/-! ### SBGATHER -/

/-- Where the data of the chunks stand when their chain begins at a (R224). -/
def chunkRegions : Nat → List (List Byte) → List Region
  | _, [] => []
  | a, c :: cs => ⟨a + 1, c.length⟩ :: chunkRegions (a + 1 + c.length) cs

theorem chunkRegions_nil (a : Nat) : chunkRegions a [] = [] := rfl

theorem chunkRegions_cons (a : Nat) (c : List Byte) (cs : List (List Byte)) :
    chunkRegions a (c :: cs) = ⟨a + 1, c.length⟩ :: chunkRegions (a + 1 + c.length) cs := rfl

theorem subBlockChain_cons (c : List Byte) (cs : List (List Byte)) :
    subBlockChain (c :: cs) = BitVec.ofNat 8 c.length :: (c ++ subBlockChain cs) := by
  simp [subBlockChain]

theorem subBlockChain_ne_nil (cs : List (List Byte)) : subBlockChain cs ≠ [] := by simp [subBlockChain]

/-- A chain has its data, a length byte for each chunk, and the terminator (R224). -/
theorem length_subBlockChain (cs : List (List Byte)) :
    (subBlockChain cs).length = cs.flatten.length + cs.length + 1 := by
  induction cs with
  | nil => rfl
  | cons c cs ih =>
    rw [subBlockChain_cons, List.length_cons, List.length_append, ih, List.flatten_cons, List.length_append, List.length_cons]
    omega

theorem chunksLegal_cons {c : List Byte} {cs : List (List Byte)} :
    chunksLegal (c :: cs) = true ↔ (1 ≤ c.length ∧ c.length ≤ 255) ∧ chunksLegal cs = true := by
  simp [chunksLegal]

section Gather

variable {s : State} {chunks : List (List Byte)}

/-- The scan of SBGATHER over a chain finds the data of its chunks, their total and the chain's length (R225). -/
theorem sbScan_chain {src fuel i total : Nat} {segs : List Region} (hlegal : chunksLegal chunks = true)
    (hsrc : s.holds (src + i) (subBlockChain chunks) = true) (hfuel : chunks.length < fuel) :
    sbScan s src fuel i total segs = .ok (segs.reverse ++ chunkRegions (src + i) chunks, total + chunks.flatten.length,
      i + (subBlockChain chunks).length) := by
  induction chunks generalizing fuel i total segs with
  | nil =>
    obtain ⟨fuel, rfl⟩ := Nat.exists_eq_succ_of_ne_zero (Nat.ne_zero_of_lt hfuel)
    obtain ⟨hread, -⟩ := State.readByte_of_holds hsrc
    rw [sbScan, hread, Res.ok_bind, if_pos (beq_self_eq_true 0), chunkRegions_nil, List.append_nil]
    rfl
  | cons c cs ih =>
    obtain ⟨fuel, rfl⟩ := Nat.exists_eq_succ_of_ne_zero (Nat.ne_zero_of_lt hfuel)
    obtain ⟨⟨hpos, hmax⟩, hlegal⟩ := chunksLegal_cons.1 hlegal
    rw [subBlockChain_cons] at hsrc
    obtain ⟨hread, hdata⟩ := State.readByte_of_holds hsrc
    have hlen : (BitVec.ofNat 8 c.length).toNat = c.length := by
      rw [BitVec.toNat_ofNat, Nat.mod_eq_of_lt (by omega)]
    have hne : BitVec.ofNat 8 c.length ≠ 0 := fun h => by
      rw [h] at hlen; simp at hlen; omega
    have hrest : s.holds (src + (i + 1 + c.length)) (subBlockChain cs) = true := by
      simpa only [Nat.add_assoc] using (State.holds_append.1 hdata).2
    rw [sbScan, hread, Res.ok_bind, if_neg (mt beq_iff_eq.1 hne), hlen, ih hlegal hrest (Nat.lt_of_succ_lt_succ hfuel)]
    simp [chunkRegions_cons, subBlockChain_cons, Nat.add_assoc, Nat.add_comm]

/-- The whole scan, with the fuel and the start SBGATHER gives it (R225). -/
theorem sbScan_start {src : Nat} (hlegal : chunksLegal chunks = true) (hsrc : s.holds src (subBlockChain chunks) = true) :
    sbScan s src (s.memSize + 1) 0 0 [] =
      .ok (chunkRegions src chunks, chunks.flatten.length, (subBlockChain chunks).length) := by
  have hlen := length_subBlockChain chunks
  have hbound := State.holds_bound hsrc (subBlockChain_ne_nil chunks)
  rw [sbScan_chain (i := 0) hlegal hsrc (by omega), Nat.zero_add, Nat.zero_add]
  rfl

/-- The copy of SBGATHER puts the data of the chunks one after the other (R225). -/
theorem gatherCopy_chunks {a dst : Nat} (hsrc : s.holds a (subBlockChain chunks) = true)
    (hroom : dst + chunks.flatten.length ≤ s.memSize) :
    gatherCopy s (chunkRegions a chunks) dst = .ok chunks.flatten := by
  induction chunks generalizing a dst with
  | nil => rfl
  | cons c cs ih =>
    rw [subBlockChain_cons] at hsrc
    obtain ⟨hdata, hrest⟩ := State.holds_append.1 (State.readByte_of_holds hsrc).2
    rw [List.flatten_cons, List.length_append] at hroom
    have hcopy : s.copyFrom (a + 1) dst c.length = .ok c :=
      State.copyFrom_eq_ok.2 ⟨rfl, hdata, .inr (by omega)⟩
    have htail : gatherCopy s (chunkRegions (a + 1 + c.length) cs) (dst + c.length) = .ok cs.flatten :=
      ih hrest (by omega)
    rw [chunkRegions_cons, gatherCopy, hcopy, Res.ok_bind, htail]
    rfl

end Gather

theorem exec_sbgather (ra rb rc : Reg) (s : State) : exec (.sbgather ra rb rc) s = execSbgather ra rb rc s := rfl

/-- Settles O27: the scan finds the chunks, which both checks then measure, and the copy puts out their data. -/
theorem gatherSubBlocks : Obligations.GatherSubBlocks := by
  intro ra rb rc s chunks hlegal hsrc
  have hscan := sbScan_start hlegal hsrc
  refine ⟨fun hd hcap hroom => ?_, fun hd hcap => ?_, fun hd => ?_⟩
  · have hcopy := gatherCopy_chunks hsrc hroom
    simp only [exec_sbgather, execSbgather, hscan, requireDisjoint_ok hd, decide_eq_true hcap, require_true, hcopy,
      leaving_ok, Res.ok_bind]
    refine ⟨_, rfl, State.regIs_setX _ ra _, ?_, ?_, (s.effect_putMem_setX_setCsr _ _ ra _ .aux _).advanced (by simp)⟩
    · simp [Csr.mask]
    · exact State.holds_of_write (.inr hroom) (by simp) (by simp)
  · simp only [exec_sbgather, execSbgather, hscan, requireDisjoint_ok hd, decide_eq_false (Nat.not_le.2 hcap),
      require_false, leaving_ok, leaving_raise, Res.ok_bind, Res.error_bind]
    exact finish_raise_leaving rfl (by simp)
  · simp only [exec_sbgather, execSbgather, hscan, requireDisjoint_overlap hd, leaving_ok, Res.ok_bind, Res.error_bind]
    exact finish_raise rfl

/-! ### SBSPLIT -/

/-- The number of sub-blocks SBSPLIT makes of n bytes: one for the first 255, and those of the rest (R226). -/
theorem blocks_step {n : Nat} (hn : n ≠ 0) : (n + 254) / 255 = (n - min 255 n + 254) / 255 + 1 := by
  omega

/-- The writes of SBSPLIT are a chain of sub-blocks, all but the last of 255 bytes, that holds the source (R226). -/
theorem splitLoop_chain {s : State} {src dst fuel : Nat} {bytes : List Byte} (hfuel : bytes.length < fuel)
    (hsrc : s.holds src bytes = true) (hroom : dst + splitLength bytes.length ≤ s.memSize) :
    ∃ chunks, splitLoop s fuel src bytes.length dst = .ok (subBlockChain chunks) ∧ chunks.flatten = bytes ∧
      chunksLegal chunks = true ∧ (∀ c ∈ chunks.dropLast, c.length = 255) ∧
      chunks.length = (bytes.length + 254) / 255 := by
  induction fuel generalizing src dst bytes with
  | zero => exact absurd hfuel (Nat.not_lt_zero _)
  | succ fuel ih =>
    have hd : s.checkRange dst 1 = .ok () := State.checkRange_one (by unfold splitLength at hroom; omega)
    by_cases hempty : bytes.length = 0
    · obtain rfl := List.eq_nil_of_length_eq_zero hempty
      refine ⟨[], ?_, rfl, rfl, by simp, rfl⟩
      rw [splitLoop, hd, Res.ok_bind, if_pos hempty]
      rfl
    · have hblocks := blocks_step hempty
      generalize hl : min 255 bytes.length = l at hblocks
      have htake : (bytes.take l).length = l := by rw [List.length_take]; omega
      have hdrop : (bytes.drop l).length = bytes.length - l := List.length_drop
      rw [← bytes.take_append_drop l, State.holds_append, htake] at hsrc
      obtain ⟨hdata, hrest⟩ := hsrc
      unfold splitLength at hroom ih
      obtain ⟨chunks, hloop, hflat, hlegal, hfull, hcount⟩ :=
        ih (dst := dst + 1 + l) (by omega) hrest (by rw [hdrop]; omega)
      have hcopy : s.copyFrom src (dst + 1) l = .ok (bytes.take l) :=
        State.copyFrom_eq_ok.2 ⟨htake, hdata, .inr (by omega)⟩
      refine ⟨bytes.take l :: chunks, ?_, ?_, ?_, ?_, ?_⟩
      · rw [hdrop] at hloop
        rw [splitLoop, hd, Res.ok_bind, if_neg hempty]
        simp only [hl, hcopy, hloop, Res.ok_bind, subBlockChain_cons, htake]
        rfl
      · rw [List.flatten_cons, hflat, List.take_append_drop]
      · exact chunksLegal_cons.2 ⟨by omega, hlegal⟩
      · cases chunks with
        | nil => simp
        | cons c cs =>
          rw [List.dropLast_cons_cons]
          refine List.forall_mem_cons.2 ⟨?_, hfull⟩
          simp only [List.length_cons] at hcount
          omega
      · rw [List.length_cons, hcount, hdrop, hblocks]

theorem exec_sbsplit (ra rb rc : Reg) (s : State) : exec (.sbsplit ra rb rc) s = execSbsplit ra rb rc s := rfl

/-- Settles O28: the writes are the chain of the source's chunks, whose length is the one the overlap was checked for. -/
theorem splitSubBlocks : Obligations.SplitSubBlocks := by
  intro ra rb rc s src hlen hsrc out hd hroom
  obtain ⟨chunks, hloop, hflat, hlegal, hfull, hcount⟩ :=
    splitLoop_chain (fuel := src.length + 1) (dst := s.getXNat ra) (Nat.lt_succ_self _) hsrc hroom
  have hbytes : (subBlockChain chunks).length = out.len := by rw [length_subBlockChain, hflat, hcount]
  have hdisj : requireDisjoint ⟨s.getXNat rb, src.length⟩ ⟨s.getXNat ra, splitLength src.length⟩ = .ok () :=
    requireDisjoint_ok hd
  have hexec : exec (.sbsplit ra rb rc) s =
      finish s (.ok ((s.putMem out.base (subBlockChain chunks)).setX ra (u32 out.len))) := by
    simp only [exec_sbsplit, execSbsplit, hlen, hdisj, hloop, leaving_ok, Res.ok_bind, hbytes]
    rfl
  rw [hexec]
  refine ⟨_, chunks, rfl, hflat, hlegal, hfull, hbytes, ?_, State.regIs_setX _ ra _, ?_⟩
  · exact State.holds_of_write (.inr (hbytes ▸ hroom)) (by simp) (by simp)
  · exact (((Effect.refl s ..).putMem fun _ h => hbytes ▸ h).setX List.mem_cons_self).advanced (by simp)

end Sys2Proof.Machine
end

section
/-! SUPPORT. The bit writer (O29, O30, O31). PutBit adds one bit at the end of the bits that a packer holds; stuffing changes
nothing but the finished bytes; and a commit fits, or fails at the first byte past the capacity. -/

namespace Sys2Proof.Machine

-- A proof that waits for the kernel holds a thread, and the check's memory bounds their number: with this option the
-- proofs below are elaborated one after another. No variable is named in a proof alone, so the statements stay the same.
set_option deprecated.oldSectionVars true

/-! ### The bits of a byte -/

/-- The place in a byte of the i-th bit in stream order: bit 7 downward MSB-first, bit 0 upward LSB-first (R218). -/
def bitPlace : BitOrder → Nat → Nat
  | .msb, i => 7 - i
  | .lsb, i => i

theorem byteBits_eq_map (order : BitOrder) (b : Byte) :
    byteBits order b = (List.range 8).map fun i => b.getLsbD (bitPlace order i) := by
  cases order <;> rfl

@[simp] theorem length_byteBits (order : BitOrder) (b : Byte) : (byteBits order b).length = 8 := by
  rw [byteBits_eq_map, List.length_map, List.length_range]

theorem byteBits_zero (order : BitOrder) : byteBits order 0 = List.replicate 8 false := by
  cases order <;> rfl

/-- The placed byte has the bit at its position, and no other (R218). -/
theorem getLsbD_placedBit : ∀ (order : BitOrder) (b : Bool), ∀ n < 8, ∀ i < 8,
    (placedBit order n b).getLsbD (bitPlace order i) = (b && decide (n = i)) := by
  rintro (_ | _) <;> decide

/-- A bit placed at a free position of a byte (R218). -/
theorem byteBits_or_placedBit {order : BitOrder} {acc : Byte} {n : Nat} (hn : n < 8)
    (hfree : (byteBits order acc)[n]'(by simpa) = false) (b : Bool) :
    byteBits order (acc ||| placedBit order n b) = (byteBits order acc).take n ++ b :: (byteBits order acc).drop (n + 1) := by
  have hset : byteBits order (acc ||| placedBit order n b) = (byteBits order acc).set n b := by
    refine List.ext_getElem (by simp) fun i hi _ => ?_
    simp only [byteBits_eq_map, List.getElem_map, List.getElem_range, List.getElem_set] at hfree ⊢
    rw [BitVec.getLsbD_or, getLsbD_placedBit order b n hn i (by simpa using hi)]
    split
    · next h => subst h; simp [hfree]
    · next h => simp [h]
  rw [hset, List.set_eq_take_append_cons_drop, if_pos (by simpa)]

/-! ### PutBit -/

section PutBit

variable {k : Packer} {b : Bool}

theorem Packer.putBit_last (h : k.nacc + 1 = 8) :
    k.putBit b = { k with acc := 0, nacc := 0, out := stuffByte k.stuff (k.acc ||| placedBit k.order k.nacc b) k.out } :=
  if_pos h

theorem Packer.putBit_more (h : k.nacc + 1 ≠ 8) :
    k.putBit b = { k with acc := k.acc ||| placedBit k.order k.nacc b, nacc := k.nacc + 1 } :=
  if_neg h

@[simp] theorem Packer.putBit_order : (k.putBit b).order = k.order := by
  unfold Packer.putBit; dsimp only; split <;> rfl

@[simp] theorem Packer.putBit_stuff : (k.putBit b).stuff = k.stuff := by
  unfold Packer.putBit; dsimp only; split <;> rfl

theorem Packer.putBit_nacc (h : k.nacc < 8) : (k.putBit b).nacc = (k.nacc + 1) % 8 := by
  by_cases hlast : k.nacc + 1 = 8
  · rw [Packer.putBit_last hlast, hlast]
  · rw [Packer.putBit_more hlast, Nat.mod_eq_of_lt (by omega)]

theorem Packer.clean_iff : k.clean = true ↔ k.nacc < 8 ∧ ((byteBits k.order k.acc).drop k.nacc).all (!·) = true := by
  simp only [Packer.clean, Bool.and_eq_true, decide_eq_true_eq]

/-- PutBit without stuffing adds its bit after those already in the writer (R218). -/
theorem Packer.putBit_bits (hclean : k.clean = true) (hstuff : k.stuff = false) :
    (k.putBit b).bits = k.bits ++ [b] ∧ (k.putBit b).clean = true := by
  obtain ⟨hn, hfree⟩ := Packer.clean_iff.1 hclean
  rw [List.drop_eq_getElem_cons (by simpa), List.all_cons, Bool.and_eq_true, Bool.not_eq_true'] at hfree
  obtain ⟨hfree, hrest⟩ := hfree
  have hput := byteBits_or_placedBit hn hfree b
  have htake : ((byteBits k.order k.acc).take k.nacc).length = k.nacc := by simp; omega
  by_cases hlast : k.nacc + 1 = 8
  · have hnone : (byteBits k.order k.acc).drop (k.nacc + 1) = [] := List.drop_eq_nil_of_le (by simp [hlast])
    rw [hnone] at hput
    rw [Packer.putBit_last hlast, Packer.bits, Packer.clean_iff]
    refine ⟨?_, Nat.zero_lt_succ 7, ?_⟩
    · simp [Packer.bits, stuffByte, hstuff, hput]
    · dsimp only
      rw [byteBits_zero]
      rfl
  · rw [Packer.putBit_more hlast, Packer.bits, Packer.clean_iff]
    dsimp only
    rw [hput]
    refine ⟨?_, by omega, ?_⟩
    · rw [List.take_append, List.take_of_length_le (by omega), htake]
      simp [Packer.bits]
    · rw [List.drop_append, List.drop_of_length_le (by omega), htake]
      simpa using hrest

end PutBit

/-! ### PutBits and the flush, as lists of bits put one after the other -/

section PutList

variable {k : Packer} {bs : List Bool} {pad : Bool}

/-- Bits put one after the other are added in their order (R220). -/
theorem Packer.foldl_putBit_bits (hclean : k.clean = true) (hstuff : k.stuff = false) :
    (bs.foldl Packer.putBit k).bits = k.bits ++ bs ∧ (bs.foldl Packer.putBit k).clean = true := by
  induction bs generalizing k with
  | nil => simpa using hclean
  | cons b bs ih =>
    obtain ⟨hbits, hclean'⟩ := Packer.putBit_bits (b := b) hclean hstuff
    obtain ⟨hrest, hlast⟩ := ih hclean' (Packer.putBit_stuff.trans hstuff)
    exact ⟨by rw [List.foldl_cons, hrest, hbits, List.append_assoc]; rfl, hlast⟩

theorem Packer.foldl_putBit_nacc (h : k.nacc < 8) : (bs.foldl Packer.putBit k).nacc = (k.nacc + bs.length) % 8 := by
  induction bs generalizing k with
  | nil => exact (Nat.mod_eq_of_lt h).symm
  | cons b bs ih =>
    have hput := k.putBit_nacc (b := b) h
    rw [List.foldl_cons, ih (by omega), hput, List.length_cons]
    omega

theorem Packer.padLoop_succ (k : Packer) (pad : Bool) (fuel : Nat) :
    k.padLoop pad (fuel + 1) = if k.nacc = 0 then k else (k.putBit pad).padLoop pad fuel := rfl

/-- The flush puts as many pad bits as complete a byte, at most 7 (R223). -/
theorem Packer.padLoop_eq {fuel : Nat} (h : k.nacc < 8) (hfuel : (8 - k.nacc) % 8 ≤ fuel) :
    k.padLoop pad fuel = (List.replicate ((8 - k.nacc) % 8) pad).foldl Packer.putBit k := by
  induction fuel generalizing k with
  | zero => rw [Nat.le_zero.1 hfuel]; rfl
  | succ fuel ih =>
    by_cases hzero : k.nacc = 0
    · rw [Packer.padLoop_succ, if_pos hzero, hzero]; rfl
    · have hput := Packer.putBit_nacc (b := pad) h
      have hcount : (8 - k.nacc) % 8 = (8 - (k.putBit pad).nacc) % 8 + 1 := by omega
      rw [Packer.padLoop_succ, if_neg hzero, ih (by omega) (by omega), hcount, List.replicate_succ, List.foldl_cons]

theorem Packer.flush_eq (h : k.nacc < 8) :
    k.flush pad = (List.replicate ((8 - k.nacc) % 8) pad).foldl Packer.putBit k :=
  Packer.padLoop_eq h (by omega)

theorem Packer.putBits_nacc_lt (h : k.nacc < 8) (v n : Nat) : (k.putBits v n).nacc < 8 := by
  exact (Packer.foldl_putBit_nacc h).trans_lt (Nat.mod_lt _ (by decide))

theorem Packer.flush_nacc (h : k.nacc < 8) : (k.flush pad).nacc = 0 := by
  rw [Packer.flush_eq h, Packer.foldl_putBit_nacc h, List.length_replicate]
  omega

end PutList

/-! ### Stuffing -/

theorem stuffed_append (xs ys : List Byte) : stuffed (xs ++ ys) = stuffed xs ++ stuffed ys := List.flatMap_append

/-- k stuffs and p does not; beside that they hold the same, but for a 0x00 after every 0xFF of k's finished bytes (R217). -/
structure Packer.StuffedAs (k p : Packer) : Prop where
  plain : p.stuff = false
  out_eq : k.out.reverse = stuffed p.out.reverse
  eq_with : k = { p with stuff := true, out := k.out }

section Stuffing

variable {k p : Packer} {pad : Bool}

theorem stuffByte_stuffed {xs ys : List Byte} (h : xs.reverse = stuffed ys.reverse) (b : Byte) :
    (stuffByte true b xs).reverse = stuffed (stuffByte false b ys).reverse := by
  by_cases hb : b = 0xFF
  · simp [stuffByte, hb, h, stuffed]
  · have hb' : ¬ b = 0xFF#8 := hb
    simp [stuffByte, hb', h, stuffed]

theorem Packer.StuffedAs.order_eq (h : k.StuffedAs p) : k.order = p.order := by rw [h.eq_with]

theorem Packer.StuffedAs.nacc_eq (h : k.StuffedAs p) : k.nacc = p.nacc := by rw [h.eq_with]

theorem Packer.StuffedAs.acc_eq (h : k.StuffedAs p) : k.acc = p.acc := by rw [h.eq_with]

theorem Packer.StuffedAs.putBit (h : k.StuffedAs p) (b : Bool) : (k.putBit b).StuffedAs (p.putBit b) := by
  obtain ⟨hplain, hout, hk⟩ := h
  generalize k.out = xs at hout hk
  subst hk
  by_cases hlast : p.nacc + 1 = 8
  · rw [Packer.putBit_last hlast, Packer.putBit_last (k := { p with stuff := true, out := xs }) hlast, hplain]
    exact ⟨rfl, stuffByte_stuffed hout _, rfl⟩
  · rw [Packer.putBit_more hlast, Packer.putBit_more (k := { p with stuff := true, out := xs }) hlast]
    exact ⟨hplain, hout, rfl⟩

theorem Packer.StuffedAs.foldl (h : k.StuffedAs p) (bs : List Bool) :
    (bs.foldl Packer.putBit k).StuffedAs (bs.foldl Packer.putBit p) := by
  induction bs generalizing k p with
  | nil => exact h
  | cons b bs ih => exact ih (h.putBit b)

theorem Packer.StuffedAs.putBits (h : k.StuffedAs p) (v n : Nat) : (k.putBits v n).StuffedAs (p.putBits v n) := by
  delta Packer.putBits
  rw [h.order_eq]
  exact h.foldl _

theorem Packer.StuffedAs.padLoop (h : k.StuffedAs p) (fuel : Nat) : (k.padLoop pad fuel).StuffedAs (p.padLoop pad fuel) := by
  induction fuel generalizing k p with
  | zero => exact h
  | succ fuel ih =>
    rw [Packer.padLoop_succ, Packer.padLoop_succ, h.nacc_eq]
    split
    · exact h
    · exact ih (h.putBit pad)

end Stuffing

/-- Settles O29: a flush is a list of pad bits, so both parts are facts about bits put one after the other. -/
theorem putBitsAppends : Obligations.PutBitsAppends := by
  intro k v n pad
  refine ⟨fun hclean hstuff => ?_, ?_⟩
  · have hn := (Packer.clean_iff.1 hclean).1
    obtain ⟨hbits, hclean'⟩ := Packer.foldl_putBit_bits (bs := bitsOf k.order v n) hclean hstuff
    refine ⟨hbits, hclean', ?_, Packer.flush_nacc hn⟩
    rw [Packer.flush_eq hn]
    exact (Packer.foldl_putBit_bits hclean hstuff).1
  · intro plain stuffing
    have h : stuffing.StuffedAs plain := ⟨rfl, rfl, rfl⟩
    have hput := h.putBits v n
    have hflush : (stuffing.flush pad).StuffedAs (plain.flush pad) := h.padLoop 8
    exact ⟨hput.out_eq, hput.acc_eq, hput.nacc_eq, hflush.out_eq, hflush.acc_eq, hflush.nacc_eq⟩

/-! ### Commits -/

section Commit

variable {s t : State} {k : Packer}

/-- Fewer than 8 bits pend, since BW_NACC has three named bits (R35, R43). -/
theorem State.Inv.packer_nacc_lt (h : s.Inv) : s.packer.nacc < 8 := by
  have hmask : (s.getCsr .bwNacc &&& Csr.mask .bwNacc).toNat ≤ 7 := by
    rw [BitVec.toNat_and]; exact Nat.and_le_right
  rw [h.getCsr_and_mask] at hmask
  exact Nat.lt_succ_of_le hmask

/-- What a fault leaves of the writer is its CSRs and bytes of the writer's room (R494). -/
theorem State.writerLeft_within (s : State) (n : Nat) :
    ∀ p ∈ s.writerLeft n, p.Within writerCsrs [] [s.writerRoom] := by
  simp only [State.writerLeft, State.writerLeftBytes, writerCsrsLeft, State.writerRoomLeft, List.cons_append,
    List.nil_append, List.forall_mem_cons, Leftover.within_csr, Leftover.within_mem]
  refine ⟨by decide, by decide, by decide, fun a ha => ?_, by simp⟩
  have hroom := ha s.writerRoom (List.mem_singleton_self _)
  simp only [State.writerRoom] at hroom
  simp only [outside, List.mem_singleton, forall_eq]
  omega

theorem State.setWriter_bwLen (s : State) (k : Packer) (len : Nat) : (s.setWriter k len).getCsr .bwLen = u32 len := by
  delta State.setWriter
  simp [State.getCsr_setCsr, Csr.mask]

/-- The partial byte has only named bits of BW_ACC (R43). -/
theorem State.setWriter_bwAcc (s : State) (k : Packer) (len : Nat) :
    (s.setWriter k len).getCsr .bwAcc = k.acc.setWidth 32 := by
  have hmask : k.acc.setWidth 32 &&& (BitVec.allOnes 8).setWidth 32 = k.acc.setWidth 32 := by
    rw [← BitVec.setWidth_and, BitVec.and_allOnes]
  delta State.setWriter
  rw [State.getCsr_setCsr_of_ne _ _ (by decide), State.getCsr_setCsr_self]
  exact hmask

theorem State.setWriter_bwNacc (s : State) (len : Nat) (hn : k.nacc < 8) :
    (s.setWriter k len).getCsrNat .bwNacc = k.nacc := by
  delta State.setWriter
  rw [State.getCsrNat, State.getCsr_setCsr_self, BitVec.toNat_and, BitVec.toNat_ofNat, Nat.mod_eq_of_lt (by omega)]
  exact Nat.and_two_pow_sub_one_of_lt_two_pow (n := 3) hn

/-- What was committed depends on MEM, its size and the CSRs alone. -/
theorem Committed.congr {u : State} (h : Committed s k t) (hmem : u.mem = t.mem) (hparams : u.params = t.params)
    (hcsrs : u.csrs = t.csrs) : Committed s k u := by
  have hcsr (c : Csr) : u.getCsr c = t.getCsr c := by rw [State.getCsr, State.getCsr, hcsrs]
  simpa only [Committed, State.getCsrNat, hcsr, State.holds_congr hmem hparams] using h

/-- Finished bytes that fit are committed: they stand in MEM, and the writer's CSRs hold what is left (R217, R218). -/
theorem State.commit_of_fits (rs : List Reg) (hn : k.nacc < 8) (hfits : s.fits k) :
    ∃ t, s.commit k = .ok t ∧ t.pc = s.pc ∧ Committed s k t ∧ Effect rs writerCsrs [] [s.committedRegion k] s t := by
  have hroom : s.RoomFor (s.getCsrNat .bwBase + s.getCsrNat .bwLen) k.out.reverse :=
    hfits.imp (fun h => by rw [h]; rfl) fun h => by rw [List.length_reverse]; exact h.2
  have hlen : s.getCsrNat .bwLen + k.out.length < 2 ^ 32 := by
    obtain hout | ⟨hcap, -⟩ := hfits
    · rw [hout]; exact (s.getCsr .bwLen).isLt
    · exact hcap.trans_lt (s.getCsr .bwCap).isLt
  refine ⟨_, State.commit_eq_ok.2 ⟨hfits, rfl⟩, rfl, ⟨State.holds_of_write hroom rfl rfl, ?_, ?_, ?_⟩, ?_⟩
  · rw [State.getCsrNat, State.setWriter_bwLen, BitVec.toNat_ofNat, Nat.mod_eq_of_lt hlen]
  · exact State.setWriter_bwAcc ..
  · exact State.setWriter_bwNacc _ _ hn
  · refine Effect.putMem (Effect.refl s ..) ?_ |>.setCsr ?_ |>.setCsr ?_ |>.setCsr ?_
    · simp [outside, State.committedRegion]
    · decide
    · decide
    · decide

/-- More finished bytes than the capacity: the first one past it is ContractViolation(2), when MEM holds the buffer (R217). -/
theorem State.commitCheck_full {base cap n len : Nat} (hn : 0 < n) (hfull : cap < len + n)
    (hmem : base + cap ≤ s.memSize) :
    s.commitCheck base cap n len = .error (.raise ⟨.contractViolation, 2⟩ []) := by
  induction n generalizing len with
  | zero => exact absurd hn (lt_irrefl 0)
  | succ n ih =>
    by_cases hlen : len < cap
    · have hrange : s.checkRange (base + len) 1 = .ok () := State.checkRange_one (by omega)
      rw [State.commitCheck, decide_eq_true hlen, require_true, Res.ok_bind, hrange, Res.ok_bind]
      exact ih (by omega) (by omega)
    · rw [State.commitCheck, decide_eq_false hlen, require_false, Res.error_bind]
      rfl

theorem State.commit_full (hout : k.out ≠ []) (hfull : s.getCsrNat .bwCap < s.getCsrNat .bwLen + k.out.length)
    (hmem : s.getCsrNat .bwBase + s.getCsrNat .bwCap ≤ s.memSize) :
    s.commit k = .error (.raise ⟨.contractViolation, 2⟩ []) := by
  rw [State.commit, List.length_reverse, State.commitCheck_full (List.length_pos_iff.2 hout) hfull hmem]
  rfl

end Commit

theorem exec_wrbits (rb : Reg) (n : BitVec 5) (s : State) : exec (.wrbits rb n) s = execWrbits rb n s := rfl

theorem exec_bwflush (ra : Reg) (pad : Bool) (s : State) : exec (.bwflush ra pad) s = execBwflush ra pad s := rfl

/-- Settles O30: a value that fits is put and committed; the check of the value comes before it, that of the capacity in the
commit. -/
theorem writeBits : Obligations.WriteBits := by
  intro rb n s hs _ _ k
  refine ⟨fun hv hfits => ?_, fun hv => ?_, fun hv hout hfull hmem => ?_⟩
  · obtain ⟨t, hcommit, hpc, hdone, heffect⟩ := State.commit_of_fits [] (s.packer.putBits_nacc_lt hs.packer_nacc_lt _ _) hfits
    simp only [exec_wrbits, execWrbits, decide_eq_true hv, require_true, Res.ok_bind, hcommit, leaving_ok]
    exact ⟨_, rfl, hdone.congr rfl rfl rfl, heffect.advanced hpc⟩
  · simp only [exec_wrbits, execWrbits, decide_eq_false (Nat.not_lt.2 hv), require_false, Res.error_bind, leaving_raise]
    exact finish_raise_leaving rfl (s.writerLeft_within _)
  · have hcommit : s.commit (s.packer.putBits (s.getXNat rb) n.toNat) = _ := State.commit_full hout hfull hmem
    simp only [exec_wrbits, execWrbits, decide_eq_true hv, require_true, Res.ok_bind, hcommit, leaving_raise]
    exact finish_raise_leaving rfl (s.writerLeft_within _)

/-- Settles O31: the flush leaves no bit pending, and writing ra keeps what was committed. -/
theorem flushWriter : Obligations.FlushWriter := by
  intro ra pad s hs hfits
  have hnacc : (s.packer.flush pad).nacc = 0 := Packer.flush_nacc hs.packer_nacc_lt
  obtain ⟨t, hcommit, hpc, hdone, heffect⟩ := State.commit_of_fits [ra] (hnacc ▸ Nat.zero_lt_succ 7) hfits
  have hdone' : Committed s (s.packer.flush pad) (t.setX ra (t.getCsr .bwLen)).advance :=
    hdone.congr (by simp) (by simp) (by simp)
  simp only [exec_bwflush, execBwflush, hcommit, leaving_ok, Res.ok_bind]
  refine ⟨_, rfl, ?_, ?_, hdone', ?_⟩
  · rw [State.advance_getCsr, State.setX_getCsr]
    exact t.regIs_setX ra _
  · obtain ⟨-, -, -, hnacc'⟩ := hdone'
    exact BitVec.eq_of_toNat_eq (hnacc'.trans hnacc)
  · exact (heffect.setX List.mem_cons_self).advanced (by simp [hpc])

end Sys2Proof.Machine
end

section
/-! SUPPORT. The Huffman commands (O32 to O37): the canonical codes of a histogram, the descent of the decoder along
their bits, the code table of a slot, and the sort that gives a table's entries back in its order. -/

namespace Sys2Proof.Machine

/-! ### Slots -/

section Slots

variable {s t : State} {i j : BitVec 5} {h : HuffSlot}

/-- What a slot holds after a slot write (R265). -/
theorem State.slot_setSlot : (s.setSlot i h).slot j = if j = i then h else s.slot j := by
  by_cases hj : j = i
  · subst hj
    simp [State.slot, State.setSlot, Vector.get_eq_getElem]
  · have hne : i.toNat ≠ j.toNat := fun e => hj (BitVec.eq_of_toNat_eq e.symm)
    simp [State.slot, State.setSlot, Vector.get_eq_getElem, hj, hne]

/-- A slot write makes its slot valid and keeps the valid bits of the others (R44, R265). -/
theorem State.slotValid_setSlot : (s.setSlot i h).slotValid j = (decide (j = i) || s.slotValid j) := by
  have hbit : (1#32 <<< i.toNat).getLsbD j.toNat = decide (j = i) := by
    have hj := j.isLt
    have hi := i.isLt
    rw [BitVec.getLsbD_shiftLeft, Bool.eq_iff_iff]
    simp only [BitVec.getLsbD_one, Bool.and_eq_true, Bool.not_eq_true', decide_eq_true_eq, decide_eq_false_iff_not]
    rw [← BitVec.toNat_inj]
    omega
  have hcsr : (s.setSlot i h).getCsr .huffValid = setValidBit (s.getCsr .huffValid) i.toNat := by
    unfold State.setSlot
    rw [State.getCsr_setCsr_self]
    exact and_fullMask _
  unfold State.slotValid validBit
  rw [hcsr, setValidBit, BitVec.getLsbD_or, hbit, Bool.or_comm]

@[simp] theorem State.slot_setX (ra : Reg) (v : Word) : (s.setX ra v).slot i = s.slot i := by
  rw [State.slot, State.setX_slots, State.slot]

@[simp] theorem State.slotValid_setX (ra : Reg) (v : Word) : (s.setX ra v).slotValid i = s.slotValid i := by
  rw [State.slotValid, State.setX_getCsr, State.slotValid]

@[simp] theorem State.slot_advance : s.advance.slot i = s.slot i := rfl

@[simp] theorem State.slotValid_advance : s.advance.slotValid i = s.slotValid i := rfl

theorem Effect.setSlot {rs : List Reg} {cs : List Csr} {fs : List Store} {bytes : List Region}
    (heffect : Effect rs cs fs bytes s t) (hcs : .huffValid ∈ cs) (hfs : .slots ∈ fs) :
    Effect rs cs fs bytes s (t.setSlot i h) := by
  have hslots : Effect rs cs fs bytes s { t with slots := t.slots.set i.toNat h i.isLt } :=
    { heffect with slots := fun hf => absurd hfs hf }
  exact hslots.setCsr hcs

theorem State.requireSlot_valid (hvalid : s.slotValid i = true) : s.requireSlot i = .ok () := by
  rw [State.requireSlot, hvalid, require_true]

theorem State.requireSlot_invalid (hvalid : s.slotValid i = false) :
    s.requireSlot i = .error (.raise ⟨.contractViolation, 4⟩ []) := by
  rw [State.requireSlot, hvalid, require_false]
  rfl

theorem HuffSlot.wf_iff : h.wf = true ↔
    h.syms.length = h.counts.sum ∧ h.syms.length ≤ 256 ∧ buildTreeOk h.counts = true := by
  rw [HuffSlot.wf, Bool.and_eq_true, Bool.and_eq_true, beq_iff_eq, decide_eq_true_iff, and_assoc]
  rfl

@[simp] theorem HuffSlot.length_counts : h.counts.length = 16 := by simp [HuffSlot.counts]

end Slots

/-! ### HBUILD -/

section Build

variable {s : State}

theorem histOf_hist (h : HuffSlot) : histOf h.hist.toList = h.hist := by
  apply Vector.toList_inj.1
  exact histOf_toList (by simp)

/-- A table body that stands in MEM: the checks of the number of symbols and of the tree are all that is left (R265). -/
theorem readTable_of_holds {a : Nat} {hist syms : List Byte} (hhist : hist.length = 16)
    (hsyms : syms.length = (hist.map BitVec.toNat).sum) (hmem : s.holds a (hist ++ syms) = true) :
    readTable s a = do
      require (decide (syms.length ≤ 256)) .contractViolation 6
      require (buildTreeOk (hist.map BitVec.toNat)) .contractViolation 5
      return (⟨histOf hist, syms⟩, syms.length) := by
  obtain ⟨hmemHist, hmemSyms⟩ := State.holds_append.1 hmem
  have hreadHist : s.readBytes a 16 = .ok hist := State.readBytes_eq_ok.2 ⟨hhist, hmemHist⟩
  have hreadSyms : s.readBytes (a + 16) syms.length = .ok syms := State.readBytes_eq_ok.2 ⟨rfl, hhist ▸ hmemSyms⟩
  simp only [readTable, hreadHist, Res.ok_bind, ← hsyms, hreadSyms, Config.hsymMax]

/-- The slot that HBUILD writes and the address of the table body, in both forms (R264, R265). -/
theorem tablePrefix_of_holds {a : Nat} {slot : BitVec 5} {pfx : Bool} {p : Byte} {body : List Byte}
    (hclass : pfx = true → p.toNat < 32) (hslot : pfx = false → p = slot.setWidth 8)
    (hmem : s.holds a ((if pfx then [p] else []) ++ body) = true) :
    tablePrefix s a slot pfx = .ok (p.setWidth 5, a + if pfx then 1 else 0) ∧
      s.holds (a + if pfx then 1 else 0) body = true := by
  cases pfx with
  | false =>
    refine ⟨?_, hmem⟩
    have hp : p.setWidth 5 = slot := by
      rw [hslot rfl, BitVec.setWidth_setWidth_of_le _ (by decide), BitVec.setWidth_eq]
    rw [hp]
    rfl
  | true =>
    obtain ⟨hread, hbody⟩ := State.readByte_of_holds hmem
    have hp : BitVec.ofNat 5 (16 * (p.toNat / 16) + p.toNat % 16) = p.setWidth 5 := by
      rw [Nat.div_add_mod, BitVec.ofNat_toNat]
    have hlegal : p.toNat / 16 ≤ 1 := by
      have := hclass rfl
      omega
    refine ⟨?_, hbody⟩
    simp only [tablePrefix, if_true, hread, Res.ok_bind, decide_eq_true hlegal, require_true, hp]
    rfl

theorem tablePrefix_plain (s : State) (a : Nat) (slot : BitVec 5) : tablePrefix s a slot false = .ok (slot, a) := rfl

theorem exec_hbuild (ra rb : Reg) (slot : BitVec 5) (pfx : Bool) (s : State) :
    exec (.hbuild ra rb slot pfx) s = execHbuild ra rb slot pfx s := rfl

end Build

/-- Settles O32: the body of a well-formed slot passes both checks, and what is stored is that slot. -/
theorem buildSlot : Obligations.BuildSlot := by
  intro ra rb slot pfx p h s hwf hclass hslot hmem
  obtain ⟨hlen, hmax, htree⟩ := HuffSlot.wf_iff.1 hwf
  obtain ⟨hprefix, hbody⟩ := tablePrefix_of_holds hclass hslot hmem
  have htable := readTable_of_holds (by simp) hlen hbody
  rw [histOf_hist, decide_eq_true hmax, require_true, Res.ok_bind] at htable
  have htree' : buildTreeOk (h.hist.toList.map BitVec.toNat) = true := htree
  rw [htree', require_true, Res.ok_bind] at htable
  have hcount : s.getXNat rb + (if pfx then 1 else 0) + 16 + h.syms.length - s.getXNat rb =
      (if pfx then 1 else 0) + 16 + h.syms.length := by omega
  simp only [exec_hbuild, execHbuild, hprefix, Res.ok_bind, htable, pure, Except.pure, hcount]
  refine ⟨_, rfl, ?_, fun j => ?_, fun j hj => ?_, State.regIs_setX _ ra _, ?_⟩
  · simp [State.slot_setSlot]
  · simp [State.slotValid_setSlot]
  · simp [State.slot_setSlot, hj]
  · have hstored : Effect [ra] [.huffValid] [.slots] [] s (s.setSlot (p.setWidth 5) h) :=
      (Effect.refl s ..).setSlot List.mem_cons_self List.mem_cons_self
    exact (hstored.setX List.mem_cons_self).advanced (State.setX_pc ..)

/-! ### The canonical codes of a histogram (R261) -/

section Canonical

@[simp] theorem length_canonicalFrom (hs : List Nat) (len first : Nat) :
    (canonicalFrom hs len first).length = hs.sum := by
  induction hs generalizing len first with
  | nil => rfl
  | cons h hs ih => simp [canonicalFrom, ih]

theorem mem_canonicalFrom_cons {h : Nat} {hs : List Nat} {len first : Nat} {c : Nat × Nat} :
    c ∈ canonicalFrom (h :: hs) len first ↔
      (∃ j < h, (first + j, len) = c) ∨ c ∈ canonicalFrom hs (len + 1) (2 * (first + h)) := by
  simp [canonicalFrom]

/-- A code is no shorter than the lengths it is looked for at, and it is at or past the first free node of its depth. -/
theorem canonicalFrom_bounds {hs : List Nat} {len first : Nat} {c : Nat × Nat} (hc : c ∈ canonicalFrom hs len first) :
    len ≤ c.2 ∧ c.2 < len + hs.length ∧ first * 2 ^ (c.2 - len) ≤ c.1 := by
  induction hs generalizing len first with
  | nil => simp [canonicalFrom] at hc
  | cons h hs ih =>
    obtain ⟨j, hj, rfl⟩ | hc := mem_canonicalFrom_cons.1 hc
    · simp
    · obtain ⟨hlen, hlt, hfirst⟩ := ih hc
      have hdepth : c.2 - len = c.2 - (len + 1) + 1 := by omega
      refine ⟨by omega, by simp only [List.length_cons]; omega, ?_⟩
      calc first * 2 ^ (c.2 - len) = 2 * first * 2 ^ (c.2 - (len + 1)) := by rw [hdepth]; ring
        _ ≤ 2 * (first + h) * 2 ^ (c.2 - (len + 1)) := Nat.mul_le_mul_right _ (by omega)
        _ ≤ c.1 := hfirst

/-- Where the tree fits, a code has no more bits than its length (R261). -/
theorem canonicalFrom_lt {hs : List Nat} {len first frontier : Nat} {c : Nat × Nat}
    (htree : treeFits hs frontier = true) (hfrontier : first + frontier = 2 ^ len)
    (hc : c ∈ canonicalFrom hs len first) : c.1 < 2 ^ c.2 := by
  induction hs generalizing len first frontier with
  | nil => simp [canonicalFrom] at hc
  | cons h hs ih =>
    simp only [treeFits, Bool.and_eq_true, decide_eq_true_eq] at htree
    obtain ⟨hle, hrest⟩ := htree
    obtain ⟨j, hj, rfl⟩ | hc := mem_canonicalFrom_cons.1 hc
    · simp only; omega
    · exact ih hrest (by rw [Nat.pow_succ]; omega) hc

/-- The codes rise strictly, since FIRST[d + 1] exceeds every code of length d (R270). -/
theorem pairwise_canonicalFrom (hs : List Nat) (len first : Nat) :
    (canonicalFrom hs len first).Pairwise fun c d => c.1 < d.1 := by
  induction hs generalizing len first with
  | nil => exact List.Pairwise.nil
  | cons h hs ih =>
    refine List.pairwise_append.2 ⟨?_, ih _ _, fun c hc d hd => ?_⟩
    · refine List.pairwise_map.2 (List.pairwise_lt_range.imp fun hlt => ?_)
      simpa using hlt
    · obtain ⟨j, hj, rfl⟩ : ∃ j < h, (first + j, len) = c := by simpa using hc
      have hfirst := (canonicalFrom_bounds hd).2.2
      calc first + j < 2 * (first + h) := by omega
        _ ≤ 2 * (first + h) * 2 ^ (d.2 - (len + 1)) := Nat.le_mul_of_pos_right _ (Nat.two_pow_pos _)
        _ ≤ d.1 := hfirst

/-- Counting the codes by their lengths gives the histogram back (R271). -/
theorem countP_canonicalFrom (hs : List Nat) (len first : Nat) :
    ((List.range hs.length).map fun i => (canonicalFrom hs len first).countP fun c => c.2 == len + i) = hs := by
  induction hs generalizing len first with
  | nil => rfl
  | cons h hs ih =>
    have hhere : (canonicalFrom hs (len + 1) (2 * (first + h))).countP (fun c => c.2 == len) = 0 := by
      refine List.countP_eq_zero.2 fun c hc => ?_
      have := (canonicalFrom_bounds hc).1
      simp only [beq_iff_eq]
      omega
    rw [List.length_cons, List.range_succ_eq_map, List.map_cons, List.map_map]
    congr 1
    · simp [canonicalFrom, hhere, List.countP_map, Function.comp_def]
    · refine Eq.trans (List.map_congr_left fun i _ => ?_) (ih (len + 1) (2 * (first + h)))
      simp [canonicalFrom, List.countP_map, Function.comp_def, Nat.add_assoc, Nat.add_comm 1]

end Canonical

section Table

variable {t : HuffSlot}

theorem HuffSlot.table_map_fst (hwf : t.wf = true) : t.table.map Prod.fst = t.syms := by
  obtain ⟨hlen, -, -⟩ := HuffSlot.wf_iff.1 hwf
  refine List.map_fst_zip ?_
  rw [canonicalCodes, length_canonicalFrom, hlen]

theorem HuffSlot.table_map_snd (hwf : t.wf = true) : t.table.map Prod.snd = canonicalCodes t.counts := by
  obtain ⟨hlen, -, -⟩ := HuffSlot.wf_iff.1 hwf
  refine List.map_snd_zip ?_
  rw [canonicalCodes, length_canonicalFrom, hlen]

theorem HuffSlot.mem_codes {e : Byte × Nat × Nat} (he : e ∈ t.table) : e.2 ∈ canonicalCodes t.counts :=
  (List.of_mem_zip (a := e.1) (b := e.2) he).2

/-- The codes of a well-formed slot have 1 to 16 bits (R261). -/
theorem HuffSlot.code_bounds (hwf : t.wf = true) {e : Byte × Nat × Nat} (he : e ∈ t.table) :
    1 ≤ e.2.2 ∧ e.2.2 ≤ 16 ∧ e.2.1 < 2 ^ e.2.2 := by
  obtain ⟨-, -, htree⟩ := HuffSlot.wf_iff.1 hwf
  have hcode := HuffSlot.mem_codes he
  obtain ⟨hpos, hmax, -⟩ := canonicalFrom_bounds hcode
  rw [HuffSlot.length_counts] at hmax
  exact ⟨hpos, Nat.lt_succ_iff.1 (by omega), canonicalFrom_lt htree rfl hcode⟩

end Table

/-! ### Bits and their value, most significant first -/

section Value

variable {xs ys : List Bool}

theorem valueOf_msb_append : valueOf .msb (xs ++ ys) = valueOf .msb xs * 2 ^ ys.length + valueOf .msb ys := by
  induction xs with
  | nil => simp [valueOf]
  | cons x xs ih => simp only [List.cons_append, valueOf, ih, List.length_append, Nat.pow_add]; ring

theorem valueOf_msb_concat (b : Bool) : valueOf .msb (xs ++ [b]) = 2 * valueOf .msb xs + b.toNat := by
  rw [valueOf_msb_append]
  simp [valueOf, Nat.mul_comm]

theorem valueOf_msb_lt : valueOf .msb xs < 2 ^ xs.length := by
  induction xs with
  | nil => simp [valueOf]
  | cons x xs ih =>
    have hx : x.toNat * 2 ^ xs.length ≤ 2 ^ xs.length := mul_le_of_le_one_left (Nat.zero_le _) (Bool.toNat_le x)
    simp only [valueOf, List.length_cons, Nat.pow_succ]
    omega

@[simp] theorem length_bitsOf (order : BitOrder) (v n : Nat) : (bitsOf order v n).length = n := by
  cases order <;> simp [bitsOf]

theorem bitsOf_msb_succ (v n : Nat) : bitsOf .msb v (n + 1) = v.testBit n :: bitsOf .msb v n := by
  simp only [bitsOf, List.range_succ_eq_map, List.map_cons, List.map_map]
  refine congrArg₂ _ (by simp) (List.map_congr_left fun i hi => ?_)
  simp only [Function.comp_apply]
  congr 1
  omega

theorem valueOf_bitsOf (v n : Nat) : valueOf .msb (bitsOf .msb v n) = v % 2 ^ n := by
  induction n with
  | zero => simp [bitsOf, valueOf, Nat.mod_one]
  | succ n ih =>
    rw [bitsOf_msb_succ, valueOf, ih, length_bitsOf, Nat.mod_pow_succ, Nat.toNat_testBit, Nat.mul_comm, Nat.add_comm]

/-- Bits are determined by their number and their value. -/
theorem eq_of_valueOf_eq (hlen : xs.length = ys.length) (hvalue : valueOf .msb xs = valueOf .msb ys) : xs = ys := by
  induction xs generalizing ys with
  | nil => exact (List.length_eq_zero_iff.1 hlen.symm).symm
  | cons x xs ih =>
    obtain _ | ⟨y, ys⟩ := ys
    · cases hlen
    have hlen' : xs.length = ys.length := Nat.succ.inj hlen
    have hx := valueOf_msb_lt (xs := xs)
    have hy := valueOf_msb_lt (xs := ys)
    simp only [valueOf, hlen'] at hvalue hx
    have hhead := congrArg (· / 2 ^ ys.length) hvalue
    simp only [Nat.add_comm _ (valueOf _ _), Nat.add_mul_div_right _ _ (Nat.two_pow_pos _), Nat.div_eq_of_lt hx,
      Nat.div_eq_of_lt hy, Nat.zero_add] at hhead
    have hinj : ∀ x y : Bool, x.toNat = y.toNat → x = y := by decide
    obtain rfl := hinj x y hhead
    rw [ih hlen' (by omega)]

theorem bitsOf_valueOf (xs : List Bool) : bitsOf .msb (valueOf .msb xs) xs.length = xs := by
  refine eq_of_valueOf_eq (length_bitsOf ..) ?_
  rw [valueOf_bitsOf, Nat.mod_eq_of_lt valueOf_msb_lt]

end Value

/-! ### HDEC: the descent along the bits of the stream (R262) -/

section Decode

variable {rd : Reader} {s : State} {syms : List Byte} {hs : List Nat} {first off p : Nat} {bits : List Bool}

/-- One bit of the descent: a leaf at this depth, or on to the next one (R262). -/
theorem huffWalk_cons {h : Nat} {code : Nat} {b : Bool} (hbits : rd.hasBits s p (b :: bits) = true) :
    huffWalk rd s syms (h :: hs) first off code p =
      if 2 * code + b.toNat < first + h then .ok (syms.getD (off + (2 * code + b.toNat) - first) 0, p + 1)
      else huffWalk rd s syms hs (2 * (first + h)) (off + h) (2 * code + b.toNat) (p + 1) := by
  rw [huffWalk, (Reader.readBit_of_hasBits hbits).1]
  rfl

/-- The right child of the node that the beginning of a code leads to is at or past the first free node of its depth. -/
theorem canonicalFrom_prefix {pre : List Bool} {c : Nat × Nat} (hc : c ∈ canonicalFrom hs (pre.length + 1) first)
    (hlt : c.1 < 2 ^ c.2) (hcode : pre ++ bits = bitsOf .msb c.1 c.2) : first < 2 * valueOf .msb pre + 2 := by
  obtain ⟨hdepth, -, hfirst⟩ := canonicalFrom_bounds hc
  have hlen : pre.length + bits.length = c.2 := by simpa using congrArg List.length hcode
  have hrest := valueOf_msb_lt (xs := bits)
  have hsplit : bits.length = c.2 - (pre.length + 1) + 1 := by omega
  refine Nat.lt_of_mul_lt_mul_right (a := 2 ^ (c.2 - (pre.length + 1))) ?_
  calc first * 2 ^ (c.2 - (pre.length + 1)) ≤ c.1 := hfirst
    _ = valueOf .msb pre * 2 ^ bits.length + valueOf .msb bits := by
      rw [← valueOf_msb_append, hcode, valueOf_bitsOf, Nat.mod_eq_of_lt hlt]
    _ < (valueOf .msb pre + 1) * 2 ^ bits.length := by rw [add_one_mul]; omega
    _ = (2 * valueOf .msb pre + 2) * 2 ^ (c.2 - (pre.length + 1)) := by rw [hsplit, Nat.pow_succ]; ring

/-- The descent along the bits of a canonical code ends at its symbol: `pre` is the part of the code read so far. -/
theorem huffWalk_code {pre : List Bool} {i : Nat} {c : Nat × Nat}
    (hc : (canonicalFrom hs (pre.length + 1) first)[i]? = some c) (hlt : c.1 < 2 ^ c.2)
    (hcode : pre ++ bits = bitsOf .msb c.1 c.2) (hbits : rd.hasBits s p bits = true) :
    huffWalk rd s syms hs first off (valueOf .msb pre) p = .ok (syms.getD (off + i) 0, p + bits.length) := by
  induction hs generalizing pre bits first off p i with
  | nil => simp [canonicalFrom] at hc
  | cons h hs ih =>
    have hlen : pre.length + bits.length = c.2 := by simpa using congrArg List.length hcode
    have hdepth := (canonicalFrom_bounds (List.mem_of_getElem? hc)).1
    obtain _ | ⟨b, bits⟩ := bits
    · simp only [List.length_nil] at hlen
      omega
    rw [huffWalk_cons hbits]
    rw [canonicalFrom, List.getElem?_append, List.length_map, List.length_range] at hc
    by_cases hi : i < h
    · rw [if_pos hi, List.getElem?_map, List.getElem?_range hi, Option.map_some, Option.some_inj] at hc
      subst hc
      have hnone : bits = [] := List.eq_nil_of_length_eq_zero (by simp only [List.length_cons] at hlen; omega)
      subst hnone
      have hvalue : 2 * valueOf .msb pre + b.toNat = first + i := by
        rw [← valueOf_msb_concat, hcode, valueOf_bitsOf, Nat.mod_eq_of_lt hlt]
      rw [hvalue, if_pos (by omega), show off + (first + i) - first = off + i by omega]
      rfl
    · rw [if_neg hi] at hc
      have hcode' : (pre ++ [b]) ++ bits = bitsOf .msb c.1 c.2 := by simpa using hcode
      have hc' : (canonicalFrom hs ((pre ++ [b]).length + 1) (2 * (first + h)))[i - h]? = some c := by simpa using hc
      have hpast := canonicalFrom_prefix (List.mem_of_getElem? hc') hlt hcode'
      rw [valueOf_msb_concat] at hpast
      rw [if_neg (by omega), ← valueOf_msb_concat, ih hc' hcode' (Reader.readBit_of_hasBits hbits).2, List.length_cons,
        show off + h + (i - h) = off + i by omega, Nat.add_assoc, Nat.add_comm 1]

/-- Bits that begin with no code lead past the last length, to a dead end (R262). -/
theorem huffWalk_deadEnd {pre : List Bool} (hlen : bits.length = hs.length + 1) (hfirst : first ≤ 2 * valueOf .msb pre)
    (hnone : ∀ c ∈ canonicalFrom hs (pre.length + 1) first, ¬ bitsOf .msb c.1 c.2 <+: pre ++ bits)
    (hbits : rd.hasBits s p bits = true) :
    huffWalk rd s syms hs first off (valueOf .msb pre) p = .error (.raise ⟨.corruptStream, 2⟩ []) := by
  induction hs generalizing pre bits first off p with
  | nil =>
    obtain ⟨b, rfl⟩ := List.length_eq_one_iff.1 hlen
    rw [huffWalk, (Reader.readBit_of_hasBits hbits).1]
    rfl
  | cons h hs ih =>
    obtain _ | ⟨b, bits⟩ := bits
    · cases hlen
    have hinner : ¬ 2 * valueOf .msb pre + b.toNat < first + h := by
      intro hleaf
      refine hnone (valueOf .msb (pre ++ [b]), pre.length + 1) (mem_canonicalFrom_cons.2 (.inl ?_)) ⟨bits, ?_⟩
      · refine ⟨valueOf .msb (pre ++ [b]) - first, ?_, Prod.ext ?_ rfl⟩
        · rw [valueOf_msb_concat]; omega
        · dsimp only
          rw [valueOf_msb_concat]
          omega
      · have hread := bitsOf_valueOf (pre ++ [b])
        rw [List.length_append, List.length_singleton] at hread
        rw [hread, List.append_assoc]
        rfl
    rw [huffWalk_cons hbits, if_neg hinner, ← valueOf_msb_concat]
    refine ih (Nat.succ.inj hlen) ?_ (fun c hc => ?_) (Reader.readBit_of_hasBits hbits).2
    · rw [valueOf_msb_concat]; omega
    · have := hnone c (mem_canonicalFrom_cons.2 (.inr (by simpa using hc)))
      simpa using this

/-- The canonical code of a symbol decodes to it (R262). -/
theorem huffDecode_code {t : HuffSlot} (hwf : t.wf = true) {e : Byte × Nat × Nat} (he : e ∈ t.table)
    (hbits : rd.hasBits s p (bitsOf .msb e.2.1 e.2.2) = true) : huffDecode rd s t p = .ok (e.1, p + e.2.2) := by
  obtain ⟨-, -, hlt⟩ := HuffSlot.code_bounds hwf he
  obtain ⟨i, hi⟩ := List.mem_iff_getElem?.1 he
  obtain ⟨hsym, hcode⟩ := List.getElem?_zip_eq_some.1 hi
  have hwalk := huffWalk_code (syms := t.syms) (off := 0) (pre := []) hcode hlt rfl hbits
  rw [huffDecode]
  refine hwalk.trans ?_
  simp [hsym]

/-- 17 bits that begin with no code of the slot are a dead end (R262). -/
theorem huffDecode_deadEnd {t : HuffSlot} (hwf : t.wf = true) (hlen : bits.length = 17)
    (hbits : rd.hasBits s p bits = true) (hnone : ∀ e ∈ t.table, ¬ bitsOf .msb e.2.1 e.2.2 <+: bits) :
    huffDecode rd s t p = .error (.raise ⟨.corruptStream, 2⟩ []) := by
  refine huffWalk_deadEnd (pre := []) (by simpa using hlen) (Nat.zero_le _) (fun c hc => ?_) hbits
  have hc : c ∈ canonicalCodes t.counts := hc
  rw [← HuffSlot.table_map_snd hwf] at hc
  obtain ⟨e, he, rfl⟩ := List.mem_map.1 hc
  exact hnone e he

end Decode

theorem exec_hdec (ra : Reg) (slot : BitVec 5) (s : State) : exec (.hdec ra slot) s = execHdec ra slot s := rfl

/-- Settles O33: the descent along a code's bits ends at its leaf, and one along other bits at depth 17. -/
theorem decodeSymbol : Obligations.DecodeSymbol := by
  intro ra slot s hvalid hwf
  refine ⟨fun e he hbits => ?_, fun bits hlen hbits hnone => ?_⟩
  · have hread := huffDecode_code hwf he hbits
    obtain ⟨hpos, -, -⟩ := HuffSlot.code_bounds hwf he
    have hbound := Reader.hasBits_bound hbits (List.ne_nil_of_length_pos (by rwa [length_bitsOf]))
    rw [length_bitsOf] at hbound
    simp only [exec_hdec, execHdec, State.requireSlot_valid hvalid, hread, Res.ok_bind]
    refine ⟨_, rfl, ?_, ?_, (s.effect_setX_setCsr ra _ .brPos _).advanced (by simp)⟩
    · rw [← BitVec.ofNat_toNat]
      exact s.regIs_setX ra _
    · exact State.getCsrNat_setCsrNat_full _ (by omega) rfl
  · have hread := huffDecode_deadEnd hwf hlen hbits hnone
    simp only [exec_hdec, execHdec, State.requireSlot_valid hvalid, hread, leaving_raise, Res.ok_bind, Res.error_bind]
    exact finish_raise_leaving rfl (by simp)

/-! ### The code table of a slot (R263) -/

section CodeTable

variable {s : State} {t : HuffSlot}

theorem hasRepeat_eq_false {bs : List Byte} : hasRepeat bs = false ↔ bs.Nodup := by
  induction bs with
  | nil => simp [hasRepeat]
  | cons b bs ih => simp [hasRepeat, ih]

theorem codeTable_eq (hwf : t.wf = true) :
    codeTable t = do
      require (!hasRepeat t.syms) .contractViolation 7
      return t.table := by
  have hsyms := HuffSlot.table_map_fst hwf
  rw [HuffSlot.table] at hsyms
  simp only [codeTable, hsyms, HuffSlot.table]

theorem codeTable_of_noRepeat (hwf : t.wf = true) (hnodup : hasRepeat t.syms = false) : codeTable t = .ok t.table := by
  rw [codeTable_eq hwf, hnodup]
  rfl

theorem codeTable_of_repeat (hwf : t.wf = true) (hrepeat : hasRepeat t.syms = true) :
    codeTable t = .error (.raise ⟨.contractViolation, 7⟩ []) := by
  rw [codeTable_eq hwf, hrepeat]
  rfl

/-- Where no symbol stands twice, a symbol is looked up at its own entry. -/
theorem codeOf_of_mem {table : List (Byte × Nat × Nat)} (hnodup : (table.map Prod.fst).Nodup)
    {e : Byte × Nat × Nat} (he : e ∈ table) : codeOf table e.1.toNat = some e.2 := by
  rw [codeOf]
  induction table with
  | nil => cases he
  | cons x xs ih =>
    obtain ⟨hx, hxs⟩ := List.nodup_cons.1 (List.map_cons ▸ hnodup)
    obtain rfl | he := List.mem_cons.1 he
    · simp
    · have hne : x.1 ≠ e.1 := fun heq => hx (heq ▸ List.mem_map_of_mem he)
      rw [List.find?_cons_of_neg (by simpa [BitVec.toNat_inj] using hne)]
      exact ih hxs he

theorem codeOf_of_not_mem {table : List (Byte × Nat × Nat)} {v : Nat} (hv : ∀ b ∈ table.map Prod.fst, v ≠ b.toNat) :
    codeOf table v = none := by
  rw [codeOf, Option.map_eq_none_iff, List.find?_eq_none]
  intro e he
  simpa using (hv e.1 (List.mem_map_of_mem he)).symm

theorem HuffSlot.codeOf_table (hwf : t.wf = true) (hnodup : hasRepeat t.syms = false) {e : Byte × Nat × Nat}
    (he : e ∈ t.table) : codeOf t.table e.1.toNat = some e.2 :=
  codeOf_of_mem (by rw [HuffSlot.table_map_fst hwf]; exact hasRepeat_eq_false.1 hnodup) he

theorem HuffSlot.codeOf_table_none (hwf : t.wf = true) {v : Nat} (hv : ∀ b ∈ t.syms, v ≠ b.toNat) :
    codeOf t.table v = none :=
  codeOf_of_not_mem (by rwa [HuffSlot.table_map_fst hwf])

/-- A symbol's code, where no symbol stands twice (R269). -/
theorem huffCode_of_mem (hwf : t.wf = true) (hnodup : hasRepeat t.syms = false) {e : Byte × Nat × Nat}
    (he : e ∈ t.table) : huffCode t e.1.toNat = .ok e.2 := by
  simp only [huffCode, codeTable_of_noRepeat hwf hnodup, Res.ok_bind, HuffSlot.codeOf_table hwf hnodup he]
  rfl

theorem huffCode_of_not_mem (hwf : t.wf = true) (hnodup : hasRepeat t.syms = false) {v : Nat}
    (hv : ∀ b ∈ t.syms, v ≠ b.toNat) : huffCode t v = .error (.raise ⟨.contractViolation, 8⟩ []) := by
  simp only [huffCode, codeTable_of_noRepeat hwf hnodup, Res.ok_bind, HuffSlot.codeOf_table_none hwf hv]
  rfl

end CodeTable

/-! ### HCTAB -/

section Entries

variable {s : State}

@[simp] theorem State.holds_advance (a : Nat) (bs : List Byte) : s.advance.holds a bs = s.holds a bs :=
  State.holds_congr (s := s) (t := s.advance) rfl rfl a bs

theorem length_leBytes (n v : Nat) : (leBytes n v).length = n := by
  induction n generalizing v with
  | zero => rfl
  | succ n ih => simp [leBytes, ih]

theorem length_codeEntry (table : List (Byte × Nat × Nat)) (v : Nat) : (codeEntry table v).length = 4 := by
  unfold codeEntry
  split <;> simp [length_leBytes]

/-- Pieces of one length that stand in MEM one after the other: the i-th stands i lengths further on. -/
theorem State.holds_flatMap {α : Type} {f : α → List Byte} {w a : Nat} (hw : ∀ x, (f x).length = w) {xs : List α}
    (hmem : s.holds a (xs.flatMap f) = true) (i : Nat) (hi : i < xs.length) : s.holds (a + w * i) (f xs[i]) = true := by
  induction xs generalizing a i with
  | nil => cases hi
  | cons x xs ih =>
    obtain ⟨hhead, htail⟩ := State.holds_append.1 (List.flatMap_cons ▸ hmem)
    cases i with
    | zero => exact hhead
    | succ i =>
      rw [hw] at htail
      rw [Nat.mul_succ, Nat.add_comm (w * i), ← Nat.add_assoc]
      exact ih htail i (Nat.lt_of_succ_lt_succ hi)

theorem length_flatMap_codeEntry (table : List (Byte × Nat × Nat)) :
    ((List.range 256).flatMap (codeEntry table)).length = 1024 := by
  rw [List.length_flatMap, funext (length_codeEntry table), List.map_const', List.sum_replicate, List.length_range]
  rfl

theorem State.holds_codeEntry {a : Nat} {table : List (Byte × Nat × Nat)}
    (hmem : s.holds a ((List.range 256).flatMap (codeEntry table)) = true) (v : Byte) :
    s.holds (a + 4 * v.toNat) (codeEntry table v.toNat) = true := by
  have hv := State.holds_flatMap (length_codeEntry table) hmem v.toNat (by simp [v.isLt])
  rwa [List.getElem_range] at hv

end Entries

theorem exec_hctab (rb : Reg) (slot : BitVec 5) (s : State) : exec (.hctab rb slot) s = execHctab rb slot s := rfl

/-- Settles O34: the bytes stored are 256 entries of 4 bytes, and a value's is what the code table has for it. -/
theorem codeTableInMemory : Obligations.CodeTableInMemory := by
  intro rb slot s hvalid hwf
  refine ⟨fun hnodup hroom => ?_, fun hrepeat => ?_⟩
  · have hlen := length_flatMap_codeEntry (s.slot slot).table
    have hfits : s.RoomFor (s.getXNat rb) ((List.range 256).flatMap (codeEntry (s.slot slot).table)) :=
      .inr (hlen.symm ▸ hroom)
    have hstore := State.storeBytes_eq_ok.2 ⟨hfits, rfl⟩
    simp only [exec_hctab, execHctab, State.requireSlot_valid hvalid, codeTable_of_noRepeat hwf hnodup, hstore,
      leaving_ok, Res.ok_bind]
    have hentries := State.holds_codeEntry (s.putMem_holds _ _ hfits)
    refine ⟨_, rfl, fun e he => ?_, fun v hv => ?_, Effect.advanced ?_ rfl⟩
    · simpa only [State.holds_advance, codeEntry, HuffSlot.codeOf_table hwf hnodup he] using hentries e.1
    · have hnone : codeOf (s.slot slot).table v.toNat = none :=
        HuffSlot.codeOf_table_none hwf fun b hb heq => hv (BitVec.eq_of_toNat_eq heq ▸ hb)
      simpa only [State.holds_advance, codeEntry, hnone] using hentries v
    · exact hlen ▸ s.effect_putMem _ _
  · simp only [exec_hctab, execHctab, State.requireSlot_valid hvalid, codeTable_of_repeat hwf hrepeat, leaving_ok,
      Res.ok_bind, Res.error_bind]
    exact finish_raise rfl

/-! ### HENC -/

theorem State.Inv.slot_wf {s : State} (h : s.Inv) (i : BitVec 5) : (s.slot i).wf = true := h.slotsWf i.toFin

theorem exec_henc (rb : Reg) (slot : BitVec 5) (s : State) : exec (.henc rb slot) s = execHenc rb slot s := rfl

/-- Settles O35: the symbol's code is put and committed as any bits are; a value without one faults at the lookup. -/
theorem encodeSymbol : Obligations.EncodeSymbol := by
  intro rb slot s hs hvalid hnodup
  have hwf := hs.slot_wf slot
  refine ⟨fun e he hv hfits => ?_, fun hv => ?_⟩
  · have hcode := huffCode_of_mem hwf hnodup he
    have hnacc : (s.packer.putBits e.2.1 e.2.2).nacc < 8 := Packer.putBits_nacc_lt hs.packer_nacc_lt ..
    obtain ⟨t, hcommit, hpc, hdone, heffect⟩ := State.commit_of_fits [] hnacc hfits
    simp only [exec_henc, execHenc, State.requireSlot_valid hvalid, hv, hcode, Res.ok_bind, hcommit, leaving_ok]
    exact ⟨_, rfl, hdone.congr rfl rfl rfl, heffect.advanced hpc⟩
  · have hcode := huffCode_of_not_mem hwf hnodup hv
    simp only [exec_henc, execHenc, State.requireSlot_valid hvalid, hcode, Res.ok_bind, Res.error_bind, leaving_raise]
    exact finish_raise_leaving rfl (s.writerLeft_within _)

/-! ### Slots never built, and bodies that HBUILD refuses -/

@[simp] theorem Leftover.within_kFile {cs : List Csr} {fs : List Store} {bytes : List Region} :
    Leftover.kFile.Within cs fs bytes ↔ .kfile ∈ fs := Iff.rfl

/-- What a fault leaves within some CSRs, stores and bytes is within more of them. -/
theorem Leftover.Within.mono {p : Leftover} {cs cs' : List Csr} {fs fs' : List Store} {bytes : List Region}
    (hp : p.Within cs fs bytes) (hcs : cs ⊆ cs') (hfs : fs ⊆ fs') : p.Within cs' fs' bytes := by
  cases p with
  | csr c => exact hcs hp
  | mem base len => exact hp
  | kFile => exact hfs hp
  | sFile => exact hfs hp
  | stored cells => exact hp

/-- A check of two slots of which one was never built. -/
theorem State.requireSlots_invalid {s : State} {i j : BitVec 5}
    (hvalid : s.slotValid i = false ∨ s.slotValid j = false) :
    (do s.requireSlot i; s.requireSlot j) = .error (.raise ⟨.contractViolation, 4⟩ []) := by
  cases hi : s.slotValid i with
  | false => rw [State.requireSlot_invalid hi]; rfl
  | true =>
    have hj : s.slotValid j = false := hvalid.resolve_left (by simp [hi])
    rw [State.requireSlot_valid hi, Res.ok_bind, State.requireSlot_invalid hj]

theorem exec_decblk (dc ac : BitVec 4) (p : BitVec 2) (s : State) :
    exec (.decblk dc ac p) s = execDecblk dc ac p s := rfl

theorem exec_encblk (dc ac : BitVec 4) (p : BitVec 2) (s : State) :
    exec (.encblk dc ac p) s = execEncblk dc ac p s := rfl

/-- Settles O37: the slot is checked before anything else, and a bad body is refused after its histogram or its symbols
are read. -/
theorem slotFaults : Obligations.SlotFaults := by
  refine ⟨fun r slot s hvalid => ?_, fun dc ac p s hvalid => ?_, fun ra rb slot s hist syms hhist hsyms hmem => ?_⟩
  · have hslot := State.requireSlot_invalid hvalid
    refine ⟨?_, ?_, ?_⟩
    · simp only [exec_hdec, execHdec, hslot, Res.error_bind, leaving_raise]
      exact finish_raise_leaving rfl (by simp)
    · simp only [exec_hctab, execHctab, hslot, Res.error_bind, leaving_raise]
      exact finish_raise_leaving rfl (by simp)
    · simp only [exec_henc, execHenc, hslot, Res.error_bind, leaving_raise]
      exact finish_raise_leaving rfl (s.writerLeft_within _)
  · have hslots := State.requireSlots_invalid (i := dcSlot dc) (j := acSlot ac) hvalid
    refine ⟨?_, ?_⟩
    · simp only [exec_decblk, execDecblk, ← bind_assoc, hslots, Res.error_bind, leaving_raise]
      exact finish_raise_leaving rfl (by simp)
    · simp only [exec_encblk, execEncblk, hslots, Res.error_bind, leaving_raise]
      refine finish_raise_leaving rfl fun q hq => ?_
      obtain hq | hq := List.mem_append.1 hq
      · exact (s.writerLeft_within _ q hq).mono (List.subset_cons_self ..) (List.Subset.refl _)
      · exact List.mem_singleton.1 hq ▸ List.mem_cons_self
  · have htable := readTable_of_holds hhist hsyms hmem
    refine ⟨fun hmany => ?_, fun hfew htree => ?_⟩
    · rw [decide_eq_false (Nat.not_le.2 hmany), require_false, Res.error_bind] at htable
      simp only [exec_hbuild, execHbuild, tablePrefix_plain, htable, Res.ok_bind, Res.error_bind]
      exact finish_raise rfl
    · rw [decide_eq_true hfew, require_true, Res.ok_bind, htree, require_false, Res.error_bind] at htable
      simp only [exec_hbuild, execHbuild, tablePrefix_plain, htable, Res.ok_bind, Res.error_bind]
      exact finish_raise rfl

/-! ### HFROMENT: entries in MEM and their sort (R270) -/

section Sorting

variable {a b c : CodeEntry} {es fs : List CodeEntry}

theorem length_entryBytes (e : CodeEntry) : (entryBytes e).length = 4 := by
  rw [entryBytes, List.length_append, length_leBytes]
  rfl

theorem length_flatMap_entryBytes (es : List CodeEntry) : (es.flatMap entryBytes).length = 4 * es.length := by
  rw [List.length_flatMap, funext length_entryBytes, List.map_const', List.sum_replicate, smul_eq_mul, Nat.mul_comm]

/-- Entries read back from their bytes (R270). -/
theorem entriesOf_flatMap (hrange : ∀ e ∈ es, e.code < 2 ^ 16 ∧ e.len < 2 ^ 8) :
    entriesOf (es.flatMap entryBytes) = es := by
  induction es with
  | nil => rfl
  | cons e es ih =>
    obtain ⟨⟨hcode, hlen⟩, hrest⟩ := List.forall_mem_cons.1 hrange
    have hvalue : leValue [BitVec.ofNat 8 e.code, BitVec.ofNat 8 (e.code / 256)] = e.code := by
      simp only [leValue, BitVec.toNat_ofNat]
      omega
    have hlen' : (BitVec.ofNat 8 e.len).toNat = e.len := Nat.mod_eq_of_lt hlen
    simp only [List.flatMap_cons, entryBytes, leBytes, List.cons_append, List.nil_append, entriesOf, hvalue, hlen']
    rw [ih hrest]

theorem CodeEntry.le_iff : a.le b = true ↔ a.code < b.code ∨ a.code = b.code ∧ a.len ≤ b.len := by
  simp [CodeEntry.le]

theorem CodeEntry.le_total (a b : CodeEntry) : a.le b = true ∨ b.le a = true := by
  simp only [CodeEntry.le_iff]
  omega

theorem CodeEntry.le_trans (hab : a.le b = true) (hbc : b.le c = true) : a.le c = true := by
  simp only [CodeEntry.le_iff] at hab hbc ⊢
  omega

/-- The sort of R270 is the library's insertion sort. -/
theorem sortEntries_eq_insertionSort (es : List CodeEntry) :
    sortEntries es = es.insertionSort fun a b => a.le b = true := by
  have hinsert (e : CodeEntry) (xs : List CodeEntry) :
      insertEntry e xs = xs.orderedInsert (fun a b => a.le b = true) e := by
    induction xs with
    | nil => rfl
    | cons x xs ih => rw [insertEntry, ih, List.orderedInsert_cons]
  rw [sortEntries, funext₂ hinsert]
  rfl

theorem perm_sortEntries (es : List CodeEntry) : (sortEntries es).Perm es := by
  rw [sortEntries_eq_insertionSort]
  exact List.perm_insertionSort _ es

theorem pairwise_sortEntries (es : List CodeEntry) : (sortEntries es).Pairwise fun a b => a.le b = true := by
  have : Std.Total fun a b : CodeEntry => a.le b = true := ⟨CodeEntry.le_total⟩
  have : IsTrans CodeEntry fun a b => a.le b = true := ⟨fun _ _ _ => CodeEntry.le_trans⟩
  rw [sortEntries_eq_insertionSort]
  exact List.pairwise_insertionSort _ es

/-- Entries whose codes rise strictly are the sort of any arrangement of them. -/
theorem sortEntries_of_perm (hperm : es.Perm fs) (hrising : fs.Pairwise fun a b => a.code < b.code) :
    sortEntries es = fs := by
  have hdistinct : (fs.map CodeEntry.code).Nodup := List.pairwise_map.2 (hrising.imp Nat.ne_of_lt)
  have hperm' : (sortEntries es).Perm fs := (perm_sortEntries es).trans hperm
  refine List.Perm.eq_of_pairwise (fun a b ha hb hab hba => ?_) (pairwise_sortEntries es)
    (hrising.imp fun hlt => CodeEntry.le_iff.2 (.inl hlt)) hperm'
  refine List.inj_on_of_nodup_map hdistinct (hperm'.subset ha) hb ?_
  rw [CodeEntry.le_iff] at hab hba
  omega

end Sorting

/-! ### HFROMENT: the table of the entries (R270, R271) -/

section FromEntries

variable {t : HuffSlot} {es : List CodeEntry} {counts : List Nat}

theorem map_code_tableEntriesOf (hwf : t.wf = true) :
    (tableEntriesOf t).map (fun e => (e.code, e.len)) = canonicalCodes t.counts := by
  rw [← HuffSlot.table_map_snd hwf, tableEntriesOf, List.map_map]
  rfl

theorem map_sym_tableEntriesOf (hwf : t.wf = true) : (tableEntriesOf t).map CodeEntry.sym = t.syms := by
  rw [← HuffSlot.table_map_fst hwf, tableEntriesOf, List.map_map]
  rfl

theorem pairwise_tableEntriesOf (hwf : t.wf = true) :
    (tableEntriesOf t).Pairwise fun a b => a.code < b.code := by
  have hcodes := pairwise_canonicalFrom t.counts 1 0
  rw [← canonicalCodes, ← map_code_tableEntriesOf hwf] at hcodes
  exact (List.pairwise_map (f := fun e : CodeEntry => (e.code, e.len))).1 hcodes

theorem inRange_of_mem_tableEntriesOf (hwf : t.wf = true) {e : CodeEntry} (he : e ∈ tableEntriesOf t) :
    e.inRange = true := by
  obtain ⟨x, hx, rfl⟩ := List.mem_map.1 he
  exact decide_eq_true (HuffSlot.code_bounds hwf hx)

/-- The lengths of canonical codes are counted by their histogram (R271). -/
theorem lengthCounts_of_codes (hcodes : es.map (fun e => (e.code, e.len)) = canonicalCodes counts)
    (hlen : counts.length = 16) : lengthCounts es = counts := by
  have hcount (i : Nat) : (es.filter fun e => e.len == i + 1).length =
      (canonicalFrom counts 1 0).countP fun c => c.2 == 1 + i := by
    rw [← canonicalCodes, ← hcodes, List.countP_map, List.countP_eq_length_filter, Nat.add_comm i]
    rfl
  rw [lengthCounts, funext hcount, ← hlen]
  exact countP_canonicalFrom counts 1 0

theorem counts_histOf (hlen : counts.length = 16) (hbytes : ∀ h ∈ counts, h ≤ 255) (syms : List Byte) :
    HuffSlot.counts ⟨histOf (counts.map (BitVec.ofNat 8)), syms⟩ = counts := by
  rw [HuffSlot.counts, histOf_toList (by rw [List.length_map, hlen]), List.map_map]
  refine (List.map_congr_left fun h hh => ?_).trans (List.map_id counts)
  exact Nat.mod_eq_of_lt (Nat.lt_succ_of_le (hbytes h hh))

theorem map_ofNat_counts (t : HuffSlot) : t.counts.map (BitVec.ofNat 8) = t.hist.toList := by
  rw [HuffSlot.counts, List.map_map]
  exact List.map_id'' (fun b => BitVec.ofNat_toNat ..) _

/-- Entries with the codes of a histogram are the entries of a slot with that histogram (R270). -/
theorem exists_table_of_codes (hmax : es.length ≤ 256) (hlen : counts.length = 16) (hbytes : ∀ h ∈ counts, h ≤ 255)
    (htree : buildTreeOk counts = true) (hcodes : es.map (fun e => (e.code, e.len)) = canonicalCodes counts) :
    ∃ t : HuffSlot, t.wf = true ∧ t.counts = counts ∧ tableEntriesOf t = es := by
  have hcounts := counts_histOf hlen hbytes (es.map CodeEntry.sym)
  refine ⟨_, HuffSlot.wf_iff.2 ⟨?_, ?_, ?_⟩, hcounts, ?_⟩
  · rw [hcounts]
    have hnum := congrArg List.length hcodes
    rw [canonicalCodes, length_canonicalFrom, List.length_map] at hnum
    rwa [List.length_map]
  · rwa [List.length_map]
  · rwa [hcounts]
  · rw [tableEntriesOf, HuffSlot.table, hcounts, ← hcodes, List.zip_map', List.map_map]
    exact List.map_id es

/-- Entries in any order make the body of the table whose entries they are, and there is no other body (R270, R271). -/
theorem bodyOfEntries_eq_ok (hmax : es.length ≤ 256) {body : List Byte} :
    bodyOfEntries es = .ok body ↔ ∃ t : HuffSlot, t.wf = true ∧ es.Perm (tableEntriesOf t) ∧ body = tableBody t := by
  simp only [bodyOfEntries, Res.bind_eq_ok, require_eq_ok, List.all_eq_true, decide_eq_true_eq, Bool.and_eq_true,
    beq_iff_eq, pure, Except.pure, Except.ok.injEq]
  constructor
  · rintro ⟨-, -, -, hbytes, -, ⟨htree, hcodes⟩, rfl⟩
    have hperm := perm_sortEntries es
    obtain ⟨t, hwf, hcounts, hentries⟩ := exists_table_of_codes (hperm.length_eq.trans_le hmax)
      (by simp [lengthCounts]) hbytes htree hcodes
    refine ⟨t, hwf, hentries ▸ hperm.symm, ?_⟩
    rw [tableBody, ← hcounts, map_ofNat_counts, ← hentries, map_sym_tableEntriesOf hwf]
  · rintro ⟨t, hwf, hperm, rfl⟩
    obtain ⟨-, -, htree⟩ := HuffSlot.wf_iff.1 hwf
    have hsort := sortEntries_of_perm hperm (pairwise_tableEntriesOf hwf)
    have hcodes := map_code_tableEntriesOf hwf
    have hcounts := lengthCounts_of_codes hcodes HuffSlot.length_counts
    rw [hsort, hcounts]
    refine ⟨(), fun e he => ?_, (), fun h hh => ?_, (), ⟨htree, hcodes⟩, ?_⟩
    · exact inRange_of_mem_tableEntriesOf hwf (hperm.subset he)
    · obtain ⟨b, -, rfl⟩ := List.mem_map.1 hh
      exact Nat.le_of_lt_succ b.isLt
    · rw [map_ofNat_counts, map_sym_tableEntriesOf hwf, tableBody]

theorem bodyOfEntries_eq_error {e : Stop} (h : bodyOfEntries es = .error e) :
    e = .raise ⟨.contractViolation, 9⟩ [] := by
  simp only [bodyOfEntries, Res.bind_eq_error, require_eq_error] at h
  obtain ⟨-, rfl⟩ | ⟨-, -, ⟨-, rfl⟩ | ⟨-, -, ⟨-, rfl⟩ | ⟨-, -, h⟩⟩⟩ := h
  · rfl
  · rfl
  · rfl
  · cases h

theorem length_tableBody (t : HuffSlot) : (tableBody t).length = 16 + t.syms.length := by
  rw [tableBody, List.length_append, Vector.length_toList]

end FromEntries

theorem exec_hfroment (ra rb rc : Reg) (s : State) : exec (.hfroment ra rb rc) s = execHfroment ra rb rc s := rfl

/-- Settles O36: HFROMENT stores exactly the bodies of tables, and refuses other entries before it stores anything. -/
theorem tableFromEntries : Obligations.TableFromEntries := by
  intro ra rb rc s es hcount hmax hrange hmem hdisjoint
  have hread : s.readBytes (s.getXNat rb) (4 * es.length) = .ok (es.flatMap entryBytes) :=
    State.readBytes_eq_ok.2 ⟨length_flatMap_entryBytes es, hmem⟩
  have hexec : exec (.hfroment ra rb rc) s = finish s (bodyOfEntries es >>= fun body =>
      s.storeBytes (s.getXNat ra) body >>= fun t => .ok (t.setX ra (u32 (16 + es.length)))) := by
    simp only [exec_hfroment, execHfroment, hcount, decide_eq_true hmax, require_true, requireDisjoint_ok hdisjoint,
      Res.ok_bind, hread, entriesOf_flatMap hrange]
    rfl
  refine ⟨fun h hwf hperm hroom => ?_, fun hnone => ?_⟩
  · have hbody := (bodyOfEntries_eq_ok hmax).2 ⟨h, hwf, hperm, rfl⟩
    have hlen : (tableBody h).length = 16 + es.length := by
      rw [length_tableBody, ← map_sym_tableEntriesOf hwf, List.length_map, hperm.length_eq]
    have hfits : s.RoomFor (s.getXNat ra) (tableBody h) := .inr (by omega)
    rw [hexec, hbody, Res.ok_bind, State.storeBytes_eq_ok.2 ⟨hfits, rfl⟩, Res.ok_bind]
    refine ⟨_, rfl, State.holds_of_write hfits (by simp) (by simp), State.regIs_setX _ ra _, ?_⟩
    exact (hlen ▸ ((Effect.refl s ..).putMem fun _ => id).setX List.mem_cons_self).advanced (by simp)
  · rw [hexec]
    cases hbody : bodyOfEntries es with
    | ok body =>
      obtain ⟨h, hwf, hperm, -⟩ := (bodyOfEntries_eq_ok hmax).1 hbody
      exact absurd hperm (hnone h hwf)
    | error e =>
      rw [bodyOfEntries_eq_error hbody]
      exact finish_raise rfl

end Sys2Proof.Machine
end

section
/-! SUPPORT. The LZW commands (O38, O39). LZWENC checks its mode and its indices, and then its codes are put and committed as any
bits are. For the round trip the encoder's state is followed code by code beside the decoder's: the table of the encoder is
what the decoder's will be once it has learned from the code of the pending string. -/

namespace Sys2Proof.Machine

-- A proof that waits for the kernel holds a thread, and the check's memory bounds their number: with this option the
-- proofs below are elaborated one after another. No variable is named in a proof alone, so the statements stay the same.
set_option deprecated.oldSectionVars true

/-! ### LZWENC -/

section Indices

variable {s : State} {m a : Nat} {left : List Leftover} {indices : List Byte}

/-- Indices below `clear` that stand in MEM are read (R310). -/
theorem lzwIndices_ok (hmem : s.holds a indices = true) (hlegal : ∀ v ∈ indices, v.toNat < lzwClear m) :
    lzwIndices s m left a indices.length = .ok indices := by
  induction indices generalizing a with
  | nil => rfl
  | cons v indices ih =>
    obtain ⟨hread, hrest⟩ := State.readByte_of_holds hmem
    obtain ⟨hv, hlegal⟩ := List.forall_mem_cons.1 hlegal
    rw [List.length_cons, lzwIndices, hread, leaving_ok, Res.ok_bind, decide_eq_true hv, require_true, Res.ok_bind,
      ih hrest hlegal]
    rfl

/-- The first index of `clear` or more is refused, and leaves nothing (R310, log entry 22). -/
theorem lzwIndices_refused (hmem : s.holds a indices = true) (hbad : ∃ v ∈ indices, lzwClear m ≤ v.toNat) :
    lzwIndices s m left a indices.length = .error (.raise ⟨.contractViolation, 10⟩ []) := by
  induction indices generalizing a with
  | nil => simp at hbad
  | cons v indices ih =>
    obtain ⟨hread, hrest⟩ := State.readByte_of_holds hmem
    rw [List.length_cons, lzwIndices, hread, leaving_ok, Res.ok_bind]
    by_cases hv : v.toNat < lzwClear m
    · have hbad' : ∃ v ∈ indices, lzwClear m ≤ v.toNat := by simpa [Nat.not_le.2 hv] using hbad
      rw [decide_eq_true hv, require_true, Res.ok_bind, ih hrest hbad', Res.error_bind]
    · rw [decide_eq_false hv, require_false, Res.error_bind]
      rfl

end Indices

theorem Packer.putAll_nacc_lt {k : Packer} (h : k.nacc < 8) (codes : List (Nat × Nat)) : (k.putAll codes).nacc < 8 := by
  unfold Packer.putAll
  induction codes generalizing k with
  | nil => exact h
  | cons c codes ih => exact ih (Packer.putBits_nacc_lt h c.1 c.2)

theorem State.packer_order_lsb {s : State} (h : (s.getCsr .bwMode).getLsbD 0 = true) : s.packer.order = .lsb := by
  simp only [State.packer, orderOfMode, h, if_true]

theorem exec_lzwenc (rb rc : Reg) (m : BitVec 4) (s : State) : exec (.lzwenc rb rc m) s = execLzwenc rb rc m s := rfl

/-- LSB-first without stuffing, LZWENC is the check of the indices and then the commit of their codes (R310). -/
theorem execLzwenc_lsb {rb rc : Reg} {m : BitVec 4} {s : State} (hmode : s.getCsr .bwMode = 1)
    (hdisjoint : Region.overlaps ⟨s.getXNat rb, s.getXNat rc⟩ s.writeRegion = false) :
    execLzwenc rb rc m s = finish s
      (lzwIndices s m.toNat (s.writerLeft (12 * (2 * s.getXNat rc + 3))) (s.getXNat rb) (s.getXNat rc) >>= fun indices =>
        leaving (s.writerLeft (12 * (2 * s.getXNat rc + 3)))
          (s.commit (s.packer.putAll (lzwEncode m.toNat indices)))) := by
  have horder : s.packer.order = .lsb := State.packer_order_lsb (by rw [hmode]; rfl)
  have hstuff : s.packer.stuff = false := by simp [State.packer, hmode]
  simp only [execLzwenc, horder, hstuff, beq_self_eq_true, Bool.not_false, require_true, leaving_ok,
    requireDisjoint_ok hdisjoint, Res.ok_bind]

/-- Settles O38: the mode is checked first and then all the indices, so the codes are put and committed as any bits are. -/
theorem lzwEncoding : Obligations.LzwEncoding := by
  intro rb rc m s indices hs _ _ hlen hmem hdisjoint k
  rw [← hlen] at hdisjoint
  refine ⟨fun hmode hlegal hfits => ?_, fun hmode hbad => ?_, fun hmode => ?_, fun hmode => ?_⟩
  · have hnacc : k.nacc < 8 := Packer.putAll_nacc_lt hs.packer_nacc_lt _
    obtain ⟨t, hcommit, hpc, hdone, heffect⟩ := State.commit_of_fits [] hnacc hfits
    rw [exec_lzwenc, execLzwenc_lsb hmode hdisjoint, hlen, lzwIndices_ok hmem hlegal, Res.ok_bind, hcommit, leaving_ok]
    exact ⟨_, rfl, hdone.congr rfl rfl rfl, heffect.advanced hpc⟩
  · rw [exec_lzwenc, execLzwenc_lsb hmode hdisjoint, hlen, lzwIndices_refused hmem hbad, Res.error_bind]
    exact finish_raise rfl
  · have horder : (s.packer.order == .lsb) = false := by simp only [State.packer, orderOfMode, hmode]; rfl
    simp only [exec_lzwenc, execLzwenc, horder, require_false, leaving_raise, Res.error_bind]
    exact finish_raise_leaving rfl (s.writerLeft_within _)
  · have horder : s.packer.order = .lsb := State.packer_order_lsb (by rw [hmode]; rfl)
    have hstuff : s.packer.stuff = true := by simp [State.packer, hmode]
    simp only [exec_lzwenc, execLzwenc, horder, hstuff, beq_self_eq_true, Bool.not_true, require_true, require_false,
      leaving_ok, leaving_raise, Res.ok_bind, Res.error_bind]
    exact finish_raise_leaving rfl (s.writerLeft_within _)

/-! ### Widths and the bits of a code -/

section Codes

theorem valueOf_lsb_bitsOf (v n : Nat) : valueOf .lsb (bitsOf .lsb v n) = v % 2 ^ n := by
  induction n generalizing v with
  | zero => simp [bitsOf, valueOf, Nat.mod_one]
  | succ n ih =>
    have hcons : bitsOf .lsb v (n + 1) = v.testBit 0 :: bitsOf .lsb (v / 2) n := by
      simp [bitsOf, List.range_succ_eq_map, Nat.testBit_succ, Function.comp_def]
    rw [hcons, valueOf, ih, Nat.toNat_testBit, Nat.pow_zero, Nat.div_one, Nat.pow_succ', Nat.mod_mul]

/-- No width is 0, so every code takes bits of the stream (R301). -/
theorem lzwWidth_pos (m size : Nat) : 0 < lzwWidth m size := by
  unfold lzwWidth Config.lzwMaxWidth
  omega

/-- Every code up to the one-ahead code fits the width it is read at (R301). -/
theorem lt_two_pow_lzwWidth {m size c : Nat} (hsize : c ≤ size) (hmax : c < Config.lzwMaxEntries) :
    c < 2 ^ lzwWidth m size := by
  unfold lzwWidth
  rcases min_choice Config.lzwMaxWidth (max (m + 1) (bitlen size)) with h | h
  · rw [h]; exact hmax
  · rw [h]
    calc c ≤ size := hsize
      _ < 2 ^ bitlen size := lt_two_pow_bitlen size
      _ ≤ 2 ^ max (m + 1) (bitlen size) := Nat.pow_le_pow_right (by decide) (le_max_right _ _)

/-- The first width (R301). -/
theorem lzwWidth_clear {m : Nat} (hm : 2 ≤ m) (hm' : m ≤ 8) : lzwWidth m (lzwClear m + 2) = m + 1 := by
  have hpow : 2 ^ 2 ≤ 2 ^ m := Nat.pow_le_pow_right (by decide) hm
  have hbits : bitlen (lzwClear m + 2) ≤ m + 1 := bitlen_le (by unfold lzwClear; rw [Nat.pow_succ]; omega)
  unfold lzwWidth Config.lzwMaxWidth
  omega

theorem lzwClear_le {m : Nat} (hm : m ≤ 8) : lzwClear m ≤ 256 := Nat.pow_le_pow_right (by decide) hm

theorem bitString_append (order : BitOrder) (xs ys : List (Nat × Nat)) :
    bitString order (xs ++ ys) = bitString order xs ++ bitString order ys := List.flatMap_append

theorem bitString_singleton (order : BitOrder) (c w : Nat) : bitString order [(c, w)] = bitsOf order c w :=
  List.flatMap_singleton ..

/-- The bits of a code that stand next in the stream are read as that code (R302). -/
theorem Reader.readBits_code {rd : Reader} {s : State} {p c n : Nat} (horder : rd.order = .lsb) (hn : 0 < n)
    (hc : c < 2 ^ n) (h : rd.hasBits s p (bitsOf .lsb c n) = true) : rd.readBits s p n = .ok (c, p + n) := by
  have hne : bitsOf .lsb c n ≠ [] := List.ne_nil_of_length_pos (by rwa [length_bitsOf])
  have hread := Reader.readBits_of_hasBits hne h
  rwa [length_bitsOf, horder, valueOf_lsb_bitsOf, Nat.mod_eq_of_lt hc] at hread

end Codes

/-! ### The table of strings -/

section Table

variable {m c : Nat} {v w : LzwState} {str x : List Byte}

/-- The code names a string of the table (R300). -/
def LzwState.Names (m : Nat) (v : LzwState) (c : Nat) : Prop := c < lzwClear m ∨ lzwClear m + 2 ≤ c ∧ c < v.size m

theorem LzwState.Names.ne_clear (h : v.Names m c) : c ≠ lzwClear m ∧ c ≠ lzwClear m + 1 := by
  unfold LzwState.Names at h
  omega

theorem LzwState.Names.lt_size (h : v.Names m c) : c < v.size m := by
  unfold LzwState.Names LzwState.size at *
  omega

theorem LzwState.size_congr (h : w.added = v.added) : w.size m = v.size m := by
  rw [LzwState.size, h, LzwState.size]

theorem LzwState.entry_congr (h : w.added = v.added) : w.entry m c = v.entry m c := by
  rw [LzwState.entry, h, LzwState.entry]

theorem LzwState.entry_byte {b : Byte} (hb : b.toNat < lzwClear m) : v.entry m b.toNat = [b] := by
  rw [LzwState.entry, if_pos hb, BitVec.ofNat_toNat, BitVec.setWidth_eq]

theorem LzwState.size_push (h : w.added = v.added.push x) : w.size m = v.size m + 1 := by
  rw [LzwState.size, h, Array.size_push]
  rfl

/-- The next free code names the string added last. -/
theorem LzwState.entry_push_size (h : w.added = v.added.push x) : w.entry m (v.size m) = x := by
  rw [LzwState.entry, if_neg (by unfold LzwState.size; omega), h, LzwState.size, Nat.add_sub_cancel_left]
  simp

/-- A string that is added leaves the others under their codes. -/
theorem LzwState.entry_push (h : w.added = v.added.push x) (hc : v.Names m c) : w.entry m c = v.entry m c := by
  obtain hc | ⟨hlow, hhigh⟩ := hc
  · rw [LzwState.entry, if_pos hc, LzwState.entry, if_pos hc]
  · have hsize : c - (lzwClear m + 2) < v.added.size := by unfold LzwState.size at hhigh; omega
    simp [LzwState.entry, h, Array.getD_eq_getD_getElem?, Array.getElem?_push_lt hsize, hsize]

theorem LzwState.Names.push (hc : v.Names m c) (h : w.added = v.added.push x) : w.Names m c :=
  hc.imp_right fun ⟨hlow, hhigh⟩ => ⟨hlow, by rw [LzwState.size_push h]; omega⟩

theorem LzwState.names_push_size (h : w.added = v.added.push x) : w.Names m (v.size m) :=
  .inr ⟨Nat.le_add_right .., by rw [LzwState.size_push h]; exact Nat.lt_succ_self _⟩

/-- Without a previous code, no string is added (R303). -/
theorem LzwState.learn_none (h : v.prev = none) : v.learn m str = v := by
  rw [LzwState.learn, h]

/-- After a previous code, its string with the first index of this one is added while there is room (R303). -/
theorem LzwState.learn_some {q : List Byte} (h : v.prev = some q) (hroom : v.size m < Config.lzwMaxEntries) :
    v.learn m str = { v with added := v.added.push (q ++ str.take 1) } := by
  rw [LzwState.learn, h]
  exact if_pos hroom

/-- Only the first index of a string tells what is added with it. -/
theorem LzwState.learn_append (h : str ≠ []) : v.learn m (str ++ x) = v.learn m str := by
  have htake : (str ++ x).take 1 = str.take 1 := by
    rw [List.take_append_of_le_length (List.length_pos_iff.2 h)]
  rw [LzwState.learn, htake, LzwState.learn]

theorem LzwState.learn_full (h : Config.lzwMaxEntries ≤ v.size m) : v.learn m str = v := by
  unfold LzwState.learn
  split
  · exact if_neg (Nat.not_lt.2 h)
  · rfl

/-- A code of the table after a code stood there before, or it is the one-ahead code after a previous one (R303). -/
theorem LzwState.names_learn (hc : (v.learn m str).Names m c) :
    v.Names m c ∧ (v.learn m str).entry m c = v.entry m c ∨
      c = v.size m ∧ ∃ q, v.prev = some q ∧ v.size m < Config.lzwMaxEntries ∧
        (v.learn m str).entry m c = q ++ str.take 1 := by
  by_cases hroom : v.size m < Config.lzwMaxEntries
  · cases hprev : v.prev with
    | none => rw [LzwState.learn_none hprev] at hc ⊢; exact .inl ⟨hc, rfl⟩
    | some q =>
      have hadded : (v.learn m str).added = v.added.push (q ++ str.take 1) := by rw [LzwState.learn_some hprev hroom]
      by_cases hsize : c = v.size m
      · exact .inr ⟨hsize, q, rfl, hroom, hsize ▸ LzwState.entry_push_size hadded⟩
      · have hold : v.Names m c := hc.imp_right fun ⟨hlow, hhigh⟩ => ⟨hlow, by
          rw [LzwState.size_push hadded] at hhigh; omega⟩
        exact .inl ⟨hold, LzwState.entry_push hadded hold⟩
  · rw [LzwState.learn_full (Nat.not_lt.1 hroom)] at hc ⊢
    exact .inl ⟨hc, rfl⟩

/-- Beside the strings, learning keeps everything. -/
theorem LzwState.learn_eq (m : Nat) (v : LzwState) (str : List Byte) :
    v.learn m str = { v with added := (v.learn m str).added } := by
  unfold LzwState.learn
  split
  · split <;> rfl
  · rfl

/-- The strings after learning depend on those before and on the previous one alone. -/
theorem LzwState.learn_congr (hadded : w.added = v.added) (hprev : w.prev = v.prev) :
    (w.learn m str).added = (v.learn m str).added := by
  unfold LzwState.learn
  rw [hprev, LzwState.size_congr hadded]
  split
  · split
    · rw [hadded]
    · exact hadded
  · exact hadded

theorem LzwState.Names.congr (hc : v.Names m c) (h : w.added = v.added) : w.Names m c := by
  rwa [LzwState.Names, LzwState.size_congr h]

end Table

/-! ### The decoder, code by code -/

section Decoder

variable {s : State} {job : LzwJob} {fuel p c : Nat} {v w : LzwState} {str : List Byte}

/-- The loop variables once a code is read up to cursor p (R303). -/
def LzwState.next (v : LzwState) (p : Nat) : LzwState := { v with pos := p, codes := v.codes + 1, first := false }

/-- The clear code empties the table (R303). -/
theorem lzwDecodeLoop_clear
    (hread : job.rd.readBits s v.pos (lzwWidth job.m (v.size job.m)) = .ok (lzwClear job.m, p)) :
    lzwDecodeLoop s job (fuel + 1) v = lzwDecodeLoop s job fuel { v.next p with added := #[], prev := none } := by
  rw [lzwDecodeLoop, hread, Res.ok_bind]
  simp [require_true, LzwState.next]

/-- A first code other than clear is a fault where the initial clear is required (R303). -/
theorem lzwDecodeLoop_first (hread : job.rd.readBits s v.pos (lzwWidth job.m (v.size job.m)) = .ok (c, p))
    (hfirst : v.first = true) (hc : c ≠ lzwClear job.m) (hclear : s.params.lzwRequireInitialClear = true) :
    lzwDecodeLoop s job (fuel + 1) v = .error (.raise ⟨.corruptStream, 4⟩ []) := by
  rw [lzwDecodeLoop, hread, Res.ok_bind]
  simp only [hfirst, bne_iff_ne.2 hc, hclear, Bool.and_self, Bool.not_true, require_false, Res.error_bind]
  rfl

/-- The end code ends the decode (R303). -/
theorem lzwDecodeLoop_end
    (hread : job.rd.readBits s v.pos (lzwWidth job.m (v.size job.m)) = .ok (lzwClear job.m + 1, p))
    (hfirst : v.first = false) :
    lzwDecodeLoop s job (fuel + 1) v = .ok ⟨v.out.reverse, v.indices, v.codes + 1, p⟩ := by
  rw [lzwDecodeLoop, hread, Res.ok_bind]
  simp [hfirst, require_true]

/-- A code of the table puts its string out (R303). -/
theorem lzwDecodeLoop_inTable (hread : job.rd.readBits s v.pos (lzwWidth job.m (v.size job.m)) = .ok (c, p))
    (hfirst : v.first = false) (hc : (v.next p).Names job.m c) (hstr : (v.next p).entry job.m c = str) :
    lzwDecodeLoop s job (fuel + 1) v =
      lzwEmit s job str ((v.next p).learn job.m str) >>= fun w => lzwDecodeLoop s job fuel { w with prev := some str } := by
  subst hstr
  obtain ⟨hclear, hend⟩ := hc.ne_clear
  rw [lzwDecodeLoop, hread, Res.ok_bind]
  simp only [hfirst, Bool.false_and, Bool.not_false, require_true, Res.ok_bind, if_neg hclear, if_neg hend]
  exact if_pos hc.lt_size

/-- The one-ahead code puts the previous string out with its own first index, and adds it (R303). -/
theorem lzwDecodeLoop_oneAhead {q : List Byte}
    (hread : job.rd.readBits s v.pos (lzwWidth job.m (v.size job.m)) = .ok (v.size job.m, p))
    (hfirst : v.first = false) (hq : v.prev = some q) (hstr : q ++ q.take 1 = str) :
    lzwDecodeLoop s job (fuel + 1) v =
      lzwEmit s job str { v.next p with added := v.added.push str } >>= fun w =>
        lzwDecodeLoop s job fuel { w with prev := some str } := by
  subst hstr
  have hclear : v.size job.m ≠ lzwClear job.m := by unfold LzwState.size; omega
  have hend : v.size job.m ≠ lzwClear job.m + 1 := by unfold LzwState.size; omega
  have hsize : LzwState.size job.m ⟨p, v.added, some q, false, v.out, v.indices, v.codes + 1⟩ = v.size job.m :=
    LzwState.size_congr rfl
  rw [lzwDecodeLoop, hread, Res.ok_bind]
  simp only [hfirst, Bool.false_and, Bool.not_false, require_true, Res.ok_bind, if_neg hclear, if_neg hend, hsize, lt_irrefl,
    if_false, hq, beq_self_eq_true, LzwState.next]

/-- A code of a string in the table that this string makes: the string is put out and becomes the previous one. A code at the
old size is the one-ahead case (R303). -/
theorem lzwDecodeLoop_string (hread : job.rd.readBits s v.pos (lzwWidth job.m (v.size job.m)) = .ok (c, p))
    (hfirst : v.first = false) (hprev : ∀ q ∈ v.prev, q ≠ []) (hc : ((v.next p).learn job.m str).Names job.m c)
    (hstr : ((v.next p).learn job.m str).entry job.m c = str)
    (hemit : lzwEmit s job str ((v.next p).learn job.m str) = .ok w) :
    lzwDecodeLoop s job (fuel + 1) v = lzwDecodeLoop s job fuel { w with prev := some str } := by
  obtain ⟨hold, hentry⟩ | ⟨hsize, q, hq, hroom, hentry⟩ := LzwState.names_learn hc
  · rw [lzwDecodeLoop_inTable hread hfirst hold (hentry.symm.trans hstr), hemit, Res.ok_bind]
  · obtain rfl : c = v.size job.m := hsize
    have hnew : str = q ++ str.take 1 := hstr.symm.trans hentry
    have htake : str.take 1 = q.take 1 := by
      rw [hnew]
      exact List.take_append_of_le_length (List.length_pos_iff.2 (hprev q hq))
    rw [htake] at hnew
    rw [LzwState.learn_some hq hroom, htake, ← hnew] at hemit
    rw [lzwDecodeLoop_oneAhead hread hfirst hq hnew.symm]
    exact congrArg (· >>= _) hemit

/-- The first n indices of a decode can be put out: a strict one has the capacity for them, and what it holds of them lies in
MEM (R303, R392). -/
def LzwJob.RoomFor (s : State) (job : LzwJob) (n : Nat) : Prop :=
  (job.strict = true → n ≤ job.cap) ∧ job.dst + min n job.cap ≤ s.memSize

theorem LzwJob.RoomFor.mono {k n : Nat} (h : job.RoomFor s n) (hk : k ≤ n) : job.RoomFor s k := by
  obtain ⟨hstrict, hmem⟩ := h
  exact ⟨fun ht => hk.trans (hstrict ht), by omega⟩

/-- v holds the indices done: those below the capacity are written, the others counted (R303, R392). -/
structure LzwState.Holds (job : LzwJob) (v : LzwState) (done : List Byte) : Prop where
  out : v.out.reverse = done.take job.cap
  indices : v.indices = done.length

/-- A string that there is room for is put out (R303, R392). -/
theorem lzwEmit_ok {done : List Byte} (hv : v.Holds job done) (hroom : job.RoomFor s (done ++ str).length) :
    ∃ w, lzwEmit s job str v = .ok w ∧ w.Holds job (done ++ str) ∧
      w = { v with out := w.out, indices := w.indices } := by
  induction str generalizing v done with
  | nil => exact ⟨v, rfl, by rwa [List.append_nil], rfl⟩
  | cons b str ih =>
    obtain ⟨hout, hindices⟩ := hv
    obtain ⟨hstrict, hmem⟩ := hroom
    rw [List.append_cons] at hstrict hmem ⊢
    rw [lzwEmit]
    by_cases hcap : v.indices < job.cap
    · have hput : LzwState.Holds job { v with out := b :: v.out, indices := v.indices + 1 } (done ++ [b]) := by
        refine ⟨?_, by simp [hindices]⟩
        rw [List.reverse_cons, hout, List.take_of_length_le (by omega), List.take_of_length_le (by simp; omega)]
      obtain ⟨w, hw, hholds, heq⟩ := ih hput ⟨hstrict, hmem⟩
      simp only [List.length_append, List.length_singleton] at hmem
      rw [if_pos hcap, State.checkRange_one (by omega), Res.ok_bind]
      exact ⟨w, hw, hholds, heq⟩
    · have hcount : LzwState.Holds job { v with indices := v.indices + 1 } (done ++ [b]) :=
        ⟨by rw [hout, List.take_append_of_le_length (by omega)], by simp [hindices]⟩
      obtain ⟨w, hw, hholds, heq⟩ := ih hcount ⟨hstrict, hmem⟩
      have hlax : ¬ job.strict = true := fun h => by
        have := hstrict h
        simp only [List.length_append, List.length_singleton] at this
        omega
      rw [if_neg hcap, if_neg hlax]
      exact ⟨w, hw, hholds, heq⟩

/-! ### What the decoder has read -/

/-- The loop variables at the start of `LzwDecode` (R303). -/
def LzwState.start (p : Nat) : LzwState := ⟨p, #[], none, true, [], 0, 0⟩

theorem lzwDecode_eq (s : State) (job : LzwJob) (p : Nat) :
    lzwDecode s job p = lzwDecodeLoop s job (8 * job.rd.len + 1) (.start p) := rfl

/-- A decoder begun at cursor start that finds these codes in the stream comes to v, with the indices done put out. -/
structure LzwState.Reached (s : State) (job : LzwJob) (start : Nat) (codes : List (Nat × Nat)) (done : List Byte)
    (v : LzwState) : Prop where
  run : job.rd.hasBits s start (bitString .lsb codes) = true → ∀ fuel,
    lzwDecodeLoop s job (fuel + codes.length) (.start start) = lzwDecodeLoop s job fuel v
  pos : v.pos = start + (bitString .lsb codes).length
  count : v.codes = codes.length
  count_le : codes.length ≤ (bitString .lsb codes).length
  holds : v.Holds job done

theorem LzwState.reached_start (s : State) (job : LzwJob) (p : Nat) : (LzwState.start p).Reached s job p [] [] :=
  ⟨fun _ _ => rfl, rfl, rfl, le_rfl, ⟨by simp [LzwState.start], rfl⟩⟩

/-- One more code: the decoder goes on from v to w when it reads the code at its own width. -/
theorem LzwState.Reached.step {start : Nat} {codes : List (Nat × Nat)} {done done' : List Byte}
    (h : v.Reached s job start codes done) (horder : job.rd.order = .lsb) (hsize : c ≤ v.size job.m)
    (hmax : c < Config.lzwMaxEntries) (hpos : w.pos = v.pos + lzwWidth job.m (v.size job.m)) (hcount : w.codes = v.codes + 1)
    (hholds : w.Holds job done')
    (hstep : job.rd.readBits s v.pos (lzwWidth job.m (v.size job.m)) = .ok (c, v.pos + lzwWidth job.m (v.size job.m)) →
      ∀ fuel, lzwDecodeLoop s job (fuel + 1) v = lzwDecodeLoop s job fuel w) :
    w.Reached s job start (codes ++ [(c, lzwWidth job.m (v.size job.m))]) done' where
  run hbits fuel := by
    rw [bitString_append, Reader.hasBits_append, Bool.and_eq_true, bitString_singleton, ← h.pos] at hbits
    obtain ⟨hbefore, hcode⟩ := hbits
    have hread := Reader.readBits_code horder (lzwWidth_pos ..) (lt_two_pow_lzwWidth hsize hmax) hcode
    rw [List.length_append, List.length_singleton, Nat.add_comm codes.length, ← Nat.add_assoc, h.run hbefore]
    exact hstep hread fuel
  pos := by rw [hpos, h.pos, bitString_append, bitString_singleton, List.length_append, length_bitsOf, Nat.add_assoc]
  count := by rw [hcount, h.count, List.length_append, List.length_singleton]
  count_le := by
    have hwidth := lzwWidth_pos job.m (v.size job.m)
    have hle := h.count_le
    rw [bitString_append, bitString_singleton, List.length_append, List.length_append, length_bitsOf, List.length_singleton]
    omega
  holds := hholds

/-- The clear code, read at the decoder's width. -/
theorem LzwState.Reached.clear {start : Nat} {codes : List (Nat × Nat)} {done : List Byte}
    (h : v.Reached s job start codes done) (horder : job.rd.order = .lsb) (hm : job.m ≤ 8) :
    ∃ w : LzwState, w.Reached s job start (codes ++ [(lzwClear job.m, lzwWidth job.m (v.size job.m))]) done ∧
      w.first = false ∧ w.added = #[] ∧ w.prev = none := by
  have hclear := lzwClear_le hm
  refine ⟨{ v.next (v.pos + lzwWidth job.m (v.size job.m)) with added := #[], prev := none }, ?_, rfl, rfl, rfl⟩
  refine h.step horder ?_ ?_ rfl rfl ⟨h.holds.out, h.holds.indices⟩ fun hread fuel => lzwDecodeLoop_clear hread
  · unfold LzwState.size; omega
  · unfold Config.lzwMaxEntries; omega

/-- The code of a string, read at the decoder's width: the string is put out. -/
theorem LzwState.Reached.string {start : Nat} {codes : List (Nat × Nat)} {done : List Byte}
    (h : v.Reached s job start codes done) (horder : job.rd.order = .lsb) (hfirst : v.first = false)
    (hprev : ∀ q ∈ v.prev, q ≠ []) (hsize : v.size job.m < Config.lzwMaxEntries)
    (hc : (v.learn job.m str).Names job.m c) (hstr : (v.learn job.m str).entry job.m c = str)
    (hroom : job.RoomFor s (done ++ str).length) :
    ∃ w : LzwState, w.Reached s job start (codes ++ [(c, lzwWidth job.m (v.size job.m))]) (done ++ str) ∧
      w.first = false ∧ w.added = (v.learn job.m str).added ∧ w.prev = some str := by
  have hle : c ≤ v.size job.m := by
    obtain ⟨hold, -⟩ | ⟨rfl, -⟩ := LzwState.names_learn hc
    · exact hold.lt_size.le
    · exact le_rfl
  set u := v.next (v.pos + lzwWidth job.m (v.size job.m))
  have hadded : (u.learn job.m str).added = (v.learn job.m str).added := LzwState.learn_congr rfl rfl
  have hlearn : u.learn job.m str = { u with added := (v.learn job.m str).added } := hadded ▸ LzwState.learn_eq job.m u str
  have hholds : (u.learn job.m str).Holds job done := hlearn ▸ ⟨h.holds.out, h.holds.indices⟩
  obtain ⟨w, hemit, hw, heq⟩ := lzwEmit_ok hholds hroom
  rw [hlearn] at heq
  refine ⟨{ w with prev := some str }, h.step horder hle (hle.trans_lt hsize) ?_ ?_ ⟨hw.out, hw.indices⟩
    fun hread fuel => ?_, ?_, ?_, rfl⟩
  · rw [heq]; rfl
  · rw [heq]; rfl
  · exact lzwDecodeLoop_string hread hfirst hprev (hc.congr hadded) ((LzwState.entry_congr hadded).trans hstr) hemit
  · rw [heq]; rfl
  · rw [heq]

end Decoder

/-! ### The encoder and its shadow of the decoder -/

section Encoder

variable {m p code : Nat} {c : Byte} {e : LzwEncoder} {v w : LzwState} {str : List Byte}

/-- The encoder once P ++ [c] has its code, where p is the code of P (R307). -/
def LzwEncoder.insert (e : LzwEncoder) (p : Nat) (c : Byte) : LzwEncoder :=
  { e with dict := (p, c, e.se) :: e.dict, se := e.se + 1 }

theorem lzwEncodeLoop_nil (m p : Nat) (e : LzwEncoder) : lzwEncodeLoop m [] p e = e.emit m p := rfl

theorem lzwEncodeLoop_found (h : e.dict.find p c = some code) (cs : List Byte) :
    lzwEncodeLoop m (c :: cs) p e = lzwEncodeLoop m cs code e := by
  rw [lzwEncodeLoop, h]

theorem lzwEncodeLoop_insert (h : e.dict.find p c = none) (hse : e.se < Config.lzwMaxEntries) (cs : List Byte) :
    lzwEncodeLoop m (c :: cs) p e = lzwEncodeLoop m cs c.toNat ((e.emit m p).insert p c) := by
  rw [lzwEncodeLoop, h]
  exact congrArg _ (if_pos hse)

theorem lzwEncodeLoop_clear (h : e.dict.find p c = none) (hse : ¬ e.se < Config.lzwMaxEntries) (cs : List Byte) :
    lzwEncodeLoop m (c :: cs) p e = lzwEncodeLoop m cs c.toNat ((e.emit m p).emitClear m) := by
  rw [lzwEncodeLoop, h]
  exact congrArg _ (if_neg hse)

/-- What is found stands in the dictionary under its string. -/
theorem LzwDict.mem_of_find {dict : LzwDict} (h : dict.find p c = some code) : (p, c, code) ∈ dict := by
  obtain ⟨x, hx, rfl⟩ := Option.map_eq_some_iff.1 h
  have hmem := List.mem_of_find?_eq_some hx
  have heq := List.find?_some hx
  simp only [Bool.and_eq_true, beq_iff_eq] at heq
  obtain ⟨rfl, rfl⟩ := heq
  exact hmem

/-- The encoder's shadow of the decoder is right: sd is its size, and hp tells whether it has a previous code (R307). -/
structure LzwEncoder.Shadows (m : Nat) (e : LzwEncoder) (v : LzwState) : Prop where
  first : v.first = false
  sd : e.sd = v.size m
  hp : e.hp = v.prev.isSome
  prev : ∀ q ∈ v.prev, q ≠ []

/-- The string str is pending under the code p: the encoder's table is the decoder's as it will be when it has learned from
the code of str, and each code of the dictionary names the same string there (R309). -/
structure LzwEncoder.Pending (m : Nat) (e : LzwEncoder) (v : LzwState) (p : Nat) (str : List Byte) : Prop
    extends e.Shadows m v where
  room : v.size m < Config.lzwMaxEntries
  nonempty : str ≠ []
  se : e.se = (v.learn m str).size m
  names : (v.learn m str).Names m p
  entry : (v.learn m str).entry m p = str
  dict : ∀ x ∈ e.dict, (v.learn m str).Names m x.1 ∧ (v.learn m str).Names m x.2.2 ∧
    (v.learn m str).entry m x.2.2 = (v.learn m str).entry m x.1 ++ [x.2.1]

/-- After a clear code any index can be pending (R307). -/
theorem LzwEncoder.pending_reset (hm : m ≤ 8) (hfirst : v.first = false) (hadded : v.added = #[]) (hprev : v.prev = none)
    (hc : c.toNat < lzwClear m) : (e.reset m).Pending m v c.toNat [c] := by
  have hsize : v.size m = lzwClear m + 2 := by rw [LzwState.size, hadded]; rfl
  have hclear := lzwClear_le hm
  have hlearn : v.learn m [c] = v := LzwState.learn_none hprev
  have hshadow : (e.reset m).Shadows m v := ⟨hfirst, hsize.symm, by rw [hprev]; rfl, by simp [hprev]⟩
  refine ⟨hshadow, ?_, by simp, ?_, .inl hc, LzwState.entry_byte hc, List.forall_mem_nil _⟩
  · rw [hsize]; unfold Config.lzwMaxEntries; omega
  · rw [hlearn, hsize]; rfl

/-- When the dictionary has the pending string with the next index added, that string becomes pending (R307). -/
theorem LzwEncoder.Pending.extend (h : e.Pending m v p str) (hfind : e.dict.find p c = some code) :
    e.Pending m v code (str ++ [c]) := by
  have hlearn : v.learn m (str ++ [c]) = v.learn m str := LzwState.learn_append h.nonempty
  obtain ⟨-, hcode, hentry⟩ := h.dict _ (LzwDict.mem_of_find hfind)
  refine ⟨h.toShadows, h.room, by simp, ?_, ?_, ?_, ?_⟩
  · rw [hlearn]; exact h.se
  · rw [hlearn]; exact hcode
  · rw [hlearn, hentry, h.entry]
  · rw [hlearn]; exact h.dict

/-- The shadow after the code of the pending string (R307). -/
theorem LzwEncoder.Pending.emit_sd (h : e.Pending m v p str) : (e.emit m p).sd = (v.learn m str).size m := by
  have hsd : (e.emit m p).sd = if e.hp && decide (e.sd < Config.lzwMaxEntries) then e.sd + 1 else e.sd := rfl
  rw [hsd, h.hp, h.sd, decide_eq_true h.room, Bool.and_true]
  cases hprev : v.prev with
  | none => rw [LzwState.learn_none hprev]; rfl
  | some q =>
    have hpush : (v.learn m str).added = v.added.push (q ++ str.take 1) := by rw [LzwState.learn_some hprev h.room]
    rw [LzwState.size_push hpush]
    rfl

/-- A string that got the next code leaves its last index pending (R307). -/
theorem LzwEncoder.Pending.insert (h : e.Pending m v p str) (hw : (e.emit m p).Shadows m w)
    (hadded : w.added = (v.learn m str).added) (hprev : w.prev = some str) (hse : e.se < Config.lzwMaxEntries)
    (hc : c.toNat < lzwClear m) : ((e.emit m p).insert p c).Pending m w c.toNat [c] := by
  have hsize : w.size m = e.se := (LzwState.size_congr hadded).trans h.se.symm
  have hroom : w.size m < Config.lzwMaxEntries := hsize ▸ hse
  have hpush : (w.learn m [c]).added = (v.learn m str).added.push (str ++ [c]) := by
    rw [LzwState.learn_some hprev hroom, hadded]; rfl
  have hnew : (w.learn m [c]).entry m e.se = str ++ [c] := h.se ▸ LzwState.entry_push_size hpush
  refine ⟨⟨hw.first, hw.sd, hw.hp, hw.prev⟩, hroom, by simp, ?_, .inl hc, LzwState.entry_byte hc, ?_⟩
  · rw [LzwState.size_push hpush, ← h.se]; rfl
  · refine List.forall_mem_cons.2 ⟨⟨h.names.push hpush, h.se ▸ LzwState.names_push_size hpush, ?_⟩, fun x hx => ?_⟩
    · exact hnew.trans (by rw [LzwState.entry_push hpush h.names, h.entry])
    · obtain ⟨hprefix, hcode, hentry⟩ := h.dict x hx
      refine ⟨hprefix.push hpush, hcode.push hpush, ?_⟩
      rw [LzwState.entry_push hpush hcode, LzwState.entry_push hpush hprefix, hentry]

end Encoder

/-! ### The round trip (R309) -/

section RoundTrip

variable {s : State} {job : LzwJob} {start p : Nat} {e : LzwEncoder} {v w : LzwState} {done str : List Byte}

/-- The code of the pending string gives the decoder that string. -/
theorem LzwEncoder.Pending.reached_emit (h : e.Pending job.m v p str) (hv : v.Reached s job start e.out.reverse done)
    (horder : job.rd.order = .lsb) (hroom : job.RoomFor s (done ++ str).length) :
    ∃ w : LzwState, w.Reached s job start (e.emit job.m p).out.reverse (done ++ str) ∧
      (e.emit job.m p).Shadows job.m w ∧ w.added = (v.learn job.m str).added ∧ w.prev = some str := by
  obtain ⟨w, hw, hfirst, hadded, hprev⟩ :=
    hv.string horder h.first h.prev h.room h.names h.entry hroom
  refine ⟨w, ?_, ⟨hfirst, ?_, by rw [hprev]; rfl, ?_⟩, hadded, hprev⟩
  · rw [← h.sd, ← List.reverse_cons] at hw
    exact hw
  · rw [h.emit_sd, LzwState.size_congr hadded]
  · rw [hprev]
    exact fun q hq => Option.some.inj hq ▸ h.nonempty

/-- The clear code empties the decoder's table as it resets the encoder. -/
theorem LzwEncoder.reached_emitClear (hv : v.Reached s job start e.out.reverse done) (hsd : e.sd = v.size job.m)
    (horder : job.rd.order = .lsb) (hm : job.m ≤ 8) :
    ∃ w : LzwState, w.Reached s job start (e.emitClear job.m).out.reverse done ∧
      w.first = false ∧ w.added = #[] ∧ w.prev = none := by
  obtain ⟨w, hw, hempty⟩ := hv.clear horder hm
  rw [← hsd, ← List.reverse_cons] at hw
  exact ⟨w, hw, hempty⟩

/-- What the loop of `LzwEncode` writes brings the decoder past all the indices it is given (R309). -/
theorem lzwEncodeLoop_reached (horder : job.rd.order = .lsb) (hm : job.m ≤ 8) {cs : List Byte}
    (hcs : ∀ c ∈ cs, c.toNat < lzwClear job.m) (h : e.Pending job.m v p str)
    (hv : v.Reached s job start e.out.reverse done) (hroom : job.RoomFor s (done ++ str ++ cs).length) :
    ∃ w : LzwState, w.Reached s job start (lzwEncodeLoop job.m cs p e).out.reverse (done ++ str ++ cs) ∧
      (lzwEncodeLoop job.m cs p e).Shadows job.m w := by
  induction cs generalizing e v p str done with
  | nil =>
    rw [List.append_nil] at hroom ⊢
    rw [lzwEncodeLoop_nil]
    obtain ⟨w, hw, hshadow, -⟩ := h.reached_emit hv horder hroom
    exact ⟨w, hw, hshadow⟩
  | cons c cs ih =>
    obtain ⟨hc, hcs⟩ := List.forall_mem_cons.1 hcs
    cases hfind : e.dict.find p c with
    | some code =>
      rw [lzwEncodeLoop_found hfind, List.append_cons, List.append_assoc done]
      rw [List.append_cons, List.append_assoc done] at hroom
      exact ih hcs (h.extend hfind) hv hroom
    | none =>
      rw [List.append_cons] at hroom ⊢
      obtain ⟨w, hw, hshadow, hadded, hprev⟩ := h.reached_emit hv horder (hroom.mono (by simp))
      by_cases hse : e.se < Config.lzwMaxEntries
      · rw [lzwEncodeLoop_insert hfind hse]
        exact ih hcs (h.insert hshadow hadded hprev hse hc) hw hroom
      · rw [lzwEncodeLoop_clear hfind hse]
        obtain ⟨u, hu, hfirst, hempty, hnone⟩ := LzwEncoder.reached_emitClear hw hshadow.sd horder hm
        exact ih hcs (LzwEncoder.pending_reset hm hfirst hempty hnone hc) hu hroom

/-- All that `LzwEncode` writes but the end code brings the decoder past all the indices (R307, R309). -/
theorem lzwEncode_reached (horder : job.rd.order = .lsb) (hm : job.m ≤ 8) {indices : List Byte}
    (hlegal : ∀ c ∈ indices, c.toNat < lzwClear job.m) (hroom : job.RoomFor s indices.length) :
    ∃ (codes : List (Nat × Nat)) (v : LzwState), v.Reached s job start codes indices ∧ v.first = false ∧
      lzwEncode job.m indices = codes ++ [(lzwClear job.m + 1, lzwWidth job.m (v.size job.m))] := by
  obtain ⟨v, hv, hfirst, hempty, hnone⟩ :=
    LzwEncoder.reached_emitClear (e := LzwEncoder.reset job.m ⟨[], 0, 0, false, []⟩)
      (LzwState.reached_start s job start) rfl horder hm
  cases indices with
  | nil =>
    refine ⟨_, v, hv, hfirst, ?_⟩
    rw [LzwState.size, hempty]
    rfl
  | cons c cs =>
    obtain ⟨hc, hcs⟩ := List.forall_mem_cons.1 hlegal
    obtain ⟨w, hw, hshadow⟩ := lzwEncodeLoop_reached horder hm hcs
      (LzwEncoder.pending_reset hm hfirst hempty hnone hc) hv hroom
    refine ⟨_, w, hw, hshadow.first, ?_⟩
    rw [← hshadow.sd, ← List.reverse_cons]
    rfl

/-- `LzwDecode` over what `LzwEncode` writes gives the indices back (R309). -/
theorem lzwDecode_lzwEncode (horder : job.rd.order = .lsb) (hm : job.m ≤ 8) {indices : List Byte}
    (hlegal : ∀ c ∈ indices, c.toNat < lzwClear job.m) (hroom : job.RoomFor s indices.length)
    (hbits : job.rd.hasBits s p (bitString .lsb (lzwEncode job.m indices)) = true) :
    lzwDecode s job p = .ok ⟨indices.take job.cap, indices.length, (lzwEncode job.m indices).length,
        p + (bitString .lsb (lzwEncode job.m indices)).length⟩ ∧
      (lzwEncode job.m indices).length ≤ (bitString .lsb (lzwEncode job.m indices)).length ∧
      p + (bitString .lsb (lzwEncode job.m indices)).length ≤ 0xFFFFFFFF := by
  obtain ⟨codes, v, hv, hfirst, hencode⟩ := lzwEncode_reached (start := p) horder hm hlegal hroom
  rw [hencode, bitString_append, bitString_singleton] at hbits ⊢
  have hwidth := lzwWidth_pos job.m (v.size job.m)
  have hclear := lzwClear_le hm
  have hcount := hv.count_le
  have hbound := Reader.hasBits_bound hbits (List.ne_nil_of_length_pos (by simp; omega))
  rw [Reader.hasBits_append, Bool.and_eq_true, ← hv.pos] at hbits
  obtain ⟨hbefore, hend⟩ := hbits
  have hfits : lzwClear job.m + 1 < 2 ^ lzwWidth job.m (v.size job.m) :=
    lt_two_pow_lzwWidth (by unfold LzwState.size; omega) (by unfold Config.lzwMaxEntries; omega)
  have hread := Reader.readBits_code horder hwidth hfits hend
  simp only [List.length_append, length_bitsOf, List.length_singleton] at hbound ⊢
  obtain ⟨fuel, hfuel⟩ : ∃ fuel, 8 * job.rd.len + 1 = fuel + 1 + codes.length :=
    ⟨8 * job.rd.len - codes.length, by omega⟩
  refine ⟨?_, by omega, hbound.2⟩
  rw [lzwDecode_eq, hfuel, hv.run hbefore, lzwDecodeLoop_end hread hfirst, hv.holds.out, hv.holds.indices, hv.count, hv.pos,
    Nat.add_assoc]

end RoundTrip

theorem exec_lzwdec (ra rc : Reg) (m : BitVec 4) (s : State) : exec (.lzwdec ra rc m) s = execLzwdec ra rc m s := rfl

/-- Settles O39: the decode over the encoder's codes answers the indices; a first code other than clear faults in its first
pass. -/
theorem lzwRoundTrip : Obligations.LzwRoundTrip := by
  intro ra rc m s hm hm' hmode hdisjoint
  have horder : s.reader.order = .lsb := by simp only [State.reader, hmode]; rfl
  refine ⟨fun indices hlegal hcap hmem hbits => ?_, fun c hc hclear hrequired hbits => ?_⟩
  · obtain ⟨hdecode, hcount, hend⟩ :=
      lzwDecode_lzwEncode (job := ⟨s.reader, m.toNat, s.getXNat ra, s.getXNat rc, true⟩)
        horder hm' hlegal ⟨fun _ => hcap, by dsimp only; omega⟩ hbits
    rw [List.take_of_length_le hcap] at hdecode
    dsimp only at hdecode hcount hend
    simp only [exec_lzwdec, execLzwdec, horder, beq_self_eq_true, require_true, leaving_ok, requireDisjoint_ok hdisjoint,
      Res.ok_bind, hdecode]
    refine ⟨_, rfl, ?_, ?_, ?_, ?_, Effect.advanced ?_ (by simp)⟩
    · exact State.holds_of_write (.inr hmem) (by simp) (by simp)
    · exact State.regIs_setX _ ra _
    · have haux := State.getCsrNat_setCsrNat_full ((s.putMem (s.getXNat ra) indices).setX ra (u32 indices.length))
        (c := .aux) (n := (lzwEncode m.toNat indices).length) (by omega) rfl
      rw [State.getCsrNat, State.advance_getCsr, State.getCsr_setCsr_of_ne _ _ (by decide)]
      exact haux
    · exact State.getCsrNat_setCsrNat_full _ (by omega) rfl
    · refine Effect.putMem (Effect.refl s ..) (fun _ => id) |>.setX ?_ |>.setCsr ?_ |>.setCsr ?_ <;> simp
  · have hread := Reader.readBits_code horder (n := m.toNat + 1) (Nat.succ_pos _) hc hbits
    rw [← lzwWidth_clear hm hm'] at hread
    have hdecode : lzwDecode s ⟨s.reader, m.toNat, s.getXNat ra, s.getXNat rc, true⟩ (s.getCsrNat .brPos) =
        .error (.raise ⟨.corruptStream, 4⟩ []) :=
      lzwDecodeLoop_first hread rfl hclear hrequired
    simp only [exec_lzwdec, execLzwdec, horder, beq_self_eq_true, require_true, leaving_ok, requireDisjoint_ok hdisjoint,
      Res.ok_bind, hdecode, leaving_raise, Res.error_bind]
    exact finish_raise_leaving rfl (by simp)

end Sys2Proof.Machine
end

section
/-! SUPPORT. The binary64 rounding (O45): a rounded value is the multiple of a power of two that is nearest to the quotient,
every other binary64 is such a multiple or nearer to 0, and so none is nearer. -/

namespace Sys2Proof.Machine

/-! ### Rounding a quotient to an integer -/

/-- The integer is the quotient or the next one, whichever is nearer, and the even one on a tie (R331). -/
theorem divNearestEven_cases (num den : Nat) :
    (divNearestEven num den = num / den ∧ 2 * (num % den) ≤ den ∧
      (2 * (num % den) = den → divNearestEven num den % 2 = 0)) ∨
    (divNearestEven num den = num / den + 1 ∧ den ≤ 2 * (num % den) ∧
      (2 * (num % den) = den → divNearestEven num den % 2 = 0)) := by
  simp only [divNearestEven]
  split_ifs <;> omega

theorem div_le_divNearestEven (num den : Nat) : num / den ≤ divNearestEven num den := by
  obtain ⟨h, -⟩ | ⟨h, -⟩ := divNearestEven_cases num den <;> omega

/-- No integer is nearer to num / den than `divNearestEven` is, and where another one is as near this one is even (R331). -/
theorem divNearestEven_nearest {num den : Nat} (hden : 0 < den) (k : Int) :
    (divNearestEven num den * den - num : Int).natAbs ≤ (k * den - num).natAbs ∧
      ((divNearestEven num den * den - num : Int).natAbs = (k * den - num).natAbs → k ≠ divNearestEven num den →
        divNearestEven num den % 2 = 0) := by
  have hr : num % den < den := Nat.mod_lt num hden
  have hnum : (num : Int) = (num / den : Nat) * den + (num % den : Nat) := by
    rw [mul_comm]; exact_mod_cast (Nat.div_add_mod num den).symm
  have hcases := divNearestEven_cases num den
  generalize divNearestEven num den = m at hcases ⊢
  obtain ⟨j, rfl⟩ : ∃ j : Int, k = (num / den : Nat) + j := ⟨k - (num / den : Nat), by omega⟩
  have hdist (i : Int) : ((num / den : Nat) + i) * den - num = i * den - (num % den : Nat) := by
    rw [hnum, add_mul]; omega
  have hbelow : j ≤ -1 → j * den ≤ -1 * den := fun h => Int.mul_le_mul_of_nonneg_right h (Int.natCast_nonneg den)
  have habove : 2 ≤ j → 2 * den ≤ j * den := fun h => Int.mul_le_mul_of_nonneg_right h (Int.natCast_nonneg den)
  have hj : j ≤ -1 ∨ j = 0 ∨ j = 1 ∨ 2 ≤ j := by omega
  rw [hdist j]
  obtain ⟨rfl, hhalf, htie⟩ | ⟨rfl, hhalf, htie⟩ := hcases
  · have h0 := hdist 0
    rw [add_zero] at h0
    rw [h0]
    obtain h | rfl | rfl | h := hj <;> omega
  · rw [Nat.cast_add_one, hdist 1]
    obtain h | rfl | rfl | h := hj <;> omega

/-! ### The fields of a rounded value -/

/-- The exponent step of the rounded value: below it the quotient has at most 53 bits. -/
def f64Shift (num den : Nat) : Nat := bitlen (num / den) - 53

/-- The rounded value as a multiple of 2 to the exponent step. -/
def f64Significand (num den : Nat) : Nat := divNearestEven num (den * 2 ^ f64Shift num den)

theorem two_pow_le_of_bitlen {n k : Nat} (h : k < bitlen n) : 2 ^ k ≤ n := by
  by_contra hlt
  exact absurd (bitlen_le (Nat.lt_of_not_le hlt)) (Nat.not_le.2 h)

/-- Above the least exponent step the quotient has all its 53 bits. -/
theorem quotient_bounds {num den : Nat} (hden : 0 < den) :
    num / (den * 2 ^ f64Shift num den) < 2 ^ 53 ∧
      (f64Shift num den = 0 ∨ den * 2 ^ (52 + f64Shift num den) ≤ num) := by
  have hlt := lt_two_pow_bitlen (num / den)
  refine ⟨?_, ?_⟩
  · rw [← Nat.div_div_eq_div_mul]
    refine Nat.div_lt_of_lt_mul (hlt.trans_le ?_)
    rw [← Nat.pow_add]
    exact Nat.pow_le_pow_right (by decide) (by unfold f64Shift; omega)
  · by_cases hs : f64Shift num den = 0
    · exact .inl hs
    · right
      rw [mul_comm]
      refine (Nat.le_div_iff_mul_le hden).1 (two_pow_le_of_bitlen ?_)
      unfold f64Shift at hs ⊢
      omega

theorem f64Significand_bounds {num den : Nat} (hden : 0 < den) :
    f64Significand num den ≤ 2 ^ 53 ∧ (f64Shift num den = 0 ∨ 2 ^ 52 ≤ f64Significand num den) := by
  obtain ⟨hquot, hlow⟩ := quotient_bounds (num := num) hden
  refine ⟨(divNearestEven_le ..).trans hquot, hlow.imp_right fun h => ?_⟩
  refine Nat.le_trans ?_ (div_le_divNearestEven num _)
  rw [Nat.le_div_iff_mul_le (by positivity)]
  calc 2 ^ 52 * (den * 2 ^ f64Shift num den) = den * 2 ^ (52 + f64Shift num den) := by rw [Nat.pow_add]; ring
    _ ≤ num := h

theorem f64RoundMag_zero (den : Nat) : f64RoundMag 0 den = 0 := by
  rw [f64RoundMag, if_pos rfl]

/-- Short of the infinity the magnitude bits are the exponent step and the significand, a carry included (R331). -/
theorem f64RoundMag_eq (num den : Nat) (hden : 0 < den) :
    f64RoundMag num den = min (f64Shift num den * 2 ^ 52 + f64Significand num den) f64InfBits := by
  by_cases hnum : num = 0
  · have hshift : f64Shift 0 den = 0 := by rw [f64Shift, Nat.zero_div]; rfl
    have hsig : f64Significand 0 den = 0 := by
      rw [f64Significand, hshift, divNearestEven, Nat.zero_div, Nat.zero_mod, if_pos (by omega)]
    rw [hnum, hshift, hsig, f64RoundMag_zero, Nat.zero_mul, Nat.zero_add, Nat.zero_min]
  · exact if_neg hnum

theorem f64RoundMag_le_inf (num den : Nat) : f64RoundMag num den ≤ f64InfBits := by
  simp only [f64RoundMag]
  split
  · exact Nat.zero_le _
  · exact Nat.min_le_right ..

theorem f64Neg_f64Round (neg : Bool) (num den : Nat) : f64Neg (f64Round neg num den) = neg := by
  rw [f64Neg, f64Round, BitVec.getLsbD_append]
  simp

theorem f64Exp_f64Round (neg : Bool) (num den : Nat) : f64Exp (f64Round neg num den) = f64RoundMag num den / 2 ^ 52 := by
  have hle := f64RoundMag_le_inf num den
  unfold f64InfBits at hle
  rw [f64Exp, f64Round, BitVec.extractLsb'_append_eq_of_add_le (by decide), BitVec.extractLsb'_toNat, BitVec.toNat_ofNat,
    Nat.shiftRight_eq_div_pow]
  omega

theorem f64Frac_f64Round (neg : Bool) (num den : Nat) : f64Frac (f64Round neg num den) = f64RoundMag num den % 2 ^ 52 := by
  rw [f64Frac, f64Round, BitVec.extractLsb'_append_eq_of_add_le (by decide), BitVec.extractLsb'_toNat, BitVec.toNat_ofNat,
    Nat.shiftRight_zero]
  omega

theorem getLsbD_zero_f64Round (neg : Bool) (num den : Nat) :
    (f64Round neg num den).getLsbD 0 = decide (f64RoundMag num den % 2 = 1) := by
  rw [f64Round, BitVec.getLsbD_append, if_pos (by decide), BitVec.getLsbD_ofNat, Nat.testBit_zero]
  rfl

theorem isFinite_iff (d : Binary64) : Binary64.isFinite d = true ↔ f64Exp d ≤ 2046 := by
  have hlt : f64Exp d < 2 ^ 11 := (d.extractLsb' 52 11).isLt
  rw [Binary64.isFinite, bne_iff_ne, ne_eq, ← BitVec.toNat_inj]
  change ¬ f64Exp d = 2047 ↔ _
  omega

/-- A rounded value is finite exactly when its magnitude bits are below those of the infinity (R331). -/
theorem isFinite_f64Round_iff {neg : Bool} {num den : Nat} :
    Binary64.isFinite (f64Round neg num den) = true ↔ f64RoundMag num den < f64InfBits := by
  refine ⟨fun h => ?_, f64Round_isFinite⟩
  rw [isFinite_iff, f64Exp_f64Round] at h
  unfold f64InfBits
  omega

theorem f64RoundMag_of_isFinite {neg : Bool} {num den : Nat} (hden : 0 < den)
    (hfinite : Binary64.isFinite (f64Round neg num den) = true) :
    f64RoundMag num den = f64Shift num den * 2 ^ 52 + f64Significand num den := by
  have hbits := f64RoundMag_eq num den hden
  have hlt := isFinite_f64Round_iff.1 hfinite
  omega

/-- The fields of the bits that an exponent step and a significand make. -/
theorem magnitude_of_bits {shift m : Nat} (hm : m ≤ 2 ^ 53) (hshift : shift = 0 ∨ 2 ^ 52 ≤ m) :
    (if (shift * 2 ^ 52 + m) / 2 ^ 52 = 0 then (shift * 2 ^ 52 + m) % 2 ^ 52
      else (2 ^ 52 + (shift * 2 ^ 52 + m) % 2 ^ 52) * 2 ^ ((shift * 2 ^ 52 + m) / 2 ^ 52 - 1)) = m * 2 ^ shift := by
  obtain hlow | hmid | rfl : m < 2 ^ 52 ∨ (2 ^ 52 ≤ m ∧ m < 2 ^ 53) ∨ m = 2 ^ 53 := by omega
  · obtain rfl : shift = 0 := by omega
    rw [if_pos (by omega), Nat.pow_zero]
    omega
  · rw [if_neg (by omega), show (shift * 2 ^ 52 + m) / 2 ^ 52 - 1 = shift by omega,
      show 2 ^ 52 + (shift * 2 ^ 52 + m) % 2 ^ 52 = m by omega]
  · rw [if_neg (by omega), show (shift * 2 ^ 52 + 2 ^ 53) / 2 ^ 52 - 1 = shift + 1 by omega,
      show 2 ^ 52 + (shift * 2 ^ 52 + 2 ^ 53) % 2 ^ 52 = 2 ^ 52 by omega, Nat.pow_succ]
    omega

/-- A finite rounded value is its significand times 2 to its exponent step (R331). -/
theorem f64Mag_f64Round {neg : Bool} {num den : Nat} (hden : 0 < den)
    (hfinite : Binary64.isFinite (f64Round neg num den) = true) :
    f64Mag (f64Round neg num den) = f64Significand num den * 2 ^ f64Shift num den := by
  obtain ⟨hm, hshift⟩ := f64Significand_bounds (num := num) hden
  rw [f64Mag, f64Exp_f64Round, f64Frac_f64Round, f64RoundMag_of_isFinite hden hfinite]
  exact magnitude_of_bits hm hshift

/-! ### No binary64 is nearer -/

/-- Beside the multiples of a power of two there are only values of less than 53 bits above it (R331). -/
theorem dvd_f64Mag_or_lt (d : Binary64) (shift : Nat) :
    2 ^ shift ∣ f64Mag d ∨ 0 < shift ∧ f64Mag d < 2 ^ (52 + shift) := by
  have hfrac : f64Frac d < 2 ^ 52 := (d.extractLsb' 0 52).isLt
  obtain rfl | hpos := Nat.eq_zero_or_pos shift
  · exact .inl (one_dvd _)
  unfold f64Mag
  split
  · exact .inr ⟨hpos, hfrac.trans_le (Nat.pow_le_pow_right (by decide) (by omega))⟩
  · by_cases hexp : shift ≤ f64Exp d - 1
    · exact .inl ((pow_dvd_pow 2 hexp).mul_left _)
    · refine .inr ⟨hpos, ?_⟩
      calc (2 ^ 52 + f64Frac d) * 2 ^ (f64Exp d - 1) < 2 ^ 53 * 2 ^ (f64Exp d - 1) :=
            Nat.mul_lt_mul_of_pos_right (by omega) (by positivity)
        _ = 2 ^ (53 + (f64Exp d - 1)) := (Nat.pow_add ..).symm
        _ ≤ 2 ^ (52 + shift) := Nat.pow_le_pow_right (by decide) (by omega)

theorem natAbs_f64Units (d : Binary64) : (f64Units d).natAbs = f64Mag d := by
  unfold f64Units
  split <;> simp

section Nearest

variable {num den : Nat} (hden : 0 < den)
include hden

/-- A multiple of 2 to the exponent step is not nearer to num / den than the rounded value. -/
theorem significand_nearest_multiple (k : Int) :
    (f64Significand num den * 2 ^ f64Shift num den * den - num : Int).natAbs ≤
        (k * 2 ^ f64Shift num den * den - num).natAbs ∧
      ((f64Significand num den * 2 ^ f64Shift num den * den - num : Int).natAbs =
          (k * 2 ^ f64Shift num den * den - num).natAbs → k ≠ f64Significand num den → f64Significand num den % 2 = 0) := by
  have hassoc (m : Int) : m * 2 ^ f64Shift num den * den = m * (den * 2 ^ f64Shift num den : Nat) := by push_cast; ring
  rw [hassoc, hassoc]
  exact divNearestEven_nearest (by positivity) k

/-- A value of fewer bits than the quotient is farther from it than 2^52 exponent steps, and so than the rounded value. -/
theorem significand_nearer_of_lt {v : Int} (hshift : 0 < f64Shift num den) (hv : v < 2 ^ (52 + f64Shift num den)) :
    (f64Significand num den * 2 ^ f64Shift num den * den - num : Int).natAbs < (v * den - num).natAbs := by
  have hnear := (significand_nearest_multiple hden (num := num) (2 ^ 52)).1
  have hlow : (2 ^ 52 * 2 ^ f64Shift num den * den : Int) ≤ num := by
    rw [← pow_add, mul_comm]
    exact_mod_cast (quotient_bounds hden).2.resolve_left hshift.ne'
  have hlt : v * den < 2 ^ 52 * 2 ^ f64Shift num den * den := by
    rw [← pow_add]
    exact Int.mul_lt_mul_of_pos_right hv (by exact_mod_cast hden)
  omega

/-- No binary64, here of magnitude |v|, is nearer to num / den than the rounded value, and where another one is as near the
significand of this one is even (R331). -/
theorem significand_nearest {v : Int} {d : Binary64} (hv : v.natAbs = f64Mag d) :
    (f64Significand num den * 2 ^ f64Shift num den * den - num : Int).natAbs ≤ (v * den - num).natAbs ∧
      ((f64Significand num den * 2 ^ f64Shift num den * den - num : Int).natAbs = (v * den - num).natAbs →
        v ≠ f64Significand num den * 2 ^ f64Shift num den → f64Significand num den % 2 = 0) := by
  obtain hdvd | ⟨hshift, hlt⟩ := dvd_f64Mag_or_lt d (f64Shift num den)
  · obtain ⟨k, rfl⟩ : (2 ^ f64Shift num den : Int) ∣ v := by
      rw [← hv] at hdvd
      exact_mod_cast Int.natCast_dvd.2 hdvd
    rw [mul_comm _ k]
    obtain ⟨hle, htie⟩ := significand_nearest_multiple hden (num := num) k
    exact ⟨hle, fun heq hne => htie heq fun hk => hne (by rw [hk])⟩
  · have hfar := significand_nearer_of_lt hden hshift (v := v) <| by
      have : (v.natAbs : Int) < 2 ^ (52 + f64Shift num den) := by rw [hv]; exact_mod_cast hlt
      omega
    exact ⟨hfar.le, fun heq => absurd heq hfar.ne⟩

end Nearest

/-- A finite rounded value is even where its significand is. -/
theorem even_f64Round {neg : Bool} {num den : Nat} (hden : 0 < den)
    (hfinite : Binary64.isFinite (f64Round neg num den) = true) (heven : f64Significand num den % 2 = 0) :
    (f64Round neg num den).getLsbD 0 = false := by
  rw [getLsbD_zero_f64Round, f64RoundMag_of_isFinite hden hfinite]
  exact decide_eq_false (by omega)

theorem f64Units_f64Round {neg : Bool} {num den : Nat} (hden : 0 < den)
    (hfinite : Binary64.isFinite (f64Round neg num den) = true) :
    f64Units (f64Round neg num den) =
      if neg then -(f64Significand num den * 2 ^ f64Shift num den : Int)
      else f64Significand num den * 2 ^ f64Shift num den := by
  rw [f64Units, f64Neg_f64Round, f64Mag_f64Round hden hfinite]
  push_cast
  rfl

/-- Distances are the same on both sides of 0. -/
theorem natAbs_neg_mul_sub (v : Int) (num den : Nat) : (-v * den - -(num : Int)).natAbs = (v * den - num).natAbs := by
  rw [← Int.natAbs_neg]
  congr 1
  ring

/-- Settles O45: the rounded value is the nearest multiple of 2 to its exponent step; a quotient below 0 is rounded as its
opposite is. -/
theorem roundsToNearestEven : Obligations.RoundsToNearestEven := by
  intro neg num den e hden hfinite _
  simp only [f64Units_f64Round hden hfinite]
  cases neg with
  | false =>
    obtain ⟨hle, htie⟩ := significand_nearest hden (num := num) (natAbs_f64Units e)
    exact ⟨hle, fun heq hne => even_f64Round hden hfinite (htie heq hne)⟩
  | true =>
    obtain ⟨hle, htie⟩ := significand_nearest hden (num := num) ((Int.natAbs_neg _).trans (natAbs_f64Units e))
    rw [← natAbs_neg_mul_sub, ← natAbs_neg_mul_sub, neg_neg] at hle htie
    exact ⟨hle, fun heq hne => even_f64Round hden hfinite (htie heq fun h => hne (by rw [if_pos rfl, ← h, neg_neg]))⟩

end Sys2Proof.Machine
end

section
/-! SUPPORT. The block transform commands but FDCT and IDCT (O40, O41, O42, O43, O44, O46). Most of them compute a block
element by element: `computeK` says once what such a command answers, and its first faulting element ends it. -/

namespace Sys2Proof.Machine

/-! ### Integers and bytes as samples, and samples as integers -/

/-- An integer of at most 32 bits is exact as a sample: its exponent step divides it (R351). -/
theorem f64Mag_f64OfInt {i : Int} (h : i.natAbs ≤ 2 ^ 31) : f64Mag (f64OfInt i) = i.natAbs * 2 ^ 1074 := by
  have hshift : f64Shift (i.natAbs * 2 ^ 1074) 1 ≤ 1074 := by
    have hbits := bitlen_le (scaled_lt h 1074)
    rw [f64Shift, Nat.div_one]
    omega
  have hdvd : 2 ^ f64Shift (i.natAbs * 2 ^ 1074) 1 ∣ i.natAbs * 2 ^ 1074 := (pow_dvd_pow 2 hshift).mul_left _
  rw [f64OfInt, f64Mag_f64Round Nat.one_pos (f64OfInt_isFinite h), f64Significand, Nat.one_mul, divNearestEven,
    Nat.mod_eq_zero_of_dvd hdvd, if_pos (by positivity)]
  exact Nat.div_mul_cancel hdvd

theorem f64Units_f64OfInt {i : Int} (h : i.natAbs ≤ 2 ^ 31) : f64Units (f64OfInt i) = i * 2 ^ 1074 := by
  have hsign : f64Neg (f64OfInt i) = decide (i < 0) := f64Neg_f64Round ..
  rw [f64Units, hsign, f64Mag_f64OfInt h, Nat.cast_mul, Nat.cast_pow, Nat.cast_ofNat]
  split
  · next hneg => rw [← neg_mul, Int.ofNat_natAbs_of_nonpos (of_decide_eq_true hneg).le, neg_neg]
  · next hneg => rw [Int.natAbs_of_nonneg (by simpa using hneg)]

theorem holdsInt_f64OfInt {i : Int} (h : i.natAbs ≤ 2 ^ 31) : HoldsInt (f64OfInt i) i := by
  refine ⟨f64OfInt_isFinite h, f64Units_f64OfInt h, ?_⟩
  rintro rfl
  rw [f64OfInt, Int.natAbs_zero, Nat.zero_mul]
  rfl

/-- Rounding half up, in steps of half a unit and of a whole one. -/
theorem roundUnits_natCast (m : Nat) : roundUnits m = ((m + 2 ^ 1073) / 2 ^ 1074 : Nat) := by
  rw [roundUnits, if_pos (Int.natCast_nonneg m), pow_succ' (2 : Int) 1073, pow_succ' (2 : Int) 1074, ← mul_add,
    Int.mul_ediv_mul_of_pos _ _ two_pos, Int.natCast_ediv, Nat.cast_add, Nat.cast_pow, Nat.cast_pow]
  rfl

theorem roundUnits_neg_natCast (m : Nat) : roundUnits (-m) = -roundUnits m := by
  obtain rfl | hpos := Nat.eq_zero_or_pos m
  · decide +kernel
  · rw [roundUnits, if_neg (by omega), neg_neg, roundUnits, if_pos (by omega)]

/-- The model's rounding is that of the value in units (R335). -/
theorem f64RoundInt_eq (d : Binary64) : f64RoundInt d = roundUnits (f64Units d) := by
  rw [f64RoundInt, f64Units]
  split
  · rw [roundUnits_neg_natCast, roundUnits_natCast]
  · rw [roundUnits_natCast]

theorem clampByte_eq (i : Int) : clampByte i = BitVec.ofInt 8 (min 255 (max 0 i)) := by
  rw [clampByte, ← BitVec.ofInt_natCast, Int.toNat_of_nonneg (by omega)]

theorem toInt32_of_fits {i : Int} (h : -2 ^ 31 ≤ i ∧ i ≤ 2 ^ 31 - 1) : toInt32 i = .ok (u32i i) := by
  rw [toInt32, inInt32, decide_eq_true h]; rfl

theorem toInt32_of_not_fits {i : Int} (h : ¬ (-2 ^ 31 ≤ i ∧ i ≤ 2 ^ 31 - 1)) :
    toInt32 i = .error (.raise ⟨.contractViolation, 16⟩ []) := by
  rw [toInt32, inInt32, decide_eq_false h]; rfl

/-- An integer in the range of a coefficient is the coefficient's value (R335). -/
theorem s32_u32i {i : Int} (h : -2 ^ 31 ≤ i ∧ i ≤ 2 ^ 31 - 1) : s32 (u32i i) = i := by
  rw [s32, u32i, BitVec.toInt_ofInt, Int.bmod_eq_of_le (by omega) (by omega)]

/-! ### Blocks -/

theorem blockAt_eq_getElem {α : Type} (v : Vector α 64) (d : α) {i : Nat} (hi : i < 64) : blockAt v i d = v[i] := by
  simp [blockAt, List.getD_eq_getElem?_getD, hi]

theorem block_ext {α : Type} {v w : Vector α 64} (d : α) (h : ∀ i, i < 64 → blockAt v i d = blockAt w i d) : v = w :=
  Vector.ext fun i hi => by simpa only [blockAt_eq_getElem _ d hi] using h i hi

/-- The first fault of an element ends the block (R493). -/
theorem collect_eq_error {α : Type} {f : Nat → Res α} {e : Stop} {i j k : Nat} (hj : j < k)
    (hbefore : ∀ l, l < j → ∃ a, f (i + l) = .ok a) (h : f (i + j) = .error e) : collect f i k = .error e := by
  induction k generalizing i j with
  | zero => omega
  | succ k ih =>
    cases j with
    | zero => rw [collect, show f i = .error e from h, Res.error_bind]
    | succ j =>
      obtain ⟨a, ha⟩ := hbefore 0 (Nat.succ_pos j)
      have hrest : collect f (i + 1) k = .error e := by
        refine ih (j := j) (by omega) (fun l hl => ?_) ?_
        · rw [Nat.add_assoc, Nat.add_comm 1]
          exact hbefore (l + 1) (by omega)
        · rw [Nat.add_assoc, Nat.add_comm 1]
          exact h
      rw [collect, show f i = .ok a from ha, Res.ok_bind, hrest, Res.error_bind]

theorem collectBlock_of_forall {α : Type} (d : α) {f : Nat → Res α} {g : Nat → α} (h : ∀ i, i < 64 → f i = .ok (g i)) :
    collectBlock d f = .ok (blockOf g) :=
  collectBlock_eq_ok.2 fun i hi => by rw [h i hi, blockAt_blockOf _ _ _ hi]

theorem collectBlock_eq_error {α : Type} (d : α) {f : Nat → Res α} {e : Stop} {i : Nat} (hi : i < 64)
    (hbefore : ∀ j, j < i → ∃ a, f j = .ok a) (h : f i = .error e) : collectBlock d f = .error e := by
  rw [collectBlock, collect_eq_error hi (by simpa using hbefore) (by simpa using h), Res.error_bind]

/-! ### Commands that compute K element by element -/

/-- A command that computes K, whatever its elements are, and leaves it unspecified on a fault. -/
def State.computeK (s : State) (f : Nat → Res Word) : Res State :=
  leaving [.kFile] do
    let block ← collectBlock 0 f
    return { s with kfile := block }

section ComputeK

variable {s : State} {f : Nat → Res Word}

theorem computeK_next {g : Nat → Word} (h : ∀ i, i < 64 → f i = .ok (g i)) :
    ∃ t, finish s (s.computeK f) = .next t ∧ (∀ i, i < 64 → blockAt t.kfile i 0 = g i) ∧
      Advanced [] [] [.kfile] [] s t := by
  rw [State.computeK, collectBlock_of_forall 0 h, Res.ok_bind]
  exact ⟨_, rfl, fun i hi => blockAt_blockOf g 0 i hi,
    (State.effect_setKfile List.mem_cons_self (blockOf g) s.draws).advanced rfl⟩

theorem computeK_fault {code : FaultCode} {aux : Word} {i : Nat} (hi : i < 64)
    (hbefore : ∀ j, j < i → ∃ a, f j = .ok a) (h : f i = .error (.raise ⟨code, aux⟩ [])) :
    ∃ t, finish s (s.computeK f) = .next t ∧ FaultLeaving code aux [] [.kfile] [] s t := by
  refine finish_raise_leaving (ps := [.kFile]) ?_ (by simp)
  rw [State.computeK, collectBlock_eq_error 0 hi hbefore h, Res.error_bind]
  rfl

/-- Integers computed for K are its elements when all of them are in range (R335). -/
theorem computeK_toInt32_next {v : Nat → Int} (hf : ∀ i, i < 64 → f i = toInt32 (v i))
    (h : ∀ i, i < 64 → -2 ^ 31 ≤ v i ∧ v i ≤ 2 ^ 31 - 1) :
    ∃ t, finish s (s.computeK f) = .next t ∧ (∀ i, i < 64 → s32 (blockAt t.kfile i 0) = v i) ∧
      Advanced [] [] [.kfile] [] s t := by
  obtain ⟨t, ht, hk, hadv⟩ := computeK_next (s := s) fun i hi => (hf i hi).trans (toInt32_of_fits (h i hi))
  exact ⟨t, ht, fun i hi => by rw [hk i hi, s32_u32i (h i hi)], hadv⟩

/-- The first of them that is out of range is ContractViolation(16) (R335). -/
theorem computeK_toInt32_fault {v : Nat → Int} (hf : ∀ i, i < 64 → f i = toInt32 (v i))
    (h : ∃ i, i < 64 ∧ ¬ (-2 ^ 31 ≤ v i ∧ v i ≤ 2 ^ 31 - 1)) :
    ∃ t, finish s (s.computeK f) = .next t ∧ FaultLeaving .contractViolation 16 [] [.kfile] [] s t := by
  obtain ⟨hi, hbad⟩ := Nat.find_spec h
  refine computeK_fault hi (fun j hj => ?_) ((hf _ hi).trans (toInt32_of_not_fits hbad))
  have hj' : j < 64 := hj.trans hi
  have hfits := not_and.1 (Nat.find_min h hj) hj'
  exact ⟨_, (hf j hj').trans (toInt32_of_fits (not_not.1 hfits))⟩

end ComputeK

/-! ### CVTKS and CVTSK -/

theorem exec_cvtsk (s : State) :
    exec .cvtsk s = finish s (s.computeK fun i => f64ToInt32 (blockAt s.sfile i 0)) := rfl

theorem f64ToInt32_eq (d : Binary64) : f64ToInt32 d = toInt32 (roundUnits (f64Units d)) := by
  rw [f64ToInt32, f64RoundInt_eq]

/-- A command that computes S element by element without a fault. -/
theorem setSfile_next (s : State) (f : Nat → Binary64) (draws : Nat) :
    ∃ t, finish s (.ok { s with sfile := blockOf f, draws := draws }) = .next t ∧
      (∀ i, i < 64 → blockAt t.sfile i 0 = f i) ∧ Advanced [] [] [.sfile] [] s t :=
  ⟨_, rfl, fun i hi => blockAt_blockOf f 0 i hi, (State.effect_setSfile List.mem_cons_self (blockOf f) draws).advanced rfl⟩

/-- Settles O44: a coefficient is exact as a sample, and a sample is rounded as its value in units is. -/
theorem conversions : Obligations.Conversions := by
  intro s
  refine ⟨⟨rfl, ?_⟩, rfl, fun h => ?_, fun h => ?_⟩
  · obtain ⟨t, ht, hs, hadv⟩ := setSfile_next s (fun i => f64OfInt (s32 (blockAt s.kfile i 0))) s.draws
    exact ⟨t, ht, fun i hi => hs i hi ▸ holdsInt_f64OfInt (natAbs_toInt_le _), hadv⟩
  · exact computeK_toInt32_next (fun i _ => f64ToInt32_eq _) h
  · exact computeK_toInt32_fault (fun i _ => f64ToInt32_eq _) h

/-! ### QUANT and DEQUANT -/

theorem State.divisorOf_eq (s : State) (q : BitVec 4) (order : TableOrder) (i : Nat) :
    s.divisorOf q order i = s.divisor q (if order = .natural then zi i else i) := by
  cases order <;> rfl

section Tables

variable {s : State} {q : BitVec 4}

theorem State.requireTable_valid (h : s.tableValid q = true) : s.requireTable q = .ok () := by
  rw [State.requireTable, h, require_true]

theorem State.requireTable_invalid (h : s.tableValid q = false) :
    s.requireTable q = .error (.raise ⟨.contractViolation, 14⟩ []) := by
  rw [State.requireTable, h, require_false]; rfl

/-- A command that computes K from a table computes it as any other once the table is valid. -/
theorem leaving_requireTable_valid (h : s.tableValid q = true) (f : Nat → Res Word) :
    (leaving [.kFile] do
      s.requireTable q
      let block ← collectBlock 0 f
      return { s with kfile := block }) = s.computeK f := by
  rw [State.requireTable_valid h]
  rfl

/-- A table never loaded is the first fault of such a command (R347, R348). -/
theorem leaving_requireTable_invalid (h : s.tableValid q = false) (f : Nat → Res Word) :
    ∃ t, (finish s (leaving [.kFile] do
      s.requireTable q
      let block ← collectBlock 0 f
      return { s with kfile := block })) = .next t ∧ FaultLeaving .contractViolation 14 [] [.kfile] [] s t := by
  rw [State.requireTable_invalid h]
  exact finish_raise_leaving rfl (by simp)

theorem exec_quant {order : TableOrder} (h : s.tableValid q = true) :
    exec (.quant q order) s = finish s (s.computeK (quantElement s q order)) :=
  congrArg (finish s) (leaving_requireTable_valid h _)

theorem exec_dequant {order : TableOrder} (h : s.tableValid q = true) :
    exec (.dequant q order) s = finish s (s.computeK (dequantElement s q order)) :=
  congrArg (finish s) (leaving_requireTable_valid h _)

theorem quantElement_zero {order : TableOrder} {i : Nat} (h : s.divisorOf q order i = 0) :
    quantElement s q order i = .error (.raise ⟨.contractViolation, 15⟩ []) := by
  rw [quantElement, h]; rfl

/-- The rounded quotient of element i by its divisor (R347). -/
def quotientOf (s : State) (q : BitVec 4) (order : TableOrder) (i : Nat) : Int :=
  roundUnits (f64Units (f64DivNat (blockAt s.sfile i 0) (s.divisorOf q order i)))

theorem quantElement_of_ne_zero {order : TableOrder} {i : Nat} (h : s.divisorOf q order i ≠ 0) :
    quantElement s q order i = toInt32 (quotientOf s q order i) := by
  rw [quantElement, bne_iff_ne.2 h, require_true, Res.ok_bind, f64ToInt32_eq, quotientOf]

theorem quantElement_of_fits {order : TableOrder} {i : Nat}
    (h : s.divisorOf q order i ≠ 0 ∧ -2 ^ 31 ≤ quotientOf s q order i ∧ quotientOf s q order i ≤ 2 ^ 31 - 1) :
    quantElement s q order i = .ok (u32i (quotientOf s q order i)) :=
  (quantElement_of_ne_zero h.1).trans (toInt32_of_fits h.2)

end Tables

/-- Settles O46: a valid table leaves the elements, each a rounded quotient or an exact product; the first one with a zero
divisor or out of range faults. -/
theorem quantization : Obligations.Quantization := by
  intro q order s
  simp only [← State.divisorOf_eq]
  refine ⟨fun hvalid h => ?_, fun hvalid h => ?_, fun i hvalid hi hbefore hzero => ?_,
    fun i hvalid hi hbefore hne hbad => ?_, fun hvalid h => ?_, fun hinvalid => ?_⟩
  · rw [exec_quant hvalid]
    exact computeK_toInt32_next (fun i hi => quantElement_of_ne_zero (h i hi).1) fun i hi => (h i hi).2
  · rw [exec_dequant hvalid]
    exact computeK_toInt32_next (fun _ _ => rfl) h
  · rw [exec_quant hvalid]
    exact computeK_fault hi (fun j hj => ⟨_, quantElement_of_fits (hbefore j hj)⟩) (quantElement_zero hzero)
  · rw [exec_quant hvalid]
    exact computeK_fault hi (fun j hj => ⟨_, quantElement_of_fits (hbefore j hj)⟩)
      ((quantElement_of_ne_zero hne).trans (toInt32_of_not_fits hbad))
  · rw [exec_dequant hvalid]
    exact computeK_toInt32_fault (fun _ _ => rfl) h
  · exact ⟨leaving_requireTable_invalid hinvalid _, leaving_requireTable_invalid hinvalid _⟩

/-! ### KLD and KST -/

section Words

variable {s : State} {a : Nat}

/-- Bytes that stand in MEM are read as the little-endian number they make (R104). -/
theorem State.memRead_of_holds {bs : List Byte} (h : s.holds a bs = true) (hbs : bs ≠ []) :
    s.memRead a bs.length = .ok (leValue bs) := by
  rw [State.memRead, State.checkRange_eq_ok (u := ()).2 (.inr (State.holds_bound h hbs)), Res.ok_bind,
    State.readBytes_eq_ok.2 ⟨rfl, h⟩]
  rfl

/-- The bytes of a word make the word (R102). -/
theorem leValue_leBytes_word (w : Word) : leValue (leBytes 4 w.toNat) = w.toNat := by
  have hw := w.isLt
  simp only [leBytes, leValue, BitVec.toNat_ofNat]
  omega

/-- A word of several that stand in MEM one after the other. -/
theorem State.memRead_word {words : Vector Word 64}
    (h : s.holds a (words.toList.flatMap fun w => leBytes 4 w.toNat) = true) {i : Nat} (hi : i < 64) :
    s.memRead (a + 4 * i) 4 = .ok (blockAt words i 0).toNat := by
  have hword := State.holds_flatMap (fun w : Word => length_leBytes 4 w.toNat) h i (by simpa using hi)
  have hread := State.memRead_of_holds hword (by simp [leBytes])
  rw [length_leBytes, leValue_leBytes_word] at hread
  rw [hread, blockAt_eq_getElem words 0 hi, Vector.getElem_toList]

theorem length_kBytes (s : State) : s.kBytes.length = 256 := by
  rw [State.kBytes, List.length_flatMap, funext fun w : Word => length_leBytes 4 w.toNat, List.map_const',
    List.sum_replicate, Vector.length_toList]
  rfl

end Words

/-- Element i of KLD (R343). -/
def kldElement (s : State) (rb : Reg) (i : Nat) : Res Word := do
  let v ← s.memRead (s.getXNat rb + 4 * i) 4
  return u32 v

theorem kldElement_of_holds {s : State} {rb : Reg} {words : Vector Word 64}
    (h : s.holds (s.getXNat rb) (words.toList.flatMap fun w => leBytes 4 w.toNat) = true) (i : Nat) (hi : i < 64) :
    kldElement s rb i = .ok (blockAt words i 0) := by
  rw [kldElement, State.memRead_word h hi, Res.ok_bind, u32, BitVec.ofNat_toNat, BitVec.setWidth_eq]
  rfl

theorem exec_kld (rb : Reg) (s : State) : exec (.kld rb) s = finish s (s.computeK (kldElement s rb)) := rfl

theorem exec_kst (rb : Reg) (s : State) : exec (.kst rb) s = execKst rb s := rfl

/-- Settles O42: the i-th of the 64 words stands 4 i bytes on, and 256 bytes inside MEM are stored together. -/
theorem coefficientWords : Obligations.CoefficientWords := by
  intro rb s
  refine ⟨fun words h => ?_, fun hroom => ?_⟩
  · obtain ⟨t, ht, hk, hadv⟩ := computeK_next (s := s) (kldElement_of_holds h)
    exact ⟨t, ht, block_ext 0 hk, hadv⟩
  · have hfits : s.RoomFor (s.getXNat rb) s.kBytes := .inr (by rw [length_kBytes]; exact hroom)
    rw [exec_kst, execKst, State.storeBytes_eq_ok.2 ⟨hfits, rfl⟩]
    refine ⟨_, rfl, (State.holds_advance ..).trans (s.putMem_holds _ _ hfits), ?_⟩
    have heffect := s.effect_putMem (s.getXNat rb) s.kBytes
    rw [length_kBytes] at heffect
    exact heffect.advanced rfl

/-! ### ZZFWD and ZZINV -/

theorem zz_lt : ∀ k, k < 64 → zz k < 64 := by decide

theorem zi_lt : ∀ n, n < 64 → zi n < 64 := by decide

theorem zi_zz : ∀ k, k < 64 → zi (zz k) = k := by decide

theorem zz_zi : ∀ n, n < 64 → zz (zi n) = n := by decide

section Reorder

variable {α : Type} (d : α) (v : Vector α 64)

theorem blockAt_zigzagForward {k : Nat} (hk : k < 64) : blockAt (zigzagForward d v) k d = blockAt v (zz k) d :=
  blockAt_blockOf _ d k hk

theorem blockAt_zigzagInverse {n : Nat} (hn : n < 64) : blockAt (zigzagInverse d v) n d = blockAt v (zi n) d :=
  blockAt_blockOf _ d n hn

theorem blockAt_zigzagInverse_zz {k : Nat} (hk : k < 64) : blockAt (zigzagInverse d v) (zz k) d = blockAt v k d := by
  rw [blockAt_zigzagInverse d v (zz_lt k hk), zi_zz k hk]

theorem zigzagInverse_zigzagForward : zigzagInverse d (zigzagForward d v) = v :=
  block_ext d fun n hn => by
    rw [blockAt_zigzagInverse d _ hn, blockAt_zigzagForward d v (zi_lt n hn), zz_zi n hn]

end Reorder

/-- Settles O43: ZZ and ZI are inverse on 0..63, and the other file is untouched. -/
theorem zigzag : Obligations.Zigzag := by
  intro file s
  cases file with
  | k =>
    exact ⟨⟨rfl, _, rfl, fun k hk => blockAt_zigzagForward 0 s.kfile hk,
        (State.effect_setKfile List.mem_cons_self _ s.draws).advanced rfl⟩,
      ⟨rfl, _, rfl, fun k hk => blockAt_zigzagInverse_zz 0 s.kfile hk,
        (State.effect_setKfile List.mem_cons_self _ s.draws).advanced rfl⟩,
      _, _, rfl, rfl, rfl, zigzagInverse_zigzagForward 0 s.kfile⟩
  | s =>
    exact ⟨⟨rfl, _, rfl, fun k hk => blockAt_zigzagForward 0 s.sfile hk,
        (State.effect_setSfile List.mem_cons_self _ s.draws).advanced rfl⟩,
      ⟨rfl, _, rfl, fun k hk => blockAt_zigzagInverse_zz 0 s.sfile hk,
        (State.effect_setSfile List.mem_cons_self _ s.draws).advanced rfl⟩,
      _, _, rfl, rfl, zigzagInverse_zigzagForward 0 s.sfile, rfl⟩

/-! ### QLOAD -/

section Tables

variable {s t : State} {i j : BitVec 4} {table : Vector Byte 64}

theorem State.divisor_setTable (k : Nat) :
    (s.setTable i table).divisor j k = if j = i then (blockAt table k 0).toNat else s.divisor j k := by
  by_cases hj : j = i
  · subst hj
    simp [State.divisor, State.setTable, Vector.get_eq_getElem]
  · have hne : i.toNat ≠ j.toNat := fun e => hj (BitVec.eq_of_toNat_eq e.symm)
    simp [State.divisor, State.setTable, Vector.get_eq_getElem, hj, hne]

theorem getLsbD_setValidBit (v : Word) {k n : Nat} (hk : k < 32) :
    (setValidBit v n).getLsbD k = (decide (k = n) || v.getLsbD k) := by
  have hbit : (1#32 <<< n).getLsbD k = decide (k = n) := by
    rw [BitVec.getLsbD_shiftLeft, BitVec.getLsbD_one, Bool.eq_iff_iff]
    simp only [Bool.and_eq_true, Bool.not_eq_true', decide_eq_true_eq, decide_eq_false_iff_not]
    omega
  rw [setValidBit, BitVec.getLsbD_or, hbit, Bool.or_comm]

/-- A table write makes its table valid and keeps the valid bits of the others (R44, R340). -/
theorem State.tableValid_setTable : (s.setTable i table).tableValid j = (decide (j = i) || s.tableValid j) := by
  have hnamed : ∀ k, k < 16 → (Csr.mask .qValid).getLsbD k = true := by decide
  have hcsr : (s.setTable i table).getCsr .qValid = setValidBit (s.getCsr .qValid) i.toNat &&& Csr.mask .qValid :=
    State.getCsr_setCsr_self ..
  have hj := j.isLt
  rw [State.tableValid, validBit, hcsr, BitVec.getLsbD_and, hnamed _ hj, Bool.and_true, getLsbD_setValidBit _ (by omega),
    State.tableValid, validBit]
  simp only [BitVec.toNat_inj]

theorem Effect.setTable {rs : List Reg} {cs : List Csr} {fs : List Store} {bytes : List Region}
    (heffect : Effect rs cs fs bytes s t) (hcs : .qValid ∈ cs) (hfs : .tables ∈ fs) :
    Effect rs cs fs bytes s (t.setTable i table) := by
  have htables : Effect rs cs fs bytes s { t with qtabs := t.qtabs.set i.toNat table i.isLt } :=
    { heffect with tables := fun hf => absurd hfs hf }
  exact htables.setCsr hcs

@[simp] theorem State.divisor_setX_advance (ra : Reg) (v : Word) (k : Nat) :
    (s.setX ra v).advance.divisor j k = s.divisor j k := by
  rw [State.divisor, State.advance_qtabs, State.setX_qtabs, State.divisor]

@[simp] theorem State.tableValid_setX_advance (ra : Reg) (v : Word) :
    (s.setX ra v).advance.tableValid j = s.tableValid j := by
  rw [State.tableValid, State.advance_getCsr, State.setX_getCsr, State.tableValid]

end Tables

section Load

variable {s : State} {a : Nat} {q : BitVec 4} {pfx : Bool} {p : Byte} {body : List Byte}

/-- A first byte of precision 0 names the table in its low half; without one the command names it (R340). -/
theorem quantPrefix_of_holds (hq : pfx = false → p = q.setWidth 8) (hp : p.toNat < 16)
    (h : s.holds a ((if pfx then [p] else []) ++ body) = true) :
    quantPrefix s a q pfx = .ok (p.setWidth 4, a + if pfx then 1 else 0) ∧
      s.holds (a + if pfx then 1 else 0) body = true := by
  cases pfx with
  | false =>
    have hname : p.setWidth 4 = q := by
      rw [hq rfl]
      exact BitVec.setWidth_setWidth_of_le q (by decide)
    rw [hname]
    exact ⟨rfl, h⟩
  | true =>
    obtain ⟨hread, hbody⟩ := State.readByte_of_holds h
    have hname : BitVec.ofNat 4 (p.toNat % 16) = p.setWidth 4 := BitVec.eq_of_toNat_eq (by simp)
    refine ⟨?_, hbody⟩
    rw [quantPrefix, if_pos rfl, hread, Res.ok_bind, decide_eq_true (Nat.div_eq_of_lt hp), require_true, Res.ok_bind, hname]
    rfl

/-- A first byte of another precision is refused (R340). -/
theorem quantPrefix_refused (hp : 16 ≤ p.toNat) (h : s.holds a (p :: body) = true) :
    quantPrefix s a q true = .error (.raise ⟨.unsupportedFeature, 3⟩ []) := by
  rw [quantPrefix, if_pos rfl, (State.readByte_of_holds h).1, Res.ok_bind, decide_eq_false (by omega), require_false]
  rfl

theorem storedIndex_eq (tord : TableOrder) (k : Nat) : storedIndex tord k = if tord = .natural then zz k else k := by
  cases tord <;> rfl

theorem storedIndex_lt (tord : TableOrder) {k : Nat} (hk : k < 64) : storedIndex tord k < 64 := by
  cases tord with
  | scan => exact hk
  | natural => exact zz_lt k hk

/-- The table read is the body in the order of the command (R334). -/
theorem collectTable_of_holds (hlen : body.length = 64) (h : s.holds a body = true) (tord : TableOrder) :
    (collectBlock 0 fun k => s.readByte (a + storedIndex tord k)) =
      .ok (blockOf fun k => body.getD (storedIndex tord k) 0) := by
  refine collectBlock_of_forall 0 fun k hk => ?_
  have hi : storedIndex tord k < body.length := hlen ▸ storedIndex_lt tord hk
  obtain ⟨hread, hsize⟩ := State.holds_getElem h _ hi
  rw [List.getD_eq_getElem _ _ hi]
  exact State.readByte_eq_ok.2 ⟨hsize, hread⟩

end Load

theorem exec_qload (ra rb : Reg) (q : BitVec 4) (pfx : Bool) (tord : TableOrder) (s : State) :
    exec (.qload ra rb q pfx tord) s = execQload ra rb q pfx tord s := rfl

/-- Settles O40: a precision of 0 leaves the table's number, and the body is read in the order of the command. -/
theorem loadTable : Obligations.LoadTable := by
  intro ra rb q pfx tord p body s hlen hq h
  refine ⟨fun hp => ?_, fun hp => ?_⟩
  · obtain ⟨hprefix, hbody⟩ := quantPrefix_of_holds hq hp h
    have hcount : u32 (s.getXNat rb + (if pfx then 1 else 0) + 64 - s.getXNat rb) = if pfx then 65 else 64 := by
      rw [Nat.add_assoc, Nat.add_sub_cancel_left]
      cases pfx <;> rfl
    simp only [exec_qload, execQload, hprefix, Res.ok_bind, collectTable_of_holds hlen hbody, hcount]
    refine ⟨_, rfl, fun k hk => ?_, fun j => ?_, fun j k hj => ?_, State.regIs_setX _ ra _, ?_⟩
    · rw [State.divisor_setX_advance, State.divisor_setTable, if_pos rfl, blockAt_blockOf _ _ _ hk, storedIndex_eq]
    · rw [State.tableValid_setX_advance, State.tableValid_setTable]
    · rw [State.divisor_setX_advance, State.divisor_setTable, if_neg hj]
    · have hstored : Effect [ra] [.qValid] [.tables] [] s
          (s.setTable (p.setWidth 4) (blockOf fun k => body.getD (storedIndex tord k) 0)) :=
        (Effect.refl s ..).setTable List.mem_cons_self List.mem_cons_self
      exact (hstored.setX List.mem_cons_self).advanced (State.setX_pc ..)
  · cases pfx with
    | false =>
      have hsmall : p.toNat < 16 := by rw [hq rfl, BitVec.toNat_setWidth]; omega
      omega
    | true =>
      simp only [exec_qload, execQload, quantPrefix_refused hp h, Res.error_bind]
      exact finish_raise rfl

/-! ### SLDB and SSTB -/

section Cells

variable {s : State}

/-- Of cells stored one after the other the last one at an address is what it reads (R342). -/
theorem State.putCells_read?_last {cells : List Host.Cell} {i : Nat} (hi : i < cells.length)
    (hlast : ∀ j (hj : j < cells.length), i < j → cells[j].1 ≠ cells[i].1) :
    (s.putCells cells).mem.read? cells[i].1 = some cells[i].2 := by
  induction cells generalizing s i with
  | nil => cases hi
  | cons c cells ih =>
    have hcons : s.putCells (c :: cells) = (s.putMem c.1 [c.2]).putCells cells := rfl
    rw [hcons]
    cases i with
    | zero =>
      rw [State.putCells_read?_outside]
      · exact Memory.read?_write_inside s.mem c.1 [c.2] 0 Nat.one_pos
      · intro d hd
        obtain ⟨j, hj, rfl⟩ := List.getElem_of_mem hd
        exact hlast (j + 1) (Nat.succ_lt_succ hj) (Nat.succ_pos j)
    | succ i =>
      exact ih (Nat.lt_of_succ_lt_succ hi) fun j hj hij => hlast (j + 1) (Nat.succ_lt_succ hj) (Nat.succ_lt_succ hij)

theorem State.putCells_pc (cells : List Host.Cell) : (s.putCells cells).pc = s.pc :=
  (s.leave_keeps (.stored cells)).2.1

end Cells

/-- The stores of SSTB when all of them are inside MEM. -/
theorem sstbLoop_ok {s : State} {rb rc : Reg} {shift : Bool} {i k : Nat} {done : List Host.Cell}
    (h : ∀ j, j < k → s.blockAddr rb rc (i + j) < s.memSize) :
    sstbLoop s rb rc shift i k done =
      .ok (done.reverse ++ (List.range' i k).map fun j => (s.blockAddr rb rc j, s.sampleByte shift j)) := by
  induction k generalizing i done with
  | zero => rw [sstbLoop, List.range'_zero, List.map_nil, List.append_nil]
  | succ k ih =>
    have hnext : ∀ j, j < k → s.blockAddr rb rc (i + 1 + j) < s.memSize := fun j hj => by
      rw [Nat.add_assoc, Nat.add_comm 1]
      exact h (j + 1) (Nat.succ_lt_succ hj)
    have hfirst : s.checkRange (s.blockAddr rb rc i) 1 = .ok () := State.checkRange_one (h 0 (Nat.succ_pos k))
    rw [sstbLoop, hfirst, leaving_ok, Res.ok_bind, ih hnext, List.range'_succ,
      List.reverse_cons, List.append_assoc]
    rfl

theorem exec_sldb (rb rc : Reg) (shift : Bool) (s : State) : exec (.sldb rb rc shift) s = execSldb rb rc shift s := rfl

theorem exec_sstb (rb rc : Reg) (shift : Bool) (s : State) : exec (.sstb rb rc shift) s = execSstb rb rc shift s := rfl

theorem sampleByte_eq (s : State) (shift : Bool) (i : Nat) :
    s.sampleByte shift i = BitVec.ofInt 8
      (min 255 (max 0 (roundUnits (f64Units (f64Add (blockAt s.sfile i 0) (f64OfInt (levelShift shift))))))) := by
  rw [State.sampleByte, clampByte_eq, f64RoundInt_eq]

/-- A byte less the level shift is far inside the integers that are exact as samples. -/
theorem natAbs_byte_sub_level (b : Byte) (shift : Bool) : ((b.toNat : Int) - levelShift shift).natAbs ≤ 2 ^ 31 := by
  have hb := b.isLt
  unfold levelShift
  split <;> omega

theorem execSldb_next {rb rc : Reg} {shift : Bool} {s : State} (hroom : ∀ i, i < 64 → s.blockAddr rb rc i < s.memSize)
    {b : Nat → Byte} (h : ∀ i, i < 64 → s.mem.read? (s.blockAddr rb rc i) = some (b i)) :
    execSldb rb rc shift s =
      finish s (.ok { s with sfile := blockOf fun i => f64OfInt ((b i).toNat - levelShift shift) }) := by
  rw [execSldb, collectBlock_of_forall (g := fun i => f64OfInt ((b i).toNat - levelShift shift)) 0 fun i hi => ?_]
  · rfl
  · rw [State.readByte_eq_ok.2 ⟨hroom i hi, h i hi⟩]
    rfl

/-- The cells SSTB stores, in their order (R342). -/
def State.sstbCells (s : State) (rb rc : Reg) (shift : Bool) : List Host.Cell :=
  (List.range 64).map fun i => (s.blockAddr rb rc i, s.sampleByte shift i)

theorem State.length_sstbCells (s : State) (rb rc : Reg) (shift : Bool) : (s.sstbCells rb rc shift).length = 64 := by
  rw [State.sstbCells, List.length_map, List.length_range]

theorem State.getElem_sstbCells {s : State} {rb rc : Reg} {shift : Bool} {i : Nat}
    (hi : i < (s.sstbCells rb rc shift).length) :
    (s.sstbCells rb rc shift)[i] = (s.blockAddr rb rc i, s.sampleByte shift i) := by
  simp only [State.sstbCells, List.getElem_map, List.getElem_range]

theorem State.mem_sstbCells {s : State} {rb rc : Reg} {shift : Bool} {c : Host.Cell}
    (hc : c ∈ s.sstbCells rb rc shift) : ∃ i ∈ List.range 64, s.blockAddr rb rc i = c.1 := by
  obtain ⟨i, hi, rfl⟩ := List.mem_map.1 hc
  exact ⟨i, hi, rfl⟩

theorem execSstb_next {rb rc : Reg} {shift : Bool} {s : State} (hroom : ∀ i, i < 64 → s.blockAddr rb rc i < s.memSize) :
    execSstb rb rc shift s = .next (s.putCells (s.sstbCells rb rc shift)).advance := by
  rw [execSstb, sstbLoop_ok fun j hj => by rw [Nat.zero_add]; exact hroom j hj, State.sstbCells, List.range_eq_range']
  rfl

/-- The last store to an address is what SSTB leaves there (R342). -/
theorem State.putCells_sstbCells_read? {rb rc : Reg} {shift : Bool} {s : State} {i : Nat} (hi : i < 64)
    (hlast : ∀ j, i < j → j < 64 → s.blockAddr rb rc j ≠ s.blockAddr rb rc i) :
    (s.putCells (s.sstbCells rb rc shift)).mem.read? (s.blockAddr rb rc i) = some (s.sampleByte shift i) := by
  have hlen := s.length_sstbCells rb rc shift
  have hread := State.putCells_read?_last (s := s) (cells := s.sstbCells rb rc shift) (i := i) (by omega) fun j hj hij => by
    rw [State.getElem_sstbCells, State.getElem_sstbCells]
    exact hlast j hij (by omega)
  rwa [State.getElem_sstbCells] at hread

theorem State.effect_putCells_sstbCells (s : State) (rb rc : Reg) (shift : Bool) :
    Effect [] [] [] ((List.range 64).map fun i => ⟨s.blockAddr rb rc i, 1⟩) s (s.putCells (s.sstbCells rb rc shift)) := by
  refine State.effect_putCells fun a ha c hc r hr => ?_
  obtain ⟨i, hi, haddr⟩ := State.mem_sstbCells hc
  rw [List.mem_singleton.1 hr, ← haddr]
  exact ha ⟨s.blockAddr rb rc i, 1⟩ (List.mem_map_of_mem hi)

/-- Settles O41: the bytes are read one by one as exact integers, and of the stores to one address the last one stands. -/
theorem blockBytes : Obligations.BlockBytes := by
  intro rb rc shift s addr level hroom
  refine ⟨fun b h => ?_, ?_⟩
  · rw [exec_sldb, execSldb_next hroom h]
    obtain ⟨t, ht, hs, hadv⟩ := setSfile_next s (fun i => f64OfInt ((b i).toNat - levelShift shift)) s.draws
    exact ⟨t, ht, fun i hi => hs i hi ▸ holdsInt_f64OfInt (natAbs_byte_sub_level (b i) shift), hadv⟩
  · refine ⟨_, execSstb_next hroom, fun i hi hlast => ?_, ?_⟩
    · have hread := State.putCells_sstbCells_read? (shift := shift) hi hlast
      rw [sampleByte_eq, ← State.advance_mem] at hread
      exact hread
    · exact (s.effect_putCells_sstbCells rb rc shift).advanced (State.putCells_pc _)

end Sys2Proof.Machine
end

section
/-! SUPPORT. FDCT and IDCT (O47). The reference sums are the model's own; a zero block stays zero by the rules of signed
zeros. The exact element of the drawn numerics is an integer near the real transform, in units of 2^-1074 * 2^-258, and the
finite binary64 nearest to it is in the band whenever any is. -/

namespace Sys2Proof.Machine

open Real

/-! ### The finite binary64 nearest to an integer of units of 2^-258 -/

/-- The greatest magnitude of a finite binary64, in units of 2^-1074. -/
def maxMagnitude : Nat := (2 ^ 53 - 1) * 2 ^ 2045

theorem mul_two_pow_lt {m : Nat} (h : m < 2 ^ 53) (k : Nat) : m * 2 ^ k < 2 ^ (53 + k) := by
  rw [Nat.pow_add]
  exact Nat.mul_lt_mul_of_pos_right h (Nat.two_pow_pos k)

theorem f64Mag_le_max {d : Binary64} (h : Binary64.isFinite d = true) : f64Mag d ≤ maxMagnitude := by
  have hfrac : f64Frac d < 2 ^ 52 := (d.extractLsb' 0 52).isLt
  have hexp := (isFinite_iff d).1 h
  have hsig : f64Mag d ≤ (2 ^ 53 - 1) * 2 ^ (f64Exp d - 1) := by
    unfold f64Mag
    split
    · next hzero => rw [hzero, Nat.zero_sub, Nat.pow_zero]; omega
    · exact Nat.mul_le_mul_right _ (by omega)
  exact hsig.trans (Nat.mul_le_mul_left _ (pow_le_pow_right₀ one_le_two (by omega)))

theorem f64Units_maxFinite (neg : Bool) :
    f64Units (f64MaxFinite neg) = if neg then -(maxMagnitude : Int) else maxMagnitude := by
  cases neg <;> decide +kernel

theorem isFinite_maxFinite (neg : Bool) : Binary64.isFinite (f64MaxFinite neg) = true := by
  cases neg <;> rfl

/-- Only a value past the greatest finite one rounds to an infinity (R331). -/
theorem le_of_round_infinite {neg : Bool} {num den : Nat} (hden : 0 < den)
    (h : Binary64.isFinite (f64Round neg num den) ≠ true) : maxMagnitude * den ≤ num := by
  rw [Ne, isFinite_f64Round_iff, f64RoundMag_eq num den hden, Nat.not_lt] at h
  have hbits := h.trans (Nat.min_le_left ..)
  unfold f64InfBits at hbits
  by_contra hlt
  have hquot : num / den < 2 ^ (53 + 2045) := by
    refine Nat.div_lt_of_lt_mul ((Nat.not_le.1 hlt).trans_le ?_)
    rw [Nat.mul_comm den]
    exact Nat.mul_le_mul_right den (mul_two_pow_lt (by decide) 2045).le
  have hshift : f64Shift num den ≤ 2045 := Nat.sub_le_sub_right (bitlen_le hquot) 53
  have hsig := (f64Significand_bounds (num := num) hden).1
  obtain ⟨hshift, hfull⟩ : f64Shift num den = 2045 ∧ 2 ^ 53 ≤ f64Significand num den := by omega
  have hround := divNearestEven_le num (den * 2 ^ f64Shift num den)
  have hlow : num / (den * 2 ^ f64Shift num den) < 2 ^ 53 - 1 := by
    refine Nat.div_lt_of_lt_mul ((Nat.not_le.1 hlt).trans_le ?_)
    rw [hshift, maxMagnitude, Nat.mul_assoc, Nat.mul_comm (2 ^ 2045), Nat.mul_comm]
  unfold f64Significand at hfull
  omega

/-- The end of a symmetric interval that an integer is beyond is nearer to it than what is inside. -/
theorem natAbs_clamp_sub_le {v x : Int} {m : Nat} (hv : v.natAbs ≤ m) (hx : m ≤ x.natAbs) :
    ((if decide (x < 0) then -(m : Int) else m) - x).natAbs ≤ (v - x).natAbs := by
  by_cases h : x < 0
  · rw [decide_eq_true h, if_pos rfl]; omega
  · rw [decide_eq_false h, if_neg Bool.false_ne_true]; omega

/-- x / den units rounded to a finite binary64: the greatest of its sign where the nearest one is no longer finite. -/
def f64RoundFinite (x : Int) (den : Nat) : Binary64 :=
  if Binary64.isFinite (f64Round (decide (x < 0)) x.natAbs den) then f64Round (decide (x < 0)) x.natAbs den
  else f64MaxFinite (decide (x < 0))

theorem nearestExact_eq (exact : Int × Nat) : nearestExact exact = f64RoundFinite exact.1 (2 ^ 258) := rfl

theorem isFinite_f64RoundFinite (x : Int) (den : Nat) : Binary64.isFinite (f64RoundFinite x den) = true := by
  unfold f64RoundFinite
  split
  · assumption
  · exact isFinite_maxFinite _

/-- No finite binary64 is nearer (R331). -/
theorem f64RoundFinite_nearest (x : Int) {den : Nat} (hden : 0 < den) {e : Binary64} (he : Binary64.isFinite e = true) :
    (f64Units (f64RoundFinite x den) * den - x).natAbs ≤ (f64Units e * den - x).natAbs := by
  have hsign : (if decide (x < 0) then -(x.natAbs : Int) else x.natAbs) = x := by
    by_cases hx : x < 0
    · rw [decide_eq_true hx, if_pos rfl]; omega
    · rw [decide_eq_false hx, if_neg Bool.false_ne_true]; omega
  unfold f64RoundFinite
  split
  · next hfinite =>
    have hnear := (roundsToNearestEven _ _ _ e hden hfinite he).1
    rwa [hsign] at hnear
  · next hinf =>
    have hmax : (f64Units e * den).natAbs ≤ maxMagnitude * den := by
      rw [Int.natAbs_mul, natAbs_f64Units, Int.natAbs_natCast]
      exact Nat.mul_le_mul_right den (f64Mag_le_max he)
    have hclamp := natAbs_clamp_sub_le hmax (le_of_round_infinite hden hinf)
    rw [f64Units_maxFinite, ite_mul, neg_mul, ← Nat.cast_mul]
    exact hclamp

theorem f64RoundFinite_nearest_pow (x : Int) (k : Nat) {e : Binary64} (he : Binary64.isFinite e = true) :
    (f64Units (f64RoundFinite x (2 ^ k)) * 2 ^ k - x).natAbs ≤ (f64Units e * 2 ^ k - x).natAbs := by
  simpa only [Nat.cast_pow, Nat.cast_ofNat] using f64RoundFinite_nearest x (Nat.two_pow_pos k) he

theorem nearestExact_nearest (exact : Int × Nat) {e : Binary64} (he : Binary64.isFinite e = true) :
    (f64Units (nearestExact exact) * 2 ^ 258 - exact.1).natAbs ≤ (f64Units e * 2 ^ 258 - exact.1).natAbs :=
  f64RoundFinite_nearest_pow exact.1 258 he

/-! ### A zero block stays zero -/

theorem isFinite_cosTerm : ∀ x < 8, ∀ u < 8, Binary64.isFinite (cosTerm x u) = true := by decide +kernel

/-- A finite zero of either sign. -/
def f64IsZero (d : Binary64) : Prop := Binary64.isFinite d = true ∧ f64Mag d = 0

theorem f64IsZero_f64Round_zero (neg : Bool) (den : Nat) : f64IsZero (f64Round neg 0 den) := by
  refine ⟨f64Round_isFinite (by rw [f64RoundMag_zero]; decide), ?_⟩
  rw [f64Mag, f64Exp_f64Round, f64Frac_f64Round, f64RoundMag_zero]
  rfl

/-- A product with a zero is a zero (R331). -/
theorem f64IsZero_f64Mul {a b : Binary64} (ha : Binary64.isFinite a = true) (hb : Binary64.isFinite b = true)
    (hzero : f64Mag a = 0 ∨ f64Mag b = 0) : f64IsZero (f64Mul a b) := by
  have hprod : f64Mag a * f64Mag b = 0 := Nat.mul_eq_zero.2 hzero
  rw [f64Mul, ha, hb, hprod]
  exact f64IsZero_f64Round_zero _ _

theorem f64Round_zero (den : Nat) : f64Round false 0 den = 0 := by
  rw [f64Round, f64RoundMag_zero]; rfl

/-- +0 and a zero of either sign make +0 (R331). -/
theorem f64Add_zero {d : Binary64} (h : f64IsZero d) : f64Add 0 d = 0 := by
  obtain ⟨hfinite, hmag⟩ := h
  have hunits : f64Units 0 + f64Units d = 0 := by
    rw [show f64Units 0 = 0 from rfl, zero_add, ← Int.natAbs_eq_zero, natAbs_f64Units, hmag]
  simp only [f64Add]
  rw [hunits, hfinite, if_pos rfl, show f64Neg 0 = false from rfl, Bool.false_and, f64Round_zero]
  rfl

theorem sumBlock_zero {f : Nat → Binary64} (h : ∀ j, j < 64 → f64IsZero (f j)) : sumBlock f = 0 := by
  have hfold : ∀ l : List Nat, (∀ j ∈ l, j < 64) → l.foldl (fun acc j => f64Add acc (f j)) 0 = 0 := by
    intro l hl
    induction l with
    | nil => rfl
    | cons j l ih =>
      obtain ⟨hj, hl⟩ := List.forall_mem_cons.1 hl
      rw [List.foldl_cons, f64Add_zero (h j hj), ih hl]
  exact hfold _ fun j hj => List.mem_range.1 hj

/-- +0 times a finite positive value is +0 (R331). -/
theorem f64Mul_zero_left {c : Binary64} (hfinite : Binary64.isFinite c = true) (hpos : f64Neg c = false) :
    f64Mul 0 c = 0 := by
  rw [f64Mul, hfinite, hpos, show f64Mag 0 = 0 from rfl, Nat.zero_mul, show f64Neg 0 = false from rfl, Bool.false_xor,
    f64Round_zero]
  rfl

theorem normC_cases (u : Nat) : normC u = 0x3FE6A09E667F3BCD ∨ normC u = 0x3FF0000000000000 := by
  unfold normC
  split
  · exact .inl rfl
  · exact .inr rfl

/-- The products of normalization factors that the sums are multiplied by are finite and positive. -/
theorem norm_factors (u v : Nat) :
    Binary64.isFinite (f64Mul (normC u) (normC v)) = true ∧
      Binary64.isFinite (f64Mul (f64Mul quarter (normC u)) (normC v)) = true ∧
      f64Neg (f64Mul (f64Mul quarter (normC u)) (normC v)) = false := by
  obtain hu | hu := normC_cases u <;> obtain hv | hv := normC_cases v <;> rw [hu, hv] <;> decide +kernel

section ZeroBlock

variable {b : Vector Binary64 64} (hb : ∀ j, j < 64 → blockAt b j 0 = 0) {n : Nat} (hn : n < 64)
include hb hn

theorem fdctReference_zero : fdctReference b n = 0 := by
  obtain ⟨-, hfinite, hpos⟩ := norm_factors (n % 8) (n / 8)
  have hterm : ∀ j, j < 64 →
      f64IsZero (f64Mul (f64Mul (blockAt b j 0) (cosTerm (j % 8) (n % 8))) (cosTerm (j / 8) (n / 8))) := fun j hj => by
    rw [hb j hj]
    have hfirst := f64IsZero_f64Mul (a := 0) rfl (isFinite_cosTerm (j % 8) (by omega) (n % 8) (by omega)) (.inl rfl)
    exact f64IsZero_f64Mul hfirst.1 (isFinite_cosTerm _ (by omega) _ (by omega)) (.inl hfirst.2)
  rw [fdctReference, sumBlock_zero hterm, f64Mul_zero_left hfinite hpos]

theorem idctReference_zero : idctReference b n = 0 := by
  have hterm : ∀ j, j < 64 →
      f64IsZero (f64Mul (f64Mul (f64Mul (f64Mul (normC (j % 8)) (normC (j / 8))) (blockAt b j 0))
        (cosTerm (n % 8) (j % 8))) (cosTerm (n / 8) (j / 8))) := fun j hj => by
    rw [hb j hj]
    have hfirst := f64IsZero_f64Mul (b := 0) (norm_factors (j % 8) (j / 8)).1 rfl (.inr rfl)
    have hsecond := f64IsZero_f64Mul hfirst.1 (isFinite_cosTerm (n % 8) (by omega) (j % 8) (by omega)) (.inl hfirst.2)
    exact f64IsZero_f64Mul hsecond.1 (isFinite_cosTerm _ (by omega) _ (by omega)) (.inl hsecond.2)
  rw [idctReference, sumBlock_zero hterm, f64Mul_zero_left (c := quarter) rfl rfl]

end ZeroBlock

/-! ### The exact transform and the model's integers for it -/

/-- C(u) cos((2x + 1) u pi / 16), the basis value of R332. -/
noncomputable def basisValue (x u : Nat) : ℝ := (if u = 0 then 1 / √2 else 1) * cos ((2 * (x : ℝ) + 1) * u * π / 16)

/-- The product of basis values with which element j enters element n of a transform (R332, R333). -/
noncomputable def weightValue (inverse : Bool) (n j : Nat) : ℝ :=
  if inverse then basisValue (n % 8) (j % 8) * basisValue (n / 8) (j / 8)
  else basisValue (j % 8) (n % 8) * basisValue (j / 8) (n / 8)

/-- Element n of the transform of R332 or R333 in units of 2^-1074, without its factor 1/4. -/
noncomputable def transformSum (inverse : Bool) (b : Vector Binary64 64) (n : Nat) : ℝ :=
  ∑ j ∈ Finset.range 64, f64Units (blockAt b j 0) * weightValue inverse n j

theorem abs_basisValue_le (x u : Nat) : |basisValue x u| ≤ 1 := by
  have hnorm : |(if u = 0 then 1 / √2 else 1 : ℝ)| ≤ 1 := by
    split
    · rw [abs_of_nonneg (by positivity), div_le_one (by positivity), Real.one_le_sqrt]
      exact one_le_two
    · rw [abs_one]
  rw [basisValue, abs_mul]
  exact mul_le_one₀ hnorm (abs_nonneg _) (abs_cos_le_one _)

/-- A product of two scaled basis values is near the scaled product. -/
theorem abs_mul_sub_le {p q : Int} {β γ : ℝ} (hp : |(p : ℝ) - 2 ^ 128 * β| ≤ 1) (hq : |(q : ℝ) - 2 ^ 128 * γ| ≤ 1)
    (hβ : |β| ≤ 1) (hγ : |γ| ≤ 1) : |((p * q : Int) : ℝ) - 2 ^ 256 * (β * γ)| ≤ 2 ^ 130 := by
  have hbig : (1 : ℝ) ≤ 2 ^ 128 := one_le_pow₀ one_le_two
  have hsquare : (2 : ℝ) ^ 256 = 2 ^ 128 * 2 ^ 128 := by rw [← pow_add]
  have hfour : (2 : ℝ) ^ 130 = 4 * 2 ^ 128 := by norm_num
  rw [hsquare, hfour, Int.cast_mul]
  generalize (2 : ℝ) ^ 128 = scale at *
  have hq' : |(q : ℝ)| ≤ 1 + scale := by
    have htri := abs_add_le ((q : ℝ) - scale * γ) (scale * γ)
    rw [sub_add_cancel, abs_mul, abs_of_nonneg (zero_le_one.trans hbig)] at htri
    exact htri.trans (add_le_add hq (mul_le_of_le_one_right (zero_le_one.trans hbig) hγ))
  calc |(p : ℝ) * q - scale * scale * (β * γ)| = |(p - scale * β) * q + scale * β * (q - scale * γ)| := by ring_nf
    _ ≤ |(p : ℝ) - scale * β| * |(q : ℝ)| + scale * |β| * |(q : ℝ) - scale * γ| := by
      refine (abs_add_le _ _).trans_eq ?_
      rw [abs_mul, abs_mul, abs_mul, abs_of_nonneg (zero_le_one.trans hbig)]
    _ ≤ 1 * (1 + scale) + scale * 1 * 1 := by gcongr
    _ ≤ 4 * scale := by linarith

theorem transformWeight_near (inverse : Bool) (n j : Nat) :
    |(transformWeight inverse n j : ℝ) - 2 ^ 256 * weightValue inverse n j| ≤ 2 ^ 130 := by
  unfold transformWeight weightValue
  split
  · exact abs_mul_sub_le (basisScaled_near ..) (basisScaled_near ..) (abs_basisValue_le ..) (abs_basisValue_le ..)
  · exact abs_mul_sub_le (basisScaled_near ..) (basisScaled_near ..) (abs_basisValue_le ..) (abs_basisValue_le ..)

theorem foldl_add_range (f : Nat → Int) (g : Nat → Nat) (k : Nat) :
    (List.range k).foldl (fun acc j => (acc.1 + f j, acc.2 + g j)) (0, 0) =
      (∑ j ∈ Finset.range k, f j, ∑ j ∈ Finset.range k, g j) := by
  induction k with
  | zero => rfl
  | succ k ih => rw [List.range_succ, List.foldl_append, ih, Finset.sum_range_succ, Finset.sum_range_succ]; rfl

theorem transformExact_eq (inverse : Bool) (b : Vector Binary64 64) (n : Nat) :
    transformExact inverse b n = (∑ j ∈ Finset.range 64, f64Units (blockAt b j 0) * transformWeight inverse n j,
      ∑ j ∈ Finset.range 64, f64Mag (blockAt b j 0) * 2 ^ 130) :=
  foldl_add_range _ _ 64

theorem abs_f64Units (d : Binary64) : |(f64Units d : ℝ)| = f64Mag d := by
  rw [← natAbs_f64Units, Nat.cast_natAbs, Int.cast_abs]

/-- The model's exact element is within its bound of the real one (R332, R333). -/
theorem transformExact_near (inverse : Bool) (b : Vector Binary64 64) (n : Nat) :
    |((transformExact inverse b n).1 : ℝ) - 2 ^ 256 * transformSum inverse b n| ≤ ((transformExact inverse b n).2 : ℝ) := by
  simp only [transformExact_eq, transformSum, Int.cast_sum, Nat.cast_sum]
  rw [Finset.mul_sum, ← Finset.sum_sub_distrib]
  refine (Finset.abs_sum_le_sum_abs _ _).trans (Finset.sum_le_sum fun j _ => ?_)
  have hsplit : ((f64Units (blockAt b j 0) * transformWeight inverse n j : Int) : ℝ) -
      2 ^ 256 * (f64Units (blockAt b j 0) * weightValue inverse n j) =
        f64Units (blockAt b j 0) * (transformWeight inverse n j - 2 ^ 256 * weightValue inverse n j) := by
    rw [Int.cast_mul]; ring
  rw [hsplit, abs_mul, abs_f64Units, Nat.cast_mul, Nat.cast_pow, Nat.cast_ofNat]
  exact mul_le_mul_of_nonneg_left (transformWeight_near inverse n j) (Nat.cast_nonneg _)

/-! ### The band of the drawn numerics -/

/-- The value of a sample. -/
noncomputable def sampleValue (d : Binary64) : ℝ := f64Units d / 2 ^ 1074

/-- Element n of the exact transform (R332, R333). -/
noncomputable def transformValue (inverse : Bool) (b : Vector Binary64 64) (n : Nat) : ℝ :=
  1 / 4 * ∑ j ∈ Finset.range 64, sampleValue (blockAt b j 0) * weightValue inverse n j

/-- How far the cosines of 128 bits can widen the band, twice over. -/
noncomputable def transformSlack (b : Vector Binary64 64) : ℝ :=
  (∑ j ∈ Finset.range 64, |sampleValue (blockAt b j 0)|) / 2 ^ 127

theorem transformValue_eq (inverse : Bool) (b : Vector Binary64 64) (n : Nat) :
    2 ^ 1074 * 2 ^ 258 * transformValue inverse b n = 2 ^ 256 * transformSum inverse b n := by
  have hunit : (2 : ℝ) ^ 1074 ≠ 0 := by positivity
  simp only [transformValue, transformSum, sampleValue]
  generalize (2 : ℝ) ^ 1074 = unit at hunit ⊢
  rw [Finset.mul_sum, Finset.mul_sum, Finset.mul_sum]
  refine Finset.sum_congr rfl fun j _ => ?_
  field_simp
  ring

theorem transformSlack_eq (inverse : Bool) (b : Vector Binary64 64) (n : Nat) :
    2 ^ 1074 * 2 ^ 258 * transformSlack b = 2 * (transformExact inverse b n).2 := by
  have hunit : (2 : ℝ) ^ 1074 ≠ 0 := by positivity
  rw [transformExact_eq]
  simp only [transformSlack, sampleValue, Nat.cast_sum, Nat.cast_mul, Nat.cast_pow, Nat.cast_ofNat, abs_div, abs_f64Units]
  rw [abs_of_pos (by positivity)]
  generalize (2 : ℝ) ^ 1074 = unit at hunit ⊢
  rw [Finset.sum_div, Finset.mul_sum, Finset.mul_sum]
  refine Finset.sum_congr rfl fun j _ => ?_
  field_simp

/-- The band check over the reals. -/
theorem inBand_iff {eps : Nat} {exact : Int × Nat} {d : Binary64} :
    inBand eps exact d = true ↔ Binary64.isFinite d = true ∧
      |(f64Units d : ℝ) * 2 ^ 258 - (exact.1 : ℝ)| ≤ (eps : ℝ) * (2 ^ 1010 * 2 ^ 258) + (exact.2 : ℝ) := by
  have hcast : ((f64Units d * 2 ^ 258 - exact.1).natAbs : ℝ) = |(f64Units d : ℝ) * 2 ^ 258 - (exact.1 : ℝ)| := by
    rw [Nat.cast_natAbs, Int.cast_abs, Int.cast_sub, Int.cast_mul, Int.cast_pow, Int.cast_ofNat]
  have hbound : ((eps * 2 ^ (1010 + 258) + exact.2 : Nat) : ℝ) = eps * (2 ^ 1010 * 2 ^ 258) + exact.2 := by
    rw [Nat.cast_add, Nat.cast_mul, Nat.cast_pow, Nat.cast_ofNat, pow_add]
  rw [inBand, Bool.and_eq_true, decide_eq_true_iff, ← Nat.cast_le (α := ℝ), hcast, hbound]

section Band

variable {inverse : Bool} {b : Vector Binary64 64} {n eps : Nat} {d : Binary64}

/-- The distance from the exact transform, in the units of the model's integers. -/
theorem scaled_distance : 2 ^ 1074 * 2 ^ 258 * |sampleValue d - transformValue inverse b n| =
    |(f64Units d : ℝ) * 2 ^ 258 - 2 ^ 256 * transformSum inverse b n| := by
  have hpos : (0 : ℝ) < 2 ^ 1074 * 2 ^ 258 := by positivity
  rw [← transformValue_eq, ← abs_of_pos hpos, ← abs_mul, abs_of_pos hpos, mul_sub, sampleValue]
  congr 2
  field_simp

/-- DCT_EPS in the same units. -/
theorem scaled_eps : 2 ^ 1074 * 2 ^ 258 * ((eps : ℝ) / 2 ^ 64) = eps * (2 ^ 1010 * 2 ^ 258) := by
  rw [show (2 : ℝ) ^ 1074 = 2 ^ 1010 * 2 ^ 64 by rw [← pow_add]]
  field_simp

theorem inBand_of_near (hd : Binary64.isFinite d = true) (h : |sampleValue d - transformValue inverse b n| ≤ eps / 2 ^ 64) :
    inBand eps (transformExact inverse b n) d = true := by
  have hscaled := mul_le_mul_of_nonneg_left h (by positivity : (0 : ℝ) ≤ 2 ^ 1074 * 2 ^ 258)
  rw [scaled_distance, scaled_eps] at hscaled
  refine inBand_iff.2 ⟨hd, (abs_sub_le _ (2 ^ 256 * transformSum inverse b n) _).trans (add_le_add hscaled ?_)⟩
  rw [abs_sub_comm]
  exact transformExact_near inverse b n

theorem near_of_inBand (h : inBand eps (transformExact inverse b n) d = true) :
    |sampleValue d - transformValue inverse b n| ≤ eps / 2 ^ 64 + transformSlack b := by
  obtain ⟨-, hband⟩ := inBand_iff.1 h
  refine le_of_mul_le_mul_left ?_ (by positivity : (0 : ℝ) < 2 ^ 1074 * 2 ^ 258)
  rw [scaled_distance, mul_add, scaled_eps, transformSlack_eq inverse b n, two_mul, ← add_assoc]
  exact (abs_sub_le _ _ _).trans (add_le_add hband (transformExact_near inverse b n))

/-- The finite binary64 nearest to the exact element is in the band if any is. -/
theorem inBand_nearestExact {exact : Int × Nat} (h : inBand eps exact d = true) :
    inBand eps exact (nearestExact exact) = true := by
  rw [inBand, Bool.and_eq_true, decide_eq_true_iff] at h ⊢
  obtain ⟨hd, hband⟩ := h
  exact ⟨isFinite_f64RoundFinite exact.1 (2 ^ 258), (nearestExact_nearest exact hd).trans hband⟩

end Band

/-! ### FDCT and IDCT -/

section Elements

variable {inverse : Bool} {s : State} {n eps : Nat}

theorem transformElement_reference (h : s.params.dct = .reference) :
    transformElement inverse s n =
      finiteOr (s.draws + n) (if inverse then idctReference s.sfile n else fdctReference s.sfile n) := by
  rw [transformElement, h]

theorem transformElement_reference_zero (h : s.params.dct = .reference) (hzero : s.sfile = Vector.replicate 64 0)
    (hn : n < 64) : transformElement inverse s n = 0 := by
  have hb : ∀ j, j < 64 → blockAt s.sfile j 0 = 0 := fun j hj => by
    rw [hzero, blockAt_eq_getElem _ _ hj, Vector.getElem_replicate]
  rw [transformElement_reference h, idctReference_zero hb hn, fdctReference_zero hb hn, ite_self]
  rfl

theorem transformElement_drawn (h : s.params.dct = .drawn eps) :
    transformElement inverse s n =
      if inBand eps (transformExact inverse s.sfile n) (freeFiniteSample (s.draws + n)) then freeFiniteSample (s.draws + n)
      else if inBand eps (transformExact inverse s.sfile n) (nearestExact (transformExact inverse s.sfile n)) then
        nearestExact (transformExact inverse s.sfile n)
      else freeFiniteSample (s.draws + n) := by
  rw [transformElement, h]

/-- The free value is taken whenever it is within DCT_EPS (R331). -/
theorem transformElement_free (h : s.params.dct = .drawn eps)
    (hnear : |sampleValue (freeFiniteSample (s.draws + n)) - transformValue inverse s.sfile n| ≤ eps / 2 ^ 64) :
    transformElement inverse s n = freeFiniteSample (s.draws + n) := by
  rw [transformElement_drawn h, if_pos (inBand_of_near (freeFiniteSample_isFinite _) hnear)]

/-- The element is in the band where any binary64 is within DCT_EPS (R331). -/
theorem transformElement_near (h : s.params.dct = .drawn eps) {e : Binary64} (he : Binary64.isFinite e = true)
    (hnear : |sampleValue e - transformValue inverse s.sfile n| ≤ eps / 2 ^ 64) :
    |sampleValue (transformElement inverse s n) - transformValue inverse s.sfile n| ≤
      eps / 2 ^ 64 + transformSlack s.sfile := by
  refine near_of_inBand ?_
  rw [transformElement_drawn h]
  split
  · assumption
  · rw [if_pos (inBand_nearestExact (inBand_of_near he hnear))]
    exact inBand_nearestExact (inBand_of_near he hnear)

end Elements

/-- A sum over the rows of a block. -/
theorem sum_rows (f : Nat → ℝ) (k : Nat) :
    ∑ y ∈ Finset.range k, ∑ x ∈ Finset.range 8, f (8 * y + x) = ∑ j ∈ Finset.range (8 * k), f j := by
  induction k with
  | zero => rfl
  | succ k ih => rw [Finset.sum_range_succ, ih, Nat.mul_succ, Finset.sum_range_add]

/-- The double sum of R332 is the transform. -/
theorem transformValue_forward (b : Vector Binary64 64) (n : Nat) :
    1 / 4 * (if n % 8 = 0 then 1 / √2 else 1) * (if n / 8 = 0 then 1 / √2 else 1) *
      ∑ y ∈ Finset.range 8, ∑ x ∈ Finset.range 8, sampleValue (blockAt b (8 * y + x) 0) *
        cos ((2 * (x : ℝ) + 1) * (n % 8 : Nat) * π / 16) * cos ((2 * (y : ℝ) + 1) * (n / 8 : Nat) * π / 16) =
    transformValue false b n := by
  rw [transformValue, ← sum_rows _ 8, mul_assoc, mul_assoc]
  simp only [Finset.mul_sum]
  refine Finset.sum_congr rfl fun y _ => Finset.sum_congr rfl fun x hx => ?_
  have hx := Finset.mem_range.1 hx
  rw [weightValue, if_neg Bool.false_ne_true, basisValue, basisValue, show (8 * y + x) % 8 = x by omega,
    show (8 * y + x) / 8 = y by omega]
  ring

/-- The double sum of R333 is the transform. -/
theorem transformValue_inverse (b : Vector Binary64 64) (n : Nat) :
    1 / 4 * ∑ v ∈ Finset.range 8, ∑ u ∈ Finset.range 8, (if u = 0 then 1 / √2 else 1) * (if v = 0 then 1 / √2 else 1) *
        sampleValue (blockAt b (8 * v + u) 0) * cos ((2 * ((n % 8 : Nat) : ℝ) + 1) * u * π / 16) *
          cos ((2 * ((n / 8 : Nat) : ℝ) + 1) * v * π / 16) =
    transformValue true b n := by
  rw [transformValue, ← sum_rows _ 8]
  refine congrArg (1 / 4 * ·) (Finset.sum_congr rfl fun v _ => Finset.sum_congr rfl fun u hu => ?_)
  have hu := Finset.mem_range.1 hu
  rw [weightValue, if_pos rfl, basisValue, basisValue, show (8 * v + u) % 8 = u by omega,
    show (8 * v + u) / 8 = v by omega]
  ring

/-- What a transform writes (R331, R345, R346): finite samples; under the reference numerics the sums, and zeros for a zero
block; under the drawn ones what is within DCT_EPS, the free value first. -/
structure TransformWritten (inverse : Bool) (s t : State) : Prop where
  finite : ∀ n, n < 64 → Binary64.isFinite (blockAt t.sfile n 0) = true
  reference : s.params.dct = .reference → ∀ n, n < 64 →
    Binary64.isFinite (if inverse then idctReference s.sfile n else fdctReference s.sfile n) = true →
      blockAt t.sfile n 0 = if inverse then idctReference s.sfile n else fdctReference s.sfile n
  zero : s.params.dct = .reference → s.sfile = Vector.replicate 64 0 → t.sfile = Vector.replicate 64 0
  drawn : ∀ eps n : Nat, s.params.dct = .drawn eps → n < 64 →
    ((∃ e : Binary64, Binary64.isFinite e = true ∧ |sampleValue e - transformValue inverse s.sfile n| ≤ eps / 2 ^ 64) →
      |sampleValue (blockAt t.sfile n 0) - transformValue inverse s.sfile n| ≤ eps / 2 ^ 64 + transformSlack s.sfile) ∧
    (|sampleValue (freeFiniteSample (s.draws + n)) - transformValue inverse s.sfile n| ≤ eps / 2 ^ 64 →
      blockAt t.sfile n 0 = freeFiniteSample (s.draws + n))

theorem transformed_next (inverse : Bool) (s : State) :
    ∃ t, finish s (.ok (s.transformed inverse)) = .next t ∧ TransformWritten inverse s t ∧
      Advanced [] [] [.sfile] [] s t := by
  obtain ⟨t, ht, hs, hadv⟩ := setSfile_next s (transformElement inverse s) (s.draws + 64)
  refine ⟨t, ht, ⟨fun n hn => ?_, fun href n hn hfinite => ?_, fun href hzero => block_ext 0 fun n hn => ?_,
    fun eps n hdrawn hn => ⟨?_, fun hnear => ?_⟩⟩, hadv⟩
  · rw [hs n hn]
    exact transformElement_isFinite inverse s n
  · rw [hs n hn, transformElement_reference href, finiteOr, if_pos hfinite]
  · rw [hs n hn, transformElement_reference_zero href hzero hn, blockAt_eq_getElem _ _ hn, Vector.getElem_replicate]
  · rintro ⟨e, he, hnear⟩
    rw [hs n hn]
    exact transformElement_near hdrawn he hnear
  · rw [hs n hn, transformElement_free hdrawn hnear]

/-- C(0) of the reference evaluation is within half a unit in the last place of 1/sqrt(2) (R332). -/
theorem normC_zero_near : 2 * |(f64Units 0x3FE6A09E667F3BCD : ℝ) - 2 ^ 1074 * (1 / √2)| ≤ 2 ^ 1021 := by
  have h := cosBits_near (k := 4) (by decide)
  rw [cos_4_eq] at h
  exact h

theorem exec_fdct (s : State) : exec .fdct s = finish s (.ok (s.transformed false)) := rfl

theorem exec_idct (s : State) : exec .idct s = finish s (.ok (s.transformed true)) := rfl

/-- Settles O47: both commands write what `TransformWritten` says, whose transform is the double sum. -/
theorem transforms : Obligations.Transforms := by
  refine ⟨fun x u hx hu => cosTerm_near hx hu, normC_zero_near, fun s => ?_⟩
  intro value sample basis norm forward inverse normBits quarterBits sum forwardBits inverseBits slack written
  have hforward : forward = transformValue false s.sfile := funext (transformValue_forward s.sfile)
  have hinverse : inverse = transformValue true s.sfile := funext (transformValue_inverse s.sfile)
  have hforwardBits : forwardBits = fdctReference s.sfile := rfl
  have hinverseBits : inverseBits = idctReference s.sfile := rfl
  rw [hforward, hinverse, hforwardBits, hinverseBits, exec_fdct, exec_idct]
  obtain ⟨t, ht, ⟨hfinite, href, hzero, hdrawn⟩, hadv⟩ := transformed_next false s
  obtain ⟨u, hu, ⟨hfinite', href', hzero', hdrawn'⟩, hadv'⟩ := transformed_next true s
  exact ⟨⟨t, ht, ⟨hfinite, href, hzero, hdrawn⟩, hadv⟩, u, hu, ⟨hfinite', href', hzero', hdrawn'⟩, hadv'⟩

end Sys2Proof.Machine
end

section
/-! SUPPORT. Several CSRs written one after the other, and the two commands that only restart (O56): GIFREWIND and PRST are
rows of CSR writes. -/

namespace Sys2Proof.Machine

/-! ### Several CSRs written one after the other -/

/-- The CSRs of the list written in its order. -/
def State.setCsrs (s : State) (ws : List (Csr × Word)) : State := ws.foldl (fun t w => t.setCsr w.1 w.2) s

section Writes

variable {s t : State} {ws : List (Csr × Word)} {c : Csr} {n : Nat}

theorem State.setCsrs_cons (s : State) (w : Csr × Word) (ws : List (Csr × Word)) :
    s.setCsrs (w :: ws) = (s.setCsr w.1 w.2).setCsrs ws := rfl

@[simp] theorem State.setCsrs_pc (s : State) (ws : List (Csr × Word)) : (s.setCsrs ws).pc = s.pc := by
  induction ws generalizing s with
  | nil => rfl
  | cons w ws ih => rw [State.setCsrs_cons, ih, State.setCsr_pc]

theorem Effect.setCsrs {rs : List Reg} {cs : List Csr} {fs : List Store} {bytes : List Region}
    (h : Effect rs cs fs bytes s t) (hws : ws.map Prod.fst ⊆ cs) : Effect rs cs fs bytes s (t.setCsrs ws) := by
  induction ws generalizing t with
  | nil => exact h
  | cons w ws ih =>
    obtain ⟨hw, hws⟩ := List.cons_subset.1 hws
    exact ih (h.setCsr hw) hws

theorem State.getCsr_setCsrs_of_not_mem (hc : c ∉ ws.map Prod.fst) : (s.setCsrs ws).getCsr c = s.getCsr c :=
  ((Effect.refl s [] _ [] []).setCsrs (List.Subset.refl _)).csr c hc

/-- A CSR that is written once holds what is written, of its named bits (R35). -/
theorem State.getCsr_setCsrs {v : Word} (hnodup : (ws.map Prod.fst).Nodup) (hmem : (c, v) ∈ ws) :
    (s.setCsrs ws).getCsr c = v &&& c.mask := by
  induction ws generalizing s with
  | nil => cases hmem
  | cons w ws ih =>
    obtain ⟨hw, hnodup⟩ := List.nodup_cons.1 hnodup
    rw [State.setCsrs_cons]
    obtain rfl | hmem := List.mem_cons.1 hmem
    · rw [State.getCsr_setCsrs_of_not_mem hw, State.getCsr_setCsr_self]
    · exact ih hnodup hmem

/-- The named bits of a CSR but STATUS are its lowest ones (R35). -/
theorem Csr.mask_eq (hc : c ≠ .status) : ∃ k ≤ 32, c.mask.toNat = 2 ^ k - 1 := by
  cases c
  case status => exact absurd rfl hc
  case ie | brMode | gOpen | gwOpen => exact ⟨1, by decide, rfl⟩
  case bwMode | gPixFmt => exact ⟨2, by decide, rfl⟩
  case bwNacc => exact ⟨3, by decide, rfl⟩
  case gGce => exact ⟨6, by decide, rfl⟩
  case bwAcc | gLsdPk | gBg | gAspect | gTrans | gImgPk => exact ⟨8, by decide, rfl⟩
  case gGctN | gLctN => exact ⟨10, by decide, rfl⟩
  case qValid | gSw | gSh | gDelay | gwW | gwH => exact ⟨16, by decide, rfl⟩
  case gLoop => exact ⟨17, by decide, rfl⟩
  all_goals exact ⟨32, by decide, rfl⟩

/-- A number that a CSR's named bits can hold is held. -/
theorem toNat_u32_and_mask (hc : c ≠ .status) (hn : n ≤ c.mask.toNat) : (u32 n &&& c.mask).toNat = n := by
  obtain ⟨k, -, hmask⟩ := Csr.mask_eq hc
  have hpow := Nat.two_pow_pos k
  have hword : n < 2 ^ 32 := hn.trans_lt c.mask.isLt
  rw [BitVec.toNat_and, BitVec.toNat_ofNat, Nat.mod_eq_of_lt hword, hmask, Nat.and_two_pow_sub_one_eq_mod,
    Nat.mod_eq_of_lt (by omega)]

theorem State.getCsrNat_of_eq (h : s.getCsr c = u32 n &&& c.mask) (hc : c ≠ .status) (hn : n ≤ c.mask.toNat) :
    s.getCsrNat c = n := by
  rw [State.getCsrNat, h, toNat_u32_and_mask hc hn]

/-- What CSRs of different names hold after they are written (R35). -/
theorem State.setCsrs_next (s : State) {cs : List Csr} (hnodup : (ws.map Prod.fst).Nodup) (hcs : ws.map Prod.fst ⊆ cs) :
    ∃ t, s.setCsrs ws = t ∧ t.pc = s.pc ∧ Effect [] cs [] [] s t ∧ ∀ w ∈ ws, t.getCsr w.1 = w.2 &&& w.1.mask :=
  ⟨_, rfl, s.setCsrs_pc ws, (Effect.refl s ..).setCsrs hcs, fun _ hw => State.getCsr_setCsrs hnodup hw⟩

end Writes

/-! ### GIFREWIND and PRST -/

theorem exec_gifrewind (s : State) : exec .gifrewind s = execGifrewind s := rfl

/-- PRST writes 0 to all four predictors (R467). -/
theorem exec_prst (s : State) :
    exec .prst s = finish s (.ok (s.setCsrs [(.pred0, 0), (.pred1, 0), (.pred2, 0), (.pred3, 0)])) := rfl

theorem Csr.pred_mem (p : BitVec 2) : Csr.pred p ∈ [Csr.pred0, .pred1, .pred2, .pred3] := by
  unfold Csr.pred
  split <;> simp

/-- Settles O56: both commands are rows of CSR writes, GIFREWIND after the check for an open file. -/
theorem restarts : Obligations.Restarts := by
  refine ⟨rfl, rfl, fun s => ⟨fun hopen => ?_, fun hclosed => ?_, ?_⟩⟩
  · simp only [exec_gifrewind, execGifrewind, hopen, beq_self_eq_true, require_true, Res.ok_bind]
    refine ⟨_, rfl, ?_, ?_, ?_, ?_, Effect.advanced ?_ rfl⟩
    · simp [State.getCsr_setCsr, Csr.mask]
    · simp [State.getCsr_setCsr]
    · simp [State.getCsr_setCsr]
    · simp
    · refine ((((Effect.refl s ..).setCsr ?_).setCsr ?_).setCsr ?_).setCsr ?_ <;> simp
  · simp only [exec_gifrewind, execGifrewind, hclosed, require_false, Res.error_bind, leaving_raise,
      show ((0 : Word) == 1) = false from rfl]
    exact finish_raise_leaving rfl (by simp)
  · have heffect := (Effect.refl s [] _ [] []).setCsrs (ws := [(.pred0, 0), (.pred1, 0), (.pred2, 0), (.pred3, 0)])
      (List.Subset.refl _)
    refine ⟨_, exec_prst s, fun p => ?_, heffect.advanced (State.setCsrs_pc ..)⟩
    have hmem : (Csr.pred p, (0 : Word)) ∈ [(Csr.pred0, (0 : Word)), (.pred1, 0), (.pred2, 0), (.pred3, 0)] := by
      simpa using Csr.pred_mem p
    exact (State.getCsr_setCsrs (by decide) hmem).trans (BitVec.zero_and ..)

end Sys2Proof.Machine
end

section
/-! SUPPORT. The files of the GIF parser (R380) and GIFOPEN (O51): bytes that stand in a file are what its reads answer, a
sub-block chain is skipped or gathered to its end, and GIFOPEN is a row of CSR writes once its header is read. -/

namespace Sys2Proof.Machine

/-! ### Bytes of a file (R380) -/

/-- The file has these bytes from offset o on, within its length (R380). -/
def Region.Has (file : Region) (s : State) (o : Nat) (bs : List Byte) : Prop :=
  o + bs.length ≤ file.len ∧ s.holds (file.base + o) bs = true

section Files

variable {s : State} {file : Region} {o : Nat} {bs xs ys : List Byte} {b lo hi : Byte}

theorem State.fileHolds.has (h : s.fileHolds o bs) : s.file.Has s o bs := h

theorem Region.has_append : file.Has s o (xs ++ ys) ↔ file.Has s o xs ∧ file.Has s (o + xs.length) ys := by
  simp only [Region.Has, State.holds_append, List.length_append, ← Nat.add_assoc]
  constructor
  · rintro ⟨hlen, hxs, hys⟩
    exact ⟨⟨by omega, hxs⟩, hlen, hys⟩
  · rintro ⟨⟨-, hxs⟩, hlen, hys⟩
    exact ⟨hlen, hxs, hys⟩

/-- A file has the bytes that are read there one after the other. -/
theorem Region.has_cons : file.Has s o (b :: bs) ↔ fileByte s file o = .ok b ∧ file.Has s (o + 1) bs := by
  simp only [Region.Has, fileByte, State.holds, List.length_cons, Res.bind_eq_ok, require_eq_ok, State.readByte_eq_ok,
    Bool.and_eq_true, beq_iff_eq, decide_eq_true_eq, ← Nat.add_assoc]
  constructor
  · rintro ⟨hlen, ⟨hread, hsize⟩, hrest⟩
    exact ⟨⟨(), by omega, hsize, hread⟩, by omega, hrest⟩
  · rintro ⟨⟨-, -, hsize, hread⟩, hlen, hrest⟩
    exact ⟨by omega, ⟨hread, hsize⟩, hrest⟩

theorem Region.Has.le (h : file.Has s o bs) : o + bs.length ≤ file.len := h.1

theorem fileU16_of_bytes (hlo : fileByte s file o = .ok lo) (hhi : fileByte s file (o + 1) = .ok hi) :
    fileU16 s file o = .ok (lo.toNat + 256 * hi.toNat) := by
  rw [fileU16, hlo, Res.ok_bind, hhi]
  rfl

/-- The value of the two bytes of a 16-bit number (R380). -/
theorem toNat_leBytes {v : Nat} (hv : v < 2 ^ 16) :
    (BitVec.ofNat 8 v).toNat + 256 * (BitVec.ofNat 8 (v / 256)).toNat = v := by
  simp only [BitVec.toNat_ofNat]
  omega

theorem fileU16_of_has {v : Nat} (hv : v < 2 ^ 16) (h : file.Has s o (leBytes 2 v)) : fileU16 s file o = .ok v := by
  obtain ⟨hlo, hrest⟩ := Region.has_cons.1 h
  rw [fileU16_of_bytes hlo (Region.has_cons.1 hrest).1, toNat_leBytes hv]

theorem fileBytes_of_has (h : file.Has s o bs) : fileBytes s file o bs.length = .ok bs := by
  induction bs generalizing o with
  | nil => rfl
  | cons b bs ih =>
    obtain ⟨hb, hrest⟩ := Region.has_cons.1 h
    rw [List.length_cons, fileBytes, hb, Res.ok_bind, ih hrest]
    rfl

theorem fileByte_of_has (h : file.Has s o bs) {i : Nat} (hi : i < bs.length) : fileByte s file (o + i) = .ok bs[i] := by
  rw [← List.take_append_drop i bs, List.drop_eq_getElem_cons hi, Region.has_append, List.length_take,
    min_eq_left hi.le] at h
  exact (Region.has_cons.1 h.2).1

/-- A table that stands in the file passes the check for it (R390). -/
theorem checkTable_of_has {n : Nat} (h : file.Has s o bs) (hn : 0 < n) (hlen : 3 * n ≤ bs.length) :
    checkTable s file o n = .ok () := by
  have hlast := fileByte_of_has h (i := 3 * n - 1) (by omega)
  rw [checkTable, Nat.add_sub_assoc (by omega), hlast]
  rfl

end Files

/-! ### Sub-block chains in a file (R380) -/

section Chains

variable {s : State} {file dst : Region} {o n fuel : Nat} {c data : List Byte} {chunks : List (List Byte)}

/-- The length byte of a legal chunk (R224). -/
theorem chunk_length_byte (hc : 1 ≤ c.length ∧ c.length ≤ 255) :
    (BitVec.ofNat 8 c.length).toNat = c.length ∧ BitVec.ofNat 8 c.length ≠ 0 := by
  have hlen : (BitVec.ofNat 8 c.length).toNat = c.length := by
    rw [BitVec.toNat_ofNat, Nat.mod_eq_of_lt (by omega)]
  refine ⟨hlen, fun h => ?_⟩
  rw [h] at hlen
  simp at hlen
  omega

/-- A chain that starts with a chunk has its length byte, its data and then the rest of the chain (R224). -/
theorem Region.has_subBlockChain_cons (h : file.Has s o (subBlockChain (c :: chunks))) :
    fileByte s file o = .ok (BitVec.ofNat 8 c.length) ∧ file.Has s (o + 1) c ∧
      file.Has s (o + 1 + c.length) (subBlockChain chunks) := by
  rw [subBlockChain_cons, Region.has_cons, Region.has_append] at h
  exact h

theorem Region.Has.chain_end (h : file.Has s o (subBlockChain [])) : fileByte s file o = .ok 0 := (Region.has_cons.1 h).1

theorem subBlockChain_end_cons (o : Nat) (c : List Byte) (cs : List (List Byte)) :
    o + 1 + c.length + (subBlockChain cs).length = o + (subBlockChain (c :: cs)).length := by
  rw [subBlockChain_cons, List.length_cons, List.length_append]
  omega

/-- The fuel of the loops over a chain is more than its chunks. -/
theorem Region.Has.chunks_lt (h : file.Has s o (subBlockChain chunks)) : chunks.length < file.len + 1 := by
  have hlen := h.le
  rw [length_subBlockChain] at hlen
  omega

/-- `SkipSub` over a chain answers the offset behind it (R380). -/
theorem skipSub_chain (hlegal : chunksLegal chunks = true) (h : file.Has s o (subBlockChain chunks))
    (hfuel : chunks.length < fuel) : skipSub s file fuel o = .ok (o + (subBlockChain chunks).length) := by
  obtain ⟨fuel, rfl⟩ := Nat.exists_eq_succ_of_ne_zero (Nat.ne_zero_of_lt hfuel)
  induction chunks generalizing fuel o with
  | nil =>
    rw [skipSub, h.chain_end, Res.ok_bind, if_pos (beq_self_eq_true 0)]
    rfl
  | cons c cs ih =>
    obtain ⟨hc, hlegal⟩ := chunksLegal_cons.1 hlegal
    obtain ⟨hlen, hne⟩ := chunk_length_byte hc
    obtain ⟨hbyte, hdata, hrest⟩ := Region.has_subBlockChain_cons h
    obtain ⟨fuel, rfl⟩ := Nat.exists_eq_succ_of_ne_zero (n := fuel) (by rintro rfl; simp at hfuel)
    rw [skipSub, hbyte, Res.ok_bind, if_neg (mt beq_iff_eq.1 hne), hlen, decide_eq_true hdata.le, require_true,
      Res.ok_bind, ih hlegal hrest fuel (by simpa using hfuel), subBlockChain_end_cons]

/-- Data that stand in the file are copied when there is room for them in the destination and in MEM (R380). -/
theorem gatherBlock_ok (h : file.Has s o data) (hcap : n + data.length ≤ dst.len)
    (hmem : dst.base + (n + data.length) ≤ s.memSize) : gatherBlock s file dst data.length o n = .ok data := by
  induction data generalizing o n with
  | nil => rfl
  | cons b bs ih =>
    obtain ⟨hb, hrest⟩ := Region.has_cons.1 h
    rw [List.length_cons] at hcap hmem
    have htail : gatherBlock s file dst bs.length (o + 1) (n + 1) = .ok bs := ih hrest (by omega) (by omega)
    rw [List.length_cons, gatherBlock, decide_eq_true (by omega), require_true, Res.ok_bind, hb, Res.ok_bind,
      State.checkRange_one (by omega), Res.ok_bind, htail]
    rfl

/-- `GatherSub` over a chain answers the offset behind it and its data, when there is room for them (R380). -/
theorem gatherSub_chain (hlegal : chunksLegal chunks = true) (h : file.Has s o (subBlockChain chunks))
    (hfuel : chunks.length < fuel) (hcap : n + chunks.flatten.length ≤ dst.len)
    (hmem : dst.base + (n + chunks.flatten.length) ≤ s.memSize) :
    gatherSub s file dst fuel o n = .ok (o + (subBlockChain chunks).length, chunks.flatten) := by
  obtain ⟨fuel, rfl⟩ := Nat.exists_eq_succ_of_ne_zero (Nat.ne_zero_of_lt hfuel)
  induction chunks generalizing fuel o n with
  | nil =>
    rw [gatherSub, h.chain_end, Res.ok_bind, if_pos (beq_self_eq_true 0)]
    rfl
  | cons c cs ih =>
    obtain ⟨hc, hlegal⟩ := chunksLegal_cons.1 hlegal
    obtain ⟨hlen, hne⟩ := chunk_length_byte hc
    obtain ⟨hbyte, hdata, hrest⟩ := Region.has_subBlockChain_cons h
    obtain ⟨fuel, rfl⟩ := Nat.exists_eq_succ_of_ne_zero (n := fuel) (by rintro rfl; simp at hfuel)
    rw [List.flatten_cons, List.length_append] at hcap hmem
    have htail := ih hlegal hrest (n := n + c.length) (by omega) (by omega) fuel (by simpa using hfuel)
    rw [gatherSub, hbyte, Res.ok_bind, if_neg (mt beq_iff_eq.1 hne), hlen, gatherBlock_ok hdata (by omega) (by omega),
      Res.ok_bind, htail, subBlockChain_end_cons]
    rfl

end Chains

/-! ### GIFOPEN -/

/-- The CSRs GIFOPEN writes, and what it writes to them, for a table of n entries (R390). -/
def openWrites (file : Region) (sw sh : Nat) (pk bg asp : Byte) (n : Nat) : List (Csr × Word) :=
  [(.gFileBase, u32 file.base), (.gFileLen, u32 file.len), (.gSw, u32 sw), (.gSh, u32 sh), (.gLsdPk, u32 pk.toNat),
    (.gBg, u32 bg.toNat), (.gAspect, u32 asp.toNat), (.gGctN, u32 n), (.gLoopOff, u32 (13 + 3 * n)),
    (.gCur, u32 (13 + 3 * n)), (.gGce, 0), (.gDelay, 0), (.gTrans, 0), (.gLoop, 0), (.gCmtLen, 0), (.gImgPos, 0),
    (.gImgSize, 0), (.gImgPk, 0), (.gLctN, 0), (.gLctOff, 0), (.gFrames, 0), (.gOpen, 1)]

theorem openWrites_nodup (file : Region) (sw sh : Nat) (pk bg asp : Byte) (n : Nat) :
    ((openWrites file sw sh pk bg asp n).map Prod.fst).Nodup := by
  simp [openWrites]

/-- The CSRs GIFOPEN writes, in the order in which R390 lists the state written. -/
theorem openWrites_subset (file : Region) (sw sh : Nat) (pk bg asp : Byte) (n : Nat) :
    (openWrites file sw sh pk bg asp n).map Prod.fst ⊆
      [.gFileBase, .gFileLen, .gCur, .gLoopOff, .gSw, .gSh, .gLsdPk, .gBg, .gAspect, .gGctN, .gGce, .gDelay, .gTrans,
        .gLoop, .gImgPos, .gImgSize, .gImgPk, .gLctN, .gFrames, .gCmtLen, .gOpen, .gLctOff] := by
  simp [openWrites]

/-- A byte as a word. -/
theorem setWidth_byte (b : Byte) : b.setWidth 32 = u32 b.toNat := (BitVec.ofNat_toNat ..).symm

theorem u32_toNat_and_full (w : Word) : u32 w.toNat &&& 0xFFFFFFFF#32 = w := by
  rw [and_fullMask, u32, BitVec.ofNat_toNat, BitVec.setWidth_eq]

theorem tableEntries_eq (pk : Byte) : tableEntries pk = 2 ^ (pk.toNat % 8 + 1) := by
  simp [tableEntries]

theorem tableEntries_le (pk : Byte) : tableEntries pk ≤ 256 := by
  have hpow : 2 ^ (pk.toNat % 8 + 1) ≤ 2 ^ 8 := Nat.pow_le_pow_right (by decide) (by omega)
  rwa [tableEntries_eq]

theorem exec_gifopen (rb rc : Reg) (s : State) : exec (.gifopen rb rc) s = execGifopen rb rc s := rfl

section Open

variable {s : State} {rb rc : Reg}

/-- A GIFOPEN that succeeds writes its CSRs to the state it began in (R390). -/
theorem execGifopen_ok {t : State} (h : openFile s ⟨s.getXNat rb, s.getXNat rc⟩ = .ok t) :
    execGifopen rb rc s = .next t.advance := by
  rw [execGifopen, h]
  rfl

/-- A fault of GIFOPEN is taken with no file open, and leaves the parser CSRs (R390, S7). -/
theorem execGifopen_raise {code : FaultCode} {aux : Word}
    (h : openFile s ⟨s.getXNat rb, s.getXNat rc⟩ = .error (.raise ⟨code, aux⟩ [])) :
    ∃ t, execGifopen rb rc s = .next t ∧ t.getCsr .gOpen = 0 ∧
      FaultLeaving code aux (.gOpen :: Csr.gifParser) [] [] s t := by
  have hleft : ∀ p ∈ Csr.gifParser.map Leftover.csr, p.Within Csr.gifParser [] [] := by simp
  obtain ⟨t, ht, htaken, heffect⟩ :=
    finish_raise_leaving (s := openFault s) (r := .error (.raise ⟨code, aux⟩ (Csr.gifParser.map .csr))) rfl hleft
  have hnext : execGifopen rb rc s = .next t := by
    rw [execGifopen, h]
    exact ht
  refine ⟨t, hnext, ?_, { htaken with }, ?_⟩
  · rw [heffect.csr .gOpen (by decide), openFault, State.getCsr_setCsr_self]
    rfl
  · refine ((Effect.refl s ..).setCsr List.mem_cons_self).trans (heffect.mono (List.Subset.refl _) ?_ (List.Subset.refl _)
      fun _ => id)
    exact List.subset_cons_self ..

variable {file : Region} {sw sh : Nat} {sig rest : List Byte} {pk bg asp : Byte}

/-- What GIFOPEN reads of a file that has the fields of a header (R381, R382). -/
theorem Region.Has.header (hsw : sw < 2 ^ 16) (hsh : sh < 2 ^ 16) (hsig : sig.length = 6)
    (h : file.Has s 0 (sig ++ leBytes 2 sw ++ leBytes 2 sh ++ [pk, bg, asp] ++ rest)) :
    fileBytes s file 0 6 = .ok sig ∧ fileU16 s file 6 = .ok sw ∧ fileU16 s file 8 = .ok sh ∧
      fileByte s file 10 = .ok pk ∧ fileByte s file 11 = .ok bg ∧ fileByte s file 12 = .ok asp ∧
      file.Has s 13 rest := by
  simp only [Region.has_append, List.length_append, hsig, length_leBytes, List.length_cons, List.length_nil] at h
  obtain ⟨⟨⟨⟨hsig', hsw'⟩, hsh'⟩, hbytes⟩, hrest⟩ := h
  simp only [Region.has_cons] at hbytes
  obtain ⟨hpk, hbg, hasp, -⟩ := hbytes
  exact ⟨hsig ▸ fileBytes_of_has hsig', fileU16_of_has hsw hsw', fileU16_of_has hsh hsh', hpk, hbg, hasp, hrest⟩

/-- GIFOPEN of a file that has its whole global colour table (R390). -/
theorem openFile_ok {n : Nat} (hsw : sw < 2 ^ 16) (hsh : sh < 2 ^ 16) (hn : n = if pk.getLsbD 7 then tableEntries pk else 0)
    (hlen : 3 * n ≤ rest.length)
    (h : file.Has s 0 (gif89a ++ leBytes 2 sw ++ leBytes 2 sh ++ [pk, bg, asp] ++ rest)) :
    openFile s file = .ok (s.setCsrs (openWrites file sw sh pk bg asp n)) := by
  obtain ⟨hsig, hsw, hsh, hpk, hbg, hasp, hrest⟩ := h.header hsw hsh rfl
  simp only [openFile, hsig, hsw, hsh, hpk, hbg, hasp, beq_self_eq_true, Bool.true_or, require_true, Res.ok_bind, ← hn]
  by_cases hpos : 0 < n
  · simp only [hpos, if_true, checkTable_of_has hrest hpos hlen, Res.ok_bind, setWidth_byte]
    rfl
  · simp only [hpos, if_false, setWidth_byte]
    rfl

/-- Another signature is refused (R381). -/
theorem openFile_signature (hsw : sw < 2 ^ 16) (hsh : sh < 2 ^ 16) (hlen : sig.length = 6) (hsig : sig ≠ gif89a)
    (h87a : s.params.acceptGif87a = false)
    (h : file.Has s 0 (sig ++ leBytes 2 sw ++ leBytes 2 sh ++ [pk, bg, asp] ++ rest)) :
    openFile s file = .error (.raise ⟨.malformedHeader, 1⟩ []) := by
  obtain ⟨hread, -⟩ := h.header hsw hsh hlen
  rw [openFile, hread, Res.ok_bind, beq_eq_false_iff_ne.2 hsig, h87a]
  rfl

end Open

/-- Settles O51: the header is read field by field, and after the check of the table GIFOPEN is a row of CSR writes. -/
theorem Laws.openFile : Obligations.OpenFile := by
  intro rb rc s sw sh sig rest pk bg asp hsw hsh hsig hmem hlen n
  have hhas : Region.Has ⟨s.getXNat rb, s.getXNat rc⟩ s 0
      (sig ++ leBytes 2 sw ++ leBytes 2 sh ++ [pk, bg, asp] ++ rest) := by
    refine ⟨?_, hmem⟩
    simp only [List.length_append, hsig, length_leBytes, List.length_cons, List.length_nil, hlen]
    omega
  refine ⟨fun h89a htable => ?_, fun h89a h87a => ?_⟩
  · subst h89a
    have hn : n = if pk.getLsbD 7 then tableEntries pk else 0 := by rw [tableEntries_eq]
    have hnmax : n ≤ 0x3FF := by
      rw [hn]
      split
      · exact (tableEntries_le pk).trans (by decide)
      · exact Nat.zero_le _
    have hfile := (s.getX rc).isLt
    obtain ⟨t, ht, hpc, heffect, hcsrs⟩ := s.setCsrs_next
      (openWrites_nodup ⟨s.getXNat rb, s.getXNat rc⟩ sw sh pk bg asp n) (openWrites_subset ..)
    simp only [openWrites, List.forall_mem_cons] at hcsrs
    obtain ⟨hbase, hflen, hsw', hsh', hpk, hbg, hasp, hgct, hloop, hcur, hgce, hdelay, htrans, hgloop, hcmt, hpos, hsize,
      himg, hlct, hoff, hframes, hopen, -⟩ := hcsrs
    rw [exec_gifopen, execGifopen_ok (openFile_ok hsw hsh hn htable hhas), ht]
    have hend : 13 + 3 * n ≤ 0xFFFFFFFF := by omega
    refine ⟨_, rfl, hbase.trans (u32_toNat_and_full _), hflen.trans (u32_toNat_and_full _),
      State.getCsrNat_of_eq hsw' (by decide) (Nat.le_of_lt_succ hsw),
      State.getCsrNat_of_eq hsh' (by decide) (Nat.le_of_lt_succ hsh),
      State.getCsrNat_of_eq hpk (by decide) (Nat.le_of_lt_succ pk.isLt),
      State.getCsrNat_of_eq hbg (by decide) (Nat.le_of_lt_succ bg.isLt),
      State.getCsrNat_of_eq hasp (by decide) (Nat.le_of_lt_succ asp.isLt),
      State.getCsrNat_of_eq hgct (by decide) hnmax, State.getCsrNat_of_eq hloop (by decide) hend,
      State.getCsrNat_of_eq hcur (by decide) hend, hopen, ?_, heffect.advanced hpc⟩
    simp [hgce, hdelay, htrans, hgloop, hcmt, hpos, hsize, himg, hlct, hoff, hframes]
  · rw [exec_gifopen]
    exact execGifopen_raise (openFile_signature hsw hsh hsig h89a h87a hhas)

end Sys2Proof.Machine
end

section
/-! SUPPORT. GIFNEXT at the blocks that are no image (O52, O53) and at images it refuses (O55). What GIFNEXT does beside its
block is said once: it takes the block's fault or its state, and leaves the scratch region unspecified (R58, R391). -/

namespace Sys2Proof.Machine

/-! ### The end of GIFNEXT -/

theorem exec_gifnext (ra : Reg) (s : State) : exec (.gifnext ra) s = execGifnext ra s := rfl

/-- Of the scratch region any value is left (R58). -/
theorem State.effect_drawMem (s : State) (r : Region) : Effect [] [] [] [r] s (s.drawMem r.base r.len) :=
  State.effect_leave (p := .mem r.base r.len) (by simp)

theorem RegIs.congr {ra : Reg} {v : Word} {t u : State} (h : RegIs ra v t) (hreg : u.getX ra = t.getX ra) : RegIs ra v u :=
  hreg.trans h

section Gifnext

variable {ra : Reg} {s t : State} {code : FaultCode} {aux : Nat}

/-- GIFNEXT ends in the state its block ends in, the scratch region aside (R58, R391). -/
theorem gifnext_ok {cs : List Csr} {bytes : List Region} (h : nextBlock ra s = .ok t)
    (heffect : Effect [ra] cs [] bytes s t) (hpc : t.pc = s.pc)
    (hscratch : ∀ a, outside bytes a → outside [s.scratchRegion] a) :
    ∃ u, exec (.gifnext ra) s = .next u ∧ Effect [] [] [] [s.scratchRegion] t u ∧ Advanced [ra] cs [] bytes s u := by
  have hdraw := t.effect_drawMem s.scratchRegion
  refine ⟨(t.drawMem s.scratchRegion.base s.scratchRegion.len).advance, ?_, { hdraw with }, Effect.advanced ?_ hpc⟩
  · rw [exec_gifnext, execGifnext, h]
    rfl
  · exact heffect.trans (hdraw.mono (List.nil_subset _) (List.nil_subset _) (List.Subset.refl _) hscratch)

/-- The same of a block that stores bytes at most, and ends with a row of CSR writes and its kind in ra (R391). -/
theorem gifnext_setCsrs {ws : List (Csr × Word)} {v : Word} {cs : List Csr} {bytes : List Region}
    (h : nextBlock ra s = .ok ((t.setCsrs ws).setX ra v)) (hnodup : (ws.map Prod.fst).Nodup) (hcs : ws.map Prod.fst ⊆ cs)
    (hstored : Effect [] [] [] bytes s t) (hpc : t.pc = s.pc) :
    ∃ u, exec (.gifnext ra) s = .next u ∧ RegIs ra v u ∧ (∀ w ∈ ws, u.getCsr w.1 = w.2 &&& w.1.mask) ∧
      Effect [ra] cs [] [s.scratchRegion] t u ∧ Advanced [ra] cs [] (bytes ++ [s.scratchRegion]) s u := by
  have hwrites : Effect [ra] cs [] [s.scratchRegion] t ((t.setCsrs ws).setX ra v) :=
    ((Effect.refl t ..).setCsrs hcs).setX List.mem_cons_self
  have hpart (a : Nat) (ha : outside (bytes ++ [s.scratchRegion]) a) : outside bytes a ∧ outside [s.scratchRegion] a :=
    List.forall_mem_append.1 ha
  have hblock : Effect [ra] cs [] (bytes ++ [s.scratchRegion]) s ((t.setCsrs ws).setX ra v) :=
    (hstored.mono (List.nil_subset _) (List.nil_subset _) (List.Subset.refl _) fun a ha => (hpart a ha).1).trans
      (hwrites.mono (List.Subset.refl _) (List.Subset.refl _) (List.Subset.refl _) fun a ha => (hpart a ha).2)
  obtain ⟨u, hu, hscratch, hadv⟩ := gifnext_ok h hblock (by simp [hpc]) fun a ha => (hpart a ha).2
  refine ⟨u, hu, (State.regIs_setX _ ra v).congr (hscratch.reg ra List.not_mem_nil), fun w hw => ?_, ?_, hadv⟩
  · rw [hscratch.csr w.1 List.not_mem_nil, State.setX_getCsr, State.getCsr_setCsrs hnodup hw]
  · exact hwrites.trans (hscratch.mono (List.nil_subset _) (List.nil_subset _) (List.Subset.refl _) fun _ => id)

/-- A fault of GIFNEXT but that of R109 leaves AUX and the scratch region unspecified (R58, R391). -/
theorem gifnext_raise (h : nextBlock ra s = .error (.raise ⟨code, u32 aux⟩ []))
    (hoverlap : (⟨code, u32 aux⟩ : EngineFault) ≠ ⟨.contractViolation, 1⟩) :
    ∃ t, exec (.gifnext ra) s = .next t ∧ FaultLeaving code (u32 aux) [.aux] [] [s.scratchRegion] s t := by
  rw [exec_gifnext, execGifnext, h, leavingPastOverlap, if_neg hoverlap, Res.error_bind, leaving_raise]
  exact finish_raise_leaving rfl (by simp)

end Gifnext

/-! ### The first bytes of a block -/

section Blocks

variable {ra : Reg} {s : State} {b label : Byte} {rest : List Byte}

theorem nextBlock_closed (h : s.getCsr .gOpen = 0) : nextBlock ra s = .error (.raise ⟨.contractViolation, u32 17⟩ []) := by
  rw [nextBlock, h]
  rfl

theorem nextBlock_trailer (hopen : s.getCsr .gOpen = 1) (h : fileByte s s.file (s.getCsrNat .gCur) = .ok 0x3B) :
    nextBlock ra s = .ok ((s.setX ra 0).setCsr .aux 0) := by
  simp only [nextBlock, hopen, h, beq_self_eq_true, require_true, Res.ok_bind, if_true]
  rfl

theorem nextBlock_image (hopen : s.getCsr .gOpen = 1) (h : fileByte s s.file (s.getCsrNat .gCur) = .ok 0x2C) :
    nextBlock ra s = decodeImage s (s.getCsrNat .gCur + 1) >>= fun t => .ok (t.setX ra 1) := by
  simp only [nextBlock, hopen, h, beq_self_eq_true, require_true, Res.ok_bind, beq_iff_eq, BitVec.reduceEq, if_false,
    if_true]
  rfl

theorem nextBlock_unknown (hopen : s.getCsr .gOpen = 1) (h : fileByte s s.file (s.getCsrNat .gCur) = .ok b)
    (h21 : b ≠ 0x21) (h2C : b ≠ 0x2C) (h3B : b ≠ 0x3B) :
    nextBlock ra s = .error (.raise ⟨.malformedHeader, u32 2⟩ []) := by
  simp only [nextBlock, hopen, h, beq_self_eq_true, require_true, Res.ok_bind, beq_eq_false_iff_ne.2 h21,
    beq_eq_false_iff_ne.2 h2C, beq_eq_false_iff_ne.2 h3B, Bool.false_eq_true, if_false, require_false, Res.error_bind]

/-- An extension is told apart by its label (R383). -/
theorem nextBlock_extension (hopen : s.getCsr .gOpen = 1) (h : s.fileHolds (s.getCsrNat .gCur) ([0x21, label] ++ rest)) :
    nextBlock ra s =
      if label = 0xF9 then nextControl ra s (s.getCsrNat .gCur + 2)
      else if label = 0xFF then nextApplication ra s (s.getCsrNat .gCur + 2)
      else if label = 0xFE then nextComment ra s (s.getCsrNat .gCur + 2)
      else nextOther ra s label (s.getCsrNat .gCur + 2) := by
  obtain ⟨hintro, hrest⟩ := Region.has_cons.1 h.has
  obtain ⟨hlabel, -⟩ := Region.has_cons.1 hrest
  simp only [nextBlock, hopen, hintro, hlabel, beq_self_eq_true, require_true, Res.ok_bind, beq_iff_eq,
    BitVec.reduceEq, if_false]

end Blocks

/-! ### The graphic control extension (R384) -/

/-- What a graphic control extension writes to the GCE CSRs (R384). -/
def controlWrites (pk lo hi trans : Byte) (cur : Nat) : List (Csr × Word) :=
  [(.gGce, u32 (1 + 2 * (pk.toNat % 2) + 4 * (pk.toNat / 2 % 2) + 8 * (pk.toNat / 4 % 8))),
    (.gDelay, u32 (lo.toNat + 256 * hi.toNat)), (.gTrans, u32 trans.toNat), (.gCur, u32 cur), (.aux, 0)]

/-- The fields of the GCE: in force, transparency, user input and disposal (R384). -/
theorem gce_fields (pk : Byte) :
    (pk.extractLsb' 2 3 ++ pk.extractLsb' 1 1 ++ pk.extractLsb' 0 1 ++ 1#1 : BitVec 6).setWidth 32 =
      u32 (1 + 2 * (pk.toNat % 2) + 4 * (pk.toNat / 2 % 2) + 8 * (pk.toNat / 4 % 8)) := by
  revert pk
  decide

theorem disposal_check (pk : Byte) : (pk.extractLsb' 2 3 == 0 || pk.extractLsb' 2 3 == 2) =
    decide (pk.toNat / 4 % 8 = 0 ∨ pk.toNat / 4 % 8 = 2) := by
  revert pk
  decide

theorem State.setX_setCsr_comm (s : State) (r : Reg) (v : Word) (c : Csr) (w : Word) :
    (s.setX r v).setCsr c w = (s.setCsr c w).setX r v := by
  unfold State.setX
  split <;> rfl

section Control

variable {ra : Reg} {s : State} {o : Nat} {pk lo hi trans : Byte}

/-- A graphic control extension with a disposal of 0 or 2 is a row of CSR writes (R384, R391). -/
theorem nextControl_ok (h : s.file.Has s o [0x04, pk, lo, hi, trans, 0x00])
    (hdisp : pk.toNat / 4 % 8 = 0 ∨ pk.toNat / 4 % 8 = 2) :
    nextControl ra s o = .ok ((s.setCsrs (controlWrites pk lo hi trans (o + 6))).setX ra 2) := by
  simp only [Region.has_cons, Nat.add_assoc, Nat.reduceAdd] at h
  obtain ⟨hsize, hpk, hlo, hhi, htrans, hterm, -⟩ := h
  simp only [nextControl, hsize, hpk, fileU16_of_bytes hlo hhi, htrans, hterm, beq_self_eq_true, require_true, Res.ok_bind,
    disposal_check, decide_eq_true hdisp, gce_fields, setWidth_byte, State.setX_setCsr_comm]
  rfl

/-- Another disposal is refused (R384). -/
theorem nextControl_disposal (h : s.file.Has s o [0x04, pk, lo, hi, trans, 0x00])
    (hdisp : ¬ (pk.toNat / 4 % 8 = 0 ∨ pk.toNat / 4 % 8 = 2)) :
    nextControl ra s o = .error (.raise ⟨.unsupportedFeature, u32 1⟩ []) := by
  simp only [Region.has_cons, Nat.add_assoc, Nat.reduceAdd] at h
  obtain ⟨hsize, hpk, -, -, -, hterm, -⟩ := h
  simp only [nextControl, hsize, hpk, hterm, beq_self_eq_true, require_true, Res.ok_bind, disposal_check,
    decide_eq_false hdisp, require_false, Res.error_bind]

end Control

/-- Settles O52: the first byte or the label picks the clause; the GCE's four fields fill its CSR. -/
theorem nextControlBlock : Obligations.NextControlBlock := by
  intro ra s
  have hext (pk lo hi trans : Byte) (hopen : s.getCsr .gOpen = 1)
      (h : s.fileHolds (s.getCsrNat .gCur) [0x21, 0xF9, 0x04, pk, lo, hi, trans, 0x00]) :
      nextBlock ra s = nextControl ra s (s.getCsrNat .gCur + 2) ∧
        s.file.Has s (s.getCsrNat .gCur + 2) [0x04, pk, lo, hi, trans, 0x00] :=
    ⟨(nextBlock_extension hopen h).trans (if_pos rfl), (Region.has_append (xs := [0x21, 0xF9]).1 h.has).2⟩
  refine ⟨fun hopen h => ?_, fun pk lo hi trans hopen h hdisp => ?_, fun pk lo hi trans hopen h h0 h2 => ?_,
    fun b hopen h h21 h2C h3B => ?_, fun hclosed => ?_⟩
  · have hblock := nextBlock_trailer (ra := ra) hopen (Region.has_cons.1 h.has).1
    rw [State.setX_setCsr_comm] at hblock
    obtain ⟨u, hu, hreg, hcsrs, -, hadv⟩ := gifnext_setCsrs (ws := [(.aux, 0)]) hblock (by simp) (List.Subset.refl _)
      (Effect.refl s _ _ _ []) rfl
    exact ⟨u, hu, hreg, hcsrs _ List.mem_cons_self, hadv⟩
  · obtain ⟨hblock, hfields⟩ := hext pk lo hi trans hopen h
    obtain ⟨u, hu, hreg, hcsrs, -, hadv⟩ := gifnext_setCsrs (cs := [.aux, .gGce, .gDelay, .gTrans, .gCur])
      (hblock.trans (nextControl_ok hfields hdisp)) (by simp [controlWrites]) (by simp [controlWrites])
      (Effect.refl s _ _ _ []) rfl
    have hend : s.getCsrNat .gCur + 2 + 6 ≤ 0xFFFFFFFF := hfields.le.trans (Nat.le_of_lt_succ (s.getCsr .gFileLen).isLt)
    simp only [controlWrites, List.forall_mem_cons] at hcsrs
    obtain ⟨hgce, hdelay, htrans, hcur, haux, -⟩ := hcsrs
    have hlo := lo.isLt
    have hhi := hi.isLt
    refine ⟨u, hu, hreg, haux, State.getCsrNat_of_eq hgce (by decide) ?_, State.getCsrNat_of_eq hdelay (by decide) ?_,
      State.getCsrNat_of_eq htrans (by decide) (Nat.le_of_lt_succ trans.isLt),
      State.getCsrNat_of_eq hcur (by decide) hend, hadv⟩
    · change _ ≤ 0x3F
      omega
    · change _ ≤ 0xFFFF
      omega
  · obtain ⟨hblock, hfields⟩ := hext pk lo hi trans hopen h
    exact gifnext_raise (hblock.trans (nextControl_disposal hfields (not_or.2 ⟨h0, h2⟩))) (by decide)
  · exact gifnext_raise (nextBlock_unknown hopen (Region.has_cons.1 h.has).1 h21 h2C h3B) (by decide)
  · exact gifnext_raise (nextBlock_closed hclosed) (by decide)

/-! ### Extensions that are sub-block chains (R385, R386) -/

section Extensions

variable {ra : Reg} {s : State} {o o' : Nat} {bs xs rest data : List Byte} {lo hi : Byte}

/-- Bytes that stand in the file are told from others as far as they stand there (R391). -/
theorem fileMatches_of_has (h : s.file.Has s o bs) (hbs : bs <+: xs → xs <+: bs) :
    fileMatches s xs o = .ok (decide (xs <+: bs)) := by
  induction xs generalizing o bs with
  | nil => simp [fileMatches]
  | cons x xs ih =>
    cases bs with
    | nil => simp at hbs
    | cons b bs =>
      obtain ⟨hb, hrest⟩ := Region.has_cons.1 h
      rw [fileMatches, hb, Res.ok_bind]
      simp only [List.cons_prefix_cons] at hbs ⊢
      by_cases hx : b = x
      · rw [if_pos (beq_iff_eq.2 hx), ih hrest fun hp => (hbs ⟨hx, hp⟩).2]
        simp [hx]
      · rw [if_neg (mt beq_iff_eq.1 hx)]
        simp only [Ne.symm hx, false_and, decide_false]
        rfl

/-- A chain is no beginning of the loop extension's fixed bytes: it ends with a 0 (R224, R385). -/
theorem subBlockChain_not_prefix (chunks : List (List Byte)) : ¬ subBlockChain chunks <+: netscapeBytes := fun h =>
  absurd (h.subset (show (0 : Byte) ∈ subBlockChain chunks by simp [subBlockChain])) (by decide)

/-- The loop extension sets G_LOOP from the two bytes behind its fixed ones (R385, R391). -/
theorem nextApplication_loop (h : s.file.Has s o (netscapeBytes ++ [lo, hi] ++ rest))
    (hskip : skipSub s s.file (s.file.len + 1) o = .ok o') :
    nextApplication ra s o = .ok ((s.setCsrs [(.gLoop, u32 (0x10000 + (lo.toNat + 256 * hi.toNat))), (.gCur, u32 o'),
      (.aux, 0)]).setX ra 3) := by
  rw [List.append_assoc] at h
  have hmatch := fileMatches_of_has (xs := netscapeBytes) h fun _ => List.prefix_append ..
  rw [decide_eq_true (List.prefix_append ..)] at hmatch
  obtain ⟨hlo, hrest⟩ := Region.has_cons.1 (Region.has_append.1 h).2
  obtain ⟨hhi, -⟩ := Region.has_cons.1 hrest
  have hcount : fileU16 s s.file (o + 14) = .ok (lo.toNat + 256 * hi.toNat) := fileU16_of_bytes hlo hhi
  simp only [nextApplication, hmatch, hcount, hskip, Res.ok_bind, if_true, State.setX_setCsr_comm]
  rfl

/-- Another application extension is skipped (R385, R391). -/
theorem nextApplication_other (h : s.file.Has s o bs) (hbs : ¬ bs <+: netscapeBytes) (hloop : ¬ netscapeBytes <+: bs)
    (hskip : skipSub s s.file (s.file.len + 1) o = .ok o') :
    nextApplication ra s o = .ok ((s.setCsrs [(.gCur, u32 o'), (.aux, 0)]).setX ra 3) := by
  have hmatch := fileMatches_of_has (xs := netscapeBytes) h fun hp => absurd hp hbs
  rw [decide_eq_false hloop] at hmatch
  simp only [nextApplication, hmatch, hskip, Res.ok_bind, Bool.false_eq_true, if_false, State.setX_setCsr_comm]
  rfl

/-- A comment is copied to the comment buffer (R386, R391). -/
theorem nextComment_ok (hdisjoint : s.commentRegion.overlaps s.file = false)
    (hgather : gatherSub s s.file s.commentRegion (s.file.len + 1) o 0 = .ok (o', data)) :
    nextComment ra s o = .ok (((s.putMem (s.getCsrNat .gCmtBase) data).setCsrs
      [(.gCmtLen, u32 data.length), (.gCur, u32 o'), (.aux, u32 data.length)]).setX ra 4) := by
  simp only [nextComment, requireDisjoint_ok hdisjoint, hgather, leaving_ok, Res.ok_bind, State.setX_setCsr_comm]
  rfl

theorem nextOther_ok {label : Byte} (hskip : skipSub s s.file (s.file.len + 1) o = .ok o') :
    nextOther ra s label o = .ok ((s.setCsrs [(.gCur, u32 o'), (.aux, u32 label.toNat)]).setX ra 5) := by
  simp only [nextOther, hskip, Res.ok_bind, State.setX_setCsr_comm, setWidth_byte]
  rfl

end Extensions

/-- Settles O53: the label picks the kind, and the cursor moves to the end of the chain, which is skipped or gathered. -/
theorem nextExtension : Obligations.NextExtension := by
  intro ra s label chunks hopen hlegal h cur loopHead
  have hblock := nextBlock_extension (ra := ra) hopen h
  have hchain : s.file.Has s (s.getCsrNat .gCur + 2) (subBlockChain chunks) :=
    (Region.has_append (xs := [0x21, label]).1 h.has).2
  have hskip : skipSub s s.file (s.file.len + 1) (s.getCsrNat .gCur + 2) = .ok cur :=
    skipSub_chain hlegal hchain hchain.chunks_lt
  have hend : cur ≤ 0xFFFFFFFF := hchain.le.trans (Nat.le_of_lt_succ (s.getCsr .gFileLen).isLt)
  refine ⟨fun lo hi hlabel hloop => ?_, fun hlabel hloop => ?_, fun hlabel hdisjoint hcap hmem => ?_,
    fun hF9 hFF hFE => ?_⟩
  · subst hlabel
    obtain ⟨rest, hrest⟩ := hloop
    obtain ⟨u, hu, hreg, hcsrs, -, hadv⟩ := gifnext_setCsrs (cs := [.aux, .gCur, .gLoop])
      (hblock.trans (nextApplication_loop (hrest ▸ hchain) hskip)) (by simp) (by simp) (Effect.refl s _ _ _ []) rfl
    simp only [List.forall_mem_cons] at hcsrs
    obtain ⟨hgloop, hcur, haux, -⟩ := hcsrs
    have hlo := lo.isLt
    have hhi := hi.isLt
    refine ⟨u, hu, hreg, haux, State.getCsrNat_of_eq hcur (by decide) hend, ?_, hadv⟩
    rw [Nat.add_assoc]
    refine State.getCsrNat_of_eq hgloop (by decide) ?_
    change _ ≤ 0x1FFFF
    omega
  · subst hlabel
    obtain ⟨u, hu, hreg, hcsrs, -, hadv⟩ := gifnext_setCsrs (cs := [.aux, .gCur])
      (hblock.trans (nextApplication_other hchain (subBlockChain_not_prefix chunks) hloop hskip)) (by simp) (by simp)
      (Effect.refl s _ _ _ []) rfl
    simp only [List.forall_mem_cons] at hcsrs
    obtain ⟨hcur, haux, -⟩ := hcsrs
    exact ⟨u, hu, hreg, haux, State.getCsrNat_of_eq hcur (by decide) hend, hadv⟩
  · subst hlabel
    have hgather : gatherSub s s.file s.commentRegion (s.file.len + 1) (s.getCsrNat .gCur + 2) 0 =
        .ok (cur, chunks.flatten) :=
      gatherSub_chain hlegal hchain hchain.chunks_lt (by rwa [Nat.zero_add]) (by rwa [Nat.zero_add])
    have hlen : chunks.flatten.length ≤ 0xFFFFFFFF := hcap.trans (Nat.le_of_lt_succ (s.getCsr .gCmtCap).isLt)
    obtain ⟨u, hu, hreg, hcsrs, hkept, hadv⟩ := gifnext_setCsrs (cs := [.aux, .gCmtLen, .gCur])
      (hblock.trans (nextComment_ok hdisjoint hgather)) (by simp) (by simp) (s.effect_putMem _ _) rfl
    simp only [List.forall_mem_cons] at hcsrs
    obtain ⟨hcmt, hcur, haux, -⟩ := hcsrs
    refine ⟨u, hu, hreg, State.getCsrNat_of_eq haux (by decide) hlen, State.getCsrNat_of_eq hcmt (by decide) hlen,
      State.getCsrNat_of_eq hcur (by decide) hend, fun i hi hout => ?_, hadv⟩
    exact (hkept.mem _ hout).trans (Memory.read?_write_inside s.mem _ _ i hi)
  · obtain ⟨u, hu, hreg, hcsrs, -, hadv⟩ := gifnext_setCsrs (cs := [.aux, .gCur])
      (hblock.trans (by rw [if_neg hF9, if_neg hFF, if_neg hFE]; exact nextOther_ok hskip)) (by simp) (by simp)
      (Effect.refl s _ _ _ []) rfl
    simp only [List.forall_mem_cons] at hcsrs
    obtain ⟨hcur, haux, -⟩ := hcsrs
    exact ⟨u, hu, hreg, State.getCsrNat_of_eq haux (by decide) (label.isLt.le.trans (by decide)),
      State.getCsrNat_of_eq hcur (by decide) hend, hadv⟩

/-! ### Image descriptors (R387) -/

/-- The fields of an image descriptor are what the file reads from offset o on, behind the 0x2C (R387). -/
structure ImageBlock.ReadAt (b : ImageBlock) (s : State) (o : Nat) : Prop where
  left : fileU16 s s.file o = .ok b.left
  top : fileU16 s s.file (o + 2) = .ok b.top
  width : fileU16 s s.file (o + 4) = .ok b.width
  height : fileU16 s s.file (o + 6) = .ok b.height
  pk : fileByte s s.file (o + 8) = .ok b.pk

section Descriptors

variable {ra : Reg} {s : State} {b : ImageBlock} {o : Nat}

theorem ImageBlock.readAt_of_has (hleft : b.left < 2 ^ 16) (htop : b.top < 2 ^ 16) (hwidth : b.width < 2 ^ 16)
    (hheight : b.height < 2 ^ 16) (h : s.file.Has s o b.descriptor) :
    fileByte s s.file o = .ok 0x2C ∧ b.ReadAt s (o + 1) := by
  simp only [ImageBlock.descriptor, Region.has_append, List.length_append, length_leBytes, List.length_cons,
    List.length_nil] at h
  obtain ⟨⟨⟨⟨⟨hintro, hleft'⟩, htop'⟩, hwidth'⟩, hheight'⟩, hpk⟩ := h
  exact ⟨(Region.has_cons.1 hintro).1, fileU16_of_has hleft hleft', fileU16_of_has htop htop',
    fileU16_of_has hwidth hwidth', fileU16_of_has hheight hheight', (Region.has_cons.1 hpk).1⟩

/-- An interlaced image is refused (R387). -/
theorem ImageBlock.ReadAt.interlaced (h : b.ReadAt s o) (hpk : b.pk.getLsbD 6 = true) :
    readImageHeader s o = .error (.raise ⟨.unsupportedFeature, u32 2⟩ []) := by
  simp only [readImageHeader, h.left, h.top, h.width, h.height, h.pk, Res.ok_bind, hpk, Bool.not_true, require_false,
    Res.error_bind]

/-- Without a local table, an image whose rectangle leaves the screen is refused (R392). -/
theorem ImageBlock.ReadAt.offScreen (h : b.ReadAt s o) (hpk : b.pk.getLsbD 6 = false) (hlocal : b.pk.getLsbD 7 = false)
    (hscreen : ¬ (b.left + b.width ≤ s.getCsrNat .gSw ∧ b.top + b.height ≤ s.getCsrNat .gSh)) :
    readImageHeader s o = .error (.raise ⟨.malformedHeader, u32 4⟩ []) := by
  simp only [readImageHeader, h.left, h.top, h.width, h.height, h.pk, Res.ok_bind, hpk, hlocal, Bool.not_false,
    Bool.false_eq_true, if_false, lt_irrefl, require_true, decide_eq_false hscreen, require_false, Res.error_bind]

theorem activeTable_none (h : s.getCsrNat .gGctN = 0) :
    activeTable s 0 0 = .error (.raise ⟨.malformedHeader, u32 5⟩ []) := by
  rw [activeTable, h]
  rfl

/-- With neither a local nor a global table, an image on the screen is refused (R387). -/
theorem ImageBlock.ReadAt.noTable (h : b.ReadAt s o) (hpk : b.pk.getLsbD 6 = false) (hlocal : b.pk.getLsbD 7 = false)
    (hscreen : b.left + b.width ≤ s.getCsrNat .gSw ∧ b.top + b.height ≤ s.getCsrNat .gSh)
    (hglobal : s.getCsrNat .gGctN = 0) :
    readImageHeader s o = .error (.raise ⟨.malformedHeader, u32 5⟩ []) := by
  simp only [readImageHeader, h.left, h.top, h.width, h.height, h.pk, Res.ok_bind, hpk, hlocal, Bool.not_false,
    Bool.false_eq_true, if_false, lt_irrefl, require_true, decide_eq_true hscreen,
    activeTable_none hglobal, Res.error_bind]

theorem nextBlock_badImage {e : Stop} (hopen : s.getCsr .gOpen = 1)
    (hintro : fileByte s s.file (s.getCsrNat .gCur) = .ok 0x2C)
    (h : readImageHeader s (s.getCsrNat .gCur + 1) = .error e) : nextBlock ra s = .error e := by
  rw [nextBlock_image hopen hintro, decodeImage, h, Res.error_bind, Res.error_bind]

end Descriptors

/-- Settles O55: each of the three is refused while its header is read, before anything is written. -/
theorem badImages : Obligations.BadImages := by
  intro ra s b hopen hleft htop hwidth hheight h onScreen
  obtain ⟨hintro, hread⟩ := ImageBlock.readAt_of_has hleft htop hwidth hheight h.has
  refine ⟨fun hpk => ?_, fun hpk hlocal hscreen => ?_, fun hpk hlocal hscreen hglobal => ?_⟩
  · exact gifnext_raise (nextBlock_badImage hopen hintro (hread.interlaced hpk)) (by decide)
  · exact gifnext_raise (nextBlock_badImage hopen hintro (hread.offScreen hpk hlocal hscreen)) (by decide)
  · have hnone : s.getCsrNat .gGctN = 0 := by rw [State.getCsrNat, hglobal]; rfl
    exact gifnext_raise (nextBlock_badImage hopen hintro (hread.noTable hpk hlocal hscreen hnone)) (by decide)

end Sys2Proof.Machine
end

section
/-! SUPPORT. GIFNEXT at an image (O54), up to its indices: the header is read, the compressed data are gathered, and the
reader over them finds the codes of the indices. -/

namespace Sys2Proof.Machine

/-! ### The bits of bytes in MEM (R211) -/

section Bits

variable {s : State} {order : BitOrder} {bytes : List Byte} {bits : List Bool}

/-- Bit i of a byte's bits in stream order is what the reader takes from the byte at a cursor that is i within it (R211). -/
theorem streamBit_eq {y : Byte} {p : Nat} {b : Bool} (h : (byteBits order y)[p % 8]? = some b) :
    streamBit order y p = b.toNat := by
  have hp : p % 8 < 8 := Nat.mod_lt _ (by decide)
  cases order with
  | msb =>
    have hbit : y.toNat.testBit (7 - p % 8) = b := by simpa [byteBits, bitsOf, hp] using h
    rw [← hbit, Nat.toNat_testBit, streamBit, Nat.shiftRight_eq_div_pow]
  | lsb =>
    have hbit : y.toNat.testBit (p % 8) = b := by simpa [byteBits, bitsOf, hp] using h
    rw [← hbit, Nat.toNat_testBit, streamBit, Nat.shiftRight_eq_div_pow]

/-- Bit i of several bytes' bits is bit i mod 8 of byte i / 8 (R211). -/
theorem getElem?_flatMap_byteBits {i : Nat} {b : Bool} (h : (bytes.flatMap (byteBits order))[i]? = some b) :
    ∃ y, bytes[i / 8]? = some y ∧ (byteBits order y)[i % 8]? = some b := by
  induction bytes generalizing i with
  | nil => simp at h
  | cons y bytes ih =>
    rw [List.flatMap_cons] at h
    by_cases hi : i < 8
    · rw [List.getElem?_append_left (by simpa using hi)] at h
      exact ⟨y, by simp [Nat.div_eq_of_lt hi], by rwa [Nat.mod_eq_of_lt hi]⟩
    · rw [List.getElem?_append_right (by simpa using Nat.le_of_not_lt hi), length_byteBits] at h
      obtain ⟨z, hz, hb⟩ := ih h
      obtain ⟨k, rfl⟩ := Nat.exists_eq_add_of_le' (Nat.le_of_not_lt hi)
      rw [Nat.add_sub_cancel] at hz hb
      exact ⟨z, by simpa using hz, by simpa using hb⟩

/-- Bits are found when each of them is. -/
theorem Reader.hasBits_of_getElem {rd : Reader} {p : Nat}
    (h : ∀ i (hi : i < bits.length), p + i < 8 * rd.len ∧ p + i < 0xFFFFFFFF ∧ rd.base + (p + i) / 8 < s.memSize ∧
      ∃ y, s.mem.read? (rd.base + (p + i) / 8) = some y ∧ streamBit rd.order y (p + i) = bits[i].toNat) :
    rd.hasBits s p bits = true := by
  induction bits generalizing p with
  | nil => rfl
  | cons b bits ih =>
    obtain ⟨hlen, hlimit, hmem, y, hy, hb⟩ := h 0 (Nat.succ_pos _)
    rw [Nat.add_zero] at hlen hlimit hmem hy hb
    have hrest : rd.hasBits s (p + 1) bits = true := ih fun i hi => by
      have := h (i + 1) (Nat.succ_lt_succ hi)
      rwa [← Nat.add_assoc, Nat.add_right_comm] at this
    simp [Reader.hasBits, hlen, hlimit, hmem, hy, hb, hrest]

/-- The reader over bytes that stand in MEM finds the bits they begin with, within the limit of its cursor (R211). -/
theorem Reader.hasBits_of_holds {base : Nat} (h : s.holds base bytes = true)
    (hbits : bits <+: bytes.flatMap (byteBits order)) (hlimit : bits.length ≤ 0xFFFFFFFF) :
    Reader.hasBits ⟨base, bytes.length, order⟩ s 0 bits = true := by
  refine Reader.hasBits_of_getElem fun i hi => ?_
  obtain ⟨tail, htail⟩ := hbits
  have hbit : (bytes.flatMap (byteBits order))[i]? = some bits[i] := by
    rw [← htail, List.getElem?_append_left hi, List.getElem?_eq_getElem hi]
  obtain ⟨y, hy, hb⟩ := getElem?_flatMap_byteBits hbit
  obtain ⟨hlt, rfl⟩ := List.getElem?_eq_some_iff.1 hy
  obtain ⟨hread, hmem⟩ := State.holds_getElem h (i / 8) hlt
  rw [Nat.zero_add]
  exact ⟨by dsimp only; omega, by omega, hmem, _, hread, streamBit_eq hb⟩

end Bits

/-! ### The header of an image (R387, R388) -/

/-- The header of the block whose descriptor stands at offset cur (R387, R388). -/
def ImageBlock.header (b : ImageBlock) (s : State) : ImageHeader where
  left := b.left
  top := b.top
  width := b.width
  height := b.height
  pk := b.pk
  lctN := b.lctN
  lctOff := if b.pk.getLsbD 7 then s.getCsrNat .gCur + 10 else 0
  tabOff := (b.activeTable s).1
  tabN := (b.activeTable s).2
  m := b.m
  dataOff := s.getCsrNat .gCur + (10 + (3 * b.lctN + 1))

@[simp] theorem ImageBlock.header_width (b : ImageBlock) (s : State) : (b.header s).width = b.width := rfl

@[simp] theorem ImageBlock.header_height (b : ImageBlock) (s : State) : (b.header s).height = b.height := rfl

@[simp] theorem ImageBlock.header_m (b : ImageBlock) (s : State) : (b.header s).m = b.m := rfl

@[simp] theorem ImageBlock.header_dataOff (b : ImageBlock) (s : State) :
    (b.header s).dataOff = s.getCsrNat .gCur + (10 + (3 * b.lctN + 1)) := rfl

theorem ImageBlock.lctN_eq (b : ImageBlock) : b.lctN = if b.pk.getLsbD 7 then tableEntries b.pk else 0 := by
  rw [ImageBlock.lctN, tableEntries_eq]

section Image

variable {ra : Reg} {s : State} {b : ImageBlock} {o : Nat}

/-- The active table is the local one, or else the global one (R387). -/
theorem ImageBlock.activeTable_eq (b : ImageBlock) (hpos : 0 < (b.activeTable s).2) :
    Machine.activeTable s (b.header s).lctOff b.lctN = .ok (b.activeTable s) := by
  by_cases hlocal : b.pk.getLsbD 7 = true
  · simp only [ImageBlock.activeTable, ImageBlock.header, hlocal, if_true] at hpos ⊢
    rw [Machine.activeTable, if_pos hpos]
  · have hn : b.lctN = 0 := if_neg hlocal
    simp only [ImageBlock.activeTable, ImageBlock.header, hlocal, Bool.false_eq_true, if_false] at hpos ⊢
    rw [Machine.activeTable, hn, if_neg (lt_irrefl 0), if_pos hpos]

theorem checkTable_ite {α : Type} {file : Region} {n : Nat} (h : 0 < n → checkTable s file o n = .ok ()) (r : Res α) :
    (if 0 < n then checkTable s file o n >>= fun _ => r else r) = r := by
  split
  · next hn => rw [h hn, Res.ok_bind]
  · rfl

/-- The parts of a block in the file: descriptor, local table, code size, data (R387, R388). -/
theorem ImageBlock.parts_of_has (hlegal : b.Legal s) (h : s.file.Has s o b.bytes) :
    fileByte s s.file o = .ok 0x2C ∧ b.ReadAt s (o + 1) ∧ s.file.Has s (o + 10) b.lct ∧
      fileByte s s.file (o + (10 + 3 * b.lctN)) = .ok (BitVec.ofNat 8 b.m) ∧
      s.file.Has s (o + (10 + (3 * b.lctN + 1))) (subBlockChain b.chunks) := by
  obtain ⟨hleft, htop, hwidth, hheight⟩ := hlegal.fields
  have hdesc : b.descriptor.length = 10 := rfl
  simp only [ImageBlock.bytes, Region.has_append, List.length_append, hdesc, hlegal.lct, List.length_singleton,
    Nat.add_assoc] at h
  obtain ⟨⟨⟨hdescriptor, hlct⟩, hm⟩, hchain⟩ := h
  obtain ⟨hintro, hread⟩ := ImageBlock.readAt_of_has hleft htop hwidth hheight hdescriptor
  exact ⟨hintro, hread, hlct, (Region.has_cons.1 hm).1, hchain⟩

/-- The header of a block that can be decoded is read (R387, R388, R392). -/
theorem ImageBlock.readImageHeader_eq (hlegal : b.Legal s) (hformat : s.getCsrNat .gPixFmt ≠ 3)
    (hpos : 0 < (b.activeTable s).2) (h : s.fileHolds (s.getCsrNat .gCur) b.bytes) :
    readImageHeader s (s.getCsrNat .gCur + 1) = .ok (b.header s) := by
  obtain ⟨-, hread, hlct, hm, -⟩ := ImageBlock.parts_of_has hlegal h.has
  have hsize : (BitVec.ofNat 8 b.m).toNat = b.m := by
    have := hlegal.codeSize
    rw [BitVec.toNat_ofNat, Nat.mod_eq_of_lt (by omega)]
  have htable : 0 < b.lctN → checkTable s s.file (s.getCsrNat .gCur + 10) b.lctN = .ok () := fun hn =>
    checkTable_of_has hlct hn hlegal.lct.ge
  have hactive : Machine.activeTable s (if b.pk.getLsbD 7 then s.getCsrNat .gCur + 10 else 0) b.lctN =
      .ok (b.activeTable s) :=
    b.activeTable_eq hpos
  simp only [readImageHeader, hread.left, hread.top, hread.width, hread.height, hread.pk, Res.ok_bind, hlegal.progressive,
    Bool.not_false, require_true, ← b.lctN_eq, Nat.add_assoc, Nat.reduceAdd, checkTable_ite htable,
    decide_eq_true hlegal.onScreen, hactive, hm, hsize, decide_eq_true hlegal.codeSize, bne_iff_ne.2 hformat]
  rfl

/-- The data of a block that can be decoded are gathered, and the cursor is at the end of the block (R380, R392). -/
theorem ImageBlock.gatherSub_eq (hlegal : b.Legal s) (hroom : b.Room s) (h : s.fileHolds (s.getCsrNat .gCur) b.bytes) :
    gatherSub s s.file s.scratchRegion (s.file.len + 1) (b.header s).dataOff 0 =
      .ok (s.getCsrNat .gCur + b.bytes.length, b.chunks.flatten) := by
  obtain ⟨-, -, -, -, hchain⟩ := ImageBlock.parts_of_has hlegal h.has
  have hcap : b.chunks.flatten.length + b.width * b.height ≤ s.scratchRegion.len := hroom.scratch
  have hmem : s.scratchRegion.base + b.chunks.flatten.length + b.width * b.height ≤ s.memSize := hroom.scratchMem
  have hend : s.getCsrNat .gCur + (10 + (3 * b.lctN + 1)) + (subBlockChain b.chunks).length =
      s.getCsrNat .gCur + b.bytes.length := by
    have hdesc : b.descriptor.length = 10 := rfl
    simp only [ImageBlock.bytes, List.length_append, hdesc, hlegal.lct, List.length_singleton]
    omega
  rw [ImageBlock.header_dataOff, gatherSub_chain hlegal.chunks hchain hchain.chunks_lt (by omega) (by omega), hend]

/-- The reader over the gathered data finds the codes, and so the indices; as many as there are pixels are kept (R392). -/
theorem ImageBlock.lzwDecode_eq (hlegal : b.Legal s) (hroom : b.Room s) :
    lzwDecode (s.putMem s.scratchRegion.base b.chunks.flatten)
      ⟨⟨s.scratchRegion.base, b.chunks.flatten.length, .lsb⟩, b.m, s.scratchRegion.base + b.chunks.flatten.length,
        b.width * b.height, false⟩ 0 =
      .ok ⟨b.indices.take (b.width * b.height), b.indices.length, (lzwEncode b.m b.indices).length,
        0 + (bitString .lsb (lzwEncode b.m b.indices)).length⟩ := by
  have hmem : s.scratchRegion.base + b.chunks.flatten.length + b.width * b.height ≤ s.memSize := hroom.scratchMem
  have hdata := s.putMem_holds s.scratchRegion.base b.chunks.flatten (.inr (by omega))
  refine (lzwDecode_lzwEncode rfl hlegal.codeSize.2 hlegal.below ⟨fun h => absurd h Bool.false_ne_true, ?_⟩
    (Reader.hasBits_of_holds hdata hlegal.data hlegal.bits)).1
  exact (Nat.add_le_add_left (Nat.min_le_right ..) _).trans hmem

theorem ImageBlock.readIndices_eq (hlegal : b.Legal s) (hroom : b.Room s) (h : s.fileHolds (s.getCsrNat .gCur) b.bytes) :
    readIndices s (b.header s) =
      .ok (s.getCsrNat .gCur + b.bytes.length, b.indices.take (b.width * b.height), b.indices.length) := by
  have hcap : b.chunks.flatten.length + b.width * b.height ≤ s.scratchRegion.len := hroom.scratch
  simp only [readIndices, ImageBlock.gatherSub_eq hlegal hroom h, Res.ok_bind, ImageBlock.header_width,
    ImageBlock.header_height, ImageBlock.header_m, hcap, hlegal.pixels, decide_true, require_true,
    ImageBlock.lzwDecode_eq hlegal hroom]
  rfl

/-- No index that is painted is past the active table (R392). -/
theorem requireIndices_ok {n : Nat} {vs : List Byte} (h : ∀ v ∈ vs, s.skips v = true ∨ v.toNat < n) :
    requireIndices s n vs = .ok () := by
  refine require_eq_ok.2 (List.all_eq_true.2 fun v hv => ?_)
  simpa using h v hv

theorem requireDisjoint3_ok {p q r : Region} (hpq : p.overlaps q = false) (hpr : p.overlaps r = false)
    (hqr : q.overlaps r = false) : requireDisjoint3 p q r = .ok () := by
  rw [requireDisjoint3, hpq, hpr, hqr]
  rfl

end Image

end Sys2Proof.Machine
end

section
/-! SUPPORT. GIFNEXT at an image (O54): the framebuffer. No two pixels share a byte, so a pixel shows what was painted on it
last: its index's colour, or else the disposal fill, or else what stood there. -/

namespace Sys2Proof.Machine

/-! ### Pixels of the framebuffer (R393) -/

section Pixels

variable {s t u : State} {x y x' y' : Nat}

theorem State.pixelAddr_eq (s : State) (x y : Nat) :
    s.pixelAddr x y = s.frameRegion.base + s.pixelBytes * (y * s.getCsrNat .gSw + x) := by
  rw [State.pixelAddr, Nat.mul_comm]
  rfl

/-- The bytes of a pixel are as many as its layout has (R393). -/
theorem length_pixelLayout (s : State) (r g b : Byte) : (pixelLayout (s.getCsrNat .gPixFmt) r g b).length = s.pixelBytes := by
  unfold pixelLayout State.pixelBytes
  split
  · rfl
  · split <;> rfl

/-- A pixel of the screen lies in the framebuffer (R393). -/
theorem State.pixelAddr_inside (hx : x < s.getCsrNat .gSw) (hy : y < s.getCsrNat .gSh) :
    s.frameRegion.base ≤ s.pixelAddr x y ∧
      s.pixelAddr x y + s.pixelBytes ≤ s.frameRegion.base + s.frameRegion.len := by
  have hrow : y * s.getCsrNat .gSw + x + 1 ≤ s.getCsrNat .gSw * s.getCsrNat .gSh := by nlinarith
  have hpixel := Nat.mul_le_mul_left s.pixelBytes hrow
  have hlen : s.frameRegion.len = s.pixelBytes * (s.getCsrNat .gSw * s.getCsrNat .gSh) := Nat.mul_comm ..
  rw [State.pixelAddr_eq, hlen]
  rw [Nat.mul_succ] at hpixel
  omega

/-- Two pixels of the screen share no byte (R393). -/
theorem State.pixelAddr_apart (hx : x < s.getCsrNat .gSw) (hx' : x' < s.getCsrNat .gSw) (hne : ¬ (x = x' ∧ y = y')) :
    s.pixelAddr x y + s.pixelBytes ≤ s.pixelAddr x' y' ∨ s.pixelAddr x' y' + s.pixelBytes ≤ s.pixelAddr x y := by
  have hnumber : y * s.getCsrNat .gSw + x ≠ y' * s.getCsrNat .gSw + x' := fun h => by
    have hdiv := congrArg (· / s.getCsrNat .gSw) h
    have hmod := congrArg (· % s.getCsrNat .gSw) h
    simp only [Nat.mul_comm _ (s.getCsrNat .gSw), Nat.mul_add_mod, Nat.mod_eq_of_lt hx,
      Nat.mod_eq_of_lt hx', Nat.mul_add_div (Nat.zero_lt_of_lt hx), Nat.div_eq_of_lt hx, Nat.div_eq_of_lt hx',
      Nat.add_zero] at hdiv hmod
    exact hne ⟨hmod, hdiv⟩
  rw [State.pixelAddr_eq, State.pixelAddr_eq]
  rcases Nat.lt_or_gt_of_ne hnumber with h | h
  · have := Nat.mul_le_mul_left s.pixelBytes (Nat.succ_le_of_lt h)
    rw [Nat.mul_succ] at this
    omega
  · have := Nat.mul_le_mul_left s.pixelBytes (Nat.succ_le_of_lt h)
    rw [Nat.mul_succ] at this
    omega

/-- Bytes that a state keeps still stand there. -/
theorem State.holds_of_kept {a : Nat} {bs : List Byte} (h : t.holds a bs = true) (hparams : u.params = t.params)
    (hkept : ∀ i, i < bs.length → u.mem.read? (a + i) = t.mem.read? (a + i)) : u.holds a bs = true := by
  refine State.holds_of_getElem fun i hi => ?_
  obtain ⟨hread, hmem⟩ := State.holds_getElem h i hi
  exact ⟨(hkept i hi).trans hread, by rwa [State.memSize, hparams]⟩

end Pixels

/-! ### The disposal fill (R389, R395) -/

section Fill

variable {s : State} {o v : Nat} {r g b fr fg fb : Byte} {colours : List Byte}

theorem tableColour_of_has (h : s.file.Has s (o + 3 * v) [r, g, b]) : tableColour s o v = .ok (r, g, b) := by
  simp only [Region.has_cons, Nat.add_assoc, Nat.reduceAdd] at h
  obtain ⟨hr, hg, hb, -⟩ := h
  simp only [tableColour, Nat.add_assoc, hr, hg, hb, Res.ok_bind]
  rfl

theorem fillColour_ok (h : s.FillColour fr fg fb) : fillColour s = .ok (fr, fg, fb) := by
  unfold State.FillColour at h
  unfold fillColour
  split at h
  · next hback =>
    obtain ⟨hparam, hbg⟩ := hback
    rw [hparam]
    exact (if_pos hbg).trans (tableColour_of_has h.has)
  · next hwhite =>
    obtain ⟨rfl, rfl, rfl⟩ := h
    split
    · rfl
    · next hparam => exact if_neg fun hbg => hwhite ⟨hparam, hbg⟩

/-- Entry v of a colour table that stands in the file (R382). -/
theorem tableColour_of_table (h : s.file.Has s o colours) (hv : 3 * v + 2 < colours.length) :
    tableColour s o v = .ok (colours.getD (3 * v) 0, colours.getD (3 * v + 1) 0, colours.getD (3 * v + 2) 0) := by
  have hbyte (k : Nat) (hk : k < colours.length) : fileByte s s.file (o + k) = .ok (colours.getD k 0) := by
    rw [fileByte_of_has h hk, List.getD_eq_getElem _ _ hk]
  simp only [tableColour, Nat.add_assoc, hbyte (3 * v) (by omega), hbyte (3 * v + 1) (by omega), hbyte (3 * v + 2) hv,
    Res.ok_bind]
  rfl

/-- The bytes of a framebuffer that is all of one colour (R389). -/
def State.fillBytes (s : State) (r g b : Byte) : List Byte :=
  (List.replicate (s.getCsrNat .gSw * s.getCsrNat .gSh) (pixelLayout (s.getCsrNat .gPixFmt) r g b)).flatten

theorem State.length_fillBytes (s : State) (r g b : Byte) : (s.fillBytes r g b).length = s.frameRegion.len := by
  rw [State.fillBytes, List.length_flatten, List.map_replicate, List.sum_replicate, length_pixelLayout]
  rfl

/-- Each pixel of such a framebuffer shows the colour. -/
theorem State.holds_fillBytes {t : State} (h : t.holds s.frameRegion.base (s.fillBytes r g b) = true) {x y : Nat}
    (hx : x < s.getCsrNat .gSw) (hy : y < s.getCsrNat .gSh) :
    t.holds (s.pixelAddr x y) (pixelLayout (s.getCsrNat .gPixFmt) r g b) = true := by
  have hnumber : y * s.getCsrNat .gSw + x < s.getCsrNat .gSw * s.getCsrNat .gSh := by nlinarith
  have hpixels : s.fillBytes r g b = (List.range (s.getCsrNat .gSw * s.getCsrNat .gSh)).flatMap fun _ =>
      pixelLayout (s.getCsrNat .gPixFmt) r g b := by
    rw [State.fillBytes, List.flatMap_def, List.map_const', List.length_range]
  rw [hpixels] at h
  rw [State.pixelAddr_eq]
  exact State.holds_flatMap (fun _ => length_pixelLayout s r g b) h _ (by rwa [List.length_range])

theorem fillFrame_disposes (hmem : s.frameRegion.base + s.frameRegion.len ≤ s.memSize) (hd : s.disposes = true)
    (hcolour : s.FillColour fr fg fb) :
    fillFrame s s = .ok (s.putMem s.frameRegion.base (s.fillBytes fr fg fb)) := by
  rw [fillFrame, if_pos hd, fillColour_ok hcolour, Res.ok_bind]
  exact State.storeBytes_eq_ok.2 ⟨.inr ((s.length_fillBytes fr fg fb).symm ▸ hmem), rfl⟩

/-- What the framebuffer shows before the image is painted: the fill colour on every pixel, or what stood there (R389). -/
structure Filled (s : State) (fr fg fb : Byte) (t : State) : Prop where
  shown : s.disposes = true → ∀ x y, x < s.getCsrNat .gSw → y < s.getCsrNat .gSh →
    t.holds (s.pixelAddr x y) (pixelLayout (s.getCsrNat .gPixFmt) fr fg fb) = true
  kept : s.disposes = false → t = s
  effect : Effect [] [] [] [s.frameRegion] s t
  pc : t.pc = s.pc

theorem fillFrame_ok (hmem : s.frameRegion.base + s.frameRegion.len ≤ s.memSize)
    (hcolour : s.disposes = true → s.FillColour fr fg fb) : ∃ t, fillFrame s s = .ok t ∧ Filled s fr fg fb t := by
  have hlen := s.length_fillBytes fr fg fb
  by_cases hd : s.disposes = true
  · refine ⟨_, fillFrame_disposes hmem hd (hcolour hd), fun _ x y => ?_, fun h => ?_, ?_, rfl⟩
    · exact State.holds_fillBytes (s.putMem_holds _ _ (.inr (hlen.symm ▸ hmem)))
    · simp [hd] at h
    · exact (Effect.refl s ..).putMem fun a ha => by rw [hlen]; exact ha
  · exact ⟨s, if_neg hd, fun h => absurd h hd, fun _ => rfl, Effect.refl .., rfl⟩

end Fill

/-! ### The image painted (R392, R394) -/

/-- The address of place j of the image on the screen (R394). -/
def State.placeAddr (s : State) (hd : ImageHeader) (j : Nat) : Nat :=
  s.pixelAddr (hd.left + j % hd.width) (hd.top + j / hd.width)

/-- The pixel of index v, whose colour stands in a table of colours (R393). -/
def State.indexPixel (s : State) (colours : List Byte) (v : Nat) : List Byte :=
  pixelLayout (s.getCsrNat .gPixFmt) (colours.getD (3 * v) 0) (colours.getD (3 * v + 1) 0) (colours.getD (3 * v + 2) 0)

/-- Between t and u the indices vs were painted from place j on: those not skipped show their colour, and the bytes of no
such place stay (R392). -/
structure Painted (s : State) (hd : ImageHeader) (colours : List Byte) (vs : List Byte) (j : Nat) (t u : State) : Prop where
  shown : ∀ i (hi : i < vs.length), s.skips vs[i] = false →
    u.holds (s.placeAddr hd (j + i)) (s.indexPixel colours vs[i].toNat) = true
  kept : ∀ a, (∀ i (hi : i < vs.length), s.skips vs[i] = false →
    a < s.placeAddr hd (j + i) ∨ s.placeAddr hd (j + i) + s.pixelBytes ≤ a) → u.mem.read? a = t.mem.read? a
  effect : Effect [] [] [] [s.frameRegion] t u
  pc : u.pc = t.pc

section Paint

variable {s t : State} {hd : ImageHeader} {colours vs : List Byte} {j k : Nat}

theorem State.length_indexPixel (s : State) (colours : List Byte) (v : Nat) :
    (s.indexPixel colours v).length = s.pixelBytes := length_pixelLayout ..

/-- A place of an image on the screen is a pixel of the screen (R394). -/
theorem State.place_inside (hwidth : hd.left + hd.width ≤ s.getCsrNat .gSw) (hheight : hd.top + hd.height ≤ s.getCsrNat .gSh)
    (hj : j < hd.width * hd.height) :
    hd.left + j % hd.width < s.getCsrNat .gSw ∧ hd.top + j / hd.width < s.getCsrNat .gSh := by
  have hpos : 0 < hd.width := Nat.pos_of_mul_pos_right (Nat.zero_lt_of_lt hj)
  have hcolumn := Nat.mod_lt j hpos
  have hrow := Nat.div_lt_of_lt_mul hj
  omega

/-- Two places of an image share no byte of the framebuffer. -/
theorem State.placeAddr_apart (hwidth : hd.left + hd.width ≤ s.getCsrNat .gSw) (hpos : 0 < hd.width) (hne : j ≠ k) :
    s.placeAddr hd j + s.pixelBytes ≤ s.placeAddr hd k ∨ s.placeAddr hd k + s.pixelBytes ≤ s.placeAddr hd j := by
  have hj := Nat.mod_lt j hpos
  have hk := Nat.mod_lt k hpos
  refine State.pixelAddr_apart (by omega) (by omega) fun ⟨hcolumn, hrow⟩ => hne ?_
  rw [← Nat.div_add_mod j hd.width, ← Nat.div_add_mod k hd.width, Nat.add_left_cancel hrow, Nat.add_left_cancel hcolumn]

theorem State.placeAddr_inside (hwidth : hd.left + hd.width ≤ s.getCsrNat .gSw)
    (hheight : hd.top + hd.height ≤ s.getCsrNat .gSh) (hj : j < hd.width * hd.height) :
    s.frameRegion.base ≤ s.placeAddr hd j ∧
      s.placeAddr hd j + s.pixelBytes ≤ s.frameRegion.base + s.frameRegion.len := by
  obtain ⟨hx, hy⟩ := State.place_inside hwidth hheight hj
  exact State.pixelAddr_inside hx hy

theorem Painted.nil : Painted s hd colours [] j t t :=
  ⟨fun i hi => absurd hi (Nat.not_lt_zero i), fun _ _ => rfl, Effect.refl .., rfl⟩

variable {v : Byte} {u : State}

/-- A skipped index leaves its pixel (R389). -/
theorem Painted.cons_skipped (hv : s.skips v = true) (h : Painted s hd colours vs (j + 1) t u) :
    Painted s hd colours (v :: vs) j t u where
  shown i hi hskip := by
    cases i with
    | zero => exact absurd hskip (by simp [hv])
    | succ i =>
      rw [← Nat.add_assoc, Nat.add_right_comm]
      exact h.shown i (Nat.lt_of_succ_lt_succ hi) hskip
  kept a ha := h.kept a fun i hi hskip => by
    have := ha (i + 1) (Nat.succ_lt_succ hi) hskip
    rwa [← Nat.add_assoc, Nat.add_right_comm] at this
  effect := h.effect
  pc := h.pc

/-- The pixel of an index keeps its colour while the places after it are painted. -/
theorem Painted.cons (hv : s.skips v = false) (hwidth : hd.left + hd.width ≤ s.getCsrNat .gSw)
    (hheight : hd.top + hd.height ≤ s.getCsrNat .gSh)
    (hj : j < hd.width * hd.height) (hmem : s.frameRegion.base + s.frameRegion.len ≤ t.memSize)
    (h : Painted s hd colours vs (j + 1) (t.putMem (s.placeAddr hd j) (s.indexPixel colours v.toNat)) u) :
    Painted s hd colours (v :: vs) j t u := by
  have hlen := s.length_indexPixel colours v.toNat
  obtain ⟨hlow, hhigh⟩ := State.placeAddr_inside hwidth hheight hj
  have hpos : 0 < hd.width := Nat.pos_of_mul_pos_right (Nat.zero_lt_of_lt hj)
  have hput : Effect [] [] [] [s.frameRegion] t (t.putMem (s.placeAddr hd j) (s.indexPixel colours v.toNat)) :=
    (Effect.refl t ..).putMem fun a ha => by
      have := ha s.frameRegion List.mem_cons_self
      simp only [outside, List.forall_mem_singleton, hlen]
      omega
  have hstands : u.holds (s.placeAddr hd j) (s.indexPixel colours v.toNat) = true := by
    refine State.holds_of_kept (t.putMem_holds _ _ (.inr (by omega))) h.effect.params fun i hi => ?_
    refine h.kept _ fun k _ _ => ?_
    have := State.placeAddr_apart (s := s) hwidth hpos (j := j) (k := j + 1 + k) (by omega)
    omega
  refine ⟨fun i hi hskip => ?_, fun a ha => ?_, hput.trans h.effect, h.pc⟩
  · cases i with
    | zero => exact hstands
    | succ i =>
      rw [← Nat.add_assoc, Nat.add_right_comm]
      exact h.shown i (Nat.lt_of_succ_lt_succ hi) hskip
  · have hfirst := ha 0 (Nat.succ_pos _) hv
    rw [Nat.add_zero] at hfirst
    refine (h.kept a fun i hi hskip => ?_).trans (Memory.read?_write_outside t.mem _ _ a (by rwa [hlen]))
    have := ha (i + 1) (Nat.succ_lt_succ hi) hskip
    rwa [← Nat.add_assoc, Nat.add_right_comm] at this

/-- The places of an image are painted when each index that is not skipped has its colour in the table (R392, R394). -/
theorem paint_ok (hwidth : hd.left + hd.width ≤ s.getCsrNat .gSw) (hheight : hd.top + hd.height ≤ s.getCsrNat .gSh)
    (htable : s.file.Has s hd.tabOff colours) (hvs : ∀ v ∈ vs, s.skips v = true ∨ 3 * v.toNat + 2 < colours.length)
    (hj : j + vs.length ≤ hd.width * hd.height) (hmem : s.frameRegion.base + s.frameRegion.len ≤ t.memSize) :
    ∃ u, paint s hd vs j t = .ok u ∧ Painted s hd colours vs j t u := by
  induction vs generalizing j t with
  | nil => exact ⟨t, rfl, .nil⟩
  | cons v vs ih =>
    obtain ⟨hv, hvs⟩ := List.forall_mem_cons.1 hvs
    rw [List.length_cons] at hj
    by_cases hskip : s.skips v = true
    · obtain ⟨u, hu, hpainted⟩ := ih hvs (j := j + 1) (t := t) (by omega) hmem
      exact ⟨u, by rw [paint, if_pos hskip, hu], hpainted.cons_skipped hskip⟩
    · have hj' : j < hd.width * hd.height := by omega
      obtain ⟨-, hhigh⟩ := State.placeAddr_inside (s := s) hwidth hheight hj'
      have hlen := s.length_indexPixel colours v.toNat
      have hstore : t.storeBytes (s.placeAddr hd j) (s.indexPixel colours v.toNat) =
          .ok (t.putMem (s.placeAddr hd j) (s.indexPixel colours v.toNat)) :=
        State.storeBytes_eq_ok.2 ⟨.inr (by omega), rfl⟩
      obtain ⟨u, hu, hpainted⟩ := ih hvs (j := j + 1)
        (t := t.putMem (s.placeAddr hd j) (s.indexPixel colours v.toNat)) (by omega) hmem
      refine ⟨u, ?_, .cons (Bool.not_eq_true _ ▸ hskip) hwidth hheight hj' hmem hpainted⟩
      rw [paint, if_neg hskip, tableColour_of_table htable (hv.resolve_left hskip), Res.ok_bind]
      exact (congrArg (· >>= _) hstore).trans hu

end Paint

/-! ### What the screen shows -/

/-- The place of pixel (x, y) in the rectangle of the block (R394). -/
def ImageBlock.place (b : ImageBlock) (x y : Nat) : Nat := (y - b.top) * b.width + (x - b.left)

section Screen

variable {s t u w : State} {b : ImageBlock} {colours : List Byte} {fr fg fb : Byte} {x y i : Nat}

/-- The pixel of a place has that place. -/
theorem ImageBlock.place_of_place (b : ImageBlock) (i : Nat) : b.place (b.left + i % b.width) (b.top + i / b.width) = i := by
  rw [ImageBlock.place, Nat.add_sub_cancel_left, Nat.add_sub_cancel_left, Nat.div_add_mod']

/-- A pixel of the rectangle has a place in the image, and is the pixel of that place (R394). -/
theorem ImageBlock.place_spec (hleft : b.left ≤ x) (hright : x < b.left + b.width) (htop : b.top ≤ y)
    (hbottom : y < b.top + b.height) :
    b.place x y < b.width * b.height ∧ b.left + b.place x y % b.width = x ∧ b.top + b.place x y / b.width = y := by
  obtain ⟨dx, rfl⟩ := Nat.exists_eq_add_of_le hleft
  obtain ⟨dy, rfl⟩ := Nat.exists_eq_add_of_le htop
  have hdx : dx < b.width := by omega
  have hdy : dy < b.height := by omega
  rw [ImageBlock.place, Nat.add_sub_cancel_left, Nat.add_sub_cancel_left, Nat.mul_comm dy, Nat.mul_add_mod,
    Nat.mod_eq_of_lt hdx, Nat.mul_add_div (Nat.zero_lt_of_lt hdx), Nat.div_eq_of_lt hdx]
  exact ⟨by nlinarith, rfl, rfl⟩

/-- The pixels a block paints are those of its places whose index is not skipped (R389). -/
theorem ImageBlock.paints_iff : b.paints s x y = true ↔
    b.place x y < b.width * b.height ∧ b.left + b.place x y % b.width = x ∧ b.top + b.place x y / b.width = y ∧
      s.skips (b.indices.getD (b.place x y) 0) = false := by
  have hpaints : b.paints s x y = true ↔ (b.left ≤ x ∧ x < b.left + b.width ∧ b.top ≤ y ∧ y < b.top + b.height) ∧
      s.skips (b.indices.getD (b.place x y) 0) = false := by
    simp only [ImageBlock.paints, ImageBlock.place, Bool.and_eq_true, decide_eq_true_eq, Bool.not_eq_true']
  rw [hpaints]
  constructor
  · rintro ⟨⟨hleft, hright, htop, hbottom⟩, hskip⟩
    obtain ⟨hplace, hx, hy⟩ := ImageBlock.place_spec hleft hright htop hbottom
    exact ⟨hplace, hx, hy, hskip⟩
  · rintro ⟨hplace, hx, hy, hskip⟩
    have hcolumn := Nat.mod_lt (b.place x y) (Nat.pos_of_mul_pos_right (Nat.zero_lt_of_lt hplace))
    have hrow := Nat.div_lt_of_lt_mul hplace
    refine ⟨?_, hskip⟩
    generalize b.place x y % b.width = column at hx hcolumn
    generalize b.place x y / b.width = row at hy hrow
    omega

/-- A place whose index is not skipped is painted on its pixel. -/
theorem ImageBlock.paints_place (hi : i < b.width * b.height) (hskip : s.skips (b.indices.getD i 0) = false) :
    b.paints s (b.left + i % b.width) (b.top + i / b.width) = true := by
  rw [ImageBlock.paints_iff, b.place_of_place]
  exact ⟨hi, rfl, rfl, hskip⟩

theorem ImageBlock.getElem_take {n : Nat} (hi : i < (b.indices.take n).length) :
    (b.indices.take n)[i] = b.indices.getD i 0 := by
  rw [List.length_take] at hi
  rw [List.getElem_take, List.getD_eq_getElem]

theorem Painted.pixel (h : Painted s (b.header s) colours (b.indices.take (b.width * b.height)) 0 t u)
    (hpixels : b.width * b.height ≤ b.indices.length) (hpaints : b.paints s x y = true) :
    u.holds (s.pixelAddr x y) (s.indexPixel colours (b.indices.getD (b.place x y) 0).toNat) = true := by
  obtain ⟨hplace, hx, hy, hskip⟩ := ImageBlock.paints_iff.1 hpaints
  have hlen : b.place x y < (b.indices.take (b.width * b.height)).length := by rwa [List.length_take, min_eq_left hpixels]
  have hshown := h.shown (b.place x y) hlen (by rwa [ImageBlock.getElem_take])
  have haddr : s.placeAddr (b.header s) (0 + b.place x y) = s.pixelAddr x y := by
    rw [Nat.zero_add]
    exact congrArg₂ s.pixelAddr hx hy
  rwa [haddr, ImageBlock.getElem_take] at hshown

/-- A pixel that is not painted keeps its bytes (R389). -/
theorem Painted.pixel_kept (h : Painted s (b.header s) colours (b.indices.take (b.width * b.height)) 0 t u)
    (hscreen : b.left + b.width ≤ s.getCsrNat .gSw) (hx : x < s.getCsrNat .gSw) (hpaints : b.paints s x y = false)
    (hi : i < s.pixelBytes) : u.mem.read? (s.pixelAddr x y + i) = t.mem.read? (s.pixelAddr x y + i) := by
  refine h.kept _ fun j hj hskip => ?_
  rw [ImageBlock.getElem_take] at hskip
  have hplace : j < b.width * b.height := (List.length_take_le _ _).trans_lt' hj
  have hcolumn := Nat.mod_lt j (Nat.pos_of_mul_pos_right (Nat.zero_lt_of_lt hplace))
  have hother : ¬ (x = b.left + j % b.width ∧ y = b.top + j / b.width) := by
    rintro ⟨rfl, rfl⟩
    exact Bool.eq_false_iff.1 hpaints (ImageBlock.paints_place hplace hskip)
  have haddr : s.placeAddr (b.header s) (0 + j) = s.pixelAddr (b.left + j % b.width) (b.top + j / b.width) := by
    rw [Nat.zero_add]
    rfl
  have := State.pixelAddr_apart hx (by omega) hother
  rw [haddr]
  omega

/-- What stands apart from the framebuffer is outside each of its pixels (R109). -/
theorem Region.outside_pixel {r : Region} (h : s.frameRegion.overlaps r = false) (hx : x < s.getCsrNat .gSw)
    (hy : y < s.getCsrNat .gSh) (hi : i < s.pixelBytes) : outside [r] (s.pixelAddr x y + i) := by
  obtain ⟨hlow, hhigh⟩ := State.pixelAddr_inside hx hy
  simp only [Region.overlaps, decide_eq_false_iff_not] at h
  simp only [outside, List.forall_mem_singleton]
  omega

/-- What pixel (x, y) shows once the block is painted over the fill: its colour, the fill colour, or what stood there
(R389). -/
theorem ImageBlock.pixel_shown (hfilled : Filled s fr fg fb t)
    (hpainted : Painted s (b.header s) colours (b.indices.take (b.width * b.height)) 0 t u)
    (hpixels : b.width * b.height ≤ b.indices.length) (hscreen : b.left + b.width ≤ s.getCsrNat .gSw)
    (hx : x < s.getCsrNat .gSw) (hy : y < s.getCsrNat .gSh) :
    if b.paints s x y then u.holds (s.pixelAddr x y) (s.indexPixel colours (b.indices.getD (b.place x y) 0).toNat) = true
    else if s.disposes then u.holds (s.pixelAddr x y) (pixelLayout (s.getCsrNat .gPixFmt) fr fg fb) = true
    else ∀ i, i < s.pixelBytes → u.mem.read? (s.pixelAddr x y + i) = s.mem.read? (s.pixelAddr x y + i) := by
  have hkept (hpaints : ¬ b.paints s x y = true) (i : Nat) (hi : i < s.pixelBytes) :=
    hpainted.pixel_kept hscreen hx (Bool.eq_false_iff.2 hpaints) hi
  split_ifs with hpaints hdisposes
  · exact hpainted.pixel hpixels hpaints
  · refine State.holds_of_kept (hfilled.shown hdisposes x y hx hy) hpainted.effect.params fun i hi => ?_
    exact hkept hpaints i (by rwa [length_pixelLayout] at hi)
  · intro i hi
    rw [hkept hpaints i hi, hfilled.kept (Bool.eq_false_iff.2 hdisposes)]

end Screen

/-! ### GIFNEXT at an image -/

/-- The CSRs GIFNEXT writes at an image, and what it writes to them (R392). -/
def imageWrites (hd : ImageHeader) (o count : Nat) (frames : Word) : List (Csr × Word) :=
  [(.gImgPos, u32 (hd.left + hd.top * 2 ^ 16)), (.gImgSize, u32 (hd.width + hd.height * 2 ^ 16)),
    (.gImgPk, u32 hd.pk.toNat), (.gLctN, u32 hd.lctN), (.gLctOff, u32 hd.lctOff), (.gFrames, frames + 1), (.gGce, 0),
    (.gCur, u32 o), (.aux, u32 count)]

theorem imageDone_eq (t : State) (hd : ImageHeader) (o count : Nat) :
    imageDone t hd o count = t.setCsrs (imageWrites hd o count (t.getCsr .gFrames)) := by
  simp only [imageDone, State.getCsr_setCsr, reduceCtorEq, if_false, setWidth_byte]
  rfl

/-- The decode of a block that can be decoded: the framebuffer filled and painted, and then a row of CSR writes (R392). -/
theorem ImageBlock.decodeImage_ok {s : State} {b : ImageBlock} {colours : List Byte} {fr fg fb : Byte} (hlegal : b.Legal s)
    (hroom : b.Room s) (h : s.fileHolds (s.getCsrNat .gCur) b.bytes) (hpos : 0 < (b.activeTable s).2)
    (hlen : colours.length = 3 * (b.activeTable s).2) (htable : s.fileHolds (b.activeTable s).1 colours)
    (hindices : ∀ v ∈ b.indices.take (b.width * b.height), s.skips v = true ∨ v.toNat < (b.activeTable s).2)
    (hcolour : s.disposes = true → s.FillColour fr fg fb) :
    ∃ t u, Filled s fr fg fb t ∧ Painted s (b.header s) colours (b.indices.take (b.width * b.height)) 0 t u ∧
      decodeImage s (s.getCsrNat .gCur + 1) = .ok (u.setCsrs (imageWrites (b.header s)
        (s.getCsrNat .gCur + b.bytes.length) b.indices.length (s.getCsr .gFrames))) := by
  obtain ⟨hfs, hff, hsf⟩ := hroom.apart
  obtain ⟨t, ht, hfilled⟩ := fillFrame_ok hroom.frameMem hcolour
  have hpixels : 0 + (b.indices.take (b.width * b.height)).length ≤ (b.header s).width * (b.header s).height := by
    rw [Nat.zero_add]
    exact List.length_take_le ..
  obtain ⟨u, hu, hpainted⟩ := paint_ok (s := s) (hd := b.header s) (t := t) (j := 0) hlegal.onScreen.1 hlegal.onScreen.2
    htable.has (fun v hv => (hindices v hv).imp_right fun _ => by omega) hpixels
    (by rw [State.memSize, hfilled.effect.params]; exact hroom.frameMem)
  have hframes : u.getCsr .gFrames = s.getCsr .gFrames :=
    (hfilled.effect.trans hpainted.effect).csr .gFrames List.not_mem_nil
  refine ⟨t, u, hfilled, hpainted, ?_⟩
  rw [decodeImage, ImageBlock.readImageHeader_eq hlegal hroom.format hpos h, Res.ok_bind, requireDisjoint3_ok hfs hff hsf,
    Res.ok_bind, ImageBlock.readIndices_eq hlegal hroom h, Res.ok_bind]
  simp only [requireIndices_ok (n := (b.header s).tabN) hindices, ht, hu, Res.ok_bind, leaving_ok, imageDone_eq, hframes]
  rfl

theorem ImageBlock.lctN_le (b : ImageBlock) : b.lctN ≤ 256 := by
  rw [b.lctN_eq]
  split
  · exact tableEntries_le b.pk
  · exact Nat.zero_le _

theorem ImageBlock.header_lctOff_le (b : ImageBlock) {s : State} :
    (b.header s).lctOff ≤ s.getCsrNat .gCur + b.bytes.length := by
  have hlen : 10 ≤ b.bytes.length := by
    simp only [ImageBlock.bytes, List.length_append, show b.descriptor.length = 10 from rfl]
    omega
  unfold ImageBlock.header
  dsimp only
  split <;> omega

/-- Settles O54: the indices are those of the block's codes, and no pixel shares a byte with another or with the scratch
region, so each shows what was painted on it. -/
theorem nextImage : Obligations.NextImage := by
  intro ra s b colours fr fg fb hopen hlegal hroom h hpos hlen htable hindices hcolour
  obtain ⟨t, u, hfilled, hpainted, hdecode⟩ :=
    ImageBlock.decodeImage_ok hlegal hroom h hpos hlen htable hindices hcolour
  have hintro := (ImageBlock.parts_of_has hlegal h.has).1
  have hblock : nextBlock ra s = .ok ((u.setCsrs (imageWrites (b.header s) (s.getCsrNat .gCur + b.bytes.length)
      b.indices.length (s.getCsr .gFrames))).setX ra 1) := by
    rw [nextBlock_image hopen hintro, hdecode, Res.ok_bind]
  obtain ⟨w, hw, hreg, hcsrs, hkept, hadv⟩ := gifnext_setCsrs
    (cs := [.aux, .gCur, .gGce, .gFrames, .gImgPos, .gImgSize, .gImgPk, .gLctN, .gLctOff]) hblock
    (by simp [imageWrites]) (by simp [imageWrites]) (hfilled.effect.trans hpainted.effect)
    (hpainted.pc.trans hfilled.pc)
  simp only [imageWrites, List.forall_mem_cons] at hcsrs
  obtain ⟨hplace, hsize, hpk, hlctN, hlctOff, hframes, hgce, hcur, haux, -⟩ := hcsrs
  obtain ⟨hleft, htop, hwidth, hheight⟩ := hlegal.fields
  have hend : s.getCsrNat .gCur + b.bytes.length ≤ 0xFFFFFFFF :=
    h.has.le.trans (Nat.le_of_lt_succ (s.getCsr .gFileLen).isLt)
  have hoff : (b.header s).lctOff ≤ 0xFFFFFFFF := b.header_lctOff_le.trans hend
  refine ⟨w, hw, hreg, haux.trans (and_fullMask _), State.getCsrNat_of_eq hcur (by decide) hend, hgce,
    hframes.trans (and_fullMask _), State.getCsrNat_of_eq hplace (by decide) ?_, State.getCsrNat_of_eq hsize (by decide) ?_,
    State.getCsrNat_of_eq hpk (by decide) (Nat.le_of_lt_succ b.pk.isLt),
    State.getCsrNat_of_eq hlctN (by decide) (b.lctN_le.trans (by decide)), State.getCsrNat_of_eq hlctOff (by decide) hoff,
    fun x y hx hy => ?_, hadv⟩
  · change b.left + b.top * 2 ^ 16 ≤ 0xFFFFFFFF
    omega
  · change b.width + b.height * 2 ^ 16 ≤ 0xFFFFFFFF
    omega
  · have houtside (i : Nat) (hi : i < s.pixelBytes) :
        w.mem.read? (s.pixelAddr x y + i) = u.mem.read? (s.pixelAddr x y + i) :=
      hkept.mem _ (Region.outside_pixel hroom.apart.1 hx hy hi)
    have hshown := ImageBlock.pixel_shown hfilled hpainted hlegal.pixels hlegal.onScreen.1 hx hy
    change if b.paints s x y then
        w.holds (s.pixelAddr x y) (s.indexPixel colours (b.indices.getD (b.place x y) 0).toNat) = true
      else if s.disposes then w.holds (s.pixelAddr x y) (pixelLayout (s.getCsrNat .gPixFmt) fr fg fb) = true
      else ∀ i, i < s.pixelBytes → w.mem.read? (s.pixelAddr x y + i) = s.mem.read? (s.pixelAddr x y + i)
    split_ifs at hshown ⊢ with hpaints hdisposes
    · exact State.holds_of_kept hshown hkept.params fun i hi => houtside i (by rwa [State.length_indexPixel] at hi)
    · exact State.holds_of_kept hshown hkept.params fun i hi => houtside i (by rwa [length_pixelLayout] at hi)
    · exact fun i hi => (houtside i hi).trans (hshown i hi)

end Sys2Proof.Machine
end

section
/-! SUPPORT. What GIFWFRAME writes for a frame (O59, O60): the rectangle that holds the changed pixels, whose sides are each
attained by one of them, and the LZW data, whose bytes hold the bits of the codes and are cut into sub-blocks. -/

namespace Sys2Proof.Machine

/-! ### The rectangle of a later frame (R434) -/

section Rectangle

variable {w : Nat} {changed : List Nat}

theorem leastOf_spec (x : Nat) (xs : List Nat) : leastOf x xs ∈ x :: xs ∧ ∀ y ∈ x :: xs, leastOf x xs ≤ y :=
  List.min?_eq_some_iff.1 List.min?_cons'

theorem greatestOf_spec (x : Nat) (xs : List Nat) :
    greatestOf x xs ∈ x :: xs ∧ ∀ y ∈ x :: xs, y ≤ greatestOf x xs :=
  List.max?_eq_some_iff.1 List.max?_cons'

/-- The rectangle holds every changed pixel, and on each of its four sides lies one. -/
structure FrameRect.Spans (r : FrameRect) (w : Nat) (changed : List Nat) : Prop where
  holds : ∀ p ∈ changed, r.contains w p
  left : ∃ p ∈ changed, p % w = r.left
  right : ∃ p ∈ changed, p % w + 1 = r.left + r.width
  top : ∃ p ∈ changed, p / w = r.top
  bottom : ∃ p ∈ changed, p / w + 1 = r.top + r.height

theorem changedRect_nil (w : Nat) : changedRect w [] = ⟨0, 0, 1, 1⟩ := rfl

theorem changedRect_spans (hchanged : changed ≠ []) : (changedRect w changed).Spans w changed := by
  obtain ⟨p, ps, rfl⟩ := List.exists_cons_of_ne_nil hchanged
  obtain ⟨hx0, hx0le⟩ := leastOf_spec (p % w) (ps.map (· % w))
  obtain ⟨hx1, hx1le⟩ := greatestOf_spec (p % w) (ps.map (· % w))
  obtain ⟨hy0, hy0le⟩ := leastOf_spec (p / w) (ps.map (· / w))
  obtain ⟨hy1, hy1le⟩ := greatestOf_spec (p / w) (ps.map (· / w))
  rw [← List.map_cons (f := (· % w))] at hx0 hx0le hx1 hx1le
  rw [← List.map_cons (f := (· / w))] at hy0 hy0le hy1 hy1le
  have hwidth := hx0le _ hx1
  have hheight := hy0le _ hy1
  simp only [List.forall_mem_map] at hx0le hx1le hy0le hy1le
  rw [List.mem_map] at hx0 hx1 hy0 hy1
  refine ⟨fun q hq => ?_, hx0, ?_, hy0, ?_⟩
  · have := hx0le q hq
    have := hx1le q hq
    have := hy0le q hq
    have := hy1le q hq
    simp only [FrameRect.contains, changedRect]
    omega
  · refine hx1.imp fun q hq => ⟨hq.1, ?_⟩
    simp only [changedRect, hq.2]
    omega
  · refine hy1.imp fun q hq => ⟨hq.1, ?_⟩
    simp only [changedRect, hq.2]
    omega

/-- Settles O59: on each side of the rectangle lies a changed pixel, so a rectangle that holds them all reaches that far. -/
theorem smallestRectangle : Obligations.SmallestRectangle := by
  intro w changed
  refine ⟨changedRect_nil w, fun hchanged => ?_⟩
  obtain ⟨hholds, ⟨a, ha, hleft⟩, ⟨b, hb, hright⟩, ⟨c, hc, htop⟩, ⟨d, hd, hbottom⟩⟩ :=
    changedRect_spans (w := w) hchanged
  refine ⟨hholds, fun r hr => ?_⟩
  obtain ⟨hra, -, -, -⟩ := hr a ha
  obtain ⟨-, hrb, -, -⟩ := hr b hb
  obtain ⟨-, -, hrc, -⟩ := hr c hc
  obtain ⟨-, -, -, hrd⟩ := hr d hd
  omega

end Rectangle

/-! ### The LZW data of a frame (R432) -/

section FrameData

variable {k : Packer} {bytes : List Byte}

/-- The sub-blocks of a byte string are a legal chain that holds it, all but the last of 255 bytes (R226, R432). -/
theorem subBlocks_chain {fuel : Nat} (hfuel : bytes.length < fuel) :
    ∃ chunks, chunksLegal chunks = true ∧ chunks.flatten = bytes ∧ (∀ c ∈ chunks.dropLast, c.length = 255) ∧
      subBlocks fuel bytes = subBlockChain chunks := by
  induction fuel generalizing bytes with
  | zero => exact absurd hfuel (Nat.not_lt_zero _)
  | succ fuel ih =>
    by_cases hempty : bytes = []
    · subst hempty
      exact ⟨[], rfl, rfl, by simp, rfl⟩
    · have hpos := List.length_pos_iff.2 hempty
      have hfirst : (bytes.take 255).length = min 255 bytes.length := List.length_take
      have hdrop : (bytes.drop 255).length = bytes.length - 255 := List.length_drop
      obtain ⟨chunks, hlegal, hflat, hfull, hchain⟩ := ih (bytes := bytes.drop 255) (by omega)
      refine ⟨bytes.take 255 :: chunks, chunksLegal_cons.2 ⟨by omega, hlegal⟩, ?_, ?_, ?_⟩
      · rw [List.flatten_cons, hflat, List.take_append_drop]
      · cases chunks with
        | nil => simp
        | cons c cs =>
          have hc := (chunksLegal_cons.1 hlegal).1
          have hrest : c.length + cs.flatten.length = (bytes.drop 255).length := by
            rw [← hflat, List.flatten_cons, List.length_append]
          rw [List.dropLast_cons_cons]
          exact List.forall_mem_cons.2 ⟨by omega, hfull⟩
      · rw [subBlocks, if_neg (by simpa using hempty), hchain, subBlockChain_cons, hfirst]

@[simp] theorem Packer.foldl_putBit_order (bs : List Bool) : (bs.foldl Packer.putBit k).order = k.order := by
  induction bs generalizing k with
  | nil => rfl
  | cons b bs ih => exact ih.trans Packer.putBit_order

/-- Codes put one after the other are their bits put one after the other (R220). -/
theorem Packer.putAll_eq (k : Packer) (codes : List (Nat × Nat)) :
    k.putAll codes = (bitString k.order codes).foldl Packer.putBit k := by
  unfold Packer.putAll
  induction codes generalizing k with
  | nil => rfl
  | cons c codes ih =>
    have horder : (k.putBits c.1 c.2).order = k.order := Packer.foldl_putBit_order _
    rw [List.foldl_cons, ih, horder]
    simp only [bitString, List.flatMap_cons, List.foldl_append]
    rfl

/-- With nothing pending, the bits of a packer are those of its finished bytes. -/
theorem Packer.bits_of_nacc (h : k.nacc = 0) : k.bits = k.out.reverse.flatMap (byteBits k.order) := by
  rw [Packer.bits, h, List.take_zero, List.append_nil]

/-- The data are the bits of the codes, and then the pad bits that complete the last byte (R223, R432). -/
theorem frameData_bits (indices : List Byte) : ∃ pad,
    (frameData indices).flatMap (byteBits .lsb) = bitString .lsb (lzwEncode 8 indices) ++ pad := by
  have hnacc : (Packer.staging.putAll (lzwEncode 8 indices)).nacc < 8 := Packer.putAll_nacc_lt (by decide) _
  have hflush := Packer.flush_eq (pad := false) hnacc
  generalize hpad : List.replicate _ false = pad at hflush
  rw [Packer.putAll_eq, ← List.foldl_append, ← Packer.putAll_eq] at hflush
  have horder : ((Packer.staging.putAll (lzwEncode 8 indices)).flush false).order = .lsb := by
    rw [hflush]
    exact Packer.foldl_putBit_order _
  refine ⟨pad, ?_⟩
  calc (frameData indices).flatMap (byteBits .lsb)
      = ((Packer.staging.putAll (lzwEncode 8 indices)).flush false).bits := by
        rw [Packer.bits_of_nacc (Packer.flush_nacc hnacc), horder, frameData]
    _ = bitString .lsb (lzwEncode 8 indices) ++ pad := by
        rw [hflush]
        exact (Packer.foldl_putBit_bits (k := Packer.staging) rfl rfl).1

/-- Settles O60: the sub-blocks are cut from the data, whose bits are those of the codes and then pad bits. -/
theorem frameDataIsTheLzwStream : Obligations.FrameDataIsTheLzwStream := by
  intro indices
  obtain ⟨chunks, hlegal, hflat, hfull, hchain⟩ := subBlocks_chain (Nat.lt_succ_self (frameData indices).length)
  obtain ⟨pad, hpad⟩ := frameData_bits indices
  exact ⟨chunks, hlegal, hflat, hfull, hchain, pad, hpad.symm⟩

end FrameData

end Sys2Proof.Machine
end

section
/-! SUPPORT. The bytes of the GIF writer (R435), and the header and trailer (O57): an aligned LSB-first writer without stuffing
takes whole bytes as they are, so a command writes its bytes behind BW_LEN and leaves nothing pending. -/

namespace Sys2Proof.Machine

/-! ### Whole bytes through the bit writer (R220, R435) -/

/-- The eight bits of a byte, placed one after the other LSB-first, are the byte (R218). -/
theorem foldl_placedBit : ∀ b : Byte,
    ((bitsOf .lsb b.toNat 8).zipIdx.foldl (fun acc p => acc ||| placedBit .lsb p.2 p.1) 0) = b := by
  decide

/-- A byte put into an aligned LSB-first writer without stuffing is finished as it is (R220). -/
theorem Packer.putByte_aligned (b : Byte) (out : List Byte) :
    Packer.putBits ⟨.lsb, false, 0, 0, out⟩ b.toNat 8 = ⟨.lsb, false, 0, 0, b :: out⟩ := by
  have h : Packer.putBits ⟨.lsb, false, 0, 0, out⟩ b.toNat 8 = ⟨.lsb, false, 0, 0,
    ((bitsOf .lsb b.toNat 8).zipIdx.foldl (fun acc p => acc ||| placedBit .lsb p.2 p.1) 0) :: out⟩ := rfl
  rw [h, foldl_placedBit]

/-- Whole bytes put into an aligned writer are finished as they are. -/
theorem Packer.putBytes_aligned (bs out : List Byte) :
    Packer.putBytes ⟨.lsb, false, 0, 0, out⟩ bs = ⟨.lsb, false, 0, 0, bs.reverse ++ out⟩ := by
  unfold Packer.putBytes
  induction bs generalizing out with
  | nil => rfl
  | cons b bs ih => rw [List.foldl_cons, Packer.putByte_aligned, ih, List.reverse_cons, List.append_assoc]; rfl

/-- What a GIF writer command has written: the bytes stand behind the old BW_LEN, and nothing is pending (R435). -/
structure Written (s : State) (bs : List Byte) (t : State) : Prop where
  stands : t.holds (s.getCsrNat .bwBase + s.getCsrNat .bwLen) bs = true
  len : t.getCsrNat .bwLen = s.getCsrNat .bwLen + bs.length
  acc : t.getCsr .bwAcc = 0
  nacc : t.getCsr .bwNacc = 0

section Writer

variable {s t u : State} {bs : List Byte}

/-- The bytes fit behind BW_LEN, below BW_CAP and in MEM (R217). -/
def State.WriterFits (s : State) (bs : List Byte) : Prop :=
  s.getCsrNat .bwLen + bs.length ≤ s.getCsrNat .bwCap ∧
    s.getCsrNat .bwBase + s.getCsrNat .bwLen + bs.length ≤ s.memSize

theorem State.gifWriterReady.packer_eq (h : s.gifWriterReady) : s.packer = .staging := by
  obtain ⟨hnacc, hacc, hmode⟩ := h
  simp only [State.packer, hnacc, hacc, hmode]
  rfl

/-- Bytes that fit are written by a writer that is ready (R435). -/
theorem State.gifWriterReady.putWriter (h : s.gifWriterReady) (hfits : s.WriterFits bs) :
    ∃ t, s.putWriter bs = .ok t ∧ t.pc = s.pc ∧ Written s bs t ∧
      Effect [] writerCsrs [] [⟨s.getCsrNat .bwBase + s.getCsrNat .bwLen, bs.length⟩] s t := by
  have hk : s.packer.putBytes bs = ⟨.lsb, false, 0, 0, bs.reverse⟩ := by
    rw [h.packer_eq, Packer.staging, Packer.putBytes_aligned, List.append_nil]
  have hlen := List.length_reverse (as := bs)
  obtain ⟨t, hcommit, hpc, ⟨hstands, hend, hacc, hnacc⟩, heffect⟩ :=
    State.commit_of_fits (s := s) (k := ⟨.lsb, false, 0, 0, bs.reverse⟩) [] (Nat.zero_lt_succ 7) (.inr (hlen ▸ hfits))
  refine ⟨t, ?_, hpc, ⟨?_, ?_, hacc, BitVec.eq_of_toNat_eq hnacc⟩, ?_⟩
  · rw [State.putWriter, hk, hcommit]
  · rwa [List.reverse_reverse] at hstands
  · rwa [hlen] at hend
  · rwa [State.committedRegion, hlen] at heffect

/-- What was written stays while no byte of it and no CSR of the writer is written again. -/
theorem Written.keep {rs : List Reg} {cs : List Csr} {fs : List Store} {bytes : List Region} (h : Written s bs t)
    (heffect : Effect rs cs fs bytes t u) (hcs : ∀ c ∈ writerCsrs, c ∉ cs)
    (hbytes : ∀ i < bs.length, outside bytes (s.getCsrNat .bwBase + s.getCsrNat .bwLen + i)) : Written s bs u where
  stands := State.holds_of_kept h.stands heffect.params fun i hi => heffect.mem _ (hbytes i hi)
  len := (congrArg BitVec.toNat (heffect.csr .bwLen (hcs _ (by decide)))).trans h.len
  acc := (heffect.csr .bwAcc (hcs _ (by decide))).trans h.acc
  nacc := (heffect.csr .bwNacc (hcs _ (by decide))).trans h.nacc

/-! ### The checks of R435 -/

/-! Each check fails when those before it pass, or all of them pass (log entry 21). -/

theorem requireGifWriter_ok (hnacc : s.getCsr .bwNacc = 0) (hmode : s.getCsr .bwMode = 1) :
    requireGifWriter s = .ok () := by
  rw [requireGifWriter, hnacc, hmode]
  rfl

theorem State.gifWriterReady.check (h : s.gifWriterReady) : requireGifWriter s = .ok () := by
  obtain ⟨hnacc, -, hmode⟩ := h
  exact requireGifWriter_ok (BitVec.eq_of_toNat_eq hnacc) hmode

theorem requireGifWriter_pending (hnacc : s.getCsr .bwNacc ≠ 0) :
    requireGifWriter s = .error (.raise ⟨.contractViolation, 20⟩ []) := by
  rw [requireGifWriter, beq_false_of_ne hnacc]
  rfl

theorem requireGifWriter_msb (hnacc : s.getCsr .bwNacc = 0) (hmode : (s.getCsr .bwMode).getLsbD 0 = false) :
    requireGifWriter s = .error (.raise ⟨.contractViolation, 12⟩ []) := by
  rw [requireGifWriter, hnacc, orderOfMode, hmode]
  rfl

theorem requireGifWriter_stuffing (hnacc : s.getCsr .bwNacc = 0) (hmode : s.getCsr .bwMode = 3) :
    requireGifWriter s = .error (.raise ⟨.contractViolation, 13⟩ []) := by
  rw [requireGifWriter, hnacc, hmode]
  rfl

/-! ### What a fault leaves of the writer -/

theorem State.writerRoomLeft_within {cs : List Csr} {fs : List Store} {bytes : List Region} (s : State) (n : Nat)
    (h : s.writerRoom ∈ bytes) : (s.writerRoomLeft n).Within cs fs bytes := by
  refine Leftover.within_mem.2 fun a ha => ?_
  have hroom := ha _ h
  simp only [State.writerRoom] at hroom
  simp only [outside, List.forall_mem_singleton]
  omega

theorem State.writerLeftBytes_within {cs : List Csr} (s : State) (n : Nat) (hcs : writerCsrs ⊆ cs) :
    ∀ p ∈ s.writerLeftBytes n, p.Within cs [] [s.writerRoom] := by
  simp only [writerCsrs, List.cons_subset] at hcs
  obtain ⟨hlen, hacc, hnacc, -⟩ := hcs
  exact List.forall_mem_append.2 ⟨by simp [writerCsrsLeft, hlen, hacc, hnacc],
    List.forall_mem_singleton.2 (s.writerRoomLeft_within n List.mem_cons_self)⟩

/-! ### GIFWOPEN (R431, R436) -/

/-- A palette entry, its levels written out (R430). -/
theorem palette_eq {i : Nat} (hi : i < 252) :
    palette i = [BitVec.ofNat 8 (i / 42 * 51), BitVec.ofNat 8 (i / 7 % 6 * 51), BitVec.ofNat 8 (i % 7 * 255 / 6)] := by
  have hvalue (l : Nat) : paletteValue l 6 = l * 51 := by
    unfold paletteValue
    omega
  have hentry : palette i = [BitVec.ofNat 8 (paletteValue (i / 42) 6), BitVec.ofNat 8 (paletteValue (i / 7 % 6) 6),
      BitVec.ofNat 8 (paletteValue (i % 7) 7)] := if_pos hi
  rw [hentry, hvalue, hvalue]
  rfl

theorem palette_black {i : Nat} (hi : 252 ≤ i) : palette i = [0, 0, 0] := if_neg (Nat.not_lt.2 hi)

theorem length_palette (i : Nat) : (palette i).length = 3 := by
  by_cases hi : i < 252
  · rw [palette_eq hi]
    rfl
  · rw [palette_black (Nat.not_lt.1 hi)]
    rfl

theorem length_flatMap_palette (n : Nat) : ((List.range n).flatMap palette).length = 3 * n := by
  simp [List.length_flatMap, length_palette, Nat.mul_comm]

/-- The signature and the logical screen descriptor (R431). -/
def gifScreen (w h : Nat) : List Byte :=
  [0x47, 0x49, 0x46, 0x38, 0x39, 0x61] ++ leBytes 2 w ++ leBytes 2 h ++ [0xF7, 0x00, 0x00]

/-- The loop extension (R431). -/
def gifLoop (loops : Nat) : List Byte :=
  [0x21, 0xFF, 0x0B, 0x4E, 0x45, 0x54, 0x53, 0x43, 0x41, 0x50, 0x45, 0x32, 0x2E, 0x30, 0x03, 0x01] ++
    leBytes 2 loops ++ [0x00]

theorem gifHeader_eq (w h loops : Nat) :
    gifHeader w h loops = gifScreen w h ++ ((List.range 256).flatMap palette ++ gifLoop loops) := by
  simp only [gifHeader, gifScreen, gifLoop, List.append_assoc]

theorem length_gifScreen (w h : Nat) : (gifScreen w h).length = 13 := rfl

theorem length_gifHeader (w h loops : Nat) : (gifHeader w h loops).length = 800 := by
  rw [gifHeader_eq, List.length_append, List.length_append, length_flatMap_palette]
  rfl

/-- Where the parts of the header stand (R431). -/
theorem State.holds_gifHeader {a w h loops : Nat} (hheader : s.holds a (gifHeader w h loops) = true) :
    s.holds a (gifScreen w h) = true ∧ (∀ i < 256, s.holds (a + 13 + 3 * i) (palette i) = true) ∧
      s.holds (a + 781) (gifLoop loops) = true := by
  rw [gifHeader_eq, State.holds_append, State.holds_append, length_gifScreen, length_flatMap_palette] at hheader
  obtain ⟨hscreen, htable, hloop⟩ := hheader
  refine ⟨hscreen, fun i hi => ?_, hloop⟩
  have hentry := State.holds_flatMap length_palette htable i (by rwa [List.length_range])
  rwa [List.getElem_range] at hentry

theorem exec_gifwopen (ra rb rc : Reg) (s : State) : exec (.gifwopen ra rb rc) s = execGifwopen ra rb rc s := rfl

theorem exec_gifwend (s : State) : exec .gifwend s = execGifwend s := rfl

/-- The CSRs GIFWOPEN writes, and what it writes to them (R436). -/
def wopenWrites (w h : Nat) : List (Csr × Word) := [(.gwW, u32 w), (.gwH, u32 h), (.gwFrames, 0), (.gwOpen, 1)]

theorem wopenWrites_fst (w h : Nat) : (wopenWrites w h).map Prod.fst = [.gwW, .gwH, .gwFrames, .gwOpen] := rfl

/-- GIFWOPEN is its bytes and then a row of CSR writes (R436). -/
theorem execGifwopen_ok {ra rb rc : Reg} (hcheck : requireGifWriter s = .ok ())
    (hrange : 1 ≤ s.getXNat rb ∧ s.getXNat rb ≤ 65535 ∧ 1 ≤ s.getXNat rc ∧ s.getXNat rc ≤ 65535 ∧ s.getXNat ra ≤ 65535)
    (hput : s.putWriter (gifHeader (s.getXNat rb) (s.getXNat rc) (s.getXNat ra)) = .ok t) :
    execGifwopen ra rb rc s = finish s (.ok (t.setCsrs (wopenWrites (s.getXNat rb) (s.getXNat rc)))) := by
  simp only [execGifwopen, hcheck, Res.ok_bind, decide_eq_true hrange, require_true, hput]
  rfl

theorem execGifwopen_outOfRange {ra rb rc : Reg} (hcheck : requireGifWriter s = .ok ())
    (hrange : ¬ (1 ≤ s.getXNat rb ∧ s.getXNat rb ≤ 65535 ∧ 1 ≤ s.getXNat rc ∧ s.getXNat rc ≤ 65535 ∧
      s.getXNat ra ≤ 65535)) :
    execGifwopen ra rb rc s = finish s (.error (.raise ⟨.contractViolation, 21⟩ (s.writerLeftBytes 800))) := by
  simp only [execGifwopen, hcheck, Res.ok_bind, decide_eq_false hrange, require_false, Res.error_bind, leaving_raise]
  rfl

/-- GIFWEND is one byte and then one CSR write (R438). -/
theorem execGifwend_ok (hopen : s.getCsr .gwOpen = 1) (hcheck : requireGifWriter s = .ok ())
    (hput : s.putWriter [0x3B] = .ok t) : execGifwend s = finish s (.ok (t.setCsrs [(.gwOpen, 0)])) := by
  simp only [execGifwend, hopen, beq_self_eq_true, require_true, hcheck, Res.ok_bind, hput]
  rfl

theorem execGifwend_closed (hclosed : s.getCsr .gwOpen = 0) :
    execGifwend s = finish s (.error (.raise ⟨.contractViolation, 19⟩ (.csr .gwOpen :: s.writerLeftBytes 1))) := by
  rw [execGifwend, hclosed]
  rfl

/-- The end of a command that has written bytes and then writes CSRs of its own (R436, R438). -/
theorem Written.finish_setCsrs {ws : List (Csr × Word)} (h : Written s bs t) (hpc : t.pc = s.pc)
    (heffect : Effect [] writerCsrs [] [⟨s.getCsrNat .bwBase + s.getCsrNat .bwLen, bs.length⟩] s t)
    (hnodup : (ws.map Prod.fst).Nodup) (hws : ∀ c ∈ writerCsrs, c ∉ ws.map Prod.fst) :
    ∃ u, finish s (.ok (t.setCsrs ws)) = .next u ∧ Written s bs u ∧ (∀ w ∈ ws, u.getCsr w.1 = w.2 &&& w.1.mask) ∧
      Advanced [] (ws.map Prod.fst ++ writerCsrs) []
        [⟨s.getCsrNat .bwBase + s.getCsrNat .bwLen, bs.length⟩] s u := by
  obtain ⟨_, rfl, hpc', hwrites, hcsrs⟩ := t.setCsrs_next hnodup (List.Subset.refl _)
  have hall := heffect.mono (List.Subset.refl _) (List.subset_append_right (ws.map Prod.fst) _) (List.Subset.refl _)
    fun _ => id
  refine ⟨_, rfl, h.keep (u := (t.setCsrs ws).advance) { hwrites with } hws fun _ _ => outside_nil _, hcsrs,
    (hall.setCsrs (List.subset_append_left _ _)).advanced (hpc'.trans hpc)⟩

end Writer

/-- Settles O57: the checks pass or fail as the operands and GW_OPEN say, and a writer that is ready takes the bytes as they
are. -/
theorem writeHeaderAndTrailer : Obligations.WriteHeaderAndTrailer := by
  intro ra rb rc s _ hready at' room inRange
  have hcheck := hready.check
  refine ⟨fun hrange hroom => ?_, fun hrange => ?_, fun hopen hroom => ?_, fun hclosed => ?_⟩
  · have hlen := length_gifHeader (s.getXNat rb) (s.getXNat rc) (s.getXNat ra)
    obtain ⟨t, hput, hpc, hwritten, heffect⟩ := hready.putWriter (hlen ▸ hroom)
    obtain ⟨u, hu, ⟨hstands, hend, hacc, hnacc⟩, hcsrs, hadv⟩ := hwritten.finish_setCsrs
      (ws := wopenWrites (s.getXNat rb) (s.getXNat rc)) hpc heffect (by rw [wopenWrites_fst]; decide)
      (by rw [wopenWrites_fst]; decide)
    simp only [wopenWrites, List.forall_mem_cons] at hcsrs
    obtain ⟨hw, hh, hframes, hopen, -⟩ := hcsrs
    obtain ⟨hscreen, htable, hloop⟩ := State.holds_gifHeader hstands
    rw [hlen] at hend hadv
    have hexec := (execGifwopen_ok hcheck hrange hput).trans hu
    obtain ⟨-, hwidth, -, hheight, -⟩ := hrange
    refine ⟨u, hexec, hscreen, fun i hi => ?_, fun i hlow hi => ?_, hloop, hend,
      hacc, hnacc, ?_, ?_, hframes, hopen, hadv⟩
    · exact palette_eq hi ▸ htable i (by omega)
    · exact palette_black hlow ▸ htable i hi
    · exact hw.trans (BitVec.eq_of_toNat_eq (toNat_u32_and_mask (by decide) hwidth))
    · exact hh.trans (BitVec.eq_of_toNat_eq (toNat_u32_and_mask (by decide) hheight))
  · rw [exec_gifwopen, execGifwopen_outOfRange hcheck hrange]
    exact finish_raise_leaving rfl (s.writerLeftBytes_within 800 (List.Subset.refl _))
  · obtain ⟨t, hput, hpc, hwritten, heffect⟩ := hready.putWriter (bs := [0x3B]) hroom
    obtain ⟨u, hu, ⟨hstands, hend, hacc, hnacc⟩, hcsrs, hadv⟩ :=
      hwritten.finish_setCsrs (ws := [(.gwOpen, 0)]) hpc heffect (by decide) (by decide)
    obtain ⟨hbyte, -⟩ := State.holds_getElem hstands 0 Nat.one_pos
    exact ⟨u, (execGifwend_ok hopen hcheck hput).trans hu, hbyte, hend, hacc, hnacc, hcsrs _ List.mem_cons_self, hadv⟩
  · rw [exec_gifwend, execGifwend_closed hclosed]
    have hwriter := s.writerLeftBytes_within 1 (List.subset_cons_self .gwOpen writerCsrs)
    exact finish_raise_leaving rfl (List.forall_mem_cons.2 ⟨List.mem_cons_self, hwriter⟩)

end Sys2Proof.Machine
end

section
/-! SUPPORT. GIFWFRAME (O58): the pixels become the current index frame, the rectangle's indices are read back from it, and the
frame's bytes go out; the faults are those of the checks before, each with what R437 says it leaves. -/

namespace Sys2Proof.Machine

/-! ### The index frame and the rectangle's indices (R434, R437) -/

/-- The current index frame of the pixels (R430, R434). -/
def indexFrame (pixels : List (Byte × Byte × Byte)) : List Byte := pixels.map fun p => palIndex p.1 p.2.1 p.2.2

/-- The rectangle's indices, row-major, of an index frame of width w; `first` stands where the frame has no index. -/
def FrameRect.indices (r : FrameRect) (w : Nat) (cur : List Byte) (first : Byte) : List Byte :=
  (List.range r.height).flatMap fun dy =>
    (List.range r.width).map fun dx => cur.getD ((r.top + dy) * w + (r.left + dx)) first

/-- The rectangle lies on a screen of w times h pixels. -/
structure FrameRect.OnScreen (r : FrameRect) (w h : Nat) : Prop where
  right : r.left + r.width ≤ w
  bottom : r.top + r.height ≤ h

section Frame

variable {s : State} {pixels : List (Byte × Byte × Byte)} {r : FrameRect} {w h idx : Nat} {cur prev : List Byte}
  {first : Byte} {changed : List Nat}

@[simp] theorem length_indexFrame (pixels : List (Byte × Byte × Byte)) : (indexFrame pixels).length = pixels.length :=
  List.length_map _

/-- Pixels that stand in MEM are mapped when the index frame lies inside it (R437). -/
theorem mapFrame_ok {src dst : Nat} (hsrc : s.holds src (pixelBytesOf pixels) = true)
    (hdst : dst + pixels.length ≤ s.memSize) : mapFrame s src dst pixels.length = .ok (indexFrame pixels) := by
  induction pixels generalizing src dst with
  | nil => rfl
  | cons p pixels ih =>
    rw [List.length_cons] at hdst
    obtain ⟨hr, hsrc⟩ := State.readByte_of_holds hsrc
    obtain ⟨hg, hsrc⟩ := State.readByte_of_holds hsrc
    obtain ⟨hb, hsrc⟩ := State.readByte_of_holds hsrc
    rw [List.length_cons, mapFrame, hr, Res.ok_bind, hg, Res.ok_bind, hb, Res.ok_bind, State.checkRange_one (by omega),
      Res.ok_bind, ih hsrc (by omega)]
    rfl

theorem State.holds_map_range {a n : Nat} {f : Nat → Byte} (hread : ∀ i < n, s.holds (a + i) [f i] = true) :
    s.holds a ((List.range n).map f) = true := by
  refine State.holds_of_getElem fun i hi => ?_
  rw [List.length_map, List.length_range] at hi
  simpa using State.holds_getElem (hread i hi) 0 Nat.one_pos

/-- Rows that stand in MEM, each w bytes after the one before it, are read one after the other. -/
theorem State.readRows_of_holds {a width n : Nat} {row : Nat → List Byte} (hlen : ∀ i, (row i).length = width)
    (hrow : ∀ i < n, s.holds (a + i * w) (row i) = true) :
    s.readRows w width a n = .ok ((List.range n).flatMap row) := by
  induction n generalizing a row with
  | zero => rfl
  | succ n ih =>
    have hfirst : s.readBytes a width = .ok (row 0) :=
      State.readBytes_eq_ok.2 ⟨hlen 0, by simpa using hrow 0 (Nat.succ_pos n)⟩
    have hrest : s.readRows w width (a + w) n = .ok ((List.range n).flatMap fun i => row (i + 1)) :=
      ih (fun i => hlen (i + 1)) fun i hi => by
        have := hrow (i + 1) (Nat.succ_lt_succ hi)
        rwa [Nat.succ_mul, Nat.add_comm (i * w), ← Nat.add_assoc] at this
    rw [State.readRows, hfirst, Res.ok_bind, hrest, List.range_succ_eq_map, List.flatMap_cons, List.flatMap_map]
    rfl

/-- The rectangle's indices are those that stand at its places (R432, R437). -/
theorem State.rectIndices_ok
    (hread : ∀ dy < r.height, ∀ dx < r.width, s.holds (idx + ((r.top + dy) * w + (r.left + dx)))
      [cur.getD ((r.top + dy) * w + (r.left + dx)) first] = true) :
    s.rectIndices idx w r = .ok (r.indices w cur first) := by
  refine State.readRows_of_holds (fun i => by simp) fun dy hdy => State.holds_map_range fun dx hdx => ?_
  have hplace : idx + (r.top * w + r.left) + dy * w + dx = idx + ((r.top + dy) * w + (r.left + dx)) := by
    rw [Nat.add_mul]
    omega
  exact hplace ▸ hread dy hdy dx hdx

/-- A place of the rectangle is one of the screen. -/
theorem FrameRect.OnScreen.place_lt (hscreen : r.OnScreen w h) {dx dy : Nat} (hdx : dx < r.width) (hdy : dy < r.height) :
    (r.top + dy) * w + (r.left + dx) < w * h := by
  obtain ⟨hright, hbottom⟩ := hscreen
  calc (r.top + dy) * w + (r.left + dx) < (r.top + dy + 1) * w := by rw [Nat.succ_mul]; omega
    _ ≤ h * w := Nat.mul_le_mul_right w (by omega)
    _ = w * h := Nat.mul_comm h w

/-- The rectangle of changed pixels lies on a screen that has pixels (R434). -/
theorem changedRect_onScreen (hpos : 0 < w * h) (hchanged : ∀ p ∈ changed, p < w * h) :
    (changedRect w changed).OnScreen w h := by
  have hw := Nat.pos_of_mul_pos_right hpos
  have hh := Nat.pos_of_mul_pos_left hpos
  by_cases hnil : changed = []
  · rw [hnil, changedRect_nil]
    exact ⟨hw, hh⟩
  · obtain ⟨-, -, ⟨p, -, hright⟩, -, ⟨q, hq, hbottom⟩⟩ := changedRect_spans (w := w) hnil
    have hcolumn := Nat.mod_lt p hw
    have hrow := Nat.div_lt_of_lt_mul (hchanged q hq)
    exact ⟨by omega, by omega⟩

/-- The rectangle of a frame: the whole screen for the first one, else what changed (R434). -/
def State.rectOf (s : State) (w h : Nat) (cur prev : List Byte) : FrameRect :=
  if s.getCsr .gwFrames = 0 then ⟨0, 0, w, h⟩ else changedRect w (changedAt cur prev)

/-- The rectangle is found when the previous index frame stands in MEM (R434). -/
theorem frameRect_ok (hlen : prev.length = w * h)
    (hprev : s.getCsr .gwFrames ≠ 0 → s.holds (s.getCsrNat .gwIdxBase + w * h) prev = true) :
    frameRect s w h cur = .ok (s.rectOf w h cur prev) := by
  rw [frameRect, State.rectOf]
  split
  · rfl
  · next hlater =>
    rw [State.readBytes_eq_ok.2 ⟨hlen, hprev hlater⟩, Res.ok_bind]
    rfl

/-- On a screen of no pixels nothing can have changed. -/
theorem State.rectOf_empty (hlater : s.getCsr .gwFrames ≠ 0) : s.rectOf w h [] prev = ⟨0, 0, 1, 1⟩ := if_neg hlater

theorem State.rectOf_onScreen (hlen : cur.length = w * h) (hpos : s.getCsr .gwFrames = 0 ∨ 0 < w * h) :
    (s.rectOf w h cur prev).OnScreen w h := by
  rw [State.rectOf]
  split
  · exact ⟨(Nat.zero_add w).le, (Nat.zero_add h).le⟩
  · next hlater =>
    refine changedRect_onScreen (hpos.resolve_left hlater) fun p hp => ?_
    rw [← hlen]
    exact List.mem_range.1 (List.mem_of_mem_filter hp)

/-- The rectangle's indices are read from the index frame where it has them, and a screen of no pixels gives the byte at its
base (R437). -/
theorem State.rectIndices_rectOf (hlen : cur.length = w * h) (hcur : s.holds idx cur = true)
    (hfirst : s.getCsr .gwFrames ≠ 0 → w * h = 0 → s.holds idx [first] = true) :
    s.rectIndices idx w (s.rectOf w h cur prev) = .ok ((s.rectOf w h cur prev).indices w cur first) := by
  refine State.rectIndices_ok fun dy hdy dx hdx => ?_
  by_cases hpos : s.getCsr .gwFrames = 0 ∨ 0 < w * h
  · have hplace := (State.rectOf_onScreen hlen hpos).place_lt hdx hdy
    rw [← hlen] at hplace
    have hread := State.holds_getElem hcur _ hplace
    rw [List.getD_eq_getElem _ _ hplace]
    simpa [State.holds] using hread
  · obtain ⟨hlater, hnone⟩ := not_or.1 hpos
    obtain rfl := List.eq_nil_of_length_eq_zero (hlen.trans (Nat.eq_zero_of_not_pos hnone))
    rw [State.rectOf_empty hlater] at hdy hdx ⊢
    obtain rfl : dy = 0 := Nat.lt_one_iff.1 hdy
    obtain rfl : dx = 0 := Nat.lt_one_iff.1 hdx
    simpa using hfirst hlater hlen.symm

end Frame

/-! ### The work after the checks (R437) -/

/-- What GIFWFRAME leaves when it ends well: the bytes of the frame behind the old BW_LEN, the index frame twice, and one more
frame counted (R437). -/
structure FrameWritten (s : State) (cur out : List Byte) (t : State) : Prop extends Written s out t where
  current : t.holds (s.getCsrNat .gwIdxBase) cur = true
  previous : t.holds (s.getCsrNat .gwIdxBase + cur.length) cur = true
  frames : t.getCsr .gwFrames = s.getCsr .gwFrames + 1

/-- What GIFWFRAME needs beside its checks: the pixels at src and the previous index frame stand in MEM, both index frames lie
inside it and apart from the writer's buffer, and a screen of no pixels has a byte at the base for a later frame (R437). -/
structure State.FrameReady (s : State) (src : Nat) (pixels : List (Byte × Byte × Byte)) (prev : List Byte) (first : Byte) :
    Prop where
  writer : s.gifWriterReady
  count : pixels.length = s.getCsrNat .gwW * s.getCsrNat .gwH
  source : s.holds src (pixelBytesOf pixels) = true
  prevCount : prev.length = s.getCsrNat .gwW * s.getCsrNat .gwH
  previous : s.getCsr .gwFrames ≠ 0 →
    s.holds (s.getCsrNat .gwIdxBase + s.getCsrNat .gwW * s.getCsrNat .gwH) prev = true
  inMem : s.getCsrNat .gwIdxBase + 2 * (s.getCsrNat .gwW * s.getCsrNat .gwH) ≤ s.memSize
  noPixels : s.getCsr .gwFrames ≠ 0 → s.getCsrNat .gwW * s.getCsrNat .gwH = 0 →
    s.holds (s.getCsrNat .gwIdxBase) [first] = true
  apart : s.indexRegion.overlaps s.writeRegion = false

section Work

variable {s t : State} {pixels : List (Byte × Byte × Byte)} {prev cur out : List Byte} {first : Byte} {src delay : Nat}

theorem Written.of_csrs {u : State} (h : Written u out t) (hcsrs : u.csrs = s.csrs) : Written s out t := by
  have hcsr (c : Csr) : s.getCsr c = u.getCsr c := by rw [State.getCsr, State.getCsr, hcsrs]
  obtain ⟨hstands, hlen, hacc, hnacc⟩ := h
  refine ⟨?_, ?_, hacc, hnacc⟩
  · rwa [State.getCsrNat, State.getCsrNat, hcsr, hcsr]
  · rwa [State.getCsrNat, State.getCsrNat, hcsr]

theorem State.setCsr_holds (s : State) (c : Csr) (v : Word) (a : Nat) (bs : List Byte) :
    (s.setCsr c v).holds a bs = s.holds a bs :=
  State.holds_congr (s := s) (t := s.setCsr c v) rfl rfl a bs

/-- Bytes keep standing beside those that are stored. -/
theorem State.holds_putMem_apart {a b : Nat} {bs stored : List Byte} (h : s.holds a bs = true)
    (hapart : a + bs.length ≤ b ∨ b + stored.length ≤ a) : (s.putMem b stored).holds a bs = true :=
  State.holds_of_kept h rfl fun i hi => Memory.read?_write_outside _ _ _ _ (by omega)

/-- The writer's bytes and the index frames are apart, so the index frame, the frame's bytes and the second index frame are
stored one after the other, and all of them stand at the end. -/
theorem storeFrame_ok (hready : s.gifWriterReady) (hfits : s.WriterFits out)
    (hcur : cur.length = s.getCsrNat .gwW * s.getCsrNat .gwH)
    (hmem : s.getCsrNat .gwIdxBase + 2 * cur.length ≤ s.memSize)
    (hapart : s.indexRegion.overlaps s.writeRegion = false) :
    ∃ t u, (s.putMem (s.getCsrNat .gwIdxBase) cur).putWriter out = .ok t ∧
      t.storeBytes (s.getCsrNat .gwIdxBase + cur.length) cur = .ok u ∧ u.pc = s.pc ∧
      u.getCsr .gwFrames = s.getCsr .gwFrames ∧
      FrameWritten s cur out (u.setCsr .gwFrames (s.getCsr .gwFrames + 1)) ∧
      Effect [] (.gwFrames :: writerCsrs) [] [⟨s.getCsrNat .bwBase + s.getCsrNat .bwLen, out.length⟩, s.indexRegion] s
        (u.setCsr .gwFrames (s.getCsr .gwFrames + 1)) := by
  obtain ⟨t, hput, hpc, hwritten, hwrite⟩ :=
    State.gifWriterReady.putWriter (s := s.putMem (s.getCsrNat .gwIdxBase) cur) hready hfits
  replace hwritten : Written s out t := hwritten.of_csrs rfl
  have hsize : t.memSize = s.memSize := congrArg Params.memSize hwrite.params
  have hroom : t.RoomFor (s.getCsrNat .gwIdxBase + cur.length) cur := .inr (by omega)
  have hlast : Effect [] [.gwFrames] [] [⟨s.getCsrNat .gwIdxBase + cur.length, cur.length⟩] t
      ((t.putMem (s.getCsrNat .gwIdxBase + cur.length) cur).setCsr .gwFrames (s.getCsr .gwFrames + 1)) :=
    ((Effect.refl t ..).putMem fun _ => id).setCsr List.mem_cons_self
  obtain ⟨hcap, -⟩ := hfits
  simp only [Region.overlaps, State.indexRegion, State.writeRegion, ← hcur, decide_eq_false_iff_not] at hapart
  change Effect [] writerCsrs [] [⟨s.getCsrNat .bwBase + s.getCsrNat .bwLen, out.length⟩] _ t at hwrite
  have hcurrent : t.holds (s.getCsrNat .gwIdxBase) cur = true := by
    refine State.holds_of_kept (s.putMem_holds _ cur (.inr (by omega))) hwrite.params fun i hi => hwrite.mem _ ?_
    simp only [outside, List.forall_mem_singleton]
    omega
  refine ⟨t, t.putMem _ cur, hput, State.storeBytes_eq_ok.2 ⟨hroom, rfl⟩, hpc, hwrite.csr .gwFrames (by decide),
    ⟨hwritten.keep hlast (by decide) fun i hi => ?_, ?_, ?_, ?_⟩, ?_⟩
  · simp only [outside, List.forall_mem_singleton]
    omega
  · rw [State.setCsr_holds]
    exact State.holds_putMem_apart hcurrent (.inl le_rfl)
  · rw [State.setCsr_holds]
    exact t.putMem_holds _ cur hroom
  · exact (State.getCsr_setCsr_self ..).trans (and_fullMask _)
  · refine (((Effect.refl s ..).putMem fun a ha => ?_).trans
      (hwrite.mono (List.nil_subset _) (List.subset_cons_self ..) (List.nil_subset _) fun a ha => ?_)).putMem
        (fun a ha => ?_) |>.setCsr List.mem_cons_self
    all_goals
      simp only [outside, State.indexRegion, ← hcur, List.forall_mem_cons, List.not_mem_nil, false_implies, implies_true,
        and_true] at ha ⊢
      omega

/-- The work of GIFWFRAME when everything fits: the pixels are mapped, the rectangle's indices are read back, and the frame
goes out (R437). -/
theorem State.FrameReady.writeFrame_ok (hready : s.FrameReady src pixels prev first) {r : FrameRect}
    (hr : r = s.rectOf (s.getCsrNat .gwW) (s.getCsrNat .gwH) (indexFrame pixels) prev)
    (hout : out = frameBytes r delay (frameData (r.indices (s.getCsrNat .gwW) (indexFrame pixels) first)))
    (hfits : s.WriterFits out) :
    ∃ t, writeFrame s src delay = .ok t ∧ t.pc = s.pc ∧ FrameWritten s (indexFrame pixels) out t ∧
      Effect [] (.gwFrames :: writerCsrs) [] [⟨s.getCsrNat .bwBase + s.getCsrNat .bwLen, out.length⟩, s.indexRegion] s
        t := by
  obtain ⟨hwriter, hcount, hsrc, hprevCount, hprev, hmem, hnone, hapart⟩ := hready
  have hcur : (indexFrame pixels).length = s.getCsrNat .gwW * s.getCsrNat .gwH := (length_indexFrame pixels).trans hcount
  have hmap := mapFrame_ok (dst := s.getCsrNat .gwIdxBase) hsrc (by omega)
  have hprev' (hlater : s.getCsr .gwFrames ≠ 0) := State.holds_putMem_apart (hprev hlater) (.inr (by rw [hcur]))
  have hrect : frameRect (s.putMem (s.getCsrNat .gwIdxBase) (indexFrame pixels)) (s.getCsrNat .gwW) (s.getCsrNat .gwH)
      (indexFrame pixels) = .ok r := hr ▸ frameRect_ok hprevCount hprev'
  have hindices : (s.putMem (s.getCsrNat .gwIdxBase) (indexFrame pixels)).rectIndices (s.getCsrNat .gwIdxBase)
      (s.getCsrNat .gwW) r = .ok (r.indices (s.getCsrNat .gwW) (indexFrame pixels) first) := hr ▸
    State.rectIndices_rectOf hcur (s.putMem_holds _ _ (.inr (by omega))) fun hlater hzero =>
      State.holds_putMem_apart (hnone hlater hzero) (.inr (by omega))
  obtain ⟨t, u, hput, hstore, hpc, hframes, hwritten, heffect⟩ := storeFrame_ok hwriter hfits hcur (by omega) hapart
  rw [hcount] at hmap
  rw [hcur] at hstore
  refine ⟨u.setCsr .gwFrames _, ?_, hpc, hwritten, heffect⟩
  simp only [writeFrame, hmap, Res.ok_bind, hrect, hindices, ← hout, hput, hstore, hframes]
  rfl

end Work

/-! ### Faults that leave nothing of their own -/

/-- Whatever fault the result raises, it leaves nothing itself: what is left is what the command adds (R494). -/
structure Res.LeavesNothing {α : Type} (r : Res α) : Prop where
  left : ∀ f ps, r = .error (.raise f ps) → ps = []

section LeavesNothing

variable {α β : Type} {r : Res α} {s : State}

theorem Res.LeavesNothing.ok (a : α) : Res.LeavesNothing (.ok a) := ⟨fun _ _ h => nomatch h⟩

theorem Res.LeavesNothing.bind {f : α → Res β} (h : r.LeavesNothing) (hf : ∀ a, (f a).LeavesNothing) :
    (r >>= f).LeavesNothing := by
  refine ⟨fun e ps hr => ?_⟩
  obtain hr | ⟨a, -, ha⟩ := Res.bind_eq_error.1 hr
  · exact h.left e ps hr
  · exact (hf a).left e ps ha

theorem require_leavesNothing (c : Bool) (code : FaultCode) (aux : Nat) : (require c code aux).LeavesNothing := by
  refine ⟨fun f ps h => ?_⟩
  cases (require_eq_error.1 h).2
  rfl

theorem State.checkRange_leavesNothing (s : State) (a n : Nat) : (s.checkRange a n).LeavesNothing := by
  refine ⟨fun f ps h => ?_⟩
  cases (State.checkRange_eq_error.1 h).2
  rfl

theorem State.byteAt_leavesNothing (s : State) (a : Nat) : (s.byteAt a).LeavesNothing := by
  unfold State.byteAt
  split
  · exact .ok _
  · exact ⟨fun _ _ h => nomatch h⟩

theorem State.readByte_leavesNothing (s : State) (a : Nat) : (s.readByte a).LeavesNothing :=
  (s.checkRange_leavesNothing a 1).bind fun _ => s.byteAt_leavesNothing a

theorem State.readBytes_leavesNothing (s : State) (a n : Nat) : (s.readBytes a n).LeavesNothing := by
  induction n generalizing a with
  | zero => exact .ok _
  | succ n ih => exact (s.readByte_leavesNothing a).bind fun _ => (ih (a + 1)).bind fun _ => .ok _

theorem State.readRows_leavesNothing (s : State) (w width a n : Nat) : (s.readRows w width a n).LeavesNothing := by
  induction n generalizing a with
  | zero => exact .ok _
  | succ n ih => exact (s.readBytes_leavesNothing a width).bind fun _ => (ih (a + w)).bind fun _ => .ok _

theorem mapFrame_leavesNothing (s : State) (src dst n : Nat) : (mapFrame s src dst n).LeavesNothing := by
  induction n generalizing src dst with
  | zero => exact .ok _
  | succ n ih =>
    have hread := s.readByte_leavesNothing
    exact (hread _).bind fun _ => (hread _).bind fun _ => (hread _).bind fun _ =>
      (s.checkRange_leavesNothing _ _).bind fun _ => (ih _ _).bind fun _ => .ok _

theorem frameRect_leavesNothing (s : State) (w h : Nat) (cur : List Byte) : (frameRect s w h cur).LeavesNothing := by
  unfold frameRect
  split
  · exact .ok _
  · exact (s.readBytes_leavesNothing _ _).bind fun _ => .ok _

theorem State.commitCheck_leavesNothing (s : State) (base cap n len : Nat) :
    (s.commitCheck base cap n len).LeavesNothing := by
  induction n generalizing len with
  | zero => exact .ok _
  | succ n ih =>
    exact (require_leavesNothing ..).bind fun _ => (s.checkRange_leavesNothing _ _).bind fun _ => ih (len + 1)

theorem State.putWriter_leavesNothing (s : State) (bs : List Byte) : (s.putWriter bs).LeavesNothing :=
  (s.commitCheck_leavesNothing ..).bind fun _ => .ok _

theorem writeFrame_leavesNothing (s : State) (src delay : Nat) : (writeFrame s src delay).LeavesNothing :=
  (mapFrame_leavesNothing ..).bind fun _ => (frameRect_leavesNothing ..).bind fun _ =>
    (State.readRows_leavesNothing ..).bind fun _ => (State.putWriter_leavesNothing ..).bind fun t =>
      ((t.checkRange_leavesNothing ..).bind fun _ => .ok _).bind fun _ => .ok _

theorem requireGifWriter_leavesNothing (s : State) : (requireGifWriter s).LeavesNothing :=
  (require_leavesNothing ..).bind fun _ => (require_leavesNothing ..).bind fun _ => require_leavesNothing ..

end LeavesNothing

/-! ### GIFWFRAME -/

/-- GIFWFRAME without what its faults leave: the checks, then the work (R437). -/
def frameWork (rb rc : Reg) (s : State) : Res State := do
  require (s.getCsr .gwOpen == 1) .contractViolation 19
  requireGifWriter s
  require (decide (s.getXNat rc ≤ 65535)) .contractViolation 21
  requireDisjoint3 ⟨s.getXNat rb, 3 * (s.getCsrNat .gwW * s.getCsrNat .gwH)⟩ s.indexRegion s.writeRegion
  writeFrame s (s.getXNat rb) (s.getXNat rc)

theorem exec_gifwframe (rb rc : Reg) (s : State) : exec (.gifwframe rb rc) s =
    finish s (leaving (frameLeft s) (leavingPastOverlap writerCsrsLeft (frameWork rb rc s))) := rfl

section Command

variable {rb rc : Reg} {s t : State} {f : EngineFault}

theorem frameWork_leavesNothing (rb rc : Reg) (s : State) : (frameWork rb rc s).LeavesNothing :=
  (require_leavesNothing ..).bind fun _ => (requireGifWriter_leavesNothing s).bind fun _ =>
    (require_leavesNothing ..).bind fun _ => (require_leavesNothing ..).bind fun _ => writeFrame_leavesNothing ..

/-- What R437 says a fault leaves: the bytes past BW_LEN and the index frames. -/
theorem frameLeft_within {cs : List Csr} (s : State) :
    ∀ p ∈ frameLeft s, p.Within cs [] [s.writerRoom, s.indexRegion] := by
  refine List.forall_mem_cons.2 ⟨s.writerRoomLeft_within _ List.mem_cons_self, List.forall_mem_singleton.2 ?_⟩
  exact Leftover.within_mem.2 fun a ha => List.forall_mem_singleton.2 (ha s.indexRegion (by simp))

/-- The CSRs a fault of GIFWFRAME leaves: those of the writer, but for the fault of R109 (R494, log entry 10). -/
def frameFaultCsrs (f : EngineFault) : List Csr := if f = ⟨.contractViolation, 1⟩ then [] else writerCsrs

theorem exec_gifwframe_raise (h : frameWork rb rc s = .error (.raise f [])) :
    ∃ t, exec (.gifwframe rb rc) s = .next t ∧
      FaultLeaving f.code f.aux (frameFaultCsrs f) [] [s.writerRoom, s.indexRegion] s t := by
  rw [exec_gifwframe, h, frameFaultCsrs]
  by_cases hf : f = ⟨.contractViolation, 1⟩
  · rw [leavingPastOverlap, if_pos hf, if_pos hf]
    exact finish_raise_leaving rfl (frameLeft_within s)
  · rw [leavingPastOverlap, if_neg hf, if_neg hf]
    refine finish_raise_leaving rfl (List.forall_mem_append.2 ⟨?_, frameLeft_within s⟩)
    simp [writerCsrsLeft, writerCsrs]

theorem exec_gifwframe_ok (h : frameWork rb rc s = .ok t) : exec (.gifwframe rb rc) s = .next t.advance := by
  rw [exec_gifwframe, h]
  rfl

theorem frameWork_closed (hclosed : s.getCsr .gwOpen = 0) :
    frameWork rb rc s = .error (.raise ⟨.contractViolation, 19⟩ []) := by
  rw [frameWork, hclosed]
  rfl

theorem frameWork_writer {e : Stop} (hopen : s.getCsr .gwOpen = 1) (hcheck : requireGifWriter s = .error e) :
    frameWork rb rc s = .error e := by
  rw [frameWork, hopen, hcheck]
  rfl

theorem frameWork_delay (hopen : s.getCsr .gwOpen = 1) (hcheck : requireGifWriter s = .ok ())
    (hdelay : 65535 < s.getXNat rc) : frameWork rb rc s = .error (.raise ⟨.contractViolation, 21⟩ []) := by
  rw [frameWork, hopen, hcheck, decide_eq_false (Nat.not_le.2 hdelay)]
  rfl

/-- After its checks GIFWFRAME fails on an overlap, else does its work. -/
theorem frameWork_checked (hopen : s.getCsr .gwOpen = 1) (hcheck : requireGifWriter s = .ok ())
    (hdelay : s.getXNat rc ≤ 65535) : frameWork rb rc s =
      requireDisjoint3 ⟨s.getXNat rb, 3 * (s.getCsrNat .gwW * s.getCsrNat .gwH)⟩ s.indexRegion s.writeRegion >>= fun _ =>
        writeFrame s (s.getXNat rb) (s.getXNat rc) := by
  rw [frameWork, hopen, hcheck, decide_eq_true hdelay]
  rfl

theorem State.putWriter_keepsPc (s : State) (bs : List Byte) : (s.putWriter bs).Answers fun t => t.pc = s.pc := by
  intro t ht
  obtain ⟨-, rfl⟩ := State.commit_eq_ok.1 ht
  rfl

theorem writeFrame_keepsPc (s : State) (src delay : Nat) : (writeFrame s src delay).Answers fun t => t.pc = s.pc := by
  refine .after fun cur => .after fun rect => .after fun indices => ?_
  refine (State.putWriter_keepsPc _ _).bind fun t ht => ?_
  refine Res.Answers.bind (P := fun u => u.pc = s.pc) (fun u hu => ?_) fun u hu => .ok hu
  obtain ⟨-, rfl⟩ := State.storeBytes_eq_ok.1 hu
  exact ht

theorem frameWork_keepsPc (rb rc : Reg) (s : State) : (frameWork rb rc s).Answers fun t => t.pc = s.pc :=
  .after fun _ => .after fun _ => .after fun _ => .after fun _ => writeFrame_keepsPc s _ _

/-- A fault of GIFWFRAME counts no frame (R437). A command that ends well moves PC on, so it is no fault. -/
theorem gifwframe_fault_frames {code : FaultCode} {aux : Word} (hexec : exec (.gifwframe rb rc) s = .next t)
    (hfault : FaultTaken code aux s t) : t.getCsr .gwFrames = s.getCsr .gwFrames := by
  rcases hwork : frameWork rb rc s with (⟨f, ps⟩ | f) | u
  · obtain rfl := (frameWork_leavesNothing rb rc s).left f ps hwork
    obtain ⟨u, hu, -, heffect⟩ := exec_gifwframe_raise hwork
    cases hexec.symm.trans hu
    refine heffect.csr .gwFrames ?_
    unfold frameFaultCsrs
    split <;> decide
  · rw [exec_gifwframe, hwork] at hexec
    cases hexec
  · cases hexec.symm.trans (exec_gifwframe_ok hwork)
    have hpc := hfault.pc
    rw [State.advance_pc, frameWork_keepsPc rb rc s u hwork] at hpc
    bv_omega

end Command

theorem State.advance_holds (s : State) (a : Nat) (bs : List Byte) : s.advance.holds a bs = s.holds a bs :=
  State.holds_congr (s := s) (t := s.advance) rfl rfl a bs

/-- Moving PC on changes nothing of what was written. -/
theorem FrameWritten.advance {s t : State} {cur out : List Byte} (h : FrameWritten s cur out t) :
    FrameWritten s cur out t.advance where
  stands := (t.advance_holds _ _).trans h.stands
  len := h.len
  acc := h.acc
  nacc := h.nacc
  current := (t.advance_holds _ _).trans h.current
  previous := (t.advance_holds _ _).trans h.previous
  frames := h.frames

theorem requireDisjoint3_overlap {p q r : Region} (h : (p.overlaps q || p.overlaps r || q.overlaps r) = true) :
    requireDisjoint3 p q r = .error (.raise ⟨.contractViolation, 1⟩ []) := by
  rw [requireDisjoint3, h]
  rfl

/-- Settles O58: a frame that passes the checks is written as `FrameWritten` says, and every fault is one of the checks' or
leaves GW_FRAMES as it was. -/
theorem Laws.writeFrame : Obligations.WriteFrame := by
  intro rb rc s w h idx at' src overlap leaves faults
  refine ⟨?_, fun hclosed => ?_, fun hopen hpending => ?_, fun hopen hnacc hmsb => ?_, fun hopen hnacc hmode => ?_,
    fun hopen hnacc hmode hdelay => ?_, fun hopen hnacc hmode hdelay hoverlap => ?_,
    fun t code aux hexec hfault => gifwframe_fault_frames hexec hfault⟩
  · intro pixels prev first _ hready hopen hdelay hoverlap hcount hsrc hprevCount hprev hmem hnone cur changed r indices z out
      hcap hroom
    simp only [overlap, Bool.or_eq_false_iff] at hoverlap
    obtain ⟨⟨hsi, hsw⟩, hiw⟩ := hoverlap
    have hframe : s.FrameReady (s.getXNat rb) pixels prev first :=
      ⟨hready, hcount, hsrc, hprevCount, hprev, hmem, hnone, hiw⟩
    have hcur : cur.length = w * h := (length_indexFrame pixels).trans hcount
    have hchanged : changed = changedAt cur prev := by rw [changedAt, hcur]
    have hr : r = s.rectOf w h cur prev := by rw [State.rectOf, ← hchanged]
    obtain ⟨t, ht, hpc, hwritten, heffect⟩ :=
      hframe.writeFrame_ok (out := out) (delay := s.getXNat rc) hr rfl ⟨hcap, hroom⟩
    have hwork : frameWork rb rc s = .ok t := by
      rw [frameWork_checked hopen hready.check hdelay, requireDisjoint3_ok hsi hsw hiw, ← ht]
      rfl
    obtain ⟨⟨hstands, hlen, hacc, hnacc⟩, hcurrent, hprevious, hframes⟩ := hwritten.advance
    exact ⟨t.advance, exec_gifwframe_ok hwork, hstands, hcurrent, hcur ▸ hprevious, hlen, hacc, hnacc, hframes,
      heffect.advanced hpc⟩
  · exact exec_gifwframe_raise (frameWork_closed hclosed)
  · exact exec_gifwframe_raise (frameWork_writer hopen (requireGifWriter_pending hpending))
  · exact exec_gifwframe_raise (frameWork_writer hopen (requireGifWriter_msb hnacc hmsb))
  · exact exec_gifwframe_raise (frameWork_writer hopen (requireGifWriter_stuffing hnacc hmode))
  · exact exec_gifwframe_raise (frameWork_delay hopen (requireGifWriter_ok hnacc hmode) hdelay)
  · refine exec_gifwframe_raise (f := ⟨.contractViolation, 1⟩) ?_
    rw [frameWork_checked hopen (requireGifWriter_ok hnacc hmode) hdelay, requireDisjoint3_overlap hoverlap]
    rfl

end Sys2Proof.Machine
end

section
/-! SUPPORT. Coefficient encoding (O48, O49): the values of a category and their raw bits, and the codes that ENCBLK puts for
a block. -/

namespace Sys2Proof.Machine

/-! ### Categories and raw bits (R460) -/

section Categories

variable {v : Int} {t : Nat}

theorem category_eq_succ_iff : category v = t + 1 ↔ 2 ^ t ≤ v.natAbs ∧ v.natAbs < 2 ^ (t + 1) := by
  constructor
  · intro h
    have hbits : t < category v := h ▸ Nat.lt_succ_self t
    exact ⟨two_pow_le_of_bitlen hbits, h ▸ lt_two_pow_bitlen v.natAbs⟩
  · rintro ⟨hle, hlt⟩
    refine le_antisymm (bitlen_le hlt) (Nat.lt_of_not_le fun hsmall => ?_)
    exact absurd hle (Nat.not_le.2 ((lt_two_pow_bitlen v.natAbs).trans_le (Nat.pow_le_pow_right (by decide) hsmall)))

theorem category_eq_zero_iff : category v = 0 ↔ v = 0 := by
  constructor
  · intro h
    have hlt : v.natAbs < 2 ^ category v := lt_two_pow_bitlen v.natAbs
    rw [h] at hlt
    omega
  · rintro rfl
    rfl

theorem category_le (h : v.natAbs < 2 ^ t) : category v ≤ t := bitlen_le h

/-- A nonzero value of t + 1 bits: raw bits below 2^t stand for a negative one, the others for themselves. -/
theorem rawbits_extend_of_bounds (hle : 2 ^ t ≤ v.natAbs) (hlt : v.natAbs < 2 ^ (t + 1)) :
    rawbits v (t + 1) < 2 ^ (t + 1) ∧ extend (rawbits v (t + 1)) (t + 1) = v := by
  have hcast : (2 : Int) ^ t = ((2 ^ t : Nat) : Int) := by push_cast; rfl
  simp only [rawbits, extend, Nat.add_sub_cancel, pow_succ, hcast] at hlt ⊢
  generalize 2 ^ t = n at *
  split <;> split <;> omega

theorem category_extend {bits : Nat} (h : bits < 2 ^ (t + 1)) :
    category (extend bits (t + 1)) = t + 1 ∧ rawbits (extend bits (t + 1)) (t + 1) = bits := by
  have hcast : (2 : Int) ^ t = ((2 ^ t : Nat) : Int) := by push_cast; rfl
  rw [category_eq_succ_iff]
  simp only [rawbits, extend, Nat.add_sub_cancel, pow_succ, hcast] at h ⊢
  generalize 2 ^ t = n at *
  by_cases hbits : n ≤ bits
  · simp only [if_pos hbits]
    split <;> omega
  · simp only [if_neg hbits]
    split <;> omega

/-- The raw bits of a nonzero value fit its category and give the value back. -/
theorem extend_rawbits (hv : v ≠ 0) :
    rawbits v (category v) < 2 ^ category v ∧ extend (rawbits v (category v)) (category v) = v := by
  obtain ⟨t, ht⟩ := Nat.exists_eq_succ_of_ne_zero (mt category_eq_zero_iff.1 hv)
  obtain ⟨hle, hlt⟩ := category_eq_succ_iff.1 ht
  rw [ht]
  exact rawbits_extend_of_bounds hle hlt

end Categories

/-- Settles O48: both halves come down to the bounds of a category's values. -/
theorem rawBitsInvertExtend : Obligations.RawBitsInvertExtend := by
  refine ⟨fun v hv => extend_rawbits hv, fun bits t ht hbits => ?_⟩
  obtain ⟨t, rfl⟩ := Nat.exists_eq_succ_of_ne_zero ht.ne'
  exact category_extend hbits

/-! ### The codes of a block (R461, R462, R466) -/

section Codes

variable {t : HuffSlot} {vs : List Nat} {v run : Nat} {w : Word} {ws : List Word}

theorem codeIn_eq_codeOf (table : List (Byte × Nat × Nat)) (v : Nat) :
    codeIn table v = (codeOf table v).getD (0, 0) := rfl

/-- A symbol with a code, looked up as ENCBLK does and as the codes are written out (R263, R465). -/
theorem huffCode_of_codesAll (hwf : t.wf = true) (hcodes : t.codesAll vs = true) (hv : v ∈ vs) :
    huffCode t v = .ok (codeIn t.table v) := by
  simp only [HuffSlot.codesAll, Bool.and_eq_true, Bool.not_eq_true', List.all_eq_true, List.any_eq_true, beq_iff_eq]
    at hcodes
  obtain ⟨hnodup, hsyms⟩ := hcodes
  obtain ⟨b, hb, rfl⟩ := hsyms v hv
  rw [← HuffSlot.table_map_fst hwf] at hb
  obtain ⟨e, he, rfl⟩ := List.mem_map.1 hb
  rw [huffCode_of_mem hwf hnodup he, codeIn_eq_codeOf, HuffSlot.codeOf_table hwf hnodup he, Option.getD_some]

theorem s32_ne_zero (hw : w ≠ 0) : s32 w ≠ 0 := fun hzero => hw (BitVec.eq_of_toInt_eq hzero)

theorem rawCode_of_ne {x : Int} (hx : x ≠ 0) : rawCode x = [(rawbits x (category x), category x)] :=
  if_neg (mt category_eq_zero_iff.1 hx)

theorem dcCodes_eq (t : HuffSlot) (diff : Int) :
    dcCodes t diff = do
      let c ← huffCode t (category diff)
      return c :: rawCode diff := by
  unfold dcCodes rawCode
  by_cases hzero : category diff = 0
  · simp only [hzero, if_true, lt_irrefl, if_false]
  · simp only [if_neg hzero, if_pos (Nat.pos_of_ne_zero hzero)]

theorem acCodes_nil (t : HuffSlot) (run : Nat) :
    acCodes t [] run = if 0 < run then (huffCode t 0x00).map fun c => [c] else .ok [] := rfl

theorem acCodes_zero (t : HuffSlot) (ws : List Word) (run : Nat) : acCodes t (0 :: ws) run = acCodes t ws (run + 1) := rfl

/-- The ZRLs before the symbol of a coefficient after `run` zeros; a run below 16 looks up no code (R466). -/
def zrlsOf (t : HuffSlot) (run : Nat) : Res (List (Nat × Nat)) :=
  if 16 ≤ run then (huffCode t 0xF0).map fun c => zrlCodes c run else .ok []

theorem zrlsOf_eq_ok {zrls : List (Nat × Nat)} : zrlsOf t run = .ok zrls ↔
    ∃ c, (16 ≤ run → huffCode t 0xF0 = .ok c) ∧ zrls = List.replicate (run / 16) c := by
  unfold zrlsOf
  by_cases hrun : 16 ≤ run
  · cases hcode : huffCode t 0xF0 with
    | ok c => simp [hrun, Except.map, zrlCodes, eq_comm]
    | error e => simp [hrun, Except.map]
  · have hnone : run / 16 = 0 := Nat.div_eq_of_lt (Nat.lt_of_not_le hrun)
    simp [hrun, hnone, eq_comm]

/-- What ENCBLK puts for a nonzero coefficient: the ZRLs of its run, its symbol's code and its raw bits (R466). -/
theorem acCodes_of_ne (hw : w ≠ 0) : acCodes t (w :: ws) run = do
    let zrls ← zrlsOf t run
    let c ← huffCode t (16 * (run % 16) + category (s32 w))
    let rest ← acCodes t ws 0
    return zrls ++ c :: (rawCode (s32 w) ++ rest) := by
  have hs := s32_ne_zero hw
  rw [acCodes, zrlsOf]
  simp only [if_neg hs, rawCode_of_ne hs]
  split <;> rfl

theorem acSymbols_of_ne (hw : w ≠ 0) : acSymbols (w :: ws) run =
    List.replicate (run / 16) 0xF0 ++ (16 * (run % 16) + category (s32 w)) :: acSymbols ws 0 := if_neg hw

theorem acPieces_of_ne (hw : w ≠ 0) (table : List (Byte × Nat × Nat)) : acPieces table (w :: ws) run =
    List.replicate (run / 16) (codeIn table 0xF0) ++ codeIn table (16 * (run % 16) + category (s32 w)) ::
      (rawCode (s32 w) ++ acPieces table ws 0) := if_neg hw

/-- Where every symbol of the coefficients has its code, these are the codes ENCBLK puts (R466). -/
theorem acCodes_eq_acPieces (hcodes : ∀ v ∈ acSymbols ws run, huffCode t v = .ok (codeIn t.table v)) :
    acCodes t ws run = .ok (acPieces t.table ws run) := by
  induction ws generalizing run with
  | nil =>
    rw [acCodes_nil, acPieces]
    by_cases hrun : 0 < run
    · have heob := hcodes 0x00 (by rw [acSymbols, if_pos hrun]; exact List.mem_singleton_self _)
      rw [if_pos hrun, if_pos hrun, heob]
      rfl
    · rw [if_neg hrun, if_neg hrun]
  | cons w ws ih =>
    by_cases hw : w = 0
    · subst hw
      rw [acCodes_zero]
      exact ih hcodes
    · rw [acSymbols_of_ne hw] at hcodes
      obtain ⟨hzrl, hrest⟩ := List.forall_mem_append.1 hcodes
      obtain ⟨hsymbol, hrest⟩ := List.forall_mem_cons.1 hrest
      have hzrls : zrlsOf t run = .ok (List.replicate (run / 16) (codeIn t.table 0xF0)) :=
        zrlsOf_eq_ok.2 ⟨_, fun hrun => hzrl 0xF0 (List.mem_replicate.2 ⟨by omega, rfl⟩), rfl⟩
      rw [acCodes_of_ne hw, acPieces_of_ne hw, hzrls, hsymbol, ih hrest]
      rfl

end Codes

/-! ### ENCBLK -/

section Encblk

variable {s t : State} {dc ac : BitVec 5} {pred : Word} {diff : Int} {acs : List Word}

/-- The values ENCBLK takes: a difference below 2^16 and coefficients below 2^15 in magnitude (R466). -/
def CodableValues (diff : Int) (acs : List Word) : Prop := diff.natAbs < 2 ^ 16 ∧ ∀ w ∈ acs, (s32 w).natAbs < 2 ^ 15

/-- The two checks of ENCBLK before it looks up any symbol (R466). -/
def rangeCheck (diff : Int) (acs : List Word) : Res Unit := do
  require (decide (diff.natAbs < 2 ^ 16)) .contractViolation 11
  require (acs.all fun w => decide ((s32 w).natAbs < 2 ^ 15)) .contractViolation 11

theorem rangeCheck_ok_iff : rangeCheck diff acs = .ok () ↔ CodableValues diff acs := by
  simp [rangeCheck, CodableValues, Res.bind_eq_ok, require_eq_ok]

theorem rangeCheck_refused (h : ¬ CodableValues diff acs) :
    rangeCheck diff acs = .error (.raise ⟨.contractViolation, 11⟩ []) := by
  cases hcheck : rangeCheck diff acs with
  | ok u => exact absurd (rangeCheck_ok_iff.1 hcheck) h
  | error e =>
    simp only [rangeCheck, Res.bind_eq_error, require_eq_error] at hcheck
    obtain ⟨-, rfl⟩ | ⟨-, -, -, rfl⟩ := hcheck <;> rfl

/-- The difference that ENCBLK codes (R466). -/
abbrev State.dcDiff (s : State) (pred : Word) : Int := s32 (blockAt s.kfile 0 0) - s32 pred

/-- The AC coefficients in scan order. -/
abbrev State.acCoefs (s : State) : List Word := s.kfile.toList.drop 1

theorem encodeBlock_eq (s : State) (dc ac : BitVec 5) (pred : Word) : encodeBlock s dc ac pred = do
    leaving (s.writerLeft maxBlockBits) (rangeCheck (s.dcDiff pred) s.acCoefs)
    let dcs ← dcCodes (s.slot dc) (s.dcDiff pred)
    let rest ← acCodes (s.slot ac) s.acCoefs 0
    return dcs ++ rest := rfl

theorem encodeBlock_eq_blockPieces (hdc : (s.slot dc).wf = true) (hac : (s.slot ac).wf = true)
    (hrange : CodableValues (s.dcDiff pred) s.acCoefs) (hdcs : (s.slot dc).codesAll [category (s.dcDiff pred)] = true)
    (hacs : (s.slot ac).codesAll (acSymbols s.acCoefs 0) = true) :
    encodeBlock s dc ac pred = .ok (blockPieces (s.slot dc).table (s.slot ac).table (s.dcDiff pred) s.acCoefs) := by
  have hcode := huffCode_of_codesAll hdc hdcs (List.mem_singleton_self _)
  have hrest := acCodes_eq_acPieces fun v hv => huffCode_of_codesAll hac hacs hv
  rw [encodeBlock_eq, rangeCheck_ok_iff.2 hrange, leaving_ok, Res.ok_bind, dcCodes_eq, hcode, hrest]
  rfl

theorem encodeBlock_refused (hrange : ¬ CodableValues (s.dcDiff pred) s.acCoefs) :
    encodeBlock s dc ac pred = .error (.raise ⟨.contractViolation, 11⟩ (s.writerLeft maxBlockBits)) := by
  rw [encodeBlock_eq, rangeCheck_refused hrange, leaving_raise, Res.error_bind, List.nil_append]

theorem Csr.pred_mask (p : BitVec 2) : (Csr.pred p).mask = 0xFFFFFFFF#32 := by revert p; decide

theorem Csr.pred_not_mem_writerCsrs (p : BitVec 2) : Csr.pred p ∉ writerCsrs := by revert p; decide

theorem Csr.pred_ne_brPos (p : BitVec 2) : Csr.pred p ≠ .brPos := by revert p; decide

/-- A write to a CSR outside the writer keeps what was committed (R217). -/
theorem Committed.setCsr {k : Packer} {c : Csr} (h : Committed s k t) (hc : c ∉ writerCsrs) (v : Word) :
    Committed s k (t.setCsr c v) := by
  simp only [writerCsrs, List.mem_cons, List.not_mem_nil, or_false, not_or] at hc
  obtain ⟨hlen, hacc, hnacc⟩ := hc
  simpa only [Committed, State.getCsrNat, State.getCsr_setCsr_of_ne t v (Ne.symm hlen),
    State.getCsr_setCsr_of_ne t v (Ne.symm hacc), State.getCsr_setCsr_of_ne t v (Ne.symm hnacc),
    State.holds_congr (t.setCsr_mem c v) (t.setCsr_params c v)] using h

/-- A fault of ENCBLK before its lookups leaves the writer and the predictor (R494). -/
theorem State.encblkLeft_within (s : State) (p : BitVec 2) (n : Nat) :
    ∀ q ∈ s.writerLeft n ++ [.csr (Csr.pred p)], q.Within (Csr.pred p :: writerCsrs) [] [s.writerRoom] := by
  refine List.forall_mem_append.2 ⟨fun q hq => ?_, by simp⟩
  exact (s.writerLeft_within n q hq).mono (List.subset_cons_self ..) (List.Subset.refl _)

end Encblk

/-- Settles O49: symbols that have their codes are looked up to the pieces written out, and those are committed; a value out
of range faults before any lookup. -/
theorem Laws.encodeBlock : Obligations.EncodeBlock := by
  intro dc ac p s hs hdc hac diff acs inRange codes k
  have hslotDc : s.requireSlot (dcSlot dc) = .ok () := State.requireSlot_valid hdc
  have hslotAc : s.requireSlot (acSlot ac) = .ok () := State.requireSlot_valid hac
  have hpieces (hrange : inRange) (hdcs : (s.slot (dcSlot dc)).codesAll [category diff] = true)
      (hacs : (s.slot (acSlot ac)).codesAll (acSymbols acs 0) = true) :
      Machine.encodeBlock s (dcSlot dc) (acSlot ac) (s.getCsr (Csr.pred p)) = .ok codes :=
    encodeBlock_eq_blockPieces (hs.slot_wf _) (hs.slot_wf _) hrange hdcs hacs
  refine ⟨fun hrange hdcs hacs hfits => ?_, hpieces, fun hrange => ?_⟩
  · obtain ⟨t, hcommit, hpc, hdone, heffect⟩ :=
      State.commit_of_fits [] (Packer.putAll_nacc_lt hs.packer_nacc_lt codes) hfits
    simp only [exec_encblk, execEncblk, hslotDc, hslotAc, hpieces hrange hdcs hacs, hcommit, Res.ok_bind, leaving_ok]
    refine ⟨_, rfl, ?_, ?_, ?_⟩
    · exact (hdone.setCsr (Csr.pred_not_mem_writerCsrs p) _).congr rfl rfl rfl
    · rw [State.advance_getCsr, State.getCsr_setCsr_self, Csr.pred_mask, and_fullMask]
    · exact ((heffect.mono (List.Subset.refl _) (List.subset_cons_self ..) (List.Subset.refl _) fun _ => id).setCsr
        List.mem_cons_self).advanced hpc
  · simp only [exec_encblk, execEncblk, hslotDc, hslotAc, encodeBlock_refused hrange, Res.ok_bind, Res.error_bind,
      leaving_ok, leaving_raise]
    exact finish_raise_leaving rfl (s.encblkLeft_within p _)

end Sys2Proof.Machine
end

section
/-! SUPPORT. Coefficient decoding (O50): the reader's way back along the bits of a block's codes. DECBLK fills the block from
its first coefficient on; what it holds before coefficient k is `blockPrefix`. -/

namespace Sys2Proof.Machine

/-! ### Codes and raw bits read back (R262, R460) -/

section Reading

variable {rd : Reader} {s : State} {t : HuffSlot} {v p : Nat} {c : Nat × Nat}

theorem bitString_cons (order : BitOrder) (c : Nat × Nat) (cs : List (Nat × Nat)) :
    bitString order (c :: cs) = bitsOf order c.1 c.2 ++ bitString order cs := List.flatMap_cons

theorem Reader.hasBits_append_iff {xs ys : List Bool} : rd.hasBits s p (xs ++ ys) = true ↔
    rd.hasBits s p xs = true ∧ rd.hasBits s (p + xs.length) ys = true := by
  rw [Reader.hasBits_append, Bool.and_eq_true]

/-- The codes put first stand at the cursor, and the others after them. -/
theorem Reader.hasBits_bitString_cons {cs : List (Nat × Nat)} : rd.hasBits s p (bitString .msb (c :: cs)) = true ↔
    rd.hasBits s p (bitsOf .msb c.1 c.2) = true ∧ rd.hasBits s (p + c.2) (bitString .msb cs) = true := by
  rw [bitString_cons, Reader.hasBits_append_iff, length_bitsOf]

theorem Reader.hasBits_bitString_append {xs ys : List (Nat × Nat)} :
    rd.hasBits s p (bitString .msb (xs ++ ys)) = true ↔ rd.hasBits s p (bitString .msb xs) = true ∧
      rd.hasBits s (p + (bitString .msb xs).length) (bitString .msb ys) = true := by
  rw [bitString_append, Reader.hasBits_append_iff]

theorem length_bitString_cons (cs : List (Nat × Nat)) :
    (bitString .msb (c :: cs)).length = c.2 + (bitString .msb cs).length := by
  rw [bitString_cons, List.length_append, length_bitsOf]

theorem length_bitString_append (xs ys : List (Nat × Nat)) :
    (bitString .msb (xs ++ ys)).length = (bitString .msb xs).length + (bitString .msb ys).length := by
  rw [bitString_append, List.length_append]

/-- The code that a lookup answers belongs to an entry of the slot's table with that symbol (R263). -/
theorem mem_table_of_huffCode (h : huffCode t v = .ok c) : ∃ e ∈ t.table, e.1.toNat = v ∧ e.2 = c := by
  simp only [huffCode, codeTable, Res.bind_eq_ok] at h
  obtain ⟨table, ⟨-, -, htable⟩, h⟩ := h
  cases htable
  split at h
  · next c' hc =>
    cases h
    rw [codeOf, Option.map_eq_some_iff] at hc
    obtain ⟨e, he, rfl⟩ := hc
    exact ⟨e, List.mem_of_find?_eq_some he, by simpa using List.find?_some he, rfl⟩
  · cases h

/-- The code of a symbol decodes to that symbol (R262, R263). -/
theorem huffDecode_huffCode (hwf : t.wf = true) (hcode : huffCode t v = .ok c)
    (hbits : rd.hasBits s p (bitsOf .msb c.1 c.2) = true) :
    ∃ b : Byte, b.toNat = v ∧ huffDecode rd s t p = .ok (b, p + c.2) := by
  obtain ⟨e, he, rfl, rfl⟩ := mem_table_of_huffCode hcode
  exact ⟨e.1, rfl, huffDecode_code hwf he hbits⟩

/-- The raw bits of a value read back to it (R460, R464). -/
theorem readExtended_rawCode (horder : rd.order = .msb) {x : Int}
    (hbits : rd.hasBits s p (bitString .msb (rawCode x)) = true) :
    readExtended rd s (category x) p = .ok (x, p + (bitString .msb (rawCode x)).length) := by
  by_cases hx : x = 0
  · subst hx
    rfl
  · obtain ⟨hfits, hextend⟩ := extend_rawbits hx
    have hpos : 0 < category x := Nat.pos_of_ne_zero (mt category_eq_zero_iff.1 hx)
    have hstring : bitString .msb (rawCode x) = bitsOf .msb (rawbits x (category x)) (category x) := by
      rw [rawCode_of_ne hx, bitString_cons]
      exact List.append_nil _
    rw [hstring] at hbits ⊢
    have hread := Reader.readBits_of_hasBits (List.ne_nil_of_length_pos (by rwa [length_bitsOf])) hbits
    rw [horder, valueOf_bitsOf, Nat.mod_eq_of_lt hfits, length_bitsOf] at hread
    simp only [readExtended, if_neg hpos.ne', hread, Res.ok_bind, hextend, length_bitsOf]
    rfl

end Reading

/-! ### The block as far as it is decoded -/

section Prefix

variable {K : Vector Word 64} {k n : Nat}

/-- K with the coefficients from k on still 0, as DECBLK holds it before coefficient k. -/
def blockPrefix (K : Vector Word 64) (k : Nat) : Vector Word 64 := blockOf fun i => if i < k then blockAt K i 0 else 0

theorem blockAt_blockPrefix {i : Nat} (hi : i < 64) :
    blockAt (blockPrefix K k) i 0 = if i < k then blockAt K i 0 else 0 := blockAt_blockOf _ _ _ hi

theorem blockPrefix_full (K : Vector Word 64) : blockPrefix K 64 = K :=
  block_ext 0 fun i hi => by rw [blockAt_blockPrefix hi, if_pos hi]

theorem blockPrefix_zero (K : Vector Word 64) : blockPrefix K 0 = Vector.replicate 64 0 :=
  block_ext 0 fun i hi => by rw [blockAt_blockPrefix hi, if_neg (Nat.not_lt_zero i), blockAt_eq_getElem _ _ hi,
    Vector.getElem_replicate]

/-- Zeros need no write. -/
theorem blockPrefix_of_zeros (hkn : k ≤ n) (hzero : ∀ i, k ≤ i → i < n → blockAt K i 0 = 0) :
    blockPrefix K k = blockPrefix K n := by
  refine block_ext 0 fun i hi => ?_
  rw [blockAt_blockPrefix hi, blockAt_blockPrefix hi]
  by_cases hk : i < k
  · rw [if_pos hk, if_pos (hk.trans_le hkn)]
  · by_cases hn : i < n
    · rw [if_neg hk, if_pos hn, hzero i (Nat.le_of_not_lt hk) hn]
    · rw [if_neg hk, if_neg hn]

/-- Decoding coefficient k. -/
theorem setCoef_blockPrefix (K : Vector Word 64) (k : Nat) :
    setCoef (blockPrefix K k) k (blockAt K k 0) = blockPrefix K (k + 1) := by
  refine block_ext 0 fun i hi => ?_
  rw [setCoef, blockAt_eq_getElem _ _ hi, Vector.getElem_setIfInBounds, ← blockAt_eq_getElem _ 0 hi,
    blockAt_blockPrefix hi, blockAt_blockPrefix hi]
  by_cases hik : k = i
  · subst hik
    rw [if_pos rfl, if_pos (Nat.lt_succ_self k)]
  · rw [if_neg hik]
    exact if_congr (by omega) rfl rfl

theorem drop_block_eq_cons {w : Word} {ws : List Word} (h : K.toList.drop n = w :: ws) :
    n < 64 ∧ blockAt K n 0 = w ∧ K.toList.drop (n + 1) = ws := by
  have hn : n < K.toList.length := by
    by_contra hlen
    rw [List.drop_eq_nil_of_le (Nat.le_of_not_lt hlen)] at h
    cases h
  rw [List.drop_eq_getElem_cons hn] at h
  obtain ⟨hw, hws⟩ := List.cons.inj h
  have hn' : n < 64 := by simpa using hn
  exact ⟨hn', by rw [blockAt_eq_getElem _ _ hn', ← hw, Vector.getElem_toList], hws⟩

end Prefix

/-! ### The AC loop along the codes of a block (R462, R464) -/

section AcLoop

variable {rd : Reader} {s : State} {t : HuffSlot} {fuel k p r run : Nat} {c : Nat × Nat} {block K : Vector Word 64}
  {ws : List Word} {codes : List (Nat × Nat)}

theorem acLoop_full (hk : 64 ≤ k) : acLoop rd s t fuel k p block = .ok (block, p) := by
  cases fuel with
  | zero => rfl
  | succ fuel => rw [acLoop, if_pos hk]

theorem acLoop_eob (hwf : t.wf = true) (hcode : huffCode t 0x00 = .ok c) (hk : k < 64)
    (hbits : rd.hasBits s p (bitsOf .msb c.1 c.2) = true) :
    acLoop rd s t (fuel + 1) k p block = .ok (block, p + c.2) := by
  obtain ⟨b, hb, hread⟩ := huffDecode_huffCode hwf hcode hbits
  rw [acLoop, if_neg (Nat.not_le.2 hk), hread]
  simp only [Res.ok_bind, hb]
  rfl

/-- A ZRL moves on by 16 coefficients (R462). -/
theorem acLoop_zrl (hwf : t.wf = true) (hcode : huffCode t 0xF0 = .ok c) (hk : k + 16 ≤ 64)
    (hbits : rd.hasBits s p (bitsOf .msb c.1 c.2) = true) :
    acLoop rd s t (fuel + 1) k p block = acLoop rd s t fuel (k + 16) (p + c.2) block := by
  obtain ⟨b, hb, hread⟩ := huffDecode_huffCode hwf hcode hbits
  rw [acLoop, if_neg (by omega), hread]
  simp only [Res.ok_bind, hb, decide_eq_true hk, require_true]
  rfl

theorem acLoop_zrls (hwf : t.wf = true) {q : Nat} (hcode : q ≠ 0 → huffCode t 0xF0 = .ok c) (hk : k + 16 * q ≤ 64)
    (hbits : rd.hasBits s p (bitString .msb (List.replicate q c)) = true) :
    acLoop rd s t (fuel + q) k p block =
      acLoop rd s t fuel (k + 16 * q) (p + (bitString .msb (List.replicate q c)).length) block := by
  induction q generalizing k p with
  | zero => rfl
  | succ q ih =>
    have hcode' := hcode (Nat.succ_ne_zero q)
    rw [List.replicate_succ] at hbits ⊢
    obtain ⟨hhead, htail⟩ := Reader.hasBits_bitString_cons.1 hbits
    rw [← Nat.add_assoc, acLoop_zrl hwf hcode' (by omega) hhead, ih (fun _ => hcode') (by omega) htail,
      length_bitString_cons, Nat.add_assoc p, show k + 16 + 16 * q = k + 16 * (q + 1) by omega]

/-- The symbol of a run below 16 and a nonzero coefficient, with its raw bits, puts the coefficient past the run (R462). -/
theorem acLoop_coef (hwf : t.wf = true) (horder : rd.order = .msb) {x : Int} (hx : x ≠ 0) (hsize : x.natAbs < 2 ^ 15)
    (hr : r < 16) (hcode : huffCode t (16 * r + category x) = .ok c) (hk : k + r < 64)
    (hbits : rd.hasBits s p (bitString .msb (c :: rawCode x)) = true) :
    acLoop rd s t (fuel + 1) k p block =
      acLoop rd s t fuel (k + r + 1) (p + (bitString .msb (c :: rawCode x)).length) (setCoef block (k + r) (u32i x)) := by
  obtain ⟨hhead, hraw⟩ := Reader.hasBits_bitString_cons.1 hbits
  obtain ⟨b, hb, hread⟩ := huffDecode_huffCode hwf hcode hhead
  have hcategory := category_le hsize
  have hpos := mt category_eq_zero_iff.1 hx
  have hrun : b.toNat / 16 = r := by omega
  have hsize : b.toNat % 16 = category x := by omega
  rw [acLoop, if_neg (by omega), hread]
  simp only [Res.ok_bind, hrun, hsize, if_neg hpos, decide_eq_true (Nat.le_of_lt_succ hk), require_true,
    readExtended_rawCode horder hraw]
  rw [length_bitString_cons, Nat.add_assoc p]

/-- A nonzero coefficient after any number of zeros: the ZRLs of its run, then its symbol and raw bits (R462, R466). -/
theorem acLoop_run_coef (hwf : t.wf = true) (horder : rd.order = .msb) {zrls : List (Nat × Nat)}
    (hzrls : zrlsOf t run = .ok zrls) {x : Int} (hx : x ≠ 0) (hsize : x.natAbs < 2 ^ 15)
    (hcode : huffCode t (16 * (run % 16) + category x) = .ok c) (hk : k + run < 64)
    (hbits : rd.hasBits s p (bitString .msb (zrls ++ c :: rawCode x)) = true) :
    acLoop rd s t (fuel + 1 + run / 16) k p block = acLoop rd s t fuel (k + run + 1)
      (p + (bitString .msb (zrls ++ c :: rawCode x)).length) (setCoef block (k + run) (u32i x)) := by
  obtain ⟨z, hz, rfl⟩ := zrlsOf_eq_ok.1 hzrls
  obtain ⟨hbitsZrls, hbitsCoef⟩ := Reader.hasBits_bitString_append.1 hbits
  have hplace : k + 16 * (run / 16) + run % 16 = k + run := by omega
  rw [acLoop_zrls hwf (fun hq => hz (by omega)) (by omega) hbitsZrls,
    acLoop_coef hwf horder hx hsize (Nat.mod_lt _ (by decide)) hcode (hplace ▸ hk) hbitsCoef, hplace,
    length_bitString_append, Nat.add_assoc p]

/-- After the last nonzero coefficient an EOB ends the loop, or the block is full (R462). -/
theorem acLoop_tail (hwf : t.wf = true) (hend : k + run = 64) (hfuel : 64 ≤ fuel + k)
    (hcodes : acCodes t [] run = .ok codes) (hbits : rd.hasBits s p (bitString .msb codes) = true) :
    acLoop rd s t fuel k p block = .ok (block, p + (bitString .msb codes).length) := by
  rw [acCodes_nil] at hcodes
  by_cases hrun : 0 < run
  · rw [if_pos hrun] at hcodes
    cases hcode : huffCode t 0x00 with
    | error e => rw [hcode] at hcodes; cases hcodes
    | ok c =>
      rw [hcode] at hcodes
      cases hcodes
      obtain ⟨hhead, -⟩ := Reader.hasBits_bitString_cons.1 hbits
      obtain ⟨left, rfl⟩ := Nat.exists_eq_succ_of_ne_zero (show fuel ≠ 0 by omega)
      rw [acLoop_eob hwf hcode (by omega) hhead, length_bitString_cons]
      rfl
  · rw [if_neg hrun] at hcodes
    cases hcodes
    exact acLoop_full (by omega)

/-- The loop along the codes of the coefficients from k + run on, the `run` before them zeros, fills the block up to K. -/
theorem acLoop_acCodes (hwf : t.wf = true) (horder : rd.order = .msb) (hws : K.toList.drop (k + run) = ws)
    (hkr : k + run ≤ 64) (hzero : ∀ i, k ≤ i → i < k + run → blockAt K i 0 = 0)
    (hrange : ∀ w ∈ ws, (s32 w).natAbs < 2 ^ 15) (hfuel : 64 ≤ fuel + k) (hcodes : acCodes t ws run = .ok codes)
    (hbits : rd.hasBits s p (bitString .msb codes) = true) :
    acLoop rd s t fuel k p (blockPrefix K k) = .ok (K, p + (bitString .msb codes).length) := by
  induction ws generalizing k run fuel p codes with
  | nil =>
    have hlen := List.drop_eq_nil_iff.1 hws
    rw [Vector.length_toList] at hlen
    have hend : k + run = 64 := le_antisymm hkr hlen
    rw [blockPrefix_of_zeros (Nat.le_add_right k run) hzero, hend, blockPrefix_full]
    exact acLoop_tail hwf hend hfuel hcodes hbits
  | cons w ws ih =>
    obtain ⟨hn, hw, hws'⟩ := drop_block_eq_cons hws
    obtain ⟨hsize, hrange'⟩ := List.forall_mem_cons.1 hrange
    by_cases hw0 : w = 0
    · subst hw0
      rw [acCodes_zero] at hcodes
      refine ih hws' hn (fun i hi hlt => ?_) hrange' hfuel hcodes hbits
      obtain hlt | rfl := Nat.lt_succ_iff_lt_or_eq.1 hlt
      · exact hzero i hi hlt
      · exact hw
    · rw [acCodes_of_ne hw0, Res.bind_eq_ok] at hcodes
      obtain ⟨zrls, hzrls, hcodes⟩ := hcodes
      obtain ⟨c, hcode, hcodes⟩ := Res.bind_eq_ok.1 hcodes
      obtain ⟨rest, hrest, hcodes⟩ := Res.bind_eq_ok.1 hcodes
      cases hcodes
      rw [← List.cons_append, ← List.append_assoc] at hbits ⊢
      obtain ⟨hbitsCoef, hbitsRest⟩ := Reader.hasBits_bitString_append.1 hbits
      obtain ⟨left, rfl⟩ : ∃ left, fuel = left + 1 + run / 16 := ⟨fuel - 1 - run / 16, by omega⟩
      have hput : setCoef (blockPrefix K k) (k + run) (u32i (s32 w)) = blockPrefix K (k + run + 1) := by
        rw [u32i, BitVec.ofInt_toInt, blockPrefix_of_zeros (Nat.le_add_right k run) hzero, ← hw, setCoef_blockPrefix]
      rw [acLoop_run_coef hwf horder hzrls (s32_ne_zero hw0) hsize hcode hn hbitsCoef, hput,
        ih (run := 0) hws' hn (fun i hi hlt => absurd hi (Nat.not_le.2 hlt)) hrange' (by omega) hrest hbitsRest,
        length_bitString_append _ rest, Nat.add_assoc p]

end AcLoop

/-! ### DECBLK -/

section Decblk

variable {s u : State} {dc ac : BitVec 5} {pred : Word} {codes : List (Nat × Nat)}

/-- The difference brings the predictor back to K[0], modulo 2^32 (R463). -/
theorem u32i_add_dcDiff (s : State) (pred : Word) : u32i (pred.toNat + s.dcDiff pred) = blockAt s.kfile 0 0 := by
  rw [u32i, BitVec.ofInt_add, ofInt_toNat, State.dcDiff, Int.sub_eq_add_neg, BitVec.ofInt_add, BitVec.ofInt_neg,
    BitVec.ofInt_toInt, BitVec.ofInt_toInt]
  ring

theorem State.reader_order_msb (h : s.getCsr .brMode = 0) : s.reader.order = .msb := by
  rw [State.reader, h]
  rfl

theorem encodeBlock_eq_ok (h : encodeBlock s dc ac pred = .ok codes) : CodableValues (s.dcDiff pred) s.acCoefs ∧
    ∃ c rest, huffCode (s.slot dc) (category (s.dcDiff pred)) = .ok c ∧ acCodes (s.slot ac) s.acCoefs 0 = .ok rest ∧
      codes = (c :: rawCode (s.dcDiff pred)) ++ rest := by
  rw [encodeBlock_eq, dcCodes_eq, Res.bind_eq_ok] at h
  obtain ⟨u, hrange, h⟩ := h
  obtain ⟨dcs, hdcs, h⟩ := Res.bind_eq_ok.1 h
  obtain ⟨c, hcode, hdcs⟩ := Res.bind_eq_ok.1 hdcs
  obtain ⟨rest, hrest, h⟩ := Res.bind_eq_ok.1 h
  cases hdcs
  cases h
  exact ⟨rangeCheck_ok_iff.1 (leaving_eq_ok.1 hrange), c, rest, hcode, hrest, rfl⟩

/-- The codes of a block have at least one bit, that of the DC category. -/
theorem encodeBlock_bits_ne_nil (hwf : (s.slot dc).wf = true) (h : encodeBlock s dc ac pred = .ok codes) :
    bitString .msb codes ≠ [] := by
  obtain ⟨-, c, rest, hcode, -, rfl⟩ := encodeBlock_eq_ok h
  obtain ⟨e, he, -, rfl⟩ := mem_table_of_huffCode hcode
  obtain ⟨hpos, -, -⟩ := HuffSlot.code_bounds hwf he
  refine List.ne_nil_of_length_pos ?_
  rw [List.cons_append, length_bitString_cons]
  omega

/-- DECBLK's block along the bits that ENCBLK puts, with the same tables and predictor (R464, R466). -/
theorem decodeBlock_encodeBlock (hcodes : encodeBlock s dc ac pred = .ok codes) (hdc : u.slot dc = s.slot dc)
    (hac : u.slot ac = s.slot ac) (hdcWf : (u.slot dc).wf = true) (hacWf : (u.slot ac).wf = true)
    (horder : u.reader.order = .msb) (hbits : u.reader.hasBits u (u.getCsrNat .brPos) (bitString .msb codes) = true) :
    decodeBlock u dc ac pred =
      .ok (s.kfile, blockAt s.kfile 0 0, u.getCsrNat .brPos + (bitString .msb codes).length) := by
  obtain ⟨⟨hdiff, hrange⟩, c, rest, hcode, hrest, rfl⟩ := encodeBlock_eq_ok hcodes
  obtain ⟨hbitsDc, hbitsAc⟩ := Reader.hasBits_bitString_append.1 hbits
  obtain ⟨hbitsCode, hbitsRaw⟩ := Reader.hasBits_bitString_cons.1 hbitsDc
  obtain ⟨b, hb, hread⟩ := huffDecode_huffCode hdcWf (hdc ▸ hcode) hbitsCode
  rw [length_bitString_cons, ← Nat.add_assoc] at hbitsAc
  have hstart : setCoef (Vector.replicate 64 0) 0 (blockAt s.kfile 0 0) = blockPrefix s.kfile 1 := by
    rw [← blockPrefix_zero s.kfile, setCoef_blockPrefix]
  have hloop := acLoop_acCodes (K := s.kfile) (k := 1) (run := 0) (fuel := 64) hacWf horder rfl (by decide)
    (fun i hi hlt => absurd hi (Nat.not_le.2 hlt)) hrange (by decide) (hac ▸ hrest) hbitsAc
  simp only [decodeBlock, hread, Res.ok_bind, hb, decide_eq_true (category_le hdiff), require_true,
    readExtended_rawCode horder hbitsRaw, u32i_add_dcDiff, hstart, hloop]
  rw [length_bitString_append, length_bitString_cons, Nat.add_assoc, Nat.add_assoc, Nat.add_assoc]
  rfl

end Decblk

/-- Settles O50: the decoder's block is K, and its three writes are the ones named. -/
theorem blockRoundTrip : Obligations.BlockRoundTrip := by
  intro dc ac p s u codes hcodes hdc hac hslotDc hslotAc hdcWf hacWf hpred hmode hbits
  have hvalidDc : u.requireSlot (dcSlot dc) = .ok () := State.requireSlot_valid hdc
  have hvalidAc : u.requireSlot (acSlot ac) = .ok () := State.requireSlot_valid hac
  have hdecode : decodeBlock u (dcSlot dc) (acSlot ac) (u.getCsr (Csr.pred p)) = _ :=
    decodeBlock_encodeBlock (hpred ▸ hcodes) hslotDc hslotAc hdcWf hacWf (State.reader_order_msb hmode) hbits
  have hbound := Reader.hasBits_bound hbits (encodeBlock_bits_ne_nil (hslotDc ▸ hdcWf) hcodes)
  simp only [exec_decblk, execDecblk, hvalidDc, hvalidAc, hdecode, Res.ok_bind]
  refine ⟨_, rfl, rfl, ?_, ?_, Effect.advanced ?_ rfl⟩
  · rw [State.advance_getCsr, State.getCsr_setCsr_of_ne _ _ (Csr.pred_ne_brPos p), State.getCsr_setCsr_self,
      Csr.pred_mask, and_fullMask]
  · exact State.getCsrNat_setCsrNat_full _ (by omega) rfl
  · exact ((State.effect_setKfile List.mem_cons_self s.kfile u.draws).setCsr List.mem_cons_self).setCsr
      (List.mem_cons_of_mem _ List.mem_cons_self)

end Sys2Proof.Machine
end

section
/-! SUPPORT. How a part of a command ends (O11, O13 to O16): it answers a value, or raises a fault whose pieces are all
admitted, or stops the model at a byte of MEM that nothing has written. `Res.Ends` says the three at once, one lemma for each
function of the model. -/

namespace Sys2Proof.Machine

-- A proof that waits for the kernel holds a thread, and the check's memory bounds their number: with this option the
-- proofs below are elaborated one after another. No variable is named in a proof alone, so the statements stay the same.
set_option deprecated.oldSectionVars true

/-! ### Updates that keep PC -/

/-- An update inside a command: PC is kept, and only what is named changed. -/
structure Works (rs : List Reg) (cs : List Csr) (fs : List Store) (bytes : List Region) (s t : State) : Prop where
  pc : t.pc = s.pc
  effect : Effect rs cs fs bytes s t

/-- The bytes of a range inside one of the ranges are outside nothing more. -/
theorem outside_part {bytes : List Region} {r : Region} {a n : Nat} (hr : r ∈ bytes)
    (hin : n = 0 ∨ r.base ≤ a ∧ a + n ≤ r.base + r.len) : ∀ b, outside bytes b → outside [⟨a, n⟩] b := by
  intro b hb
  have hout := hb r hr
  simp only [outside, List.forall_mem_singleton]
  omega

section Works

variable {rs : List Reg} {cs : List Csr} {fs : List Store} {bytes : List Region} {s t u : State}

theorem Works.refl : Works rs cs fs bytes s s := ⟨rfl, Effect.refl s ..⟩

theorem Works.trans (h : Works rs cs fs bytes s t) (h' : Works rs cs fs bytes t u) : Works rs cs fs bytes s u :=
  ⟨h'.pc.trans h.pc, h.effect.trans h'.effect⟩

theorem Works.mono {rs' : List Reg} {cs' : List Csr} {fs' : List Store} {bytes' : List Region}
    (h : Works rs cs fs bytes s t) (hrs : rs ⊆ rs') (hcs : cs ⊆ cs') (hfs : fs ⊆ fs')
    (hbytes : ∀ a, outside bytes' a → outside bytes a) : Works rs' cs' fs' bytes' s t :=
  ⟨h.pc, h.effect.mono hrs hcs hfs hbytes⟩

theorem Works.setX (h : Works rs cs fs bytes s t) {ra : Reg} {v : Word}
    (hr : ra ∈ rs := by simp [destReg]) : Works rs cs fs bytes s (t.setX ra v) :=
  ⟨(t.setX_pc ra v).trans h.pc, h.effect.setX hr⟩

theorem Works.setCsr (h : Works rs cs fs bytes s t) {c : Csr} {v : Word}
    (hc : c ∈ cs := by simp [csrsWritten, writerCsrs]) : Works rs cs fs bytes s (t.setCsr c v) :=
  ⟨h.pc, h.effect.setCsr hc⟩

theorem Works.setCsrs (h : Works rs cs fs bytes s t) {ws : List (Csr × Word)} (hws : ws.map Prod.fst ⊆ cs) :
    Works rs cs fs bytes s (t.setCsrs ws) :=
  ⟨(t.setCsrs_pc ws).trans h.pc, h.effect.setCsrs hws⟩

theorem Works.putMem (h : Works rs cs fs bytes s t) {a : Nat} {bs : List Byte}
    (hb : ∀ b, outside bytes b → outside [⟨a, bs.length⟩] b) : Works rs cs fs bytes s (t.putMem a bs) :=
  ⟨h.pc, h.effect.putMem hb⟩

theorem Works.setSlot (h : Works rs cs fs bytes s t) {i : BitVec 5} {slot : HuffSlot}
    (hc : .huffValid ∈ cs := by simp [csrsWritten]) (hf : .slots ∈ fs := by simp [storesWritten]) :
    Works rs cs fs bytes s (t.setSlot i slot) :=
  ⟨h.pc, h.effect.setSlot hc hf⟩

theorem Works.setTable (h : Works rs cs fs bytes s t) {q : BitVec 4} {table : Vector Byte 64}
    (hc : .qValid ∈ cs := by simp [csrsWritten]) (hf : .tables ∈ fs := by simp [storesWritten]) :
    Works rs cs fs bytes s (t.setTable q table) :=
  ⟨h.pc, h.effect.setTable hc hf⟩

/-- K is written, and the count of free values drawn is free. -/
theorem Works.setKfile (h : Works rs cs fs bytes s t) {block : Vector Word 64} {draws : Nat}
    (hf : .kfile ∈ fs := by simp [storesWritten]) :
    Works rs cs fs bytes s { t with kfile := block, draws := draws } :=
  ⟨h.pc, { h.effect with kfile := fun hn => absurd hf hn }⟩

/-- The same of S. -/
theorem Works.setSfile (h : Works rs cs fs bytes s t) {block : Vector Binary64 64} {draws : Nat}
    (hf : .sfile ∈ fs := by simp [storesWritten]) :
    Works rs cs fs bytes s { t with sfile := block, draws := draws } :=
  ⟨h.pc, { h.effect with sfile := fun hn => absurd hf hn }⟩

end Works

/-! ### Results -/

/-- A read of this byte stops the model: it is inside MEM, and nothing has written it (log entry 2). -/
def State.Unwritten (s : State) (a : Nat) : Prop := a < s.memSize ∧ s.mem.read? a = none

/-- A byte that is unwritten after a store was so before it. -/
theorem State.unwritten_of_putMem {s : State} {base a : Nat} {bs : List Byte} (h : (s.putMem base bs).Unwritten a) :
    s.Unwritten a := by
  obtain ⟨hmem, hread⟩ := h
  refine ⟨hmem, ?_⟩
  rw [State.putMem_mem] at hread
  by_cases ha : a < base ∨ base + bs.length ≤ a
  · rwa [Memory.read?_write_outside _ _ _ _ ha] at hread
  · have hwritten := Memory.read?_write_inside s.mem base bs (a - base) (by omega)
    rw [Nat.add_sub_cancel' (by omega), hread] at hwritten
    cases hwritten

/-- The result answers a value that meets P, or raises a fault that leaves only pieces W admits, or stops the model at an
unwritten byte of s. -/
structure Res.Ends {α : Type} (r : Res α) (s : State) (W : Leftover → Prop) (P : α → Prop) : Prop where
  ok : r.Answers P
  raise : ∀ f ps, r = .error (.raise f ps) → ∀ p ∈ ps, W p
  halt : ∀ f, r = .error (.halt f) → ∃ a, f = .unwrittenByte a ∧ s.Unwritten a

/-- The result ends so whatever value it answers. -/
def Res.Tidy {α : Type} (r : Res α) (s : State) (W : Leftover → Prop) : Prop := r.Ends s W fun _ => True

section Results

variable {α β : Type} {s : State} {W : Leftover → Prop} {P : α → Prop} {Q : β → Prop} {r : Res α}

theorem Res.Ends.tidy (h : r.Ends s W P) : r.Tidy s W := ⟨fun _ _ => trivial, h.raise, h.halt⟩

theorem Res.Tidy.intro (h : r.Ends s W fun _ => True) : r.Tidy s W := h

@[simp] theorem Res.ends_of_tidy (h : r.Tidy s W) : r.Ends s W P ↔ r.Answers P :=
  ⟨Res.Ends.ok, fun hP => ⟨hP, h.raise, h.halt⟩⟩

theorem Res.Tidy.answers (h : r.Tidy s W) (hP : r.Answers P) : r.Ends s W P := (Res.ends_of_tidy h).2 hP

theorem Res.Ends.mono {P' : α → Prop} (h : r.Ends s W P) (hP : ∀ a, P a → P' a) : r.Ends s W P' :=
  ⟨h.ok.mono hP, h.raise, h.halt⟩

@[simp] theorem Res.answers_true : r.Answers fun _ => True := fun _ _ => trivial

@[simp] theorem Res.ends_ok {a : α} : Res.Ends (.ok a) s W P ↔ P a :=
  ⟨fun h => h.ok a rfl, fun h => ⟨.ok h, fun _ _ e => (nomatch e), fun _ e => (nomatch e)⟩⟩

@[simp] theorem Res.ends_pure {a : α} : Res.Ends (pure a) s W P ↔ P a := Res.ends_ok

theorem Res.Ends.answer {a : α} (h : P a) : Res.Ends (.ok a) s W P := Res.ends_ok.2 h

theorem Res.Tidy.answer {a : α} : Res.Tidy (.ok a) s W := Res.Ends.answer trivial

@[simp] theorem Res.ends_bind {f : α → Res β} : (r >>= f).Ends s W Q ↔ r.Ends s W fun a => (f a).Ends s W Q := by
  constructor
  · intro h
    refine ⟨fun a ha => ⟨fun b hb => ?_, fun e ps hf => ?_, fun e hf => ?_⟩, fun e ps hr => ?_, fun e hr => ?_⟩
    · exact h.ok b (Res.bind_eq_ok.2 ⟨a, ha, hb⟩)
    · exact h.raise e ps (Res.bind_eq_error.2 (.inr ⟨a, ha, hf⟩))
    · exact h.halt e (Res.bind_eq_error.2 (.inr ⟨a, ha, hf⟩))
    · exact h.raise e ps (Res.bind_eq_error.2 (.inl hr))
    · exact h.halt e (Res.bind_eq_error.2 (.inl hr))
  · intro h
    refine ⟨fun b hb => ?_, fun e ps hr => ?_, fun e hr => ?_⟩
    · obtain ⟨a, ha, hb⟩ := Res.bind_eq_ok.1 hb
      exact (h.ok a ha).ok b hb
    · obtain hr | ⟨a, ha, hf⟩ := Res.bind_eq_error.1 hr
      · exact h.raise e ps hr
      · exact (h.ok a ha).raise e ps hf
    · obtain hr | ⟨a, ha, hf⟩ := Res.bind_eq_error.1 hr
      · exact h.halt e hr
      · exact (h.ok a ha).halt e hf

/-- One part after another: what the first one answers is all the second one needs. -/
theorem Res.Ends.bind {f : α → Res β} (h : r.Ends s W P) (hf : ∀ a, P a → (f a).Ends s W Q) : (r >>= f).Ends s W Q :=
  Res.ends_bind.2 (h.mono hf)

/-- One part after another, when the second one needs nothing of a tidy first. -/
theorem Res.Tidy.bind {f : α → Res β} (hf : ∀ a, (f a).Ends s W Q)
    (h : r.Ends s W fun _ => True := by simp) : (r >>= f).Ends s W Q :=
  Res.Ends.bind h fun a _ => hf a

@[simp] theorem Res.ends_map {f : α → β} : (f <$> r).Ends s W Q ↔ r.Ends s W fun a => Q (f a) := by
  rw [← bind_pure_comp, Res.ends_bind]
  simp only [Res.ends_pure]

@[simp] theorem Res.ends_exceptMap {f : α → β} : Res.Ends (Except.map f r) s W Q ↔ r.Ends s W fun a => Q (f a) :=
  Res.ends_map

@[simp] theorem Res.ends_ite {c : Prop} [Decidable c] {r' : Res α} :
    (if c then r else r').Ends s W P ↔ (c → r.Ends s W P) ∧ (¬ c → r'.Ends s W P) := by
  split <;> simp_all

@[simp] theorem fail_ends {code : FaultCode} {aux : Nat} : Res.Ends (fail code aux) s W P :=
  ⟨fail_answers, fun _ _ e => by cases e; exact List.forall_mem_nil _, fun _ e => (nomatch e)⟩

@[simp] theorem require_ends {c : Bool} {code : FaultCode} {aux : Nat} {P : Unit → Prop} :
    (require c code aux).Ends s W P ↔ (c = true → P ()) := by
  cases c <;> simp [require]

/-- A fault of the part leaves its own pieces and those added, all of them admitted. -/
theorem Res.Ends.leaving {ps : List Leftover} (h : r.Ends s W P) (hp : ∀ p ∈ ps, W p) : (leaving ps r).Ends s W P := by
  refine ⟨h.ok.leaving, fun f left hr => ?_, fun f hr => h.halt f (leaving_eq_halt.1 hr)⟩
  obtain ⟨qs, hq, rfl⟩ := leaving_eq_raise.1 hr
  exact List.forall_mem_append.2 ⟨h.raise f qs hq, hp⟩

theorem Res.Ends.leavingPastOverlap {ps : List Leftover} (h : r.Ends s W P) (hp : ∀ p ∈ ps, W p) :
    (leavingPastOverlap ps r).Ends s W P := by
  refine ⟨leavingPastOverlap_answers.2 h.ok, fun f left hr => ?_, fun f hr => h.halt f (leavingPastOverlap_eq_halt.1 hr)⟩
  obtain ⟨qs, hq, rfl⟩ := leavingPastOverlap_eq_raise.1 hr
  split
  · exact h.raise f qs hq
  · exact List.forall_mem_append.2 ⟨h.raise f qs hq, hp⟩

/-- What stops the model in a state with stored bytes stops it in the state before. -/
theorem Res.Tidy.of_putMem {base : Nat} {bs : List Byte} (h : r.Tidy (s.putMem base bs) W) : r.Tidy s W :=
  ⟨h.ok, h.raise, fun f hf => (h.halt f hf).imp fun _ ha => ⟨ha.1, State.unwritten_of_putMem ha.2⟩⟩

@[simp] theorem requireDisjoint_tidy (p q : Region) : (requireDisjoint p q).Tidy s W :=
  .intro (by simp [requireDisjoint])

@[simp] theorem requireDisjoint3_tidy (p q w : Region) : (requireDisjoint3 p q w).Tidy s W :=
  .intro (by simp [requireDisjoint3])

end Results

/-! ### Reads and writes of MEM -/

section Bytes

variable {s t : State} {W : Leftover → Prop}

@[simp] theorem State.checkRange_ends {a k : Nat} {P : Unit → Prop} :
    (t.checkRange a k).Ends s W P ↔ (k = 0 ∨ a + k ≤ t.memSize → P ()) := by
  simp only [State.checkRange, Res.ends_ite, Res.ends_ok, fail_ends, implies_true, and_true]

/-- A byte inside MEM has a value or stops the model. -/
@[simp] theorem State.readByte_tidy (s : State) (a : Nat) : (s.readByte a).Tidy s W := by
  refine .intro (Res.ends_bind.2 (State.checkRange_ends.2 fun ha => ?_))
  rw [State.byteAt]
  split
  · exact .answer trivial
  · next hread =>
    refine ⟨fun _ _ => trivial, fun _ _ e => (nomatch e), fun f e => ?_⟩
    cases e
    exact ⟨a, rfl, by omega, hread⟩

@[simp] theorem State.readBytes_tidy (s : State) (a k : Nat) : (s.readBytes a k).Tidy s W := by
  induction k generalizing a with
  | zero => exact .answer
  | succ k ih => exact .intro (by simp [State.readBytes, ih])

@[simp] theorem State.memRead_tidy (s : State) (a k : Nat) : (s.memRead a k).Tidy s W :=
  .intro (by simp [State.memRead])

theorem State.storeBytes_ends (s t : State) (a : Nat) (bs : List Byte) :
    (t.storeBytes a bs).Ends s W fun u => Works [] [] [] [⟨a, bs.length⟩] t u := by
  simp only [State.storeBytes, Res.ends_bind, State.checkRange_ends, Res.ends_pure]
  exact fun _ => Works.refl.putMem fun _ => id

@[simp] theorem State.copyFrom_tidy (s : State) (src dst k : Nat) : (s.copyFrom src dst k).Tidy s W := by
  induction k generalizing src dst with
  | zero => exact .answer
  | succ k ih => exact .intro (by simp [State.copyFrom, ih])

theorem State.copyFrom_ends (s : State) (src dst k : Nat) : (s.copyFrom src dst k).Ends s W fun bs => bs.length = k :=
  (s.copyFrom_tidy src dst k).answers fun _ h => (State.copyFrom_eq_ok.1 h).1

/-! ### The bit reader and the bit writer -/

@[simp] theorem Reader.readBit_tidy (rd : Reader) (s : State) (p : Nat) : (rd.readBit s p).Tidy s W :=
  .intro (by simp [Reader.readBit])

@[simp] theorem Reader.readBitsLoop_tidy (rd : Reader) (s : State) (k i v p : Nat) :
    (rd.readBitsLoop s k i v p).Tidy s W := by
  induction k generalizing i v p with
  | zero => exact .answer
  | succ k ih => exact .intro (by simp [Reader.readBitsLoop, ih])

@[simp] theorem Reader.requireBits_tidy (rd : Reader) (s : State) (p k : Nat) : (rd.requireBits p k).Tidy s W :=
  .intro (by simp [Reader.requireBits])

@[simp] theorem Reader.readBits_tidy (rd : Reader) (s : State) (p k : Nat) : (rd.readBits s p k).Tidy s W :=
  .intro (by simp [Reader.readBits])

theorem State.commitCheck_tidy (s t : State) (base cap k len : Nat) : (t.commitCheck base cap k len).Tidy s W := by
  induction k generalizing len with
  | zero => exact .answer
  | succ k ih => exact .intro (by simp [State.commitCheck, ih])

/-- A commit writes the room past BW_LEN and the writer's CSRs (R217). -/
theorem State.commit_ends (s t : State) (k : Packer) :
    (t.commit k).Ends s W fun u => Works [] writerCsrs [] [t.writerRoom] t u := by
  refine Res.Tidy.answers (.intro (by simp [State.commit, State.commitCheck_tidy])) fun u hu => ?_
  obtain ⟨hfits, rfl⟩ := State.commit_eq_ok.1 hu
  have hroom : k.out.reverse.length = 0 ∨ t.writerRoom.base ≤ t.getCsrNat .bwBase + t.getCsrNat .bwLen ∧
      t.getCsrNat .bwBase + t.getCsrNat .bwLen + k.out.reverse.length ≤ t.writerRoom.base + t.writerRoom.len := by
    rw [List.length_reverse]
    refine hfits.imp (fun h => by rw [h]; rfl) fun ⟨hcap, _⟩ => ?_
    simp only [State.writerRoom]
    omega
  have hput : Works [] writerCsrs [] [t.writerRoom] t
      (t.putMem (t.getCsrNat .bwBase + t.getCsrNat .bwLen) k.out.reverse) :=
    Works.refl.putMem (outside_part List.mem_cons_self hroom)
  exact hput.setCsr.setCsr.setCsr

end Bytes

end Sys2Proof.Machine
end

section
/-! SUPPORT. How the loops and readers of the commands end (O11, O13 to O16), and how much each of them puts out. -/

namespace Sys2Proof.Machine

-- A proof that waits for the kernel holds a thread, and the check's memory bounds their number: with this option the
-- proofs below are elaborated one after another. No variable is named in a proof alone, so the statements stay the same.
set_option deprecated.oldSectionVars true

/-! ### Byte copies -/

section Copies

variable {s : State} {W : Leftover → Prop}

/-- UNSTUFF puts out no more bytes than it takes from its source (R216). -/
theorem unstuffLoop_ends (s : State) (src n dst fuel i o : Nat) {out : List Byte} (h : out.length ≤ i) :
    (unstuffLoop s src n dst fuel i o out).Ends s W fun r => r.1.length ≤ n := by
  induction fuel generalizing i o out with
  | zero => exact fail_ends
  | succ fuel ih =>
    have stored (b : Byte) {j : Nat} (hj : i < j) :
        (do s.checkRange (dst + o) 1
            unstuffLoop s src n dst fuel j (o + 1) (b :: out)).Ends s W fun r => r.1.length ≤ n :=
      Res.ends_bind.2 (State.checkRange_ends.2 fun _ => ih j (o + 1) (by rw [List.length_cons]; omega))
    refine Res.Tidy.bind fun _ => Res.Tidy.bind fun b => Res.ends_ite.2 ⟨fun _ => stored b (by omega), fun _ => ?_⟩
    refine Res.ends_bind.2 (require_ends.2 fun hi => Res.Tidy.bind fun c => ?_)
    refine Res.ends_ite.2 ⟨fun _ => stored _ (by omega), fun _ => ?_⟩
    refine Res.ends_ite.2 ⟨fun _ => ih _ _ (by omega), fun _ =>
      Res.ends_ite.2 ⟨fun _ => ?_, fun _ => stored _ (by omega)⟩⟩
    have hi := of_decide_eq_true hi
    exact .answer (by rw [List.length_reverse]; omega)

/-- The total of SBGATHER's scan is the number of data bytes it found (R225). -/
theorem sbScan_ends (s : State) (src fuel i : Nat) {total : Nat} {segs : List Region}
    (h : (segs.map Region.len).sum = total) :
    (sbScan s src fuel i total segs).Ends s W fun r => (r.1.map Region.len).sum = r.2.1 := by
  induction fuel generalizing i total segs with
  | zero => exact fail_ends
  | succ fuel ih =>
    refine Res.Tidy.bind fun l => Res.ends_ite.2 ⟨fun _ => .answer ?_, fun _ => ih _ ?_⟩
    · rw [List.map_reverse, List.sum_reverse, h]
    · rw [List.map_cons, List.sum_cons, h, Nat.add_comm]

theorem gatherCopy_ends (s : State) (segs : List Region) (dst : Nat) :
    (gatherCopy s segs dst).Ends s W fun out => out.length = (segs.map Region.len).sum := by
  induction segs generalizing dst with
  | nil => exact .answer rfl
  | cons seg segs ih =>
    refine (s.copyFrom_ends seg.base dst seg.len).bind fun bs hbs => (ih _).bind fun rest hrest => .answer ?_
    rw [List.length_append, hbs, hrest, List.map_cons, List.sum_cons]

/-- SBSPLIT puts out no more bytes than R226 counts. -/
theorem splitLoop_ends (s : State) (fuel src n dst : Nat) :
    (splitLoop s fuel src n dst).Ends s W fun out => out.length ≤ splitLength n := by
  induction fuel generalizing src n dst with
  | zero => exact .answer (Nat.zero_le _)
  | succ fuel ih =>
    refine Res.ends_bind.2 (State.checkRange_ends.2 fun _ => Res.ends_ite.2 ⟨fun hn => .answer ?_, fun hn => ?_⟩)
    · rw [hn, splitLength, List.length_singleton]
    · refine (s.copyFrom_ends src (dst + 1) (min 255 n)).bind fun bs hbs => (ih _ _ _).bind fun rest hrest => .answer ?_
      have hblocks := blocks_step hn
      unfold splitLength at hrest ⊢
      simp only [List.length_append, List.length_cons, hbs]
      omega

end Copies

/-! ### Blocks -/

section Blocks

variable {s : State} {W : Leftover → Prop} {α : Type} {f : Nat → Res α}

theorem collect_tidy (h : ∀ i, (f i).Tidy s W) (i k : Nat) : (collect f i k).Tidy s W := by
  induction k generalizing i with
  | zero => exact .answer
  | succ k ih => exact .intro (by simp [collect, h, ih])

theorem collectBlock_tidy (d : α) (h : ∀ i, (f i).Tidy s W) : (collectBlock d f).Tidy s W :=
  .intro (by simp [collectBlock, collect_tidy h])

@[simp] theorem State.requireTable_tidy (s : State) (q : BitVec 4) : (s.requireTable q).Tidy s W :=
  .intro (by simp [State.requireTable])

@[simp] theorem quantPrefix_tidy (s : State) (a : Nat) (q : BitVec 4) (pfx : Bool) : (quantPrefix s a q pfx).Tidy s W :=
  .intro (by simp [quantPrefix])

@[simp] theorem toInt32_tidy (s : State) (i : Int) : (toInt32 i).Tidy s W := .intro (by simp [toInt32])

@[simp] theorem f64ToInt32_tidy (s : State) (d : Binary64) : (f64ToInt32 d).Tidy s W := .intro (by simp [f64ToInt32])

@[simp] theorem quantElement_tidy (s : State) (q : BitVec 4) (order : TableOrder) (i : Nat) :
    (quantElement s q order i).Tidy s W :=
  .intro (by simp [quantElement])

/-- The cells are stored at elements of the block at X[rb] with row stride X[rc] (R341). -/
def State.BlockCells (s : State) (rb rc : Reg) (cells : List Host.Cell) : Prop :=
  ∀ c ∈ cells, ∃ i ∈ List.range 64, s.blockAddr rb rc i = c.1

theorem State.BlockCells.within {rb rc : Reg} {cells : List Host.Cell}
    (h : s.BlockCells rb rc cells) (a : Nat) (ha : outside ((List.range 64).map fun i => ⟨s.blockAddr rb rc i, 1⟩) a) :
    ∀ c ∈ cells, outside [⟨c.1, 1⟩] a := by
  intro c hc
  obtain ⟨i, hi, haddr⟩ := h c hc
  exact haddr ▸ List.forall_mem_singleton.2 (ha ⟨s.blockAddr rb rc i, 1⟩ (List.mem_map_of_mem hi))

/-- SSTB stores at elements of the block only, and a fault keeps such stores (R342). -/
theorem sstbLoop_ends {rb rc : Reg} (hW : ∀ cells, s.BlockCells rb rc cells → W (.stored cells)) (shift : Bool) (i k : Nat)
    {done : List Host.Cell} (hdone : s.BlockCells rb rc done) (hk : i + k ≤ 64) :
    (sstbLoop s rb rc shift i k done).Ends s W (s.BlockCells rb rc) := by
  have hrev {done : List Host.Cell} (h : s.BlockCells rb rc done) : s.BlockCells rb rc done.reverse :=
    fun c hc => h c (List.mem_reverse.1 hc)
  induction k generalizing i done with
  | zero => exact .answer (hrev hdone)
  | succ k ih =>
    have hcheck : (s.checkRange (s.blockAddr rb rc i) 1).Ends s W fun _ => True := State.checkRange_ends.2 fun _ => trivial
    refine (hcheck.leaving (List.forall_mem_singleton.2 (hW _ (hrev hdone)))).bind fun _ _ => ih (i + 1) ?_ (by omega)
    exact List.forall_mem_cons.2 ⟨⟨i, List.mem_range.2 (by omega), rfl⟩, hdone⟩

end Blocks

/-! ### Huffman tables and codes -/

section Huffman

variable {s : State} {W : Leftover → Prop}

@[simp] theorem State.requireSlot_tidy (s : State) (i : BitVec 5) : (s.requireSlot i).Tidy s W :=
  .intro (by simp [State.requireSlot])

@[simp] theorem tablePrefix_tidy (s : State) (a : Nat) (slot : BitVec 5) (pfx : Bool) :
    (tablePrefix s a slot pfx).Tidy s W :=
  .intro (by simp [tablePrefix])

@[simp] theorem readTable_tidy (s : State) (a : Nat) : (readTable s a).Tidy s W := .intro (by simp [readTable])

@[simp] theorem huffWalk_tidy (rd : Reader) (s : State) (syms : List Byte) (hs : List Nat) (first off code p : Nat) :
    (huffWalk rd s syms hs first off code p).Tidy s W := by
  induction hs generalizing first off code p with
  | nil => exact .intro (by simp [huffWalk])
  | cons h hs ih => exact .intro (by simp [huffWalk, ih])

@[simp] theorem huffDecode_tidy (rd : Reader) (s : State) (t : HuffSlot) (p : Nat) : (huffDecode rd s t p).Tidy s W :=
  huffWalk_tidy ..

@[simp] theorem codeTable_tidy (s : State) (t : HuffSlot) : (codeTable t).Tidy s W := .intro (by simp [codeTable])

@[simp] theorem huffCode_tidy (s : State) (t : HuffSlot) (v : Nat) : (huffCode t v).Tidy s W := by
  refine Res.Tidy.bind fun table => ?_
  split
  · exact .answer trivial
  · exact fail_ends

theorem length_entriesOf (bs : List Byte) : (entriesOf bs).length = bs.length / 4 := by
  fun_induction entriesOf bs with
  | case1 b0 b1 b2 b3 rest ih => simp only [List.length_cons, ih]; omega
  | case2 bs hbs =>
    have hfew : bs.length < 4 := by
      by_contra hmany
      obtain _ | ⟨b0, _ | ⟨b1, _ | ⟨b2, _ | ⟨b3, rest⟩⟩⟩⟩ := bs
      case cons.cons.cons.cons => exact hbs b0 b1 b2 b3 rest rfl
      all_goals simp at hmany
    rw [Nat.div_eq_of_lt hfew, List.length_nil]

/-- The body of a table has 16 counts and a symbol for each entry (R270). -/
theorem bodyOfEntries_ends (s : State) (es : List CodeEntry) :
    (bodyOfEntries es).Ends s W fun body => body.length = 16 + es.length := by
  refine Res.Tidy.bind fun _ => Res.Tidy.bind fun _ => Res.Tidy.bind fun _ => .answer ?_
  rw [List.length_append, List.length_map, List.length_map, (perm_sortEntries es).length_eq, lengthCounts, List.length_map,
    List.length_range]

end Huffman

/-! ### Coefficients -/

section Coefficients

variable {s : State} {W : Leftover → Prop}

@[simp] theorem readExtended_tidy (rd : Reader) (s : State) (t p : Nat) : (readExtended rd s t p).Tidy s W :=
  .intro (by simp [readExtended])

@[simp] theorem acLoop_tidy (rd : Reader) (s : State) (slot : HuffSlot) (fuel k p : Nat) (block : Vector Word 64) :
    (acLoop rd s slot fuel k p block).Tidy s W := by
  induction fuel generalizing k p block with
  | zero => exact .answer
  | succ fuel ih => exact .intro (by simp [acLoop, ih])

@[simp] theorem decodeBlock_tidy (s : State) (dc ac : BitVec 5) (pred : Word) : (decodeBlock s dc ac pred).Tidy s W :=
  .intro (by simp [decodeBlock])

@[simp] theorem acCodes_tidy (s : State) (slot : HuffSlot) (ws : List Word) (run : Nat) :
    (acCodes slot ws run).Tidy s W := by
  induction ws generalizing run with
  | nil => exact .intro (by simp [acCodes])
  | cons w ws ih => exact .intro (by simp [acCodes, ih])

@[simp] theorem dcCodes_tidy (s : State) (slot : HuffSlot) (diff : Int) : (dcCodes slot diff).Tidy s W :=
  .intro (by simp [dcCodes])

/-- A value out of range leaves the writer, a missing code nothing (R466). -/
theorem encodeBlock_tidy (hW : ∀ p ∈ s.writerLeft maxBlockBits, W p) (dc ac : BitVec 5) (pred : Word) :
    (encodeBlock s dc ac pred).Tidy s W := by
  have hrange : (rangeCheck (s.dcDiff pred) s.acCoefs).Tidy s W := .intro (by simp [rangeCheck])
  rw [encodeBlock_eq]
  exact (Res.Ends.leaving hrange hW).bind fun _ _ => Res.Tidy.bind fun _ => Res.Tidy.bind fun _ => .answer trivial

end Coefficients

/-! ### LZW -/

section Lzw

variable {s : State} {W : Leftover → Prop}

@[simp] theorem lzwEmit_tidy (s : State) (job : LzwJob) (str : List Byte) (v : LzwState) :
    (lzwEmit s job str v).Tidy s W := by
  induction str generalizing v with
  | nil => exact .answer
  | cons b bs ih => exact .intro (by simp [lzwEmit, ih])

theorem lzwEmit_ends (s : State) (job : LzwJob) (str : List Byte) {v : LzwState} (h : v.Checked s job) :
    (lzwEmit s job str v).Ends s W (LzwState.Checked s job) :=
  (lzwEmit_tidy s job str v).answers (lzwEmit_meets (n := 0) s job str h).ok

/-- A decode puts out no more bytes than its capacity (R303). -/
theorem lzwDecodeLoop_ends (s : State) (job : LzwJob) (fuel : Nat) {v : LzwState} (h : v.Checked s job) :
    (lzwDecodeLoop s job fuel v).Ends s W fun r => r.out.length ≤ job.cap := by
  induction fuel generalizing v with
  | zero => exact fail_ends
  | succ fuel ih =>
    have emitted {w : LzwState} (hw : w.Checked s job) (str : List Byte) :
        (lzwEmit s job str w >>= fun v => lzwDecodeLoop s job fuel { v with prev := some str }).Ends s W fun r =>
          r.out.length ≤ job.cap :=
      (lzwEmit_ends s job str hw).bind fun v hv => ih (hv.of_eq rfl rfl)
    refine Res.Tidy.bind fun ⟨c, p⟩ => Res.Tidy.bind fun _ => ?_
    dsimp only
    refine Res.ends_ite.2 ⟨fun _ => ih (h.of_eq rfl rfl), fun _ => Res.ends_ite.2 ⟨fun _ => .answer ?_, fun _ => ?_⟩⟩
    · rw [List.length_reverse, h.length]
      exact Nat.min_le_right ..
    · refine Res.ends_ite.2 ⟨fun _ => emitted (LzwState.Checked.learn ?_ _ _) _, fun _ => ?_⟩
      · exact h.of_eq rfl rfl
      · split
        · exact fail_ends
        · refine Res.Tidy.bind fun _ => emitted ?_ _
          exact h.of_eq rfl rfl

theorem lzwDecode_ends (s : State) (job : LzwJob) (p : Nat) :
    (lzwDecode s job p).Ends s W fun r => r.out.length ≤ job.cap :=
  lzwDecodeLoop_ends s job _ ⟨by simp, .inl rfl⟩

theorem lzwIndices_tidy {left : List Leftover} (hl : ∀ p ∈ left, W p) (m a k : Nat) :
    (lzwIndices s m left a k).Tidy s W := by
  induction k generalizing a with
  | zero => exact .answer
  | succ k ih =>
    refine (Res.Ends.leaving (s.readByte_tidy a) hl).bind fun _ _ => Res.Tidy.bind fun _ => ?_
    exact Res.Tidy.bind (fun _ => .answer trivial) (ih (a + 1))

end Lzw

/-! ### GIF files -/

section Files

variable {s : State} {W : Leftover → Prop}

@[simp] theorem fileByte_tidy (s : State) (file : Region) (o : Nat) : (fileByte s file o).Tidy s W :=
  .intro (by simp [fileByte])

@[simp] theorem fileU16_tidy (s : State) (file : Region) (o : Nat) : (fileU16 s file o).Tidy s W :=
  .intro (by simp [fileU16])

@[simp] theorem fileBytes_tidy (s : State) (file : Region) (o k : Nat) : (fileBytes s file o k).Tidy s W := by
  induction k generalizing o with
  | zero => exact .answer
  | succ k ih => exact .intro (by simp [fileBytes, ih])

@[simp] theorem skipSub_tidy (s : State) (file : Region) (fuel o : Nat) : (skipSub s file fuel o).Tidy s W := by
  induction fuel generalizing o with
  | zero => exact fail_ends
  | succ fuel ih => exact .intro (by simp [skipSub, ih])

/-- Of a sub-block every byte is put at a place inside the destination (R380). -/
theorem gatherBlock_ends (s : State) (file dst : Region) (l o n : Nat) :
    (gatherBlock s file dst l o n).Ends s W fun bs => bs.length = l ∧ (l = 0 ∨ n + l ≤ dst.len) := by
  induction l generalizing o n with
  | zero => exact .answer ⟨rfl, .inl rfl⟩
  | succ l ih =>
    refine Res.ends_bind.2 (require_ends.2 fun hn => Res.Tidy.bind fun b => ?_)
    refine Res.ends_bind.2 (State.checkRange_ends.2 fun _ => (ih _ _).bind fun bs ⟨hlen, hroom⟩ => .answer ⟨?_, ?_⟩)
    · rw [List.length_cons, hlen]
    · have hn := of_decide_eq_true hn
      omega

theorem gatherSub_ends (s : State) (file dst : Region) (fuel o n : Nat) :
    (gatherSub s file dst fuel o n).Ends s W fun r => r.2.length = 0 ∨ n + r.2.length ≤ dst.len := by
  induction fuel generalizing o n with
  | zero => exact fail_ends
  | succ fuel ih =>
    refine Res.Tidy.bind fun l => Res.ends_ite.2 ⟨fun _ => .answer (.inl rfl), fun _ => ?_⟩
    refine (gatherBlock_ends s file dst l.toNat (o + 1) n).bind fun bs ⟨hlen, hbs⟩ => ?_
    refine (ih _ _).bind fun ⟨o', rest⟩ hrest => .answer ?_
    dsimp only at hrest ⊢
    rw [List.length_append, hlen]
    omega

@[simp] theorem checkTable_tidy (s : State) (file : Region) (o k : Nat) : (checkTable s file o k).Tidy s W :=
  .intro (by simp [checkTable])

@[simp] theorem activeTable_tidy (s : State) (lctOff lctN : Nat) : (activeTable s lctOff lctN).Tidy s W :=
  .intro (by simp [activeTable])

@[simp] theorem requireIndices_tidy (s : State) (k : Nat) (indices : List Byte) :
    (requireIndices s k indices).Tidy s W :=
  .intro (by simp [requireIndices])

@[simp] theorem tableColour_tidy (s : State) (tabOff v : Nat) : (tableColour s tabOff v).Tidy s W :=
  .intro (by simp [tableColour])

@[simp] theorem fillColour_tidy (s : State) : (fillColour s).Tidy s W := by
  unfold fillColour
  split
  · exact .answer
  · exact .intro (by simp)

@[simp] theorem fileMatches_tidy (s : State) (xs : List Byte) (o : Nat) : (fileMatches s xs o).Tidy s W := by
  induction xs generalizing o with
  | nil => exact .answer
  | cons x xs ih => exact .intro (by simp [fileMatches, ih])

end Files

/-! ### Images -/

/-- The image lies on the screen (R392). -/
structure ImageHeader.OnScreen (hd : ImageHeader) (s : State) : Prop where
  right : hd.left + hd.width ≤ s.getCsrNat .gSw
  bottom : hd.top + hd.height ≤ s.getCsrNat .gSh

section Images

variable {s t : State} {W : Leftover → Prop}

theorem readImageHeader_ends (s : State) (o : Nat) : (readImageHeader s o).Ends s W fun hd => hd.OnScreen s := by
  refine Res.Tidy.bind fun left => Res.Tidy.bind fun top => Res.Tidy.bind fun width => Res.Tidy.bind fun height => ?_
  refine Res.Tidy.bind fun pk => Res.Tidy.bind fun _ => Res.ends_ite.2 ⟨fun _ => ?_, fun _ => ?_⟩ <;>
    · refine Res.Tidy.bind fun _ => Res.ends_bind.2 (require_ends.2 fun hscreen => Res.Tidy.bind fun _ => ?_)
      refine Res.Tidy.bind fun m => Res.Tidy.bind fun _ => Res.Tidy.bind fun _ => .answer ?_
      obtain ⟨hright, hbottom⟩ := of_decide_eq_true hscreen
      exact ⟨hright, hbottom⟩

/-- An image has at most an index for each of its pixels; they are decoded from the scratch region, where only bytes read
from the file stand beside those of s (R392). -/
theorem readIndices_ends (s : State) (hd : ImageHeader) :
    (readIndices s hd).Ends s W fun r => r.2.1.length ≤ hd.width * hd.height := by
  refine (gatherSub_ends s s.file s.scratchRegion _ _ 0).bind fun ⟨o, data⟩ _ => Res.Tidy.bind fun _ => ?_
  have hdecode := lzwDecode_ends (W := W) (s.putMem s.scratchRegion.base data)
    ⟨⟨s.scratchRegion.base, data.length, .lsb⟩, hd.m, s.scratchRegion.base + data.length, hd.width * hd.height, false⟩ 0
  exact (hdecode.tidy.of_putMem.answers hdecode.ok).bind fun r hr => Res.Tidy.bind fun _ => .answer hr

theorem fillFrame_ends (s t : State) : (fillFrame s t).Ends s W fun u => Works [] [] [] [s.frameRegion] t u := by
  refine Res.ends_ite.2 ⟨fun _ => Res.Tidy.bind fun ⟨r, g, b⟩ => ?_, fun _ => .answer .refl⟩
  refine (State.storeBytes_ends s t _ (s.fillBytes r g b)).mono fun u hu => ?_
  rwa [State.length_fillBytes] at hu

/-- Every place of an image on the screen is painted inside the framebuffer (R392, R393). -/
theorem paint_ends {hd : ImageHeader} (hscreen : hd.OnScreen s) (vs : List Byte) (j : Nat) (t : State)
    (hj : j + vs.length ≤ hd.width * hd.height) :
    (paint s hd vs j t).Ends s W fun u => Works [] [] [] [s.frameRegion] t u := by
  induction vs generalizing j t with
  | nil => exact .answer .refl
  | cons v vs ih =>
    rw [List.length_cons] at hj
    refine Res.ends_ite.2 ⟨fun _ => ih (j + 1) t (by omega), fun _ => Res.Tidy.bind fun ⟨r, g, b⟩ => ?_⟩
    obtain ⟨hlow, hhigh⟩ := State.placeAddr_inside hscreen.right hscreen.bottom (j := j) (by omega)
    refine (State.storeBytes_ends s t _ _).bind fun u hu => (ih (j + 1) u (by omega)).mono fun w hw => ?_
    rw [length_pixelLayout] at hu
    exact (hu.mono (List.Subset.refl _) (List.Subset.refl _) (List.Subset.refl _)
      (outside_part List.mem_cons_self (.inr ⟨hlow, hhigh⟩))).trans hw

end Images

/-! ### GIF frames -/

section Frames

variable {s : State} {W : Leftover → Prop}

@[simp] theorem State.readRows_tidy (s : State) (w width a k : Nat) : (s.readRows w width a k).Tidy s W := by
  induction k generalizing a with
  | zero => exact .answer
  | succ k ih => exact .intro (by simp [State.readRows, ih])

@[simp] theorem State.rectIndices_tidy (s : State) (idx w : Nat) (r : FrameRect) : (s.rectIndices idx w r).Tidy s W :=
  s.readRows_tidy ..

@[simp] theorem frameRect_tidy (s : State) (w h : Nat) (cur : List Byte) : (frameRect s w h cur).Tidy s W :=
  .intro (by simp [frameRect])

theorem mapFrame_ends (s : State) (src dst k : Nat) : (mapFrame s src dst k).Ends s W fun cur => cur.length = k := by
  induction k generalizing src dst with
  | zero => exact .answer rfl
  | succ k ih =>
    refine Res.Tidy.bind fun r => Res.Tidy.bind fun g => Res.Tidy.bind fun b => ?_
    refine Res.ends_bind.2 (State.checkRange_ends.2 fun _ => (ih _ _).bind fun is his => .answer ?_)
    rw [List.length_cons, his]

@[simp] theorem requireGifWriter_tidy (s : State) : (requireGifWriter s).Tidy s W :=
  .intro (by simp [requireGifWriter])

theorem State.putWriter_ends (s t : State) (bs : List Byte) :
    (t.putWriter bs).Ends s W fun u => Works [] writerCsrs [] [t.writerRoom] t u :=
  State.commit_ends s t _

end Frames

end Sys2Proof.Machine
end

section
/-! SUPPORT. How every command ends (O11, O13 to O16): it completes within what its rule says it writes, takes a fault that
leaves no more than that, or stops the model at a byte of MEM that nothing has written. -/

namespace Sys2Proof.Machine

-- A proof that waits for the kernel holds a thread, and the check's memory bounds their number: with this option the
-- proofs below are elaborated one after another. No variable is named in a proof alone, so the statements stay the same.
set_option deprecated.oldSectionVars true

/-! ### The end of a command -/

/-- PC after a command that completes: at the next command, or at a branch's target (R170, R180). -/
def NextPc (i : Instr) (s t : State) : Prop :=
  t.pc = s.pc + 4 ∨ ∃ rb rc imm, (i = .beq rb rc imm ∨ i = .bne rb rc imm ∨ i = .bltu rb rc imm) ∧
    t.pc = u32i (s.pc.toNat + 4 * s32 (imm.signExtend 32))

/-- How the command i begun in s ends, within the CSRs, stores and bytes that its rule says it writes (R494). -/
inductive CommandEnds (i : Instr) (s : State) : Outcome → Prop
  | completes {t : State} (hpc : NextPc i s t)
      (heffect : Effect (destReg i).toList (csrsWritten i) (storesWritten i) (bytesWritten i s) s t) :
      CommandEnds i s (.next t)
  | faults {t : State} (f : EngineFault)
      (hfault : FaultLeaving f.code f.aux (csrsWritten i) (storesWritten i) (bytesWritten i s) s t) :
      CommandEnds i s (.next t)
  | stops {a : Nat} (ha : s.Unwritten a) : CommandEnds i s (.fault (.unwrittenByte a))

/-- What a fault of the command may leave: pieces of what the command writes (R494). -/
abbrev Admitted (i : Instr) (s : State) : Leftover → Prop :=
  Leftover.Within (csrsWritten i) (storesWritten i) (bytesWritten i s)

/-- An update of s within what the command writes. -/
abbrev Permitted (i : Instr) (s t : State) : Prop :=
  Works (destReg i).toList (csrsWritten i) (storesWritten i) (bytesWritten i s) s t

section Ends

variable {i : Instr} {s t : State}

/-- A command ends as its result does. -/
theorem finish_ends {r : Res State} (h : r.Ends s (Admitted i s) (Permitted i s)) : CommandEnds i s (finish s r) := by
  obtain (⟨f, ps⟩ | f) | t := r
  · obtain ⟨t, ht, hfault⟩ := finish_raise_leaving (s := s) rfl (h.raise f ps rfl)
    exact ht ▸ .faults f hfault
  · obtain ⟨a, rfl, ha⟩ := h.halt f rfl
    exact .stops ha
  · obtain ⟨hpc, heffect⟩ := h.ok t rfl
    obtain ⟨hadvance, heffect⟩ := heffect.advanced hpc
    exact .completes (.inl hadvance) heffect

/-- A command that only updates the state. -/
theorem finish_update (h : Permitted i s t) : CommandEnds i s (finish s (.ok t)) := finish_ends (.answer h)

theorem branch_ends {taken : Bool} {rb rc : Reg} {imm : BitVec 12}
    (hi : i = .beq rb rc imm ∨ i = .bne rb rc imm ∨ i = .bltu rb rc imm) :
    CommandEnds i s (.next (s.branch taken imm)) := by
  have heffect (pc : Word) : Effect (destReg i).toList (csrsWritten i) (storesWritten i) (bytesWritten i s) s
      { s with pc := pc } := { Effect.refl s .. with }
  cases taken with
  | false => exact .completes (.inl rfl) (heffect _)
  | true =>
    have htarget : s.branchTarget imm = u32i (s.pc.toNat + 4 * s32 (imm.signExtend 32)) := by
      rw [s.branchTarget_eq, s32, BitVec.toInt_signExtend_of_le (by decide : 12 ≤ 32)]
    exact .completes (.inr ⟨rb, rc, imm, hi, htarget⟩) (heffect _)

/-- A range the command writes may be left by its fault. -/
theorem admitted_mem {r : Region} (hr : r ∈ bytesWritten i s) : Admitted i s (.mem r.base r.len) :=
  outside_part hr (.inr ⟨le_rfl, le_rfl⟩)

theorem admitted_part {r : Region} {base len : Nat} (hr : r ∈ bytesWritten i s)
    (hin : r.base ≤ base ∧ base + len ≤ r.base + r.len) : Admitted i s (.mem base len) :=
  outside_part hr (.inr hin)

/-- Bytes stored inside a range the command writes. -/
theorem Works.putPart {cs : List Csr} {fs : List Store} {rs : List Reg} {bytes : List Region} {u : State}
    (h : Works rs cs fs bytes s u) {r : Region} {a : Nat} {bs : List Byte} (hr : r ∈ bytes) (hlow : r.base ≤ a)
    (hhigh : a + bs.length ≤ r.base + r.len) : Works rs cs fs bytes s (u.putMem a bs) :=
  h.putMem (outside_part hr (.inr ⟨hlow, hhigh⟩))

/-- A command that commits bits writes the writer's CSRs and its room (R217). -/
theorem commit_permitted (k : Packer) (hcs : writerCsrs ⊆ csrsWritten i := by simp [csrsWritten])
    (hroom : s.writerRoom ∈ bytesWritten i s := by simp [bytesWritten]) :
    (s.commit k).Ends s (Admitted i s) (Permitted i s) :=
  (State.commit_ends s s k).mono fun _ ht => ht.mono (List.nil_subset _) hcs (List.nil_subset _)
    fun _ ha => List.forall_mem_singleton.2 (ha _ hroom)

/-- A command that stores bytes in a range that it writes. -/
theorem storeBytes_permitted {a : Nat} {bs : List Byte} {r : Region} (hr : r ∈ bytesWritten i s) (hlow : r.base ≤ a)
    (hhigh : a + bs.length ≤ r.base + r.len) : (s.storeBytes a bs).Ends s (Admitted i s) (Permitted i s) :=
  (State.storeBytes_ends s s a bs).mono fun _ ht => ht.mono (List.nil_subset _) (List.nil_subset _) (List.nil_subset _)
    (outside_part hr (.inr ⟨hlow, hhigh⟩))

end Ends

/-! ### Engine control and the bit stream -/

section Commands

variable {s : State}

theorem execHalt_ends : CommandEnds .halt s (execHalt s) :=
  .completes (.inl rfl) { s.effect_setCsr .status (statusHalted (s.getCsr .status)) with }

theorem execCsrr_ends (ra : Reg) (csr : BitVec 12) : CommandEnds (.csrr ra csr) s (execCsrr ra csr s) := by
  refine finish_ends ?_
  split
  · exact .answer Works.refl.setX
  · exact fail_ends

theorem execCsrw_ends (rb : Reg) (csr : BitVec 12) : CommandEnds (.csrw rb csr) s (execCsrw rb csr s) := by
  refine finish_ends ?_
  split
  · next c hc =>
    refine Res.ends_ite.2 ⟨fun _ => .answer (Works.refl.setCsr ?_), fun _ => fail_ends⟩
    simp [csrsWritten, hc]
  · exact fail_ends

theorem execLbu_ends (ra rb : Reg) (imm12 : BitVec 12) : CommandEnds (.lbu ra rb imm12) s (execLbu ra rb imm12 s) :=
  finish_ends (Res.Tidy.bind fun _ => .answer Works.refl.setX)

theorem execSb_ends (rb rc : Reg) (imm12 : BitVec 12) : CommandEnds (.sb rb rc imm12) s (execSb rb rc imm12 s) :=
  finish_ends (storeBytes_permitted List.mem_cons_self le_rfl le_rfl)

theorem execBrinit_ends (rb rc : Reg) (order : BitOrder) :
    CommandEnds (.brinit rb rc order) s (execBrinit rb rc order s) :=
  finish_update Works.refl.setCsr.setCsr.setCsr.setCsr

theorem execRdbits_ends (ra : Reg) (n : BitVec 5) : CommandEnds (.rdbits ra n) s (execRdbits ra n s) := by
  have hread : (s.reader.readBits s (s.getCsrNat .brPos) n.toNat).Tidy s (Admitted (.rdbits ra n) s) := by simp
  refine finish_ends (Res.Tidy.bind fun _ => (Res.Ends.leaving hread ?_).bind fun _ _ => .answer Works.refl.setX.setCsr)
  simp [csrsWritten]

theorem execAlign_ends : CommandEnds .align s (execAlign s) := by
  refine finish_ends ((Res.Ends.leaving (require_ends.2 fun _ => trivial) ?_).bind fun _ (_ : True) =>
    .answer Works.refl.setCsr)
  simp [csrsWritten]

theorem execUnstuff_ends (ra rb rc : Reg) : CommandEnds (.unstuff ra rb rc) s (execUnstuff ra rb rc s) := by
  refine finish_ends (Res.Tidy.bind fun _ => ?_)
  refine ((unstuffLoop_ends s _ _ _ _ _ _ (Nat.zero_le _)).leaving ?_).bind fun ⟨out, i⟩ hout => .answer ?_
  · simp [csrsWritten, bytesWritten]
  · exact (Works.refl.putPart List.mem_cons_self le_rfl (Nat.add_le_add_left hout _)).setX.setCsr

theorem execBwinit_ends (rb rc : Reg) (order : BitOrder) (stuff : Bool) :
    CommandEnds (.bwinit rb rc order stuff) s (execBwinit rb rc order stuff s) :=
  finish_update Works.refl.setCsr.setCsr.setCsr.setCsr.setCsr.setCsr

theorem execWrbits_ends (rb : Reg) (n : BitVec 5) : CommandEnds (.wrbits rb n) s (execWrbits rb n s) :=
  finish_ends ((Res.Tidy.bind fun _ => commit_permitted _).leaving (s.writerLeft_within _))

theorem execBwflush_ends (ra : Reg) (pad : Bool) : CommandEnds (.bwflush ra pad) s (execBwflush ra pad s) :=
  finish_ends (((commit_permitted _).leaving (s.writerLeft_within _)).bind fun _ ht => .answer ht.setX)

/-- SBGATHER copies as many bytes as it has checked against its capacity (R225). -/
theorem execSbgather_ends (ra rb rc : Reg) : CommandEnds (.sbgather ra rb rc) s (execSbgather ra rb rc s) := by
  have haux : ∀ p ∈ [Leftover.csr .aux], Admitted (.sbgather ra rb rc) s p := by simp [csrsWritten]
  refine finish_ends (((sbScan_ends s _ _ _ (total := 0) (segs := []) rfl).leaving haux).bind
    fun ⟨segs, total, consumed⟩ htotal => ?_)
  have hcheck : (require (decide (total ≤ s.getXNat rc)) .contractViolation 2).Ends s (Admitted (.sbgather ra rb rc) s)
      fun _ => total ≤ s.getXNat rc := require_ends.2 of_decide_eq_true
  refine Res.Tidy.bind fun _ => (hcheck.leaving haux).bind fun _ hcap => ?_
  refine ((gatherCopy_ends s segs _).leaving ?_).bind fun out hout => .answer ?_
  · refine List.forall_mem_cons.2 ⟨haux _ List.mem_cons_self, List.forall_mem_singleton.2 ?_⟩
    exact admitted_part List.mem_cons_self ⟨le_rfl, Nat.add_le_add_left hcap _⟩
  · have hlen : out.length ≤ s.getXNat rc := (hout.trans htotal).trans_le hcap
    exact (Works.refl.putPart List.mem_cons_self le_rfl (Nat.add_le_add_left hlen _)).setX.setCsr

theorem execSbsplit_ends (ra rb rc : Reg) : CommandEnds (.sbsplit ra rb rc) s (execSbsplit ra rb rc s) := by
  refine finish_ends (Res.Tidy.bind fun _ => ?_)
  refine ((splitLoop_ends s _ _ _ _).leaving ?_).bind fun out hout => .answer ?_
  · simp [bytesWritten]
  · exact (Works.refl.putPart List.mem_cons_self le_rfl (Nat.add_le_add_left hout _)).setX

/-! ### Huffman and LZW -/

theorem execHbuild_ends (ra rb : Reg) (slot : BitVec 5) (pfx : Bool) :
    CommandEnds (.hbuild ra rb slot pfx) s (execHbuild ra rb slot pfx s) := by
  refine finish_ends (Res.Tidy.bind fun ⟨i, a⟩ => Res.Tidy.bind fun ⟨t, nsym⟩ => .answer ?_)
  exact Works.refl.setSlot.setX

theorem execHdec_ends (ra : Reg) (slot : BitVec 5) : CommandEnds (.hdec ra slot) s (execHdec ra slot s) := by
  refine finish_ends (Res.Ends.leaving ?_ (by simp [csrsWritten]))
  exact Res.Tidy.bind fun _ => Res.Tidy.bind fun ⟨v, p⟩ => .answer Works.refl.setX.setCsr

theorem execHctab_ends (rb : Reg) (slot : BitVec 5) : CommandEnds (.hctab rb slot) s (execHctab rb slot s) := by
  have hslot : (s.requireSlot slot).Tidy s (Admitted (.hctab rb slot) s) := by simp
  refine finish_ends ((Res.Ends.leaving hslot (by simp [bytesWritten])).bind fun _ _ => Res.Tidy.bind fun table => ?_)
  have hlen := length_flatMap_codeEntry table
  refine Res.Ends.leaving (storeBytes_permitted List.mem_cons_self le_rfl (Nat.add_le_add_left hlen.le _)) ?_
  exact List.forall_mem_singleton.2 (admitted_part List.mem_cons_self
    ⟨le_rfl, Nat.add_le_add_left (Nat.min_le_left ..) _⟩)

theorem execHenc_ends (rb : Reg) (slot : BitVec 5) : CommandEnds (.henc rb slot) s (execHenc rb slot s) :=
  finish_ends ((Res.Tidy.bind fun _ => Res.Tidy.bind fun _ => commit_permitted _).leaving (s.writerLeft_within _))

theorem execHfroment_ends (ra rb rc : Reg) : CommandEnds (.hfroment ra rb rc) s (execHfroment ra rb rc s) := by
  have hread : (s.readBytes (s.getXNat rb) (4 * s.getXNat rc)).Ends s (Admitted (.hfroment ra rb rc) s)
      fun bs => bs.length = 4 * s.getXNat rc :=
    (s.readBytes_tidy _ _).answers fun _ h => (State.readBytes_eq_ok.1 h).1
  refine finish_ends (Res.Tidy.bind fun _ => Res.Tidy.bind fun _ => hread.bind fun bytes hbytes => ?_)
  refine (bodyOfEntries_ends s _).bind fun body hbody => ?_
  have hlen : body.length = 16 + s.getXNat rc := by
    rw [hbody, length_entriesOf, hbytes, Nat.mul_div_cancel_left _ (by decide)]
  have hstore : (s.storeBytes (s.getXNat ra) body).Ends s (Admitted (.hfroment ra rb rc) s)
      (Permitted (.hfroment ra rb rc) s) :=
    storeBytes_permitted List.mem_cons_self le_rfl (Nat.add_le_add_left hlen.le _)
  exact hstore.bind fun _ ht => .answer ht.setX

theorem execLzwdec_ends (ra rc : Reg) (m : BitVec 4) : CommandEnds (.lzwdec ra rc m) s (execLzwdec ra rc m s) := by
  have hleft : ∀ p ∈ [Leftover.csr .aux, .csr .brPos, .mem (s.getXNat ra) (s.getXNat rc)],
      Admitted (.lzwdec ra rc m) s p := by
    simp [csrsWritten, bytesWritten]
  refine finish_ends ((Res.Ends.leaving (require_ends.2 fun _ => trivial) hleft).bind fun _ (_ : True) => ?_)
  refine Res.Tidy.bind fun _ => ((lzwDecode_ends s _ _).leaving hleft).bind fun r hr => .answer ?_
  exact (Works.refl.putPart List.mem_cons_self le_rfl (Nat.add_le_add_left hr _)).setX.setCsr.setCsr

theorem execLzwenc_ends (rb rc : Reg) (m : BitVec 4) : CommandEnds (.lzwenc rb rc m) s (execLzwenc rb rc m s) := by
  have hleft := s.writerLeft_within (12 * (2 * s.getXNat rc + 3))
  have hcheck (c : Bool) (aux : Nat) : (require c .contractViolation aux).Tidy s (Admitted (.lzwenc rb rc m) s) :=
    require_ends.2 fun _ => trivial
  refine finish_ends ((Res.Ends.leaving (hcheck ..) hleft).bind fun _ _ => ?_)
  refine (Res.Ends.leaving (hcheck ..) hleft).bind fun _ _ => Res.Tidy.bind fun _ => ?_
  exact Res.Tidy.bind (fun _ => (commit_permitted _).leaving hleft) (lzwIndices_tidy hleft _ _ _)

/-! ### Blocks and coefficients -/

theorem execQload_ends (ra rb : Reg) (q : BitVec 4) (pfx : Bool) (tord : TableOrder) :
    CommandEnds (.qload ra rb q pfx tord) s (execQload ra rb q pfx tord s) := by
  refine finish_ends (Res.Tidy.bind fun ⟨t, a⟩ => Res.Tidy.bind (fun table => .answer ?_) ?_)
  · exact Works.refl.setTable.setX
  · exact collectBlock_tidy _ fun _ => s.readByte_tidy _

theorem execSldb_ends (rb rc : Reg) (shift : Bool) : CommandEnds (.sldb rb rc shift) s (execSldb rb rc shift s) := by
  refine finish_ends (Res.Ends.leaving (Res.Tidy.bind (fun _ => .answer ?_) ?_) ?_)
  · exact Works.refl.setSfile
  · exact collectBlock_tidy _ fun _ => Res.Tidy.bind fun _ => .answer trivial
  · exact List.forall_mem_singleton.2 List.mem_cons_self

theorem execSstb_ends (rb rc : Reg) (shift : Bool) : CommandEnds (.sstb rb rc shift) s (execSstb rb rc shift s) := by
  have hstored (cells : List Host.Cell) (h : s.BlockCells rb rc cells) : Admitted (.sstb rb rc shift) s (.stored cells) :=
    h.within
  refine finish_ends ((sstbLoop_ends hstored shift 0 64 (List.forall_mem_nil _) le_rfl).bind fun cells hcells => ?_)
  exact .answer ⟨s.putCells_pc cells, (State.effect_putCells hcells.within).mono (List.nil_subset _) (List.Subset.refl _)
    (List.Subset.refl _) fun _ => id⟩

/-- A command that computes K element by element (`State.computeK`). -/
theorem computeK_ends {i : Instr} {f : Nat → Res Word} (hi : .kfile ∈ storesWritten i)
    (hf : ∀ n, (f n).Tidy s (Admitted i s)) : CommandEnds i s (finish s (s.computeK f)) := by
  refine finish_ends (Res.Ends.leaving ?_ (List.forall_mem_singleton.2 hi))
  exact Res.Tidy.bind (fun _ => .answer (Works.refl.setKfile hi)) (collectBlock_tidy 0 hf)

theorem execKst_ends (rb : Reg) : CommandEnds (.kst rb) s (execKst rb s) := by
  have hlen := Nat.add_le_add_left (length_kBytes s).le (s.getXNat rb)
  refine finish_ends (Res.Ends.leaving (storeBytes_permitted List.mem_cons_self le_rfl hlen) ?_)
  exact List.forall_mem_singleton.2 (admitted_part List.mem_cons_self
    ⟨le_rfl, Nat.add_le_add_left (Nat.min_le_left ..) _⟩)

/-- QUANT and DEQUANT check their table first. -/
theorem computeFromTable_ends {i : Instr} {q : BitVec 4} {f : Nat → Res Word} (hi : .kfile ∈ storesWritten i)
    (hf : ∀ n, (f n).Tidy s (Admitted i s)) : CommandEnds i s (finish s (leaving [.kFile] do
      s.requireTable q
      let block ← collectBlock 0 f
      return { s with kfile := block })) := by
  refine finish_ends (Res.Ends.leaving (Res.Tidy.bind fun _ => ?_) (List.forall_mem_singleton.2 hi))
  exact Res.Tidy.bind (fun _ => .answer (Works.refl.setKfile hi)) (collectBlock_tidy 0 hf)

theorem execZzfwd_ends (file : BlockFile) : CommandEnds (.zzfwd file) s (execZzfwd file s) := by
  cases file with
  | k => exact finish_update Works.refl.setKfile
  | s => exact finish_update Works.refl.setSfile

theorem execZzinv_ends (file : BlockFile) : CommandEnds (.zzinv file) s (execZzinv file s) := by
  cases file with
  | k => exact finish_update Works.refl.setKfile
  | s => exact finish_update Works.refl.setSfile

theorem execDecblk_ends (dc ac : BitVec 4) (p : BitVec 2) : CommandEnds (.decblk dc ac p) s (execDecblk dc ac p s) := by
  refine finish_ends (Res.Ends.leaving (Res.Tidy.bind fun _ => Res.Tidy.bind fun _ => ?_) ?_)
  · exact Res.Tidy.bind fun ⟨block, pred, pos⟩ => .answer Works.refl.setKfile.setCsr.setCsr
  · simp [csrsWritten, storesWritten]

/-- ENCBLK writes its predictor beside what its bits write (R466). -/
theorem execEncblk_ends (dc ac : BitVec 4) (p : BitVec 2) : CommandEnds (.encblk dc ac p) s (execEncblk dc ac p s) := by
  have hleft : ∀ q ∈ s.writerLeft maxBlockBits, Admitted (.encblk dc ac p) s q := fun q hq =>
    s.encblkLeft_within p _ q (List.mem_append_left _ hq)
  have hslots : (do s.requireSlot (dcSlot dc); s.requireSlot (acSlot ac)).Tidy s (Admitted (.encblk dc ac p) s) :=
    .intro (by simp)
  refine finish_ends (Res.Ends.leaving ((Res.Ends.leaving hslots hleft).bind fun _ _ => ?_) (by simp [csrsWritten]))
  refine Res.Tidy.bind (fun codes => ?_) (encodeBlock_tidy hleft _ _ _)
  exact (Res.Ends.leaving (commit_permitted _) hleft).bind fun _ ht => .answer ht.setCsr

/-! ### GIF files read -/

/-- GIFOPEN is a row of CSR writes after its reads (R390). -/
theorem openFile_ends (s : State) (rb rc : Reg) {W : Leftover → Prop} (file : Region) :
    (openFile s file).Ends s W (Permitted (.gifopen rb rc) s) := by
  refine Res.Tidy.bind fun sig => Res.Tidy.bind fun _ => Res.Tidy.bind fun sw => Res.Tidy.bind fun sh => ?_
  refine Res.Tidy.bind fun pk => Res.Tidy.bind fun bg => Res.Tidy.bind fun asp => ?_
  refine Res.ends_ite.2 ⟨fun _ => ?_, fun _ => ?_⟩ <;>
    · refine Res.Tidy.bind fun _ => .answer ?_
      change Works [] (.gOpen :: Csr.gifParser) [] [] s _
      iterate 22 refine Works.setCsr ?_ (by decide)
      exact .refl

/-- A fault of GIFOPEN is taken with no file open, which is within what GIFOPEN writes too (R390). -/
theorem execGifopen_ends (rb rc : Reg) : CommandEnds (.gifopen rb rc) s (execGifopen rb rc s) := by
  have hends := openFile_ends s rb rc (W := fun _ => False) ⟨s.getXNat rb, s.getXNat rc⟩
  rcases hopen : openFile s ⟨s.getXNat rb, s.getXNat rc⟩ with (⟨f, ps⟩ | f) | t
  · obtain rfl := List.eq_nil_iff_forall_not_mem.2 (hends.raise f ps hopen)
    obtain ⟨t, ht, -, hfault⟩ := execGifopen_raise hopen
    exact ht ▸ .faults f hfault
  · obtain ⟨a, rfl, ha⟩ := hends.halt f hopen
    have hstop : execGifopen rb rc s = .fault (.unwrittenByte a) := by
      rw [execGifopen, hopen]
      rfl
    exact hstop ▸ .stops ha
  · have hend := finish_update (hends.ok t hopen)
    exact execGifopen_ok hopen ▸ hend

section Gifnext

variable (s : State) (ra : Reg)

/-- An image paints the framebuffer, and then is a row of CSR writes (R392). -/
theorem decodeImage_ends (o : Nat) :
    (decodeImage s o).Ends s (Admitted (.gifnext ra) s) (Permitted (.gifnext ra) s) := by
  refine (readImageHeader_ends s o).bind fun hd hscreen => Res.Tidy.bind fun _ => ?_
  refine (readIndices_ends s hd).bind fun ⟨o, indices, count⟩ hcount => Res.Tidy.bind fun _ => ?_
  have hpaint : (do let t ← fillFrame s s; paint s hd indices 0 t).Ends s (Admitted (.gifnext ra) s) fun t =>
      Works [] [] [] [s.frameRegion] s t :=
    (fillFrame_ends s s).bind fun t ht =>
      (paint_ends hscreen indices 0 t ((Nat.zero_add _).trans_le hcount)).mono fun _ hu => ht.trans hu
  have hframe : s.frameRegion ∈ bytesWritten (.gifnext ra) s := List.mem_cons_self
  refine (hpaint.leaving (List.forall_mem_singleton.2 (admitted_mem hframe))).bind fun t ht => .answer ?_
  rw [imageDone_eq]
  refine (ht.mono (List.nil_subset _) (List.nil_subset _) (List.nil_subset _) fun a ha => ?_).setCsrs ?_
  · exact List.forall_mem_singleton.2 (ha _ hframe)
  · simp [imageWrites, csrsWritten]

theorem nextControl_ends (o : Nat) :
    (nextControl ra s o).Ends s (Admitted (.gifnext ra) s) (Permitted (.gifnext ra) s) := by
  refine Res.Tidy.bind fun size => Res.Tidy.bind fun _ => Res.Tidy.bind fun term => Res.Tidy.bind fun _ => ?_
  refine Res.Tidy.bind fun pk => Res.Tidy.bind fun _ => Res.Tidy.bind fun delay => Res.Tidy.bind fun trans => ?_
  exact .answer Works.refl.setCsr.setCsr.setCsr.setCsr.setX.setCsr

theorem nextApplication_ends (o : Nat) :
    (nextApplication ra s o).Ends s (Admitted (.gifnext ra) s) (Permitted (.gifnext ra) s) := by
  refine Res.Tidy.bind fun isLoop => Res.ends_ite.2 ⟨fun _ => ?_, fun _ => ?_⟩ <;>
    · refine Res.Tidy.bind fun count => Res.Tidy.bind fun o' => .answer ?_
      cases count with
      | none => exact Works.refl.setCsr.setX.setCsr
      | some n => exact Works.refl.setCsr.setCsr.setX.setCsr

/-- The comment's data fit its buffer (R386). -/
theorem nextComment_ends (o : Nat) :
    (nextComment ra s o).Ends s (Admitted (.gifnext ra) s) (Permitted (.gifnext ra) s) := by
  have hbuffer : s.commentRegion ∈ bytesWritten (.gifnext ra) s := by simp [bytesWritten]
  refine Res.Tidy.bind fun _ => ?_
  refine ((gatherSub_ends s _ _ _ _ 0).leaving (List.forall_mem_singleton.2 (admitted_mem hbuffer))).bind
    fun ⟨o', data⟩ hdata => .answer ?_
  have hput : Permitted (.gifnext ra) s (s.putMem s.commentRegion.base data) :=
    Works.refl.putMem (outside_part hbuffer (hdata.imp_right fun h =>
      ⟨le_rfl, Nat.add_le_add_left ((Nat.zero_add _).symm.trans_le h) _⟩))
  exact hput.setCsr.setCsr.setX.setCsr

theorem nextOther_ends (label : Byte) (o : Nat) :
    (nextOther ra s label o).Ends s (Admitted (.gifnext ra) s) (Permitted (.gifnext ra) s) :=
  Res.Tidy.bind fun _ => .answer Works.refl.setCsr.setX.setCsr

theorem nextBlock_ends : (nextBlock ra s).Ends s (Admitted (.gifnext ra) s) (Permitted (.gifnext ra) s) := by
  refine Res.Tidy.bind fun _ => Res.Tidy.bind fun t => Res.ends_ite.2 ⟨fun _ => ?_, fun _ => ?_⟩
  · exact .answer Works.refl.setX.setCsr
  refine Res.ends_ite.2 ⟨fun _ => (decodeImage_ends s ra _).bind fun _ ht => .answer ht.setX, fun _ => ?_⟩
  refine Res.Tidy.bind fun _ => Res.Tidy.bind fun label => ?_
  refine Res.ends_ite.2 ⟨fun _ => nextControl_ends s ra _, fun _ => ?_⟩
  refine Res.ends_ite.2 ⟨fun _ => nextApplication_ends s ra _, fun _ => ?_⟩
  exact Res.ends_ite.2 ⟨fun _ => nextComment_ends s ra _, fun _ => nextOther_ends s ra label _⟩

/-- Beside what its block does, GIFNEXT draws the scratch region (R58). -/
theorem execGifnext_ends : CommandEnds (.gifnext ra) s (execGifnext ra s) := by
  have hscratch : s.scratchRegion ∈ bytesWritten (.gifnext ra) s := by simp [bytesWritten]
  refine finish_ends (Res.Ends.leaving ?_ (List.forall_mem_singleton.2 (admitted_mem hscratch)))
  refine ((nextBlock_ends s ra).leavingPastOverlap (by simp [csrsWritten])).bind fun t ht => .answer ?_
  exact ⟨ht.pc, ht.effect.trans ((t.effect_drawMem s.scratchRegion).mono (List.nil_subset _) (List.nil_subset _)
    (List.nil_subset _) fun _ ha => List.forall_mem_singleton.2 (ha _ hscratch))⟩

end Gifnext

theorem execGifrewind_ends : CommandEnds .gifrewind s (execGifrewind s) := by
  refine finish_ends (Res.Ends.leaving (Res.Tidy.bind fun _ => .answer ?_) ?_)
  · exact Works.refl.setCsr.setCsr.setCsr.setCsr
  · simp [csrsWritten]

/-! ### GIF files written -/

/-- GIFWOPEN and GIFWEND put bytes and write CSRs of their own (R436, R438). -/
theorem execGifwopen_ends (ra rb rc : Reg) : CommandEnds (.gifwopen ra rb rc) s (execGifwopen ra rb rc s) := by
  refine finish_ends (Res.Ends.leaving (Res.Tidy.bind fun _ => Res.Tidy.bind fun _ => ?_) ?_)
  · exact (commit_permitted (i := .gifwopen ra rb rc) _ (List.subset_append_right _ _)).bind fun _ ht =>
      .answer ht.setCsr.setCsr.setCsr.setCsr
  · exact s.writerLeftBytes_within _ (List.subset_append_right _ _)

theorem execGifwend_ends : CommandEnds .gifwend s (execGifwend s) := by
  refine finish_ends (Res.Ends.leaving (Res.Tidy.bind fun _ => Res.Tidy.bind fun _ => ?_) ?_)
  · exact (commit_permitted (i := .gifwend) _).bind fun _ ht => .answer ht.setCsr
  · exact List.forall_mem_cons.2 ⟨List.mem_cons_self, s.writerLeftBytes_within _ (List.subset_cons_self ..)⟩

/-- GIFWFRAME stores its index frame twice inside their region, and commits its bytes between (R437). -/
theorem writeFrame_ends (rb rc : Reg) (src delay : Nat) :
    (writeFrame s src delay).Ends s (Admitted (.gifwframe rb rc) s) (Permitted (.gifwframe rb rc) s) := by
  have hregion : s.indexRegion ∈ bytesWritten (.gifwframe rb rc) s := by simp [bytesWritten]
  have hroom : s.writerRoom ∈ bytesWritten (.gifwframe rb rc) s := by simp [bytesWritten]
  have hlen : s.indexRegion.len = 2 * (s.getCsrNat .gwW * s.getCsrNat .gwH) := rfl
  have hbase : s.indexRegion.base = s.getCsrNat .gwIdxBase := rfl
  refine (mapFrame_ends s _ _ _).bind fun cur hcur => ?_
  have hput : Permitted (.gifwframe rb rc) s (s.putMem (s.getCsrNat .gwIdxBase) cur) :=
    Works.refl.putPart hregion hbase.le (by omega)
  refine Res.Tidy.bind (fun rect => ?_) (frameRect_tidy ..).of_putMem
  refine Res.Tidy.bind (fun indices => ?_) (State.rectIndices_tidy ..).of_putMem
  refine (State.putWriter_ends s _ _).bind fun t ht => (State.storeBytes_ends s t _ cur).bind fun u hu => .answer ?_
  have hcommit : Permitted (.gifwframe rb rc) s t :=
    hput.trans (ht.mono (List.nil_subset _) (List.subset_cons_self ..) (List.nil_subset _) fun _ ha =>
      List.forall_mem_singleton.2 (ha _ hroom))
  exact (hcommit.trans (hu.mono (List.nil_subset _) (List.nil_subset _) (List.nil_subset _)
    (outside_part hregion (.inr ⟨by omega, by omega⟩)))).setCsr

theorem execGifwframe_ends (rb rc : Reg) : CommandEnds (.gifwframe rb rc) s (execGifwframe rb rc s) := by
  refine finish_ends (Res.Ends.leaving (Res.Ends.leavingPastOverlap ?_ ?_) (frameLeft_within s))
  · exact Res.Tidy.bind fun _ => Res.Tidy.bind fun _ => Res.Tidy.bind fun _ => Res.Tidy.bind fun _ => writeFrame_ends ..
  · simp [writerCsrsLeft, csrsWritten, writerCsrs]

end Commands

/-! ### Every command -/

/-- Every command, on every state, ends within what its rule says it writes, or stops the model at an unwritten byte
(R494, R501). -/
theorem exec_ends (i : Instr) (s : State) : CommandEnds i s (exec i s) := by
  cases i with
  | nop => exact finish_update .refl
  | halt => exact execHalt_ends
  | lui ra imm20 => exact finish_update Works.refl.setX
  | ori ra rb imm12 => exact finish_update Works.refl.setX
  | addi ra rb imm12 => exact finish_update Works.refl.setX
  | add ra rb rc => exact finish_update Works.refl.setX
  | sub ra rb rc => exact finish_update Works.refl.setX
  | beq rb rc imm12 => exact branch_ends (.inl rfl)
  | bne rb rc imm12 => exact branch_ends (.inr (.inl rfl))
  | csrr ra csr => exact execCsrr_ends ra csr
  | csrw rb csr => exact execCsrw_ends rb csr
  | lbu ra rb imm12 => exact execLbu_ends ra rb imm12
  | sb rb rc imm12 => exact execSb_ends rb rc imm12
  | bltu rb rc imm12 => exact branch_ends (.inr (.inr rfl))
  | brinit rb rc order => exact execBrinit_ends rb rc order
  | rdbits ra n => exact execRdbits_ends ra n
  | align => exact execAlign_ends
  | unstuff ra rb rc => exact execUnstuff_ends ra rb rc
  | bwinit rb rc order stuff => exact execBwinit_ends rb rc order stuff
  | wrbits rb n => exact execWrbits_ends rb n
  | bwflush ra pad => exact execBwflush_ends ra pad
  | sbgather ra rb rc => exact execSbgather_ends ra rb rc
  | sbsplit ra rb rc => exact execSbsplit_ends ra rb rc
  | hbuild ra rb slot pfx => exact execHbuild_ends ra rb slot pfx
  | hdec ra slot => exact execHdec_ends ra slot
  | hctab rb slot => exact execHctab_ends rb slot
  | henc rb slot => exact execHenc_ends rb slot
  | hfroment ra rb rc => exact execHfroment_ends ra rb rc
  | lzwdec ra rc m => exact execLzwdec_ends ra rc m
  | lzwenc rb rc m => exact execLzwenc_ends rb rc m
  | qload ra rb q pfx tord => exact execQload_ends ra rb q pfx tord
  | sldb rb rc shift => exact execSldb_ends rb rc shift
  | sstb rb rc shift => exact execSstb_ends rb rc shift
  | kld rb => exact computeK_ends (f := kldElement s rb) List.mem_cons_self fun n => .intro (by simp [kldElement])
  | kst rb => exact execKst_ends rb
  | fdct => exact finish_update Works.refl.setSfile
  | idct => exact finish_update Works.refl.setSfile
  | quant q order => exact computeFromTable_ends List.mem_cons_self (quantElement_tidy s q order)
  | dequant q order => exact computeFromTable_ends List.mem_cons_self fun n => toInt32_tidy s _
  | zzfwd file => exact execZzfwd_ends file
  | zzinv file => exact execZzinv_ends file
  | cvtks => exact finish_update Works.refl.setSfile
  | cvtsk => exact computeK_ends List.mem_cons_self fun n => f64ToInt32_tidy s _
  | decblk dc ac p => exact execDecblk_ends dc ac p
  | encblk dc ac p => exact execEncblk_ends dc ac p
  | prst => exact finish_update Works.refl.setCsr.setCsr.setCsr.setCsr
  | gifopen rb rc => exact execGifopen_ends rb rc
  | gifnext ra => exact execGifnext_ends s ra
  | gifrewind => exact execGifrewind_ends
  | gifwopen ra rb rc => exact execGifwopen_ends ra rb rc
  | gifwframe rb rc => exact execGifwframe_ends rb rc
  | gifwend => exact execGifwend_ends

end Sys2Proof.Machine
end

section
/-! SUPPORT. What holds of every command (O11, O13, O14, O15, O16) and the irq level (O10), from how every command ends. -/

namespace Sys2Proof.Machine

-- A proof that waits for the kernel holds a thread, and the check's memory bounds their number: with this option the
-- proofs below are elaborated one after another. No variable is named in a proof alone, so the statements stay the same.
set_option deprecated.oldSectionVars true

/-! ### Every command -/

section Exec

variable {i : Instr} {s t : State}

/-- A command that ends completes, or takes one fault (R494). -/
theorem exec_next (h : exec i s = .next t) :
    (NextPc i s t ∧ Effect (destReg i).toList (csrsWritten i) (storesWritten i) (bytesWritten i s) s t) ∨
      ∃ f : EngineFault, FaultLeaving f.code f.aux (csrsWritten i) (storesWritten i) (bytesWritten i s) s t := by
  have hends := exec_ends i s
  rw [h] at hends
  cases hends with
  | completes hpc heffect => exact .inl ⟨hpc, heffect⟩
  | faults f hfault => exact .inr ⟨f, hfault⟩

/-- Either way it changes no more than its rule and the rule of faults name (R494). -/
theorem exec_effect (h : exec i s = .next t) :
    Effect (destReg i).toList (csrsWritten i ++ faultCsrs) (storesWritten i) (bytesWritten i s) s t := by
  obtain ⟨-, heffect⟩ | ⟨f, -, heffect⟩ := exec_next h
  · exact heffect.mono (List.Subset.refl _) (List.subset_append_left ..) (List.Subset.refl _) fun _ => id
  · exact heffect.mono (List.nil_subset _) (List.Subset.refl _) (List.Subset.refl _) fun _ => id

/-- Settles O13: a CSR changes by what the command's rule writes, by what its fault leaves of that, or by the fault's own
writes. -/
theorem csrFrame : Obligations.CsrFrame := fun _ _ _ c h hc hfault =>
  (exec_effect h).csr c (mt List.mem_append.1 (not_or.2 ⟨hc, hfault⟩))

/-- Settles O14: every store of a command, and every byte its fault leaves, lies in one of its ranges. -/
theorem memoryFrame : Obligations.MemoryFrame := fun _ _ _ a h ha => (exec_effect h).mem a ha

/-- Settles O15: the files and stores are part of what a command's effect names; params and host are kept by every one. -/
theorem storeFrame : Obligations.StoreFrame := by
  intro i s t h
  obtain ⟨-, -, -, hsfile, hkfile, hslots, htables, hparams, hhost⟩ := exec_effect h
  exact ⟨hsfile, hkfile, hslots, htables, hparams, hhost⟩

/-- Settles O16: no command is refused, and one that stops the model has read an unwritten byte inside MEM. -/
theorem everyCommandEnds : Obligations.EveryCommandEnds := by
  intro i s
  have hends := exec_ends i s
  generalize exec i s = o at hends ⊢
  cases hends with
  | @completes t _ _ => exact .inl ⟨t, rfl⟩
  | @faults t _ _ => exact .inl ⟨t, rfl⟩
  | @stops a ha => exact .inr ⟨a, rfl, ha⟩

/-! ### STATUS, ERRPC, ERRAUX and IE -/

/-- Beside HALT and CSRW no command names IE or a CSR of a fault. -/
theorem csrsWritten_system (hhalt : i ≠ .halt) (hcsrw : ∀ rb n, i ≠ .csrw rb n) :
    ∀ c ∈ Csr.ie :: faultCsrs, c ∉ csrsWritten i := by
  cases i
  case halt => exact absurd rfl hhalt
  case csrw rb n => exact absurd rfl (hcsrw rb n)
  case decblk dc ac p => clear hhalt hcsrw; simp only [csrsWritten]; revert p; decide
  case encblk dc ac p => clear hhalt hcsrw; simp only [csrsWritten]; revert p; decide
  all_goals simp [csrsWritten, faultCsrs, writerCsrs, Csr.gifParser]

/-- CSRW stores in an RW CSR, or takes a fault that leaves everything (R183). -/
theorem exec_csrw_next {rb : Reg} {n : BitVec 12} (h : exec (.csrw rb n) s = .next t) :
    (∃ c : Csr, c.access = .rw ∧ t = (s.setCsr c (s.getX rb)).advance) ∨ ∃ code aux, CleanFault code aux s t := by
  change execCsrw rb n s = .next t at h
  by_cases hrw : ∃ c : Csr, c.number = n ∧ c.access = .rw
  · obtain ⟨c, hc, hrw⟩ := hrw
    rw [execCsrw_of_rw hc hrw] at h
    cases h
    exact .inl ⟨c, hrw, rfl⟩
  · rw [execCsrw_of_not_rw fun c hc hrw' => hrw ⟨c, hc, hrw'⟩] at h
    obtain ⟨u, hu, hclean⟩ := finish_raise (s := s) (fail_word .illegalCommand (encode (.csrw rb n)))
    cases h.symm.trans hu
    exact .inr ⟨_, _, hclean⟩

/-- No CSR of a fault is RW (R35). -/
theorem Csr.not_mem_faultCsrs_of_rw {c : Csr} (hc : c.access = .rw) : c ∉ faultCsrs := by
  simp only [faultCsrs, List.mem_cons, List.not_mem_nil, or_false]
  rintro (rfl | rfl | rfl) <;> cases hc

/-- Settles O11: a command other than HALT and CSRW does not name the CSRs of a fault, and CSRW stores in RW ones only. -/
theorem commandsCompleteOrFault : Obligations.CommandsCompleteOrFault := by
  intro i s t h
  by_cases hhalt : i = .halt
  · subst hhalt
    obtain ⟨t, ht, ⟨hpc, heffect⟩, -⟩ := execHalt_next s
    cases h.symm.trans ht
    exact .inl ⟨heffect.csr .errpc (by decide), heffect.csr .erraux (by decide), fun hne => absurd rfl hne, .inl hpc⟩
  by_cases hcsrw : ∃ rb n, i = .csrw rb n
  · obtain ⟨rb, n, rfl⟩ := hcsrw
    obtain ⟨c, hrw, rfl⟩ | ⟨code, aux, htaken, -⟩ := exec_csrw_next h
    · have hkept (d : Csr) (hd : d ∈ faultCsrs) : (s.setCsr c (s.getX rb)).getCsr d = s.getCsr d :=
        s.getCsr_setCsr_of_ne _ fun e => Csr.not_mem_faultCsrs_of_rw hrw (e ▸ hd)
      exact .inl ⟨hkept .errpc (by decide), hkept .erraux (by decide), fun _ => hkept .status (by decide), .inl rfl⟩
    · exact .inr ⟨code, aux, htaken⟩
  · obtain ⟨hpc, heffect⟩ | ⟨f, htaken, -⟩ := exec_next h
    · have hsystem := csrsWritten_system hhalt fun rb n e => hcsrw ⟨rb, n, e⟩
      have hkept (c : Csr) (hc : c ∈ Csr.ie :: faultCsrs) : t.getCsr c = s.getCsr c := heffect.csr c (hsystem c hc)
      exact .inl ⟨hkept .errpc (by decide), hkept .erraux (by decide), fun _ => hkept .status (by decide), hpc⟩
    · exact .inr ⟨f.code, f.aux, htaken⟩

/-- A command that takes a fault keeps IE: a CSRW that stores moves PC on, so it is no fault (R494). -/
theorem exec_fault_keepsIe {code : FaultCode} {aux : Word} (h : exec i s = .next t) (hfault : FaultTaken code aux s t) :
    t.getCsr .ie = s.getCsr .ie := by
  by_cases hhalt : i = .halt
  · subst hhalt
    exact (exec_effect h).csr .ie (by decide)
  by_cases hcsrw : ∃ rb n, i = .csrw rb n
  · obtain ⟨rb, n, rfl⟩ := hcsrw
    obtain ⟨c, -, rfl⟩ | ⟨code, aux, -, heffect⟩ := exec_csrw_next h
    · have hpc := hfault.pc
      rw [State.advance_pc, State.setCsr_pc] at hpc
      bv_omega
    · exact heffect.csr .ie (by decide)
  · have hsystem := csrsWritten_system hhalt (fun rb n e => hcsrw ⟨rb, n, e⟩) .ie List.mem_cons_self
    exact (exec_effect h).csr .ie (mt List.mem_append.1 (not_or.2 ⟨hsystem, by decide⟩))

end Exec

/-! ### The irq level -/

section Irq

variable {s t : State}

/-- The irq level is a level of IE[0], DONE and FAULT (R500). -/
theorem State.irq_eq (s : State) : s.irq = ((s.getCsr .ie).getLsbD 0 &&
    ((s.getCsr .status).getLsbD 1 || (s.getCsr .status).getLsbD 2)) := rfl

/-- Where STATUS has DONE or FAULT, irq has the level of IE[0] (R500). -/
theorem State.irq_of_ended (hie : t.getCsr .ie = s.getCsr .ie)
    (hended : (t.getCsr .status).getLsbD 1 = true ∨ (t.getCsr .status).getLsbD 2 = true) :
    t.irq = (s.getCsr .ie).getLsbD 0 := by
  rw [State.irq_eq, hie, Bool.or_eq_true_iff.2 hended, Bool.and_true]

/-- Where STATUS has neither, irq is low (R500). -/
theorem State.irq_of_cleared (hdone : (t.getCsr .status).getLsbD 1 = false)
    (hfault : (t.getCsr .status).getLsbD 2 = false) : t.irq = false := by
  rw [State.irq_eq, hdone, hfault]
  exact Bool.and_false _

/-- STATUS after a fault has FAULT set (R494). -/
theorem getLsbD_faulted (code : FaultCode) : (u32 (256 * code.number + 4)).getLsbD 2 = true := by
  cases code <;> rfl

/-- What the fields of STATUS read when it is put together from them (R40). -/
theorem status_fields : ∀ (code : BitVec 4) (fault done busy : Bool),
    let st : Word := BitVec.setWidth 32 (code ++ 0#5 ++ BitVec.ofBool fault ++ BitVec.ofBool done ++ BitVec.ofBool busy) &&&
      Csr.mask .status
    st.getLsbD 0 = busy ∧ st.getLsbD 1 = done ∧ st.getLsbD 2 = fault ∧ st.extractLsb' 8 4 = code := by
  decide

/-- A host write to STATUS, field by field: BUSY is kept, DONE and FAULT are kept where 1 is written, and ERRCODE where
FAULT stays and not all of its bits are written 0 (R40, log entry 17). -/
theorem statusHostWrite_fields (st v : Word) :
    let w := statusHostWrite st v &&& Csr.mask .status
    w.getLsbD 0 = st.getLsbD 0 ∧ w.getLsbD 1 = (st.getLsbD 1 && v.getLsbD 1) ∧
      w.getLsbD 2 = (st.getLsbD 2 && v.getLsbD 2) ∧
      w.extractLsb' 8 4 = if w.getLsbD 2 = false ∨ v.extractLsb' 8 4 = 0 then 0 else st.extractLsb' 8 4 := by
  obtain ⟨hbusy, hdone, hfault, hcode⟩ := status_fields
    (if statusFault st && statusFault v && statusErrcode v != 0 then statusErrcode st else 0)
    (statusFault st && statusFault v) (statusDone st && statusDone v) (statusBusy st)
  refine ⟨hbusy, hdone, hfault, hcode.trans ?_⟩
  rw [show (statusHostWrite st v &&& Csr.mask .status).getLsbD 2 = (statusFault st && statusFault v) from hfault]
  change _ = if _ ∨ statusErrcode v = 0 then 0 else statusErrcode st
  by_cases hf : (statusFault st && statusFault v) = true
  · by_cases he : statusErrcode v = 0 <;> simp [hf, he]
  · simp [hf]

/-- Settles O10: HALT sets DONE and a fault FAULT with IE kept; the host's clear and START leave neither. -/
theorem Laws.irqLevel : Obligations.IrqLevel := by
  refine ⟨fun s => ?_, fun s t h => ?_, fun i s t code aux h hfault => ?_, fun s t h => ?_, fun s t h => ?_,
    fun s t v hv h => ?_⟩
  · rw [State.irq_eq, Bool.and_eq_true, Bool.or_eq_true]
  · obtain ⟨u, hu, ⟨-, heffect⟩, hbit⟩ := execHalt_next s
    cases h.symm.trans hu
    exact State.irq_of_ended (heffect.csr .ie (by decide)) (.inl (hbit 1))
  · exact State.irq_of_ended (exec_fault_keepsIe h hfault) (.inr (hfault.status ▸ getLsbD_faulted code))
  · cases h
    obtain ⟨-, hdone, hfault, -⟩ := statusHostWrite_fields (s.getCsr .status) 0
    refine State.irq_of_cleared ?_ ?_
    · rw [State.getCsr_setCsr_self, hdone]
      exact Bool.and_false _
    · rw [State.getCsr_setCsr_self, hfault]
      exact Bool.and_false _
  · cases h
    exact State.irq_of_cleared (by rw [State.started, State.getCsr_setCsr_self]; rfl)
      (by rw [State.started, State.getCsr_setCsr_self]; rfl)
  · cases h
    rw [State.irq_eq, State.getCsr_setCsr_self, BitVec.getLsbD_and, hv]
    rfl

end Irq

end Sys2Proof.Machine
end

section
/-! SUPPORT. The host's moves and reads (O9), and the faults of a fetch (O8). -/

namespace Sys2Proof.Machine

-- A proof that waits for the kernel holds a thread, and the check's memory bounds their number: with this option the
-- proofs below are elaborated one after another. No variable is named in a proof alone, so the statements stay the same.
set_option deprecated.oldSectionVars true

open Sys2Proof.Laws.Encoding (leBytes_word bytes_joined)

/-! ### The host -/

section HostTurn

variable {s t : State} {m : HostMove} {rest : List (Nat × HostMove)}

/-- The moves of any time are reset and observing (R510). -/
theorem HostMove.anyTime_iff : m.anyTime = true ↔ m = .reset ∨ m = .observe := by
  cases m <;> simp [HostMove.anyTime]

/-- A due move that is allowed is made in this turn (R510). -/
theorem hostTurn_due (hhost : s.host = (0, m) :: rest) (hallowed : m.allowed s = true) :
    hostTurn s = (some m, { s with host := rest }) := by
  simp only [hostTurn, hhost, hallowed, if_true]

/-- Whatever move is made in a turn is allowed in it (R115, R510). -/
theorem hostTurn_allowed (h : hostTurn s = (some m, t)) : m.allowed s = true := by
  unfold hostTurn at h
  split at h
  · cases h
  · split at h <;> cases h
    assumption
  · cases h

/-- A reset clears every CSR (R530). -/
theorem State.getCsr_resetBy (s : State) (c : Csr) : s.resetBy.getCsr c = 0 := by
  cases c <;> rfl

/-- A reset gives every field that R530 names its value at power-up. -/
theorem State.resetBy_isReset (s : State) : s.resetBy.IsReset where
  pc := rfl
  x0 := rfl
  csrs := s.getCsr_resetBy
  sfile i := by simp [State.resetBy, State.reset, Vector.get_eq_getElem]
  kfile i := by simp [State.resetBy, State.reset, Vector.get_eq_getElem]
  idle := by rw [State.busy, s.getCsr_resetBy]; rfl
  irq := by rw [State.irq_eq, s.getCsr_resetBy, s.getCsr_resetBy]; rfl
  slots _ := BitVec.getLsbD_zero
  tables _ := BitVec.getLsbD_zero

/-- A write of 0 to the STATUS of an idle machine clears all of it (R40). -/
theorem statusHostWrite_zero {st : Word} (hbusy : statusBusy st = false) : statusHostWrite st 0 = 0 := by
  simp only [statusHostWrite, hbusy, show statusFault 0 = false from rfl, show statusDone 0 = false from rfl,
    Bool.and_false, Bool.false_and, Bool.false_eq_true, if_false]
  rfl

end HostTurn

/-- Settles O9: a turn makes an allowed move only, each move is one update of the state, and a read is refused exactly while
BUSY = 1. -/
theorem hostMoves : Obligations.HostMoves := by
  refine ⟨fun s t m hbusy h => ?_, fun s m rest hfree hhost => ?_, fun u => ⟨fun a v ha => ?_, fun r v => ?_,
    fun v => ?_, fun c v hrw => ?_, fun v => ?_, ?_, ?_, rfl, fun hidle => ?_, fun hbusy => ?_, ?_, rfl⟩⟩
  · have hallowed := hostTurn_allowed h
    rw [HostMove.allowed, hbusy] at hallowed
    exact HostMove.anyTime_iff.1 hallowed
  · have hallowed : m.allowed s = true := by
      rw [HostMove.allowed, Bool.or_eq_true, HostMove.anyTime_iff]
      exact hfree.imp_left fun h => by rw [h]; rfl
    rw [step, cycle, hostTurn_due hhost hallowed]
  · refine ⟨_, if_pos ha, ?_, rfl, u.effect_putMem a [v]⟩
    exact Memory.read?_write_inside u.mem a [v] 0 Nat.one_pos
  · exact ⟨_, rfl, u.regIs_setX r v, u.setX_pc r v, u.effect_setX r v⟩
  · exact ⟨_, rfl, rfl, { Effect.refl u .. with }⟩
  · exact ⟨_, if_pos hrw, u.getCsr_setCsr_self c v, rfl, u.effect_setCsr c v⟩
  · obtain ⟨hbusy, hdone, hfault, hcode⟩ := statusHostWrite_fields (u.getCsr .status) v
    rw [← u.getCsr_setCsr_self .status] at hbusy hdone hfault hcode
    refine ⟨_, rfl, hbusy, hdone, hfault, hcode, fun hidle hv => ?_, rfl, u.effect_setCsr .status _⟩
    rw [hv, statusHostWrite_zero hidle, State.getCsr_setCsr_self]
    exact BitVec.zero_and
  · exact ⟨_, rfl, u.getCsr_setCsr_self .status _, rfl, u.effect_setCsr .status _⟩
  · exact ⟨_, rfl, u.resetBy_isReset, rfl, rfl, rfl⟩
  · refine ⟨fun a => ?_, fun r => ?_, ?_, fun c => ?_⟩
    · rw [State.hostReadMem, hidle]; rfl
    · rw [State.hostReadX, hidle]; rfl
    · rw [State.hostReadPc, hidle]; rfl
    · rw [State.hostReadCsr, hidle]; rfl
  · refine ⟨fun a => ?_, fun r => ?_, ?_, fun c hc => ?_⟩
    · rw [State.hostReadMem, hbusy]; rfl
    · rw [State.hostReadX, hbusy]; rfl
    · rw [State.hostReadPc, hbusy]; rfl
    · rw [State.hostReadCsr, hbusy, bne_iff_ne.2 hc]; rfl
  · rw [State.hostReadCsr, bne_self_eq_false, Bool.and_false]; rfl

/-! ### The fetch -/

section Fetch

variable {s : State}

/-- A fetch that leaves MEM fails at its first byte outside it (R492). -/
theorem fetchInstr_outside (h : s.memSize < s.pc.toNat + 4) :
    fetchInstr s = .error (.raise ⟨.ioError, u32 (max s.pc.toNat s.memSize)⟩ []) := by
  rw [fetchInstr, State.checkRange_eq_error.2 ⟨⟨by decide, h⟩, rfl⟩, Res.error_bind]

/-- A word that no command has is refused with the word (R142, R492). -/
theorem fetchInstr_illegal {w : Word} {r : Reject} (hw : s.holds s.pc.toNat (leBytes 4 w.toNat) = true)
    (hr : decodeWord w = .error r) : fetchInstr s = .error (.raise ⟨.illegalCommand, w⟩ []) := by
  have hlen := length_leBytes 4 w.toNat
  have hbound := State.holds_bound hw (List.ne_nil_of_length_pos (by omega))
  have hrange : s.checkRange s.pc.toNat 4 = .ok () := State.checkRange_eq_ok.2 (.inr (hlen ▸ hbound))
  have hdecode : decodeBytes (leBytes 4 w.toNat) = .error r := by
    simp only [leBytes_word, decodeBytes, bytes_joined, hr]
  rw [fetchInstr, hrange, Res.ok_bind, State.readBytes_eq_ok.2 ⟨hlen, hw⟩, Res.ok_bind, hdecode, leValue_leBytes_word]
  exact fail_word ..

/-- A running engine whose fetch fails takes that fault, which leaves everything else (R492). -/
theorem step_fetchFault {s' : State} {code : FaultCode} {aux : Word} (h : hostTurn s = (none, s')) (hbusy : s'.busy = true)
    (hfetch : fetchInstr s' = .error (.raise ⟨code, aux⟩ [])) : ∃ t, step s = .next t ∧ CleanFault code aux s' t := by
  rw [step_of_hostTurn_none h, engineStep, if_pos hbusy, hfetch]
  exact finish_raise rfl

end Fetch

/-- Settles O8: each of the two faults of a fetch is the step's, and leaves nothing. -/
theorem fetchFaults : Obligations.FetchFaults := fun _ _ h hbusy =>
  ⟨fun hout => step_fetchFault h hbusy (fetchInstr_outside hout),
    fun _ _ hw hr => step_fetchFault h hbusy (fetchInstr_illegal hw hr)⟩

end Sys2Proof.Machine
end

section
/-! SUPPORT. The state right after reset: its values (O4) and the invariant (O5). -/

namespace Sys2Proof.Machine

-- Elaborated one after another, so that no proof holds a thread of its own while it waits for the kernel.
set_option deprecated.oldSectionVars true

/-- A reset changes nothing in a machine that is right after reset (R530). -/
theorem State.resetBy_reset : State.reset.resetBy = State.reset := rfl

theorem State.reset_isReset : State.reset.IsReset := State.resetBy_reset ▸ State.reset.resetBy_isReset

/-- A due reset is made in this step, whether the engine runs or not (R115, R510). -/
theorem step_reset {s : State} {rest : List (Nat × HostMove)} (h : s.host = (0, .reset) :: rest) :
    step s = .next ({ s with host := rest } : State).resetBy := by
  have hallowed : HostMove.reset.allowed s = true := Bool.or_true _
  rw [step, cycle, hostTurn_due h hallowed]
  rfl

/-- The slot that stands for unspecified contents after reset is a legal, empty code (R50). -/
theorem HuffSlot.empty_wf : HuffSlot.empty.wf = true := by decide

/-- Settles O4: a due reset is made whatever the engine does, and it gives each field its value at power-up. -/
theorem resetState : Obligations.ResetState :=
  ⟨State.reset_isReset, fun _ => rfl, fun _ _ h => ⟨_, step_reset h, State.resetBy_isReset _, rfl, rfl, rfl⟩⟩

/-- Settles O5: the registers, CSRs and S are 0 (R530), MEM lists nothing, and the parameters and the slots are legal by
their own values. -/
theorem resetMeetsInvariant : Obligations.ResetMeetsInvariant where
  params := by decide
  memWf := State.reset_mem_wf
  memBelow := rfl
  pcAligned := by rw [State.reset_isReset.pc]; rfl
  x0 := rfl
  csrNamed c := by rw [State.reset_isReset.csrs]; exact BitVec.zero_and
  status := by rw [State.reset_isReset.csrs]; rfl
  sFinite i := by rw [State.reset_isReset.sfile]; rfl
  slotsWf i := by
    have hslot : State.reset.slots.get i = HuffSlot.empty := by simp [State.reset, Vector.get_eq_getElem]
    rw [hslot, HuffSlot.empty_wf]

end Sys2Proof.Machine
end
